-- ==== Sys2Proof/Word.lean ====
section
/-! DEFINITION. The words of the two lines (11 section 11.1: words of 16 data bits). -/

namespace Sys2Proof

/-- A word of 16 data bits, as both lines carry it. -/
abbrev Word := BitVec 16

/-- Eight bits: a request tag, a voice sample, a code field of a report. -/
abbrev Byte := BitVec 8

end Sys2Proof
end

