-- ==== Sys2Proof/Config.lean ====
section
/-! DEFINITION. The installation's figures (the site record of R160) and the one open value. -/

namespace Sys2Proof

/-- The 13 fields of the site record, in the order of R160's table.
Times are in the unit of the table: milliseconds, or seconds for `stopLimit`, `silenceLimit` and `ringLimit`. -/
structure SiteRecord where
  towerCount : Nat
  pollPeriod : Nat
  crowdHigh : Nat
  crowdLow : Nat
  gripMin : Nat
  gripMax : Nat
  closureActLimit : Nat
  tagHoldLimit : Nat
  stopLimit : Nat
  silenceLimit : Nat
  summitMissLimit : Nat
  ringLimit : Nat
  reverseLimit : Nat
  deriving DecidableEq, Repr, Inhabited

/-- What a block reads from the site record while it is unwritten: a free value (log 21).
R161: every block outside SETUP reads a defined record, so no run from reset reads this. -/
opaque Config.unwrittenSite : SiteRecord

end Sys2Proof
end

