-- ==== Sys2Proof/Syntax.lean ====
section
/-! DEFINITION. The commands: one constructor for each row of spec/opcode_table.json. -/

namespace Sys2Proof

/-- A frame as it arrives on the station line (R140, 11 section 11.2), less the low byte of its kind word,
which the command's row gives. `tag` is bits 15 to 8 of the kind word. A frame that was cut short carries
fewer payload words than `length` states (log 29). -/
structure RxFrame where
  header : Word
  source : Word
  tag : Byte
  length : Word
  payload : List Word
  check : Word
  deriving DecidableEq, Repr

/-- What one poll slot held when it closed (R148): nothing, or one word with its mark flag, perhaps damaged. -/
inductive SlotHeard where
  | quiet
  | heard (marked damaged : Bool) (word : Word)
  deriving DecidableEq, Repr

/-- What begins a full reset (R173). A low pulse on RESETN carries its length in nanoseconds. -/
inductive ResetSource where
  | powerUp
  | supplyLow
  | resetLow (ns : Nat)
  deriving DecidableEq, Repr

/-- The levels the inputs show as they are sampled at the end of a reset (R174). -/
structure InputLevels where
  dmov : Bool
  divc0 : Bool
  divc1 : Bool
  hook : Bool
  zin : Vector Bool 16
  cea : Bool
  ceb : Bool
  deriving DecidableEq, Repr

/-- The commands of the 640. Frames carry their words; edges, expiries and sent notices carry what names them. -/
inductive Instr where
  -- management requests (R157)
  | statusRead (f : RxFrame)
  | siteWrite (f : RxFrame)
  | siteRead (f : RxFrame)
  | tableWritePath (f : RxFrame)
  | tableWriteZoneMask (f : RxFrame)
  | tableWriteNodes (f : RxFrame)
  | tableWriteTowers (f : RxFrame)
  | tableWriteCauses (f : RxFrame)
  | tableWriteDirectory (f : RxFrame)
  | tableReadPath (f : RxFrame)
  | tableReadZoneMask (f : RxFrame)
  | tableReadNodes (f : RxFrame)
  | tableReadTowers (f : RxFrame)
  | tableReadCauses (f : RxFrame)
  | tableReadDirectory (f : RxFrame)
  | recordRead (f : RxFrame)
  | recordWrite (f : RxFrame)
  | recordRemove (f : RxFrame)
  | causesRead (f : RxFrame)
  | causeAck (f : RxFrame)
  | causeAckAll (f : RxFrame)
  | lineReady (f : RxFrame)
  | lineSetup (f : RxFrame)
  | lineStart (f : RxFrame)
  | lineHalt (f : RxFrame)
  | linePark (f : RxFrame)
  | lineWake (f : RxFrame)
  | nodeClear (f : RxFrame)
  | partReset (f : RxFrame)
  -- pins
  | forwardStep
  | reverseStep
  | encoderSkip
  | zoneEdge (input : Nat)
  | dmovRise
  | dmovFall
  | divcChange (divc0 divc1 : Bool)
  | offHook
  | onHook
  | vsiSample (sample : Byte)
  | vsoSampleTime
  -- resets
  | fullReset (source : ResetSource)
  | fullResetEnd (levels : InputLevels)
  | commandResetEnd (levels : InputLevels)
  -- timers
  | stopTimerExpiry
  | consoleSilenceExpiry
  | tagTimerExpiry (entry : BitVec 16)
  | pendingSlotExpiry
  | actTimerExpiry (address : Nat)
  | ringTimerExpiry
  | pollTimerExpiry
  | intervalExpiry
  | returnDeadlineExpiry
  -- the tower line
  | sweepReturn (words : List Word)
  | automaticCallClaim
  -- node frames
  | setAccept (f : RxFrame)
  | setRefuse (f : RxFrame)
  | goAccept (f : RxFrame)
  | goRefuse (f : RxFrame)
  | detailAnswer (f : RxFrame)
  | cancelAccept (f : RxFrame)
  | clearAccept (f : RxFrame)
  | expectAccept (f : RxFrame)
  | closureDone (f : RxFrame)
  | gripResult (f : RxFrame)
  | tagRead (f : RxFrame)
  | decline (f : RxFrame)
  | unsolicitedFrame (kind : Byte) (f : RxFrame)
  -- the station line's own progress
  | arbiterChoice
  | responseSent
  | broadcastClearSent
  | reportFrameSent
  | answerWindowClose
  | turnWindowClose
  | pollSlotClose (answer : SlotHeard)
  | answerWindowOpens
  deriving DecidableEq, Repr

end Sys2Proof
end

