-- ==== Sys2Proof/WellFormed.lean ====
section
/-! DEFINITION. Which commands stand for an event their row describes. -/

namespace Sys2Proof

/-- A receiver takes no more payload words than the length states, and none where it states more than 60 (R140). -/
def RxFrame.fits (f : RxFrame) : Bool :=
  decide (f.payload.length ≤ f.length.toNat) && (decide (f.length.toNat ≤ 60) || f.payload.isEmpty)

/-- A TABLE_READ or TABLE_WRITE frame of the row for table `code` names that table, or none of the six (R157, 11.2). -/
def RxFrame.namesTable (f : RxFrame) (code : Nat) : Bool :=
  match f.payload with
  | [] => true
  | w :: _ => w.toNat == code || w.toNat == 0 || decide (6 < w.toNat)

/-- Bit 15 of the first word of CAUSE_ACK says that all entries are named (11.2). -/
def RxFrame.namesAll (f : RxFrame) : Bool :=
  match f.payload with
  | [] => false
  | w :: _ => w.getLsbD 15

/-- The check on commands. -/
def Instr.wellFormed (i : Instr) : Bool :=
  match i with
  | .statusRead f => f.fits
  | .siteWrite f => f.fits
  | .siteRead f => f.fits
  | .tableWritePath f => f.fits && f.namesTable 1
  | .tableWriteZoneMask f => f.fits && f.namesTable 2
  | .tableWriteNodes f => f.fits && f.namesTable 3
  | .tableWriteTowers f => f.fits && f.namesTable 4
  | .tableWriteCauses f => f.fits && f.namesTable 5
  | .tableWriteDirectory f => f.fits && f.namesTable 6
  | .tableReadPath f => f.fits && f.namesTable 1
  | .tableReadZoneMask f => f.fits && f.namesTable 2
  | .tableReadNodes f => f.fits && f.namesTable 3
  | .tableReadTowers f => f.fits && f.namesTable 4
  | .tableReadCauses f => f.fits && f.namesTable 5
  | .tableReadDirectory f => f.fits && f.namesTable 6
  | .recordRead f => f.fits
  | .recordWrite f => f.fits
  | .recordRemove f => f.fits
  | .causesRead f => f.fits
  | .causeAck f => f.fits && !f.namesAll
  | .causeAckAll f => f.fits && f.namesAll
  | .lineReady f => f.fits
  | .lineSetup f => f.fits
  | .lineStart f => f.fits
  | .lineHalt f => f.fits
  | .linePark f => f.fits
  | .lineWake f => f.fits
  | .nodeClear f => f.fits
  | .partReset f => f.fits
  | .forwardStep => true
  | .reverseStep => true
  | .encoderSkip => true
  | .zoneEdge input => decide (input < 16)
  | .dmovRise => true
  | .dmovFall => true
  | .divcChange _ _ => true
  | .offHook => true
  | .onHook => true
  | .vsiSample _ => true
  | .vsoSampleTime => true
  | .fullReset _ => true
  | .fullResetEnd _ => true
  | .commandResetEnd _ => true
  | .stopTimerExpiry => true
  | .consoleSilenceExpiry => true
  | .tagTimerExpiry _ => true
  | .pendingSlotExpiry => true
  | .actTimerExpiry address => decide (1 ≤ address) && decide (address ≤ 29)
  | .ringTimerExpiry => true
  | .pollTimerExpiry => true
  | .intervalExpiry => true
  | .returnDeadlineExpiry => true
  | .sweepReturn _ => true
  | .automaticCallClaim => true
  | .setAccept f => f.fits
  | .setRefuse f => f.fits
  | .goAccept f => f.fits
  | .goRefuse f => f.fits
  | .detailAnswer f => f.fits
  | .cancelAccept f => f.fits
  | .clearAccept f => f.fits
  | .expectAccept f => f.fits
  | .closureDone f => f.fits
  | .gripResult f => f.fits
  | .tagRead f => f.fits
  | .decline f => f.fits
  | .unsolicitedFrame _ f => f.fits
  | .arbiterChoice => true
  | .responseSent => true
  | .broadcastClearSent => true
  | .reportFrameSent => true
  | .answerWindowClose => true
  | .turnWindowClose => true
  | .pollSlotClose _ => true
  | .answerWindowOpens => true

end Sys2Proof
end

