-- ==== Sys2Proof/Decode.lean ====
section
/-! DEFINITION. The command a word of spec/opcode_table.json's bits spells: the table gives no row any bits. -/

namespace Sys2Proof

/-- The table gives no row fixed bits or fields (98: n_rows_with_fixed 0, n_rows_with_fields 0),
so no word spells a command (log 34). -/
def decodeTableWord (_nbits _w : Nat) : Option Instr := none

end Sys2Proof
end

