-- ==== Sys2Proof/Machine/State.lean ====
section
/-! DEFINITION. The state of the 640, block by block, as plain data, and its value right after reset. -/

namespace Sys2Proof.Machine

/-! ### PERM: line state, causes, drive lines (chapter 1) -/

/-- The five line states (R1). -/
inductive LineState where
  | setup | held | running | stopping | quiet
  deriving DecidableEq, Repr

/-- What a cause asks of the drive, in rising severity (R13, R20). -/
inductive Response where
  | info | slow | stop | emergency
  deriving DecidableEq, Repr

inductive LatchMode where
  | self | latch
  deriving DecidableEq, Repr

/-- The state of a cause entry (R13). -/
inductive CauseState where
  | active | activeAcked | latched
  deriving DecidableEq, Repr

/-- The 26 kinds of the cause table, in its order (R20). -/
inductive CauseKind where
  | ropeWarn | ropeLimit | ropeOff | towerSilent | summitLost | summitSlow | summitStop | summitEmergency
  | closureFault | closureLate | nodeSilent | cabinSlip | zoneUnexpected | conveyorReverse | trainOverflow
  | trainCrowded | unknownCabin | cabinDuplicate | gripFail | divertFault | departBlocked | departUnsafe
  | driveNoStop | driveUncommanded | consoleSilent | causeOverflow
  deriving DecidableEq, Repr

/-- What a cause or a report is about (R13, R167). -/
inductive Subject where
  | noSubject
  | tower (k : Nat)
  | node (a : Nat)
  | cabin (entry : BitVec 16)
  | input (z : Nat)
  | summit
  deriving DecidableEq, Repr

/-- One entry of the cause set (R13). -/
structure CauseEntry where
  kind : CauseKind
  subject : Subject
  response : Response
  latch : LatchMode
  state : CauseState
  raisedTime : BitVec 32
  raiseCount : Nat
  deriving DecidableEq, Repr

/-- One entry of the cause table (R20). -/
structure CauseSetting where
  response : Response
  latch : LatchMode
  deriving DecidableEq, Repr

/-- PERM. A timer is `some` its duration in milliseconds while it runs (log 2). -/
structure Perm where
  line : LineState
  causes : List CauseEntry
  causeTable : Vector CauseSetting 26
  stopTimer : Option Nat
  silenceTimer : Option Nat
  runp : Bool
  slowq : Bool
  estop : Bool
  deriving DecidableEq, Repr

/-! ### TRAV: travel and the path (chapter 2) -/

/-- The action of a path point (R26). -/
inductive PathAction where
  | entry | openAt | shutAt | gripTest | divert | depart | mark
  deriving DecidableEq, Repr

/-- A path point (R26). -/
structure PathPoint where
  action : PathAction
  offset : Nat
  lead : Nat
  node : Option Nat
  zone : Option Nat
  tolerance : Nat
  deriving DecidableEq, Repr

/-- The kinds of schedule entry (R30). -/
inductive SchedKind where
  | lead | point | windowEnd
  deriving DecidableEq, Repr

/-- A travel schedule entry (R30). -/
structure SchedEntry where
  entry : BitVec 16
  kind : SchedKind
  point : Nat
  due : BitVec 24
  deriving DecidableEq, Repr

/-- TRAV. The schedule stands in the order its entries joined; R30's order by due count is read from it (log 23). -/
structure Trav where
  counter : BitVec 24
  highWater : BitVec 24
  reverseFlag : Bool
  path : List PathPoint
  zoneMask : Vector Bool 16
  schedule : List SchedEntry
  deriving DecidableEq, Repr

/-! ### TRN: the station train (chapter 3) -/

inductive TagState where
  | awaited | matched | unknown | absent
  deriving DecidableEq, Repr

inductive ClosureState where
  | unknown | opening | opened | shutting | shut | fault
  deriving DecidableEq, Repr

inductive GripResult where
  | notTested | awaited | pass | fail | noResult
  deriving DecidableEq, Repr

inductive DivertReason where
  | retired | unidentified | duplicate | grip | console
  deriving DecidableEq, Repr

/-- A cabin record (R42). `divert` is the divert flag and its reason in one: the reason is present exactly while
the flag is set. `tagTimer` is the record's tag timer (R47). -/
structure CabinRecord where
  entry : BitVec 16
  cabin : BitVec 8
  tagState : TagState
  tag : Option (BitVec 32)
  entryCount : BitVec 24
  lastPoint : Nat
  confirmation : Option Nat
  closure : ClosureState
  grip : GripResult
  gripForce : Option Word
  divert : Option DivertReason
  restored : Bool
  tagTimer : Option Nat
  deriving DecidableEq, Repr

inductive RetireReason where
  | gripFail | console
  deriving DecidableEq, Repr

/-- A cabin directory entry (R51). `retired` is the service state and the retire reason in one: the reason is
present exactly while the state is RETIRED. -/
structure DirEntry where
  tag : Option (BitVec 32)
  retired : Option RetireReason
  force : Option Word
  deriving DecidableEq, Repr

/-- An unused directory entry (R51). -/
def DirEntry.unused : DirEntry := { tag := none, retired := none, force := none }

/-- The tag held in the pending slot, with its arrival time and the slot's timer (R49). -/
structure PendingTag where
  tag : BitVec 32
  arrival : BitVec 32
  timer : Nat
  deriving DecidableEq, Repr

inductive Crowding where
  | calm | raised
  deriving DecidableEq, Repr

structure Trn where
  train : List CabinRecord
  directory : Vector DirEntry 255
  slot : Option PendingTag
  entryCounter : BitVec 16
  crowding : Crowding
  overflowFlag : Bool
  deriving DecidableEq, Repr

/-! ### DTX: closure transactions (chapter 4) -/

inductive ClosureAction where
  | toOpen | toShut
  deriving DecidableEq, Repr

inductive TxnState where
  | setting | primed | going | acting | detailing
  deriving DecidableEq, Repr

inductive DetailCause where
  | faultReported | actLimit
  deriving DecidableEq, Repr

/-- An open closure transaction (R64). `id` ties the commands queued for it to it (R66); `overtaken` says that it no
longer counts as its cabin's claim (R69; log 22); `actTimer` is its act timer (R73). -/
structure OpenTxn where
  id : Nat
  entry : BitVec 16
  action : ClosureAction
  point : Nat
  state : TxnState
  late : Bool
  retry : Bool
  deadline : Option (BitVec 32)
  actTimer : Option Nat
  faultWords : Option (Word × Word)
  detailCause : Option DetailCause
  overtaken : Bool
  deriving DecidableEq, Repr

/-- A wait entry (R65). -/
structure WaitEntry where
  entry : BitVec 16
  action : ClosureAction
  point : Nat
  late : Bool
  deriving DecidableEq, Repr

/-- A closure drive node record (R63). -/
structure NodeRec where
  faulted : Bool
  txn : Option OpenTxn
  waiting : List WaitEntry
  clearMark : Bool
  changeMark : Bool
  deriving DecidableEq, Repr

/-- A node record after reset (R84). -/
def NodeRec.ready : NodeRec :=
  { faulted := false, txn := none, waiting := [], clearMark := false, changeMark := false }

structure Dtx where
  nodes : Vector NodeRec 29
  nextTxn : Nat
  deriving DecidableEq, Repr

/-! ### GSW: grip test and garage switch (chapter 5) -/

/-- A wanted or commanded position of the garage switch (R91, R92). -/
inductive SwitchPos where
  | main | garage
  deriving DecidableEq, Repr

/-- What DIVC shows (R94). -/
inductive DivcPos where
  | main | garage | between
  deriving DecidableEq, Repr

structure SwitchClaim where
  entry : BitVec 16
  wanted : SwitchPos
  deriving DecidableEq, Repr

/-- GSW. DIVT drives the commanded position. -/
structure Gsw where
  expectations : List (BitVec 16)
  claims : List SwitchClaim
  commanded : SwitchPos
  faults : List (BitVec 16)
  deriving DecidableEq, Repr

/-! ### SWP: the tower sweep (chapter 6) -/

structure Outstanding where
  number : BitVec 16
  sendTime : BitVec 32
  deriving DecidableEq, Repr

structure Swp where
  number : BitVec 16
  outstanding : Option Outstanding
  deadlineTimer : Option Nat
  intervalTimer : Option Nat
  mismatch : Vector Bool 24
  sent : BitVec 32
  valid : BitVec 32
  missed : BitVec 32
  stale : BitVec 32
  corrupt : BitVec 32
  tlOut : List Word
  deriving DecidableEq, Repr

/-! ### RSU: rope supervision (chapter 7) -/

/-- An acceptance window (R111): positions in 0.5 mm, loads in 10 N. -/
structure Window where
  posLow : Int
  posHigh : Int
  loadLow : Nat
  loadHigh : Nat
  deriving DecidableEq, Repr

/-- A tower table entry (R111). Bit a - 1 of the mask stands for assembly a. -/
structure TowerEntry where
  assemblies : Nat
  mask : BitVec 8
  inner : Window
  outer : Window
  missLimit : Nat
  deriving DecidableEq, Repr

/-- One assembly's reading in a slot (R115): the position word is signed. -/
structure Reading where
  position : Word
  load : Word
  ropeOff : Bool
  deriving DecidableEq, Repr

structure LastReadings where
  sweep : BitVec 16
  time : BitVec 32
  readings : List Reading
  deriving DecidableEq, Repr

structure TowerRuntime where
  missCount : Nat
  silent : Bool
  warn : Bool
  limit : Bool
  off : Bool
  last : Option LastReadings
  deriving DecidableEq, Repr

/-- A runtime record after reset (R124). -/
def TowerRuntime.fresh : TowerRuntime :=
  { missCount := 0, silent := false, warn := false, limit := false, off := false, last := none }

structure Rsu where
  towers : Vector (Option TowerEntry) 24
  runtime : Vector TowerRuntime 24
  deriving DecidableEq, Repr

/-! ### SMT: summit signalling and the telephone (chapter 8) -/

inductive SafetyCode where
  | clear | slow | stop | emergency
  deriving DecidableEq, Repr

inductive CallCode where
  | nothing | call | answer | hangup
  deriving DecidableEq, Repr

inductive CallState where
  | idle | outgoing | incoming | connected | clearing
  deriving DecidableEq, Repr

inductive Playback where
  | waiting | playing
  deriving DecidableEq, Repr

/-- A downlink queue entry: a sample and whether it is CONCEALED (else RECEIVED) (R137). -/
structure DownEntry where
  sample : Byte
  concealed : Bool
  deriving DecidableEq, Repr

/-- SMT. `autoClaims` counts PERM's automatic call claims sent and not yet taken (R17, R125; log 9). -/
structure Smt where
  missCount : Nat
  lostFlag : Bool
  held : SafetyCode
  releaseRun : Option (SafetyCode × BitVec 16)
  heldCall : CallCode
  callRun : Option (CallCode × BitVec 16)
  call : CallState
  autoMark : Bool
  hookMark : Bool
  startTime : BitVec 32
  ringTimer : Option Nat
  clearingCount : Nat
  concealed : Nat
  uplink : List Byte
  downlink : List DownEntry
  playback : Playback
  ring : Bool
  vso : Byte
  autoClaims : Nat
  deriving DecidableEq, Repr

/-! ### SLC: the station line (chapter 9) -/

inductive NodeKind where
  | noKind | closureDrive | gripUnit | tagReader | console
  deriving DecidableEq, Repr

structure AnswerRec where
  silent : Bool
  silence : Nat
  stray : Bool
  deriving DecidableEq, Repr

/-- A node answer record after reset (R143). -/
def AnswerRec.cleared : AnswerRec := { silent := false, silence := 0, stray := false }

/-- The commands of the urgent queue (R145). -/
inductive Command where
  | set (entry : BitVec 16) (action : ClosureAction)
  | go (entry : BitVec 16)
  | detail (entry : BitVec 16)
  | cancel (entry : BitVec 16)
  | clear
  | gripExpect (entry : BitVec 16) (cabin : BitVec 8)
  deriving DecidableEq, Repr

/-- A queued command: its address, the command, and the transaction DTX queued it for, if any (R66, R146). -/
structure QueuedCommand where
  address : Nat
  command : Command
  txn : Option Nat
  deriving DecidableEq, Repr

/-- The exchange kinds (R144). A command carries its repeat mark, a poll the slot next to close. -/
inductive ExchangeKind where
  | command (q : QueuedCommand) (repeated : Bool)
  | poll (slot : Nat)
  | turn
  | response
  | report
  | broadcastClear
  deriving DecidableEq, Repr

inductive Phase where
  | sending | awaiting
  deriving DecidableEq, Repr

/-- The exchange in progress, with the words of the 640's frame (marked header word first; log 30). -/
structure Exchange where
  kind : ExchangeKind
  address : Nat
  phase : Phase
  frame : List Word
  deriving DecidableEq, Repr

structure Slc where
  nodeTable : Vector NodeKind 30
  answers : Vector AnswerRec 30
  service : Vector Bool 30
  turnPointer : Option Nat
  urgent : List QueuedCommand
  pollTimer : Option Nat
  pollDue : Bool
  exchange : Option Exchange
  clearPending : Bool
  deriving DecidableEq, Repr

/-! ### MGT: requests and reports (chapter 10) -/

/-- The management request kinds, in the order of 11 section 11.2. -/
inductive RequestKind where
  | statusRead | siteWrite | siteRead | tableRead | tableWrite | recordRead | recordWrite | recordRemove
  | causesRead | causeAck | lineReady | lineSetup | lineStart | lineHalt | linePark | lineWake | nodeClear | partReset
  deriving DecidableEq, Repr

inductive ResultCode where
  | done | refusedState | refusedRange | refusedOnce | refusedInUse | refusedUnknown
  deriving DecidableEq, Repr

structure PendingResponse where
  tag : Byte
  kind : RequestKind
  result : ResultCode
  payload : List Word
  deriving DecidableEq, Repr

inductive ResetCause where
  | powerOn | pin | command
  deriving DecidableEq, Repr

inductive ReportClass where
  | alarm | info
  deriving DecidableEq, Repr

inductive WakeSource where
  | entryEdge | tag | call
  deriving DecidableEq, Repr

/-- Why the line state changed (R1). -/
inductive LineReason where
  | request (kind : RequestKind)
  | cause (kind : CauseKind) (subject : Subject)
  | drive
  | wake (source : WakeSource)
  deriving DecidableEq, Repr

inductive GoneWay where
  | cleared | acked
  deriving DecidableEq, Repr

inductive OrphanReason where
  | setup | displaced | expired
  deriving DecidableEq, Repr

inductive RefusingBlock where
  | slc | dtx | gsw | trn
  deriving DecidableEq, Repr

inductive DepartOutcome where
  | departed | unsafely
  deriving DecidableEq, Repr

inductive ClosureEnding where
  | refused | silent | nodeFaulted | overtaken
  deriving DecidableEq, Repr

inductive ClearOutcome where
  | cleared | silent | refused
  deriving DecidableEq, Repr

inductive StrayReason where
  | late | duplicate | unknown
  deriving DecidableEq, Repr

inductive DivertOutcome where
  | garage | astray
  deriving DecidableEq, Repr

/-- The event of a CALL_STATE report (11.2, codes). -/
inductive CallEvent where
  | offHook | onHook | summitCall | summitAnswer | summitNone | summitHangup | autoCall | ringLimit
  | clearingLimit | summitLost | setupEntered
  deriving DecidableEq, Repr

inductive CallOutcome where
  | abandoned | unanswered | withdrawn | missed | endedSummit | endedValley | dropped
  deriving DecidableEq, Repr

/-- A report with the items its own rule names (R167's table, in its order). -/
inductive Report where
  | lineState (old new : LineState) (reason : LineReason)
  | causeRaised (e : CauseEntry)
  | causeGone (kind : CauseKind) (subject : Subject) (raiseCount : Nat) (way : GoneWay)
  | encoderSkip (counter : BitVec 24)
  | cabinEntered (entry : BitVec 16) (tagState : TagState) (divert : Option DivertReason) (cabin : BitVec 8)
      (tag : Option (BitVec 32))
  | tagOrphan (reason : OrphanReason) (tag arrival : BitVec 32)
  | frameRefused (source : Nat) (kind : Byte) (block : RefusingBlock)
  | cabinDeparted (entry : BitVec 16) (outcome : DepartOutcome) (grip : GripResult) (closure : ClosureState)
      (divert : Option DivertReason) (cabin : BitVec 8)
  | cabinRemoved (entry : BitVec 16) (tagState : TagState) (closure : ClosureState) (grip : GripResult)
      (divert : Option DivertReason) (cabin : BitVec 8) (lastPoint : Nat)
  | cabinRestored (entry : BitVec 16) (cabin : BitVec 8) (distance : Word)
  | closureFailed (entry : BitVec 16) (ending : ClosureEnding) (action : ClosureAction) (point address : Nat)
  | closureDetail (entry : BitVec 16) (address : Nat) (action : ClosureAction) (point : Nat) (cause : DetailCause)
      (missing : Bool) (fault detail : Word × Word)
  | nodeCleared (address : Nat) (outcome : ClearOutcome)
  | gripResult (entry : BitVec 16) (verdict : GripResult) (cabin : BitVec 8) (force : Word)
  | gripStray (entry : BitVec 16) (reason : StrayReason) (force : Word)
  | cabinDiverted (entry : BitVec 16) (outcome : DivertOutcome) (wanted : SwitchPos) (divc : DivcPos)
      (divert : Option DivertReason) (cabin : BitVec 8)
  | towerMismatch (tower inSlot inTable : Nat) (sweep : BitVec 16)
  | callState (old new : CallState) (event : CallEvent)
  | callEnded (outcome : CallOutcome) (auto : Bool) (startTime : BitVec 32) (concealed : Nat)
  | strayNode (address : Nat)
  | resetDone (cause : ResetCause)
  deriving DecidableEq, Repr

/-- A report entry: the report and the line time at which it joined the queue (R167). -/
structure ReportEntry where
  report : Report
  time : BitVec 32
  deriving DecidableEq, Repr

structure Mgt where
  response : Option PendingResponse
  site : Option SiteRecord
  siteLock : Bool
  lineTime : BitVec 32
  resetCause : ResetCause
  resetRequest : Bool
  reports : List ReportEntry
  overflowMark : Bool
  deriving DecidableEq, Repr

/-! ### Pins, resets and the whole machine -/

/-- Whether a reset lasts (R166, R173). -/
inductive ResetPhase where
  | live
  | full (cause : ResetCause)
  | command
  deriving DecidableEq, Repr

/-- The state of the part: its ten blocks, its input levels, a reset in progress, and the commands that wait. -/
structure State where
  perm : Perm
  trav : Trav
  trn : Trn
  dtx : Dtx
  gsw : Gsw
  swp : Swp
  rsu : Rsu
  smt : Smt
  slc : Slc
  mgt : Mgt
  pins : InputLevels
  phase : ResetPhase
  pending : List Instr
  deriving DecidableEq, Repr

/-- No command makes the part stop with a fault: the manual names none (INVENTORY.md, Faults). Safe. -/
inductive Fault where
  deriving DecidableEq, Repr

/-- `notModelled` would be raised by an arm of exec whose command has no meaning yet; no arm raises it. Safe. -/
inductive Refusal where
  | notModelled (mnemonic : String)
  deriving DecidableEq, Repr

/-! ### Changing one block -/

def State.modPerm (s : State) (f : Perm → Perm) : State := { s with perm := f s.perm }
def State.modTrav (s : State) (f : Trav → Trav) : State := { s with trav := f s.trav }
def State.modTrn (s : State) (f : Trn → Trn) : State := { s with trn := f s.trn }
def State.modDtx (s : State) (f : Dtx → Dtx) : State := { s with dtx := f s.dtx }
def State.modGsw (s : State) (f : Gsw → Gsw) : State := { s with gsw := f s.gsw }
def State.modSwp (s : State) (f : Swp → Swp) : State := { s with swp := f s.swp }
def State.modRsu (s : State) (f : Rsu → Rsu) : State := { s with rsu := f s.rsu }
def State.modSmt (s : State) (f : Smt → Smt) : State := { s with smt := f s.smt }
def State.modSlc (s : State) (f : Slc → Slc) : State := { s with slc := f s.slc }
def State.modMgt (s : State) (f : Mgt → Mgt) : State := { s with mgt := f s.mgt }
def State.setPins (s : State) (p : InputLevels) : State := { s with pins := p }
def State.setPhase (s : State) (p : ResetPhase) : State := { s with phase := p }
def State.setPending (s : State) (q : List Instr) : State := { s with pending := q }

/-! ### Reset values -/

/-- The default response and latch mode of each kind (R20). -/
def CauseKind.defaultSetting : CauseKind → CauseSetting
  | .ropeWarn => ⟨.slow, .self⟩
  | .ropeLimit => ⟨.stop, .latch⟩
  | .ropeOff => ⟨.emergency, .latch⟩
  | .towerSilent => ⟨.stop, .latch⟩
  | .summitLost => ⟨.stop, .latch⟩
  | .summitSlow => ⟨.slow, .self⟩
  | .summitStop => ⟨.stop, .self⟩
  | .summitEmergency => ⟨.emergency, .latch⟩
  | .closureFault => ⟨.stop, .latch⟩
  | .closureLate => ⟨.stop, .latch⟩
  | .nodeSilent => ⟨.stop, .latch⟩
  | .cabinSlip => ⟨.stop, .latch⟩
  | .zoneUnexpected => ⟨.stop, .latch⟩
  | .conveyorReverse => ⟨.stop, .latch⟩
  | .trainOverflow => ⟨.emergency, .latch⟩
  | .trainCrowded => ⟨.slow, .self⟩
  | .unknownCabin => ⟨.info, .self⟩
  | .cabinDuplicate => ⟨.stop, .latch⟩
  | .gripFail => ⟨.info, .self⟩
  | .divertFault => ⟨.stop, .latch⟩
  | .departBlocked => ⟨.stop, .latch⟩
  | .departUnsafe => ⟨.emergency, .latch⟩
  | .driveNoStop => ⟨.emergency, .latch⟩
  | .driveUncommanded => ⟨.emergency, .latch⟩
  | .consoleSilent => ⟨.stop, .latch⟩
  | .causeOverflow => ⟨.emergency, .latch⟩

/-- The kinds in the order of their numbers (R20). -/
def CauseKind.all : Vector CauseKind 26 :=
  #v[.ropeWarn, .ropeLimit, .ropeOff, .towerSilent, .summitLost, .summitSlow, .summitStop, .summitEmergency,
    .closureFault, .closureLate, .nodeSilent, .cabinSlip, .zoneUnexpected, .conveyorReverse, .trainOverflow,
    .trainCrowded, .unknownCabin, .cabinDuplicate, .gripFail, .divertFault, .departBlocked, .departUnsafe,
    .driveNoStop, .driveUncommanded, .consoleSilent, .causeOverflow]

/-- The cause table with its defaults (R20). -/
def CauseSetting.defaults : Vector CauseSetting 26 := ⟨⟨CauseKind.all.toList.map CauseKind.defaultSetting⟩, rfl⟩

/-- PERM after a full reset (R22). -/
def Perm.fullReset : Perm :=
  { line := .setup, causes := [], causeTable := CauseSetting.defaults, stopTimer := none,
    silenceTimer := none, runp := false, slowq := false, estop := true }

/-- TRAV after a full reset (R40). -/
def Trav.fullReset : Trav :=
  { counter := 0, highWater := 0, reverseFlag := false, path := [], zoneMask := Vector.replicate 16 false,
    schedule := [] }

/-- TRN after a full reset (R62). -/
def Trn.fullReset : Trn :=
  { train := [], directory := Vector.replicate 255 DirEntry.unused, slot := none, entryCounter := 0,
    crowding := .calm, overflowFlag := false }

/-- DTX after every reset (R84). -/
def Dtx.afterReset : Dtx := { nodes := Vector.replicate 29 NodeRec.ready, nextTxn := 0 }

/-- GSW after every reset (R97). -/
def Gsw.afterReset : Gsw := { expectations := [], claims := [], commanded := .main, faults := [] }

/-- SWP after every reset (R110). -/
def Swp.afterReset : Swp :=
  { number := 0, outstanding := none, deadlineTimer := none, intervalTimer := none,
    mismatch := Vector.replicate 24 false, sent := 0, valid := 0, missed := 0, stale := 0, corrupt := 0, tlOut := [] }

/-- RSU after a full reset (R124). -/
def Rsu.fullReset : Rsu :=
  { towers := Vector.replicate 24 none, runtime := Vector.replicate 24 TowerRuntime.fresh }

/-- SMT after every reset (R139). -/
def Smt.afterReset : Smt :=
  { missCount := 0, lostFlag := false, held := .clear, releaseRun := none, heldCall := .nothing, callRun := none,
    call := .idle, autoMark := false, hookMark := false, startTime := 0, ringTimer := none, clearingCount := 0,
    concealed := 0, uplink := [], downlink := [], playback := .waiting, ring := false, vso := 128, autoClaims := 0 }

/-- The node table after a full reset: CONSOLE at address 30, NONE elsewhere (R142). -/
def Slc.freshTable : Vector NodeKind 30 := (Vector.replicate 30 NodeKind.noKind).set 29 .console

/-- SLC after a full reset, the clear pending mark aside, which the end of the reset sets (R155, R156). -/
def Slc.fullReset : Slc :=
  { nodeTable := Slc.freshTable, answers := Vector.replicate 30 AnswerRec.cleared,
    service := Vector.replicate 30 false, turnPointer := none, urgent := [], pollTimer := none, pollDue := false,
    exchange := none, clearPending := false }

/-- The inputs with every level low: the rope standing, the switch between, the handset on-hook (log 4). -/
def lowLevels : InputLevels :=
  { dmov := false, divc0 := false, divc1 := false, hook := false, zin := Vector.replicate 16 false, cea := false,
    ceb := false }

/-- The 640 right after a power-on full reset has ended (R173), every input low (log 4). -/
def State.reset : State :=
  { perm := Perm.fullReset
    trav := Trav.fullReset
    trn := Trn.fullReset
    dtx := Dtx.afterReset
    gsw := Gsw.afterReset
    swp := Swp.afterReset
    rsu := Rsu.fullReset
    smt := Smt.afterReset
    slc := { Slc.fullReset with clearPending := true }
    mgt :=
      { response := none, site := none, siteLock := false, lineTime := 0, resetCause := .powerOn,
        resetRequest := false, reports := [{ report := .resetDone .powerOn, time := 0 }], overflowMark := false }
    pins := lowLevels
    phase := .live
    pending := [] }

end Sys2Proof.Machine
end

