-- ==== Sys2Proof/Machine/Flags.lean ====
section
/-! DEFINITION. The code tables of chapter 11, the cause kinds' floors and subject types, and the frame kinds. -/

namespace Sys2Proof.Machine

/-! ### Codes (11.2, table of codes) -/

def LineState.code : LineState → Nat
  | .setup => 0 | .held => 1 | .running => 2 | .stopping => 3 | .quiet => 4

def Response.code : Response → Nat
  | .info => 0 | .slow => 1 | .stop => 2 | .emergency => 3

def LatchMode.code : LatchMode → Nat
  | .self => 0 | .latch => 1

def CauseState.code : CauseState → Nat
  | .active => 0 | .activeAcked => 1 | .latched => 2

def GoneWay.code : GoneWay → Nat
  | .cleared => 0 | .acked => 1

def TagState.code : TagState → Nat
  | .awaited => 0 | .matched => 1 | .unknown => 2 | .absent => 3

def ClosureState.code : ClosureState → Nat
  | .unknown => 0 | .opening => 1 | .opened => 2 | .shutting => 3 | .shut => 4 | .fault => 5

def GripResult.code : GripResult → Nat
  | .notTested => 0 | .awaited => 1 | .pass => 2 | .fail => 3 | .noResult => 4

def DivertReason.code : DivertReason → Nat
  | .retired => 1 | .unidentified => 2 | .duplicate => 3 | .grip => 4 | .console => 5

def PathAction.code : PathAction → Nat
  | .entry => 0 | .openAt => 1 | .shutAt => 2 | .gripTest => 3 | .divert => 4 | .depart => 5 | .mark => 6

/-- A closure action as SET and TABLE_READ carry it: 0 OPEN, 1 SHUT. -/
def ClosureAction.code : ClosureAction → Nat
  | .toOpen => 0 | .toShut => 1

/-- A closure action in reports: the path action's code. -/
def ClosureAction.reportCode : ClosureAction → Nat
  | .toOpen => 1 | .toShut => 2

def OrphanReason.code : OrphanReason → Nat
  | .setup => 0 | .displaced => 1 | .expired => 2

def RefusingBlock.code : RefusingBlock → Nat
  | .slc => 0 | .dtx => 1 | .gsw => 2 | .trn => 3

def DepartOutcome.code : DepartOutcome → Nat
  | .departed => 0 | .unsafely => 1

def ClosureEnding.code : ClosureEnding → Nat
  | .refused => 0 | .silent => 1 | .nodeFaulted => 2 | .overtaken => 3

def DetailCause.code : DetailCause → Nat
  | .faultReported => 0 | .actLimit => 1

def ClearOutcome.code : ClearOutcome → Nat
  | .cleared => 0 | .silent => 1 | .refused => 2

def StrayReason.code : StrayReason → Nat
  | .late => 0 | .duplicate => 1 | .unknown => 2

def DivertOutcome.code : DivertOutcome → Nat
  | .garage => 0 | .astray => 1

def SwitchPos.code : SwitchPos → Nat
  | .main => 0 | .garage => 1

def DivcPos.code : DivcPos → Nat
  | .main => 0 | .garage => 1 | .between => 2

def CallState.code : CallState → Nat
  | .idle => 0 | .outgoing => 1 | .incoming => 2 | .connected => 3 | .clearing => 4

def CallEvent.code : CallEvent → Nat
  | .offHook => 0 | .onHook => 1 | .summitCall => 2 | .summitAnswer => 3 | .summitNone => 4 | .summitHangup => 5
  | .autoCall => 6 | .ringLimit => 7 | .clearingLimit => 8 | .summitLost => 9 | .setupEntered => 10

def CallOutcome.code : CallOutcome → Nat
  | .abandoned => 0 | .unanswered => 1 | .withdrawn => 2 | .missed => 3 | .endedSummit => 4 | .endedValley => 5
  | .dropped => 6

def ResetCause.code : ResetCause → Nat
  | .powerOn => 0 | .pin => 1 | .command => 2

def TxnState.code : TxnState → Nat
  | .setting => 0 | .primed => 1 | .going => 2 | .acting => 3 | .detailing => 4

def WakeSource.code : WakeSource → Nat
  | .entryEdge => 0 | .tag => 1 | .call => 2

def LineReason.code : LineReason → Nat
  | .request _ => 0 | .cause _ _ => 1 | .drive => 2 | .wake _ => 3

def NodeKind.code : NodeKind → Nat
  | .noKind => 0 | .closureDrive => 1 | .gripUnit => 2 | .tagReader => 3 | .console => 4

def SafetyCode.code : SafetyCode → Nat
  | .clear => 0 | .slow => 1 | .stop => 2 | .emergency => 3

def CallCode.code : CallCode → Nat
  | .nothing => 0 | .call => 1 | .answer => 2 | .hangup => 3

def ResultCode.code : ResultCode → Nat
  | .done => 0 | .refusedState => 1 | .refusedRange => 2 | .refusedOnce => 3 | .refusedInUse => 4
  | .refusedUnknown => 5

def RequestKind.code : RequestKind → Nat
  | .statusRead => 80 | .siteWrite => 81 | .siteRead => 82 | .tableRead => 83 | .tableWrite => 84
  | .recordRead => 85 | .recordWrite => 86 | .recordRemove => 87 | .causesRead => 88 | .causeAck => 89
  | .lineReady => 90 | .lineSetup => 91 | .lineStart => 92 | .lineHalt => 93 | .linePark => 94 | .lineWake => 95
  | .nodeClear => 96 | .partReset => 97

/-! ### Cause kinds (R20) -/

/-- The kind's number less one: its place in the cause table. -/
def CauseKind.index : CauseKind → Fin 26
  | .ropeWarn => 0 | .ropeLimit => 1 | .ropeOff => 2 | .towerSilent => 3 | .summitLost => 4 | .summitSlow => 5
  | .summitStop => 6 | .summitEmergency => 7 | .closureFault => 8 | .closureLate => 9 | .nodeSilent => 10
  | .cabinSlip => 11 | .zoneUnexpected => 12 | .conveyorReverse => 13 | .trainOverflow => 14 | .trainCrowded => 15
  | .unknownCabin => 16 | .cabinDuplicate => 17 | .gripFail => 18 | .divertFault => 19 | .departBlocked => 20
  | .departUnsafe => 21 | .driveNoStop => 22 | .driveUncommanded => 23 | .consoleSilent => 24 | .causeOverflow => 25

/-- The kind's number, 1 to 26. -/
def CauseKind.code (k : CauseKind) : Nat := k.index.val + 1

/-- The kind of a number, if there is one. -/
def CauseKind.ofCode (n : Nat) : Option CauseKind := if n = 0 then none else CauseKind.all[n - 1]?

/-- The floor of a kind: the least response it may be given. -/
def CauseKind.floor : CauseKind → Response
  | .ropeWarn => .info
  | .ropeLimit => .stop
  | .ropeOff => .emergency
  | .towerSilent => .stop
  | .summitLost => .stop
  | .summitSlow => .info
  | .summitStop => .stop
  | .summitEmergency => .emergency
  | .closureFault => .info
  | .closureLate => .slow
  | .nodeSilent => .slow
  | .cabinSlip => .stop
  | .zoneUnexpected => .slow
  | .conveyorReverse => .stop
  | .trainOverflow => .emergency
  | .trainCrowded => .slow
  | .unknownCabin => .info
  | .cabinDuplicate => .stop
  | .gripFail => .info
  | .divertFault => .stop
  | .departBlocked => .stop
  | .departUnsafe => .emergency
  | .driveNoStop => .emergency
  | .driveUncommanded => .emergency
  | .consoleSilent => .slow
  | .causeOverflow => .emergency

/-- The subject types, with their codes NONE 0 to SUMMIT 5 (11.2). -/
inductive SubjectType where
  | noSubject | tower | node | cabin | input | summit
  deriving DecidableEq, Repr

def SubjectType.code : SubjectType → Nat
  | .noSubject => 0 | .tower => 1 | .node => 2 | .cabin => 3 | .input => 4 | .summit => 5

def CauseKind.subjectType : CauseKind → SubjectType
  | .ropeWarn => .tower
  | .ropeLimit => .tower
  | .ropeOff => .tower
  | .towerSilent => .tower
  | .summitLost => .summit
  | .summitSlow => .summit
  | .summitStop => .summit
  | .summitEmergency => .summit
  | .closureFault => .node
  | .closureLate => .cabin
  | .nodeSilent => .node
  | .cabinSlip => .cabin
  | .zoneUnexpected => .input
  | .conveyorReverse => .noSubject
  | .trainOverflow => .noSubject
  | .trainCrowded => .noSubject
  | .unknownCabin => .cabin
  | .cabinDuplicate => .cabin
  | .gripFail => .cabin
  | .divertFault => .cabin
  | .departBlocked => .cabin
  | .departUnsafe => .cabin
  | .driveNoStop => .noSubject
  | .driveUncommanded => .noSubject
  | .consoleSilent => .node
  | .causeOverflow => .noSubject

def Subject.type : Subject → SubjectType
  | .noSubject => .noSubject | .tower _ => .tower | .node _ => .node | .cabin _ => .cabin | .input _ => .input
  | .summit => .summit

/-- The subject value word; 0 for NONE and SUMMIT (11.2). -/
def Subject.value : Subject → Word
  | .noSubject => 0
  | .tower k => BitVec.ofNat 16 k
  | .node a => BitVec.ofNat 16 a
  | .cabin e => e
  | .input z => BitVec.ofNat 16 z
  | .summit => 0

/-- A response that stops the rope: STOP or EMERGENCY (1.2, Notes). -/
def Response.stops : Response → Bool
  | .info => false | .slow => false | .stop => true | .emergency => true

/-! ### Frame kinds (11.2) -/

namespace Kind
def poll : Byte := 1
def turn : Byte := 2
def clear : Byte := 3
def decline : Byte := 4
def setCmd : Byte := 16
def goCmd : Byte := 17
def detailCmd : Byte := 18
def cancelCmd : Byte := 19
def gripExpect : Byte := 20
def setAccept : Byte := 32
def setRefuse : Byte := 33
def goAccept : Byte := 34
def goRefuse : Byte := 35
def detailAnswer : Byte := 36
def cancelAccept : Byte := 37
def clearAccept : Byte := 38
def expectAccept : Byte := 39
def closureDone : Byte := 48
def gripResult : Byte := 49
def tagRead : Byte := 50
def response : Byte := 64
def report : Byte := 65
end Kind

/-- The frame kind code of a management request. -/
def RequestKind.frameKind (k : RequestKind) : Byte := BitVec.ofNat 8 k.code

/-- The management request of a frame kind, 80 to 97. -/
def RequestKind.ofFrameKind (k : Byte) : Option RequestKind :=
  match k.toNat with
  | 80 => some .statusRead
  | 81 => some .siteWrite
  | 82 => some .siteRead
  | 83 => some .tableRead
  | 84 => some .tableWrite
  | 85 => some .recordRead
  | 86 => some .recordWrite
  | 87 => some .recordRemove
  | 88 => some .causesRead
  | 89 => some .causeAck
  | 90 => some .lineReady
  | 91 => some .lineSetup
  | 92 => some .lineStart
  | 93 => some .lineHalt
  | 94 => some .linePark
  | 95 => some .lineWake
  | 96 => some .nodeClear
  | 97 => some .partReset
  | _ => none

/-! ### Output pins that are views of the state (11.4) -/

/-- SLDE: high while the 640 drives the station line. -/
def State.slde (s : State) : Bool :=
  match s.slc.exchange with
  | some x => decide (x.phase = .sending)
  | none => false

/-- DIVT: high commands GARAGE. -/
def State.divt (s : State) : Bool := decide (s.gsw.commanded = .garage)

/-- DIVC decoded from its pair: DIVC0 alone high MAIN, DIVC1 alone high GARAGE, else BETWEEN. -/
def decodeDivc (divc0 divc1 : Bool) : DivcPos :=
  match divc0, divc1 with
  | true, false => .main
  | false, true => .garage
  | true, true => .between
  | false, false => .between

/-- What DIVC shows now. -/
def State.divc (s : State) : DivcPos := decodeDivc s.pins.divc0 s.pins.divc1

end Sys2Proof.Machine
end

