-- ==== Sys2Proof/Machine/Operands.lean ====
section
/-! DEFINITION. Reading the words of received frames: fields, checks, lengths and the request payloads (chapter 11). -/

namespace Sys2Proof.Machine

/-! ### Words and fields -/

/-- Bits lo + len - 1 to lo of a word, as a number. -/
def field (w : Word) (lo len : Nat) : Nat := w.toNat / 2 ^ lo % 2 ^ len

/-- One bit of a word. -/
def bit (w : Word) (k : Nat) : Bool := w.getLsbD k

/-- A number over two words, the high word first (11.1). -/
def wide (hi lo : Word) : BitVec 32 := hi ++ lo

/-- The two words of a 32-bit number, the high word first (11.1). -/
def twoWords (x : BitVec 32) : List Word := [x.extractLsb' 16 16, x.extractLsb' 0 16]

/-- A number as one word. -/
def word (n : Nat) : Word := BitVec.ofNat 16 n

/-- A mark as a number: 1 when set. -/
def flag (b : Bool) : Nat := if b then 1 else 0

/-- The sum of the words, modulo 65,536 (R171). -/
def sumWords : List Word → Word
  | [] => 0
  | w :: ws => w + sumWords ws

/-- The check word over a run of words: 65,535 minus their sum, modulo 65,536 (R171). -/
def checkWord (run : List Word) : Word := 65535 - sumWords run

/-- A receiver's judgement of a run with its check word (R171). -/
def checkGood (run : List Word) (check : Word) : Bool := decide (sumWords run + check = 65535)

/-! ### Numbered tables: entry k of a table numbered from 1 -/

/-- Entry k of a table numbered from 1. -/
def nth1 {α : Type} {n : Nat} (v : Vector α n) (k : Nat) : Option α := if k = 0 then none else v[k - 1]?

/-- Change entry k of a table numbered from 1. -/
def mod1 {α : Type} {n : Nat} (v : Vector α n) (k : Nat) (f : α → α) : Vector α n :=
  if k = 0 then v else
    match v[k - 1]? with
    | some a => v.setIfInBounds (k - 1) (f a)
    | none => v

/-! ### Frames received (R140, R141, R172) -/

/-- The address in bits 4 to 0 of a header or source word; the other bits are unused (R172). -/
def addressOf (w : Word) : Nat := field w 0 5

end Sys2Proof.Machine

namespace Sys2Proof

open Sys2Proof.Machine

def RxFrame.destination (f : RxFrame) : Nat := addressOf f.header

def RxFrame.sender (f : RxFrame) : Nat := addressOf f.source

/-- The words of a frame before its check word. The row gives the low byte of the kind word. -/
def RxFrame.run (kind : Byte) (f : RxFrame) : List Word :=
  f.header :: f.source :: (f.tag ++ kind) :: f.length :: f.payload

/-- Received whole with a good check (R140): not cut short, a length of at most 60, and the check word good. -/
def RxFrame.whole (kind : Byte) (f : RxFrame) : Bool :=
  decide (f.length.toNat ≤ 60) && decide (f.payload.length = f.length.toNat) && checkGood (f.run kind) f.check

end Sys2Proof

namespace Sys2Proof.Machine

/-- The lengths a REPORT may have: a header word and up to four entries of 7 to 11 words (11.2). -/
def reportLength (n : Nat) : Bool :=
  n == 1 || (8 ≤ n && n ≤ 12) || (15 ≤ n && n ≤ 23) || (22 ≤ n && n ≤ 34) || (29 ≤ n && n ≤ 45)

/-- Whether the frame's kind allows its payload's length (R141, R172). CLOSURE_DONE allows 2 with COMPLETE and 4 with
FAULT, and an outcome out of range at either length, which DTX refuses (log 37). A management request allows 0 to 13. A
kind with no code has no layout and forbids no length (log 14). -/
def lengthAllowed (kind : Byte) (payload : List Word) : Bool :=
  let n := payload.length
  match kind.toNat with
  | 1 => n == 0
  | 2 => n == 0
  | 3 => n == 0
  | 4 => n == 0
  | 16 => n == 2
  | 17 => n == 1
  | 18 => n == 1
  | 19 => n == 1
  | 20 => n == 2
  | 32 => n == 1
  | 33 => n == 2
  | 34 => n == 1
  | 35 => n == 2
  | 36 => n == 3
  | 37 => n == 1
  | 38 => n == 0
  | 39 => n == 1
  | 48 =>
    match payload with
    | [_, outcome] => outcome != 1
    | [_, outcome, _, _] => outcome != 0
    | _ => false
  | 49 => n == 2
  | 50 => n == 2
  | 64 => 2 ≤ n && n ≤ 60
  | 65 => reportLength n
  | k => if 80 ≤ k && k ≤ 97 then n ≤ 13 else true

/-! ### The site record (R160, R161) -/

/-- The 13 words of SITE_WRITE, in the order of R160's table. -/
def parseSite (ws : List Word) : Option SiteRecord :=
  match ws with
  | [a, b, c, d, e, f, g, h, i, j, k, l, m] =>
    some
      { towerCount := a.toNat, pollPeriod := b.toNat, crowdHigh := c.toNat, crowdLow := d.toNat, gripMin := e.toNat,
        gripMax := f.toNat, closureActLimit := g.toNat, tagHoldLimit := h.toNat, stopLimit := i.toNat,
        silenceLimit := j.toNat, summitMissLimit := k.toNat, ringLimit := l.toNat, reverseLimit := m.toNat }
  | _ => none

end Sys2Proof.Machine

namespace Sys2Proof

/-- The ranges of R160. -/
def SiteRecord.inRange (r : SiteRecord) : Bool :=
  decide (1 ≤ r.towerCount ∧ r.towerCount ≤ 24) && decide (10 ≤ r.pollPeriod ∧ r.pollPeriod ≤ 100) &&
  decide (2 ≤ r.crowdHigh ∧ r.crowdHigh ≤ 32) && decide (r.crowdLow < r.crowdHigh) &&
  decide (r.gripMin ≤ 60000) && decide (r.gripMin ≤ r.gripMax ∧ r.gripMax ≤ 60000) &&
  decide (500 ≤ r.closureActLimit ∧ r.closureActLimit ≤ 10000) &&
  decide (50 ≤ r.tagHoldLimit ∧ r.tagHoldLimit ≤ 2000) && decide (5 ≤ r.stopLimit ∧ r.stopLimit ≤ 120) &&
  decide (1 ≤ r.silenceLimit ∧ r.silenceLimit ≤ 30) && decide (1 ≤ r.summitMissLimit ∧ r.summitMissLimit ≤ 15) &&
  decide (10 ≤ r.ringLimit ∧ r.ringLimit ≤ 120) && decide (r.reverseLimit ≤ 2000)

end Sys2Proof

namespace Sys2Proof.Machine

/-! ### Tables (R157, 11.2) -/

/-- The six tables. -/
inductive Table where
  | path | zoneMask | nodes | towers | causes | directory
  deriving DecidableEq, Repr

def Table.ofCode (w : Word) : Option Table :=
  match w.toNat with
  | 1 => some .path
  | 2 => some .zoneMask
  | 3 => some .nodes
  | 4 => some .towers
  | 5 => some .causes
  | 6 => some .directory
  | _ => none

def PathAction.ofCode (n : Nat) : Option PathAction :=
  match n with
  | 0 => some .entry
  | 1 => some .openAt
  | 2 => some .shutAt
  | 3 => some .gripTest
  | 4 => some .divert
  | 5 => some .depart
  | 6 => some .mark
  | _ => none

/-- A path point with every field in its range, and a node address present for OPEN and SHUT and absent for every
other action (R26). -/
def PathPoint.inRange (p : PathPoint) : Bool :=
  decide (p.offset ≤ 65535) && decide (p.lead ≤ 4000) && decide (p.tolerance ≤ 1000) &&
  (match p.zone with | some z => decide (z ≤ 15) | none => true) &&
  (match p.action, p.node with
    | .openAt, some a => decide (1 ≤ a ∧ a ≤ 29)
    | .shutAt, some a => decide (1 ≤ a ∧ a ≤ 29)
    | .openAt, none => false
    | .shutAt, none => false
    | _, some _ => false
    | _, none => true)

/-- The four words of a PATH entry; none where a field is out of range (R26, 11.2). -/
def parsePathPoint (ws : List Word) : Option PathPoint :=
  match ws with
  | [w, offset, lead, tolerance] =>
    match PathAction.ofCode (field w 0 3) with
    | none => none
    | some action =>
      let p : PathPoint :=
        { action := action, offset := offset.toNat, lead := lead.toNat,
          node := if field w 8 5 = 0 then none else some (field w 8 5),
          zone := if bit w 3 then some (field w 4 4) else none,
          tolerance := tolerance.toNat }
      if p.inRange then some p else none
  | _ => none

def NodeKind.ofCode (n : Nat) : Option NodeKind :=
  match n with
  | 0 => some .noKind
  | 1 => some .closureDrive
  | 2 => some .gripUnit
  | 3 => some .tagReader
  | 4 => some .console
  | _ => none

/-- A window with its four bounds in range and in order (R111, R112). -/
def Window.inRange (w : Window) : Bool :=
  decide (-1000 ≤ w.posLow) && decide (w.posLow ≤ w.posHigh) && decide (w.posHigh ≤ 1000) &&
  decide (w.loadLow ≤ w.loadHigh) && decide (w.loadHigh ≤ 6000)

/-- The outer window contains the inner (R111). -/
def Window.contains (outer inner : Window) : Bool :=
  decide (outer.posLow ≤ inner.posLow) && decide (inner.posHigh ≤ outer.posHigh) &&
  decide (outer.loadLow ≤ inner.loadLow) && decide (inner.loadHigh ≤ outer.loadHigh)

/-- A tower table entry with every field in its range (R112). -/
def TowerEntry.inRange (t : TowerEntry) : Bool :=
  decide (1 ≤ t.assemblies ∧ t.assemblies ≤ 8) && decide (1 ≤ t.missLimit ∧ t.missLimit ≤ 15) &&
  decide (t.mask.toNat < 2 ^ t.assemblies) && t.inner.inRange && t.outer.inRange && t.outer.contains t.inner

/-- The nine words of a TOWERS entry; none where a field is out of range (R112, 11.2). -/
def parseTower (ws : List Word) : Option TowerEntry :=
  match ws with
  | [w, ipl, iph, ill, ilh, opl, oph, oll, olh] =>
    let t : TowerEntry :=
      { assemblies := field w 0 4, mask := BitVec.ofNat 8 (field w 8 8),
        inner := { posLow := ipl.toInt, posHigh := iph.toInt, loadLow := ill.toNat, loadHigh := ilh.toNat },
        outer := { posLow := opl.toInt, posHigh := oph.toInt, loadLow := oll.toNat, loadHigh := olh.toNat },
        missLimit := field w 4 4 }
    if t.inRange then some t else none
  | _ => none

def Response.ofCode (n : Nat) : Response :=
  match n with
  | 0 => .info
  | 1 => .slow
  | 2 => .stop
  | _ => .emergency

/-- The one word of a CAUSES entry (11.2). -/
def parseCauseSetting (ws : List Word) : Option CauseSetting :=
  match ws with
  | [w] => some { response := Response.ofCode (field w 0 2), latch := if bit w 2 then .latch else .self }
  | _ => none

/-- The four words of a DIRECTORY entry; none where step 2 of R52 refuses it. -/
def parseDirEntry (ws : List Word) : Option DirEntry :=
  match ws with
  | [w, tagHi, tagLo, force] =>
    let tag : Option (BitVec 32) := if bit w 0 then some (wide tagHi tagLo) else none
    let reason : Option (Option RetireReason) :=
      match field w 2 2 with
      | 0 => some none
      | 1 => some (some .gripFail)
      | 2 => some (some .console)
      | _ => none
    match reason with
    | none => none
    | some r =>
      if tag = some 0 then none
      else if bit w 1 != r.isSome then none
      else if tag.isNone && (bit w 1 || bit w 4) then none
      else some { tag := tag, retired := r, force := if bit w 4 then some force else none }
  | _ => none

/-! ### RECORD_WRITE (R60, 11.2) -/

def ClosureState.ofCode (n : Nat) : Option ClosureState :=
  match n with
  | 0 => some .unknown
  | 1 => some .opening
  | 2 => some .opened
  | 3 => some .shutting
  | 4 => some .shut
  | 5 => some .fault
  | _ => none

def GripResult.ofCode (n : Nat) : Option GripResult :=
  match n with
  | 0 => some .notTested
  | 1 => some .awaited
  | 2 => some .pass
  | 3 => some .fail
  | 4 => some .noResult
  | _ => none

/-- A divert reason field: 0 none, 1 to 5 the reasons, others out of range. -/
def DivertReason.ofCode (n : Nat) : Option (Option DivertReason) :=
  match n with
  | 0 => some none
  | 1 => some (some .retired)
  | 2 => some (some .unidentified)
  | 3 => some (some .duplicate)
  | 4 => some (some .grip)
  | 5 => some (some .console)
  | _ => none

/-- The fields of a RECORD_WRITE request. -/
structure RestoreFields where
  cabin : Nat
  tag : Option (BitVec 32)
  distance : Word
  lastPoint : Nat
  closure : ClosureState
  grip : GripResult
  force : Option Word
  divertFlag : Bool
  reason : Option DivertReason
  deriving DecidableEq, Repr

/-- The seven words of RECORD_WRITE; none where the length or a code is out of range. -/
def parseRestore (ws : List Word) : Option RestoreFields :=
  match ws with
  | [cabin, tagHi, tagLo, distance, lastPoint, codes, force] =>
    match ClosureState.ofCode (field codes 0 3), GripResult.ofCode (field codes 4 3),
        DivertReason.ofCode (field codes 9 3) with
    | some closure, some grip, some reason =>
      some
        { cabin := cabin.toNat, tag := if wide tagHi tagLo = 0 then none else some (wide tagHi tagLo),
          distance := distance, lastPoint := lastPoint.toNat, closure := closure, grip := grip,
          force := if bit codes 7 then some force else none, divertFlag := bit codes 8, reason := reason }
    | _, _, _ => none
  | _ => none

/-! ### CAUSE_ACK (R18, 11.2) -/

/-- What CAUSE_ACK names. -/
inductive AckTarget where
  | all
  | one (kind : CauseKind) (subject : Subject)
  deriving DecidableEq, Repr

/-- The subject of a subject type code and value, in its range (R13); the value of NONE and SUMMIT is 0. The range is that
of the subject type, NODE 1 to 30 for CONSOLE_SILENT too, of which only NODE 30 is ever held (log 35). -/
def parseSubject (type : Nat) (value : Word) : Option Subject :=
  match type with
  | 0 => if value = 0 then some .noSubject else none
  | 1 => if 1 ≤ value.toNat ∧ value.toNat ≤ 24 then some (.tower value.toNat) else none
  | 2 => if 1 ≤ value.toNat ∧ value.toNat ≤ 30 then some (.node value.toNat) else none
  | 3 => some (.cabin value)
  | 4 => if value.toNat ≤ 15 then some (.input value.toNat) else none
  | 5 => if value = 0 then some .summit else none
  | _ => none

/-- The two words of CAUSE_ACK; none where R18 answers REFUSED_RANGE (log 17). -/
def parseAck (ws : List Word) : Option AckTarget :=
  match ws with
  | [w, value] =>
    if bit w 15 then
      if field w 0 5 = 0 ∧ field w 8 3 = 0 ∧ value = 0 then some .all else none
    else
      match CauseKind.ofCode (field w 0 5), parseSubject (field w 8 3) value with
      | some k, some subject => if subject.type = k.subjectType then some (.one k subject) else none
      | _, _ => none
  | _ => none

/-! ### The returned SWEEP (R102, R105, R107, 11.3) -/

/-- The length of a SWEEP of a tower count, with or without the uplink voice field. -/
def sweepLength (towers : Nat) (voice : Bool) : Nat := 3 + (if voice then 40 else 0) + 19 * towers + 42 + 1

/-- The words of tower k's slot in a returned SWEEP. -/
def towerSlotWords (ws : List Word) (voice : Bool) (k : Nat) : List Word :=
  (ws.drop (3 + (if voice then 40 else 0) + 19 * (k - 1))).take 19

/-- The words of the summit slot in a returned SWEEP. -/
def summitSlotWords (ws : List Word) (voice : Bool) (towers : Nat) : List Word :=
  (ws.drop (3 + (if voice then 40 else 0) + 19 * towers)).take 42

/-- Position and load of the first n assemblies, from the slot's reading words, with the rope-off flags word. -/
def parseReadings (ropeOff : Word) : Nat → Nat → List Word → List Reading
  | 0, _, _ => []
  | n + 1, a, position :: load :: rest =>
    { position := position, load := load, ropeOff := ropeOff.getLsbD a } :: parseReadings ropeOff n (a + 1) rest
  | _ + 1, _, _ => []

/-- The 80 samples of 40 voice words, the earlier of each word in bits 15 to 8. -/
def unpackVoice (ws : List Word) : List Byte :=
  ws.flatMap fun w => [w.extractLsb' 8 8, w.extractLsb' 0 8]

def SafetyCode.ofCode (n : Nat) : Option SafetyCode :=
  match n with
  | 0 => some .clear
  | 1 => some .slow
  | 2 => some .stop
  | 3 => some .emergency
  | _ => none

def CallCode.ofCode (n : Nat) : Option CallCode :=
  match n with
  | 0 => some .nothing
  | 1 => some .call
  | 2 => some .answer
  | 3 => some .hangup
  | _ => none

/-- The contents of a summit slot that can be taken (R125). -/
structure SummitContents where
  safety : SafetyCode
  call : CallCode
  voice : Option (List Byte)
  deriving DecidableEq, Repr

/-- The contents of a summit slot: taken only with codes from 0 to 3 and a sample count of 0 or 80 (R125, 11.3). -/
def parseSummit (slot : List Word) : Option SummitContents :=
  match slot with
  | [] => none
  | w :: rest =>
    match SafetyCode.ofCode (field w 0 4), CallCode.ofCode (field w 4 4) with
    | some safety, some code =>
      if field w 8 7 = 0 then some { safety := safety, call := code, voice := none }
      else if field w 8 7 = 80 then some { safety := safety, call := code, voice := some (unpackVoice (rest.take 40)) }
      else none
    | _, _ => none

end Sys2Proof.Machine
end

