-- ==== Sys2Proof/Machine/Ops.lean ====
section
/-! DEFINITION. The operations the blocks share: the report queue, PERM's raise and clear claims, the wake claim,
claims on cabin records, the urgent queue and node silence. -/

namespace Sys2Proof.Machine

open Host

/-- Run an event unless a reset lasts: a reset takes no step, edge, frame, sample or expiry (R166, R173). -/
def live (f : State → State) (s : State) : Outcome State Fault Refusal :=
  .next (if s.phase = .live then f s else s)

/-- The site record as a block reads it (R160). -/
def State.site (s : State) : SiteRecord := s.mgt.site.getD Config.unwrittenSite

/-! ### The report queue (R167, R168) -/

/-- The class of a report: fixed by the kind, CABIN_DIVERTED's by its outcome (R167). -/
def Report.cls : Report → ReportClass
  | .lineState _ _ _ => .alarm
  | .causeRaised _ => .alarm
  | .causeGone _ _ _ _ => .info
  | .encoderSkip _ => .info
  | .cabinEntered _ _ _ _ _ => .info
  | .tagOrphan _ _ _ => .info
  | .frameRefused _ _ _ => .info
  | .cabinDeparted _ _ _ _ _ _ => .info
  | .cabinRemoved _ _ _ _ _ _ _ => .info
  | .cabinRestored _ _ _ => .info
  | .closureFailed _ _ _ _ _ => .info
  | .closureDetail _ _ _ _ _ _ _ _ => .alarm
  | .nodeCleared _ _ => .info
  | .gripResult _ _ _ _ => .info
  | .gripStray _ _ _ => .info
  | .cabinDiverted _ .astray _ _ _ _ => .alarm
  | .cabinDiverted _ .garage _ _ _ _ => .info
  | .towerMismatch _ _ _ _ => .info
  | .callState _ _ _ => .info
  | .callEnded _ _ _ _ => .info
  | .strayNode _ => .info
  | .resetDone _ => .alarm

/-- An INFO entry of the queue. -/
def ReportEntry.isInfo (e : ReportEntry) : Bool := decide (e.report.cls = .info)

/-- Add a report to the queue: it joins, displaces the oldest INFO entry, or is discarded (R168). -/
def Mgt.addReport (m : Mgt) (r : Report) : Mgt :=
  let e : ReportEntry := { report := r, time := m.lineTime }
  if m.reports.length < 64 then { m with reports := m.reports ++ [e] }
  else if e.isInfo then m
  else if m.reports.any ReportEntry.isInfo then
    { m with reports := m.reports.eraseP ReportEntry.isInfo ++ [e] }
  else { m with overflowMark := true }

def State.report (s : State) (r : Report) : State := s.modMgt fun m => m.addReport r

/-- A frame refused (R141): the source address, the frame kind as received and the refusing block. -/
def State.refuseFrame (s : State) (source : Nat) (kind : Byte) (block : RefusingBlock) : State :=
  s.report (.frameRefused source kind block)

/-! ### PERM: line state and drive lines (R1, R2, R3, R7, R8) -/

/-- The cause set holds an entry of this response, in any state. -/
def Perm.holdsResponse (p : Perm) (r : Response) : Bool := p.causes.any fun e => decide (e.response = r)

/-- The cause set holds a stopping entry: response STOP or EMERGENCY, in any state. -/
def Perm.stopping (p : Perm) : Bool := p.causes.any fun e => e.response.stops

/-- Set the three drive lines from the line state and the cause set (R2, R3). -/
def Perm.drive (p : Perm) : Perm :=
  { p with
    runp := decide (p.line = .running)
    slowq := decide (p.line = .running ∨ p.line = .stopping) && p.holdsResponse .slow
    estop := decide (p.line = .setup) || p.holdsResponse .emergency }

/-- Change the line state: the drive lines are set and a LINE_STATE report is made, as one event (R1, R2, R3). -/
def State.setLine (s : State) (new : LineState) (reason : LineReason) : State :=
  (s.modPerm fun p => { p with line := new }.drive).report (.lineState s.perm.line new reason)

/-- From RUNNING to STOPPING (R7): the silence timer stops and the stop timer starts; with DMOV low already the
line goes on to HELD in the same event (R8). -/
def State.enterStopping (s : State) (reason : LineReason) : State :=
  let s := s.modPerm fun p => { p with silenceTimer := none, stopTimer := some (s.site.stopLimit * 1000) }
  let s := s.setLine .stopping reason
  if s.pins.dmov then s
  else (s.modPerm fun p => { p with stopTimer := none }).setLine .held .drive

/-- A wake claim (R11): in QUIET the line becomes HELD; elsewhere it has no effect. -/
def State.wake (s : State) (source : WakeSource) : State :=
  if s.perm.line = .quiet then s.setLine .held (.wake source) else s

/-! ### PERM: the cause set (R13 to R18) -/

/-- The entry names this kind and subject. -/
def CauseEntry.names (e : CauseEntry) (k : CauseKind) (subject : Subject) : Bool :=
  decide (e.kind = k) && decide (e.subject = subject)

def Perm.find (p : Perm) (k : CauseKind) (subject : Subject) : Option CauseEntry :=
  p.causes.find? fun e => e.names k subject

/-- The number of entries other than CAUSE_OVERFLOW. -/
def Perm.others (p : Perm) : Nat := (p.causes.filter fun e => decide (e.kind ≠ .causeOverflow)).length

/-- What a later raise claim makes of an entry (R14, case 1). -/
def CauseEntry.raisedAgain (e : CauseEntry) : CauseEntry :=
  { e with
    raiseCount := min 255 (e.raiseCount + 1)
    state := if e.state = .latched then .active else e.state }

/-- Replace the entry of this kind and subject, in its place. -/
def Perm.replace (p : Perm) (k : CauseKind) (subject : Subject) (new : CauseEntry) : Perm :=
  { p with causes := p.causes.map fun e => if e.names k subject then new else e }

/-- A new entry, with response and latch mode as the cause table holds them now (R14, case 2; R20). -/
def Perm.newEntry (p : Perm) (k : CauseKind) (subject : Subject) (time : BitVec 32) : CauseEntry :=
  let c := p.causeTable[k.index]
  { kind := k, subject := subject, response := c.response, latch := c.latch, state := .active, raisedTime := time,
    raiseCount := 1 }

/-- After a new stopping entry: RUNNING goes to STOPPING (R7) and QUIET to HELD (R10). -/
def State.stopFor (s : State) (e : CauseEntry) : State :=
  if e.response.stops then
    match s.perm.line with
    | .running => s.enterStopping (.cause e.kind e.subject)
    | .quiet => s.setLine .held (.cause e.kind e.subject)
    | .setup => s
    | .held => s
    | .stopping => s
  else s

/-- After a new EMERGENCY entry outside SETUP PERM sends SMT the automatic call claim (R17). -/
def State.claimCall (s : State) (e : CauseEntry) : State :=
  if e.response = .emergency ∧ s.perm.line ≠ .setup then s.modSmt fun m => { m with autoClaims := m.autoClaims + 1 }
  else s

/-- Make a new entry: it joins at the end, with its CAUSE_RAISED report, and R7, R10, R2, R3 and R17 apply (R14). -/
def State.addCause (s : State) (k : CauseKind) (subject : Subject) : State :=
  let e := s.perm.newEntry k subject s.mgt.lineTime
  let s := s.modPerm fun p => { p with causes := p.causes ++ [e] }.drive
  ((s.report (.causeRaised e)).stopFor e).claimCall e

/-- A raise claim by case 1 or case 2 of R14. -/
def State.raiseHere (s : State) (k : CauseKind) (subject : Subject) : State :=
  match s.perm.find k subject with
  | some e =>
    let s' := s.modPerm fun p => p.replace k subject e.raisedAgain
    if e.state = .latched then s'.report (.causeRaised e.raisedAgain) else s'
  | none => s.addCause k subject

/-- A raise claim (R14): with no such entry and 47 others held it is lost, and CAUSE_OVERFLOW is raised. -/
def State.raise (s : State) (k : CauseKind) (subject : Subject) : State :=
  if s.perm.find k subject = none ∧ k ≠ .causeOverflow ∧ 47 ≤ s.perm.others then
    s.raiseHere .causeOverflow .noSubject
  else s.raiseHere k subject

/-- An entry leaves the set with its CAUSE_GONE report, and the drive lines are set again (R15). -/
def State.removeCause (s : State) (e : CauseEntry) (way : GoneWay) : State :=
  (s.modPerm fun p => { p with causes := p.causes.filter fun x => !x.names e.kind e.subject }.drive).report
    (.causeGone e.kind e.subject e.raiseCount way)

/-- A clear claim, the overflow test aside (R15). -/
def State.clearHere (s : State) (k : CauseKind) (subject : Subject) : State :=
  match s.perm.find k subject with
  | none => s
  | some e =>
    if e.latch = .self then s.removeCause e .cleared
    else
      match e.state with
      | .activeAcked => s.removeCause e .cleared
      | .active => s.modPerm fun p => p.replace k subject { e with state := .latched }
      | .latched => s

/-- The overflow test (R16): with 40 or fewer other entries, PERM clears a CAUSE_OVERFLOW that is not LATCHED. -/
def State.overflowTest (s : State) : State :=
  if s.perm.others ≤ 40 then
    match s.perm.find .causeOverflow .noSubject with
    | some e => if e.state = .latched then s else s.clearHere .causeOverflow .noSubject
    | none => s
  else s

/-- The overflow test follows a claim or request that removed an entry (R16). -/
def State.afterRemoval (s before : State) : State :=
  if s.perm.causes.length < before.perm.causes.length then s.overflowTest else s

/-- A clear claim (R15, R16). -/
def State.clear (s : State) (k : CauseKind) (subject : Subject) : State :=
  (s.clearHere k subject).afterRemoval s

/-- The acknowledgement of one entry, by its state (R18). -/
def State.ackHere (s : State) (k : CauseKind) (subject : Subject) : State :=
  match s.perm.find k subject with
  | none => s
  | some e =>
    if e.latch = .self then s
    else
      match e.state with
      | .active => s.modPerm fun p => p.replace k subject { e with state := .activeAcked }
      | .activeAcked => s
      | .latched => s.removeCause e .acked

/-- The acknowledgement of a list of entries, in its order. -/
def State.ackEach (s : State) : List CauseEntry → State
  | [] => s
  | e :: es => (s.ackHere e.kind e.subject).ackEach es

/-! ### TRN: claims on cabin records (R43) -/

def State.record (s : State) (entry : BitVec 16) : Option CabinRecord :=
  s.trn.train.find? fun r => decide (r.entry = entry)

/-- A claim changes the record of its entry number; a claim naming no record is dropped (R43). -/
def State.claimRecord (s : State) (entry : BitVec 16) (f : CabinRecord → CabinRecord) : State :=
  s.modTrn fun t => { t with train := t.train.map fun r => if r.entry = entry then f r else r }

/-- Set the divert flag; a flag already set keeps its reason (R43). -/
def CabinRecord.flagged (r : CabinRecord) (reason : DivertReason) : CabinRecord :=
  { r with divert := match r.divert with | some old => some old | none => some reason }

/-- The closure state claim of DTX. -/
def State.claimClosure (s : State) (entry : BitVec 16) (c : ClosureState) : State :=
  s.claimRecord entry fun r => { r with closure := c }

/-- The record of the first entry number stands ahead of that of the second in the train. -/
def State.ahead (s : State) (a b : BitVec 16) : Bool :=
  match s.trn.train.findIdx? (fun r => decide (r.entry = a)), s.trn.train.findIdx? (fun r => decide (r.entry = b)) with
  | some i, some j => decide (i < j)
  | some _, none => true
  | none, _ => false

/-- Place x after every member that stands ahead of it (R65, R85, R92). -/
def placeBehind {α : Type} (isAhead : α → Bool) (x : α) : List α → List α
  | [] => [x]
  | y :: ys => if (y :: ys).any isAhead then y :: placeBehind isAhead x ys else x :: y :: ys

/-! ### SLC: the urgent queue, silence and frames noticed (R12, R146, R151) -/

/-- The urgent queue holds 64 commands (R146). -/
def State.urgentFull (s : State) : Bool := decide (64 ≤ s.slc.urgent.length)

/-- A command joins the tail of the urgent queue (R146). -/
def State.pushCommand (s : State) (q : QueuedCommand) : State :=
  s.modSlc fun c => { c with urgent := c.urgent ++ [q] }

/-- A silent exchange with address k: its count steps, its flag is set and NODE_SILENT is raised (R151). -/
def State.silentExchange (s : State) (k : Nat) : State :=
  (s.modSlc fun c =>
    { c with answers := mod1 c.answers k fun a => { a with silence := min 65535 (a.silence + 1), silent := true } }).raise
    .nodeSilent (.node k)

/-- A valid frame from address k clears a set silent flag and NODE_SILENT's condition (R151). -/
def State.heardFrom (s : State) (k : Nat) : State :=
  match nth1 s.slc.answers k with
  | some a =>
    if a.silent then
      (s.modSlc fun c => { c with answers := mod1 c.answers k fun a => { a with silent := false } }).clear
        .nodeSilent (.node k)
    else s
  | none => s

/-- SLC's notice to PERM of a valid frame from address 30 (R12). -/
def State.consoleNotice (s : State) : State :=
  let s :=
    if s.perm.line = .running then
      s.modPerm fun p => { p with silenceTimer := some (s.site.silenceLimit * 1000) }
    else s
  s.clear .consoleSilent (.node 30)

end Sys2Proof.Machine
end

