-- ==== Sys2Proof/Machine/Schedule.lean ====
section
/-! DEFINITION. TRAV's travel arithmetic, its schedule and the confirmation field (R23, R30 to R32, R36, R37). -/

namespace Sys2Proof.Machine

/-! ### Circular counts (R23, Notes) -/

/-- Count a is at or ahead of count b. -/
def atOrAhead (a b : BitVec 24) : Bool := decide ((a - b).toNat < 8388608)

/-- A cabin's distance: the counter minus the entry count, signed (R23, Notes). -/
def CabinRecord.distance (r : CabinRecord) (counter : BitVec 24) : Int := (counter - r.entryCount).toInt

/-- The shortfall of the counter behind the high-water count, 0 where it is not behind (R25). -/
def Trav.shortfall (t : Trav) : Nat := if atOrAhead t.counter t.highWater then 0 else (t.highWater - t.counter).toNat

/-! ### The path -/

/-- The first point of the path that names zone input z. -/
def Trav.pointOf (t : Trav) (z : Nat) : Option Nat := t.path.findIdx? fun p => decide (p.zone = some z)

/-- Zone input z is a member of the zone mask. -/
def Trav.masked (t : Trav) (z : Nat) : Bool := t.zoneMask.getD z false

/-- The action has an owner to which leads are handed (R33). -/
def PathAction.hasOwner : PathAction → Bool
  | .entry => false | .openAt => true | .shutAt => true | .gripTest => true | .divert => true | .depart => true
  | .mark => false

/-! ### The schedule (R30) -/

/-- The order of R30: how far ahead of the counter the due count lies; a count reached lies at 0 or below. -/
def SchedEntry.ahead (e : SchedEntry) (counter : BitVec 24) : Int :=
  if atOrAhead counter e.due then -((counter - e.due).toNat : Int) else ((e.due - counter).toNat : Int)

/-- An entry is due when the counter is at or ahead of its due count (R31). -/
def SchedEntry.isDue (e : SchedEntry) (counter : BitVec 24) : Bool := atOrAhead counter e.due

/-- The first entry of a list in R30's order: entries with equal due counts keep the order in which they joined. -/
def firstInOrder (counter : BitVec 24) : List SchedEntry → Option SchedEntry
  | [] => none
  | e :: es =>
    match firstInOrder counter es with
    | none => some e
    | some x => if x.ahead counter < e.ahead counter then some x else some e

/-- The next entry to fire: the first due entry in schedule order (R31). -/
def Trav.nextDue (t : Trav) : Option SchedEntry :=
  firstInOrder t.counter (t.schedule.filter fun e => e.isDue t.counter)

def State.addSched (s : State) (e : SchedEntry) : State := s.modTrav fun t => { t with schedule := t.schedule ++ [e] }

/-- The WINDOW_END entry of a record for point p is dropped, if held (R29, R38). -/
def State.dropWindowEnd (s : State) (entry : BitVec 16) (p : Nat) : State :=
  s.modTrav fun t =>
    { t with schedule := t.schedule.filter fun e => !(decide (e.entry = entry ∧ e.kind = .windowEnd ∧ e.point = p)) }

/-- Every entry of a record is dropped as it leaves, and CABIN_SLIP's condition clears (R36). -/
def State.travLeave (s : State) (entry : BitVec 16) : State :=
  (s.modTrav fun t => { t with schedule := t.schedule.filter fun e => decide (e.entry ≠ entry) }).clear
    .cabinSlip (.cabin entry)

/-- Schedule point k for a record: its POINT entry and, where its lead is above 0 and its action has an owner, its
LEAD entry (R32, R34). -/
def State.schedulePoint (s : State) (entry : BitVec 16) (entryCount : BitVec 24) (k : Nat) : State :=
  match s.trav.path[k]? with
  | none => s
  | some p =>
    let s := s.addSched { entry := entry, kind := .point, point := k, due := entryCount + BitVec.ofNat 24 p.offset }
    if 0 < p.lead ∧ p.action.hasOwner then
      s.addSched
        { entry := entry, kind := .lead, point := k,
          due := entryCount + BitVec.ofNat 24 p.offset - BitVec.ofNat 24 p.lead }
    else s

/-- The point a record awaits after point k: k + 1 where it exists and has an unmasked zone input (R37). -/
def Trav.nextConfirmation (t : Trav) (k : Nat) : Option Nat :=
  match t.path[k + 1]? with
  | none => none
  | some p =>
    match p.zone with
    | some z => if t.masked z then none else some (k + 1)
    | none => none

/-- The supervision of point k ends for a record (R37). -/
def State.endSupervision (s : State) (entry : BitVec 16) (k : Nat) : State :=
  s.claimRecord entry fun r => { r with confirmation := s.trav.nextConfirmation k }

/-- TRAV schedules a record with last point k and ends the supervision of k (R32). -/
def State.scheduleRecord (s : State) (entry : BitVec 16) (entryCount : BitVec 24) (k : Nat) : State :=
  (s.schedulePoint entry entryCount (k + 1)).endSupervision entry k

end Sys2Proof.Machine
end

