-- ==== Sys2Proof/Machine/Closure.lean ====
section
/-! DEFINITION. DTX: closure transactions, wait lists, completions and node faults (chapter 4). -/

namespace Sys2Proof.Machine

/-! ### Node records -/

/-- The addresses of the node records, in order (R63). -/
def nodeAddresses : List Nat := List.range' 1 29

def State.node (s : State) (a : Nat) : Option NodeRec := nth1 s.dtx.nodes a

def State.modNode (s : State) (a : Nat) (f : NodeRec → NodeRec) : State :=
  s.modDtx fun d => { d with nodes := mod1 d.nodes a f }

/-- The open transaction of a node. -/
def State.txnAt (s : State) (a : Nat) : Option OpenTxn := (s.node a).bind NodeRec.txn

/-- Change a node's open transaction. -/
def State.modTxn (s : State) (a : Nat) (f : OpenTxn → OpenTxn) : State :=
  s.modNode a fun n => { n with txn := n.txn.map f }

/-! ### Completions and their judgement (R66) -/

/-- What SLC hands the owner of a command (R145): an answer frame, an answer whose length its kind does not allow
(refused by SLC already, R141), or silence. -/
inductive Answer where
  | frame (kind : Byte) (payload : List Word)
  | badLength
  | silence
  deriving DecidableEq, Repr

/-- What the owner makes of a completion. -/
inductive Judgement where
  | accepted
  | busy
  | refused
  | detail (first second : Word)
  | disallowed
  | silent
  deriving DecidableEq, Repr

/-- The answers a command allows (R66's table, R87): its kinds, naming its entry number, with codes in range. -/
def Command.judge (c : Command) (ans : Answer) : Judgement :=
  match ans with
  | .silence => .silent
  | .badLength => .disallowed
  | .frame kind payload =>
    match c, payload with
    | .set e _, [e'] => if kind = Kind.setAccept ∧ e' = e then .accepted else .disallowed
    | .set e _, [e', reason] =>
      if kind = Kind.setRefuse ∧ e' = e then
        if reason = 0 then .busy else if reason = 1 then .refused else .disallowed
      else .disallowed
    | .go e, [e'] => if kind = Kind.goAccept ∧ e' = e then .accepted else .disallowed
    | .go e, [e', _] => if kind = Kind.goRefuse ∧ e' = e then .refused else .disallowed
    | .detail e, [e', w1, w2] => if kind = Kind.detailAnswer ∧ e' = e then .detail w1 w2 else .disallowed
    | .cancel e, [e'] => if kind = Kind.cancelAccept ∧ e' = e then .accepted else .disallowed
    | .clear, [] => if kind = Kind.clearAccept then .accepted else .disallowed
    | .gripExpect e _, [e'] => if kind = Kind.expectAccept ∧ e' = e then .accepted else .disallowed
    | _, _ => .disallowed

/-- The FRAME_REFUSED report of a disallowed answer, by its owner; SLC has made its own for a bad length (log 13). -/
def State.refuseAnswer (s : State) (q : QueuedCommand) (ans : Answer) (block : RefusingBlock) : State :=
  match ans with
  | .frame kind _ => s.refuseFrame q.address kind block
  | .badLength => s
  | .silence => s

/-! ### Opening and closing transactions (R64, R65, R67) -/

/-- A transaction opens in SETTING and its SET is queued (R67, R68). -/
def State.openTxn (s : State) (a : Nat) (w : WaitEntry) : State :=
  let id := s.dtx.nextTxn
  let t : OpenTxn :=
    { id := id, entry := w.entry, action := w.action, point := w.point, state := .setting, late := w.late,
      retry := false, deadline := none, actTimer := none, faultWords := none, detailCause := none, overtaken := false }
  let s := s.modDtx fun d => { d with nextTxn := id + 1 }
  let s := s.modNode a fun n => { n with txn := some t }
  s.pushCommand { address := a, command := .set w.entry w.action, txn := some id }

/-- A claim fails: closure claim FAULT and a CLOSURE_FAILED report (R67). -/
def State.failClaim (s : State) (a : Nat) (w : WaitEntry) (ending : ClosureEnding) : State :=
  (s.claimClosure w.entry .fault).report (.closureFailed w.entry ending w.action w.point a)

/-- A claim fails at a FAULTED node: closure claim FAULT, CLOSURE_FAULT raised, and the report (R67, R68). -/
def State.failAtFaulted (s : State) (a : Nat) (w : WaitEntry) : State :=
  ((s.claimClosure w.entry .fault).raise .closureFault (.node a)).report
    (.closureFailed w.entry .nodeFaulted w.action w.point a)

/-- Serve the head of the given wait list at a READY node; the rest stays waiting (R67). A SET that finds the urgent
queue full has a silent completion at once: the claim fails and the next entry is served (R77, R146; log 11). -/
def State.serve (s : State) (a : Nat) : List WaitEntry → State
  | [] => s.modNode a fun n => { n with waiting := [] }
  | w :: rest =>
    let s := s.modNode a fun n => { n with waiting := rest }
    if s.urgentFull then (State.serve (s.failClaim a w .silent) a rest).silentExchange a
    else s.openTxn a w

/-- The wait list of a FAULTED node ends failed, head first (R67). -/
def State.drain (s : State) (a : Nat) : List WaitEntry → State
  | [] => s
  | w :: rest => State.drain ((s.failAtFaulted a w).modNode a fun n => { n with waiting := rest }) a rest

/-- The transaction leaves its node record and the wait list is handled (R67). -/
def State.closeTxn (s : State) (a : Nat) : State :=
  let s := s.modNode a fun n => { n with txn := none }
  match s.node a with
  | none => s
  | some n => if n.faulted then s.drain a n.waiting else s.serve a n.waiting

/-- What a change of a node's kind does in DTX (R82). -/
def State.applyKindChange (s : State) (a : Nat) : State :=
  (s.modNode a fun n => { n with faulted := false, waiting := [], clearMark := false, changeMark := false }).clear
    .closureFault (.node a)

/-- A kind change is applied, or waits for the open transaction to close (R82). -/
def State.kindChanged (s : State) (a : Nat) : State :=
  match s.txnAt a with
  | some _ => s.modNode a fun n => { n with changeMark := true }
  | none => s.applyKindChange a

/-- A kind change that waited is applied as the transaction closes (R82). -/
def State.applyWaitingChange (s : State) (a : Nat) : State :=
  match s.node a with
  | some n => if n.changeMark then s.applyKindChange a else s
  | none => s

/-- The wait entry of a transaction's claim. -/
def OpenTxn.claim (t : OpenTxn) : WaitEntry := { entry := t.entry, action := t.action, point := t.point, late := t.late }

/-- The FAILED ending (R67). -/
def State.failTxn (s : State) (a : Nat) (t : OpenTxn) (ending : ClosureEnding) : State :=
  (s.failClaim a t.claim ending).closeTxn a

/-- The NODE_FAULT ending, with the report its cause names (R67). -/
def State.nodeFault (s : State) (a : Nat) (t : OpenTxn) (r : Report) : State :=
  let s := s.claimClosure t.entry .fault
  let s := s.modNode a fun n => { n with faulted := true }
  let s := s.raise .closureFault (.node a)
  ((s.report r).closeTxn a).applyWaitingChange a

/-- The COMPLETE ending: closure claim OPEN or SHUT by the action (R67). -/
def State.completeTxn (s : State) (a : Nat) (t : OpenTxn) : State :=
  (s.claimClosure t.entry (match t.action with | .toOpen => .opened | .toShut => .shut)).closeTxn a

/-- CANCEL is queued and the transaction closes CANCELLED (R69, R78). -/
def State.cancelTxn (s : State) (a : Nat) (t : OpenTxn) : State :=
  let s :=
    if s.urgentFull then s.silentExchange a
    else s.pushCommand { address := a, command := .cancel t.entry, txn := some t.id }
  s.closeTxn a

/-! ### Sending GO and DETAIL (R70, R72, R74, R75) -/

/-- GO is queued and the transaction becomes GOING. -/
def State.sendGo (s : State) (a : Nat) (t : OpenTxn) : State :=
  let s := s.modTxn a fun t => { t with state := .going }
  if s.urgentFull then (s.failTxn a t .silent).silentExchange a
  else s.pushCommand { address := a, command := .go t.entry, txn := some t.id }

/-- The detail fetch ends: NODE_FAULT with a CLOSURE_DETAIL report (R76). -/
def State.endDetail (s : State) (a : Nat) (t : OpenTxn) (missing : Bool) (words : Word × Word) : State :=
  s.nodeFault a t
    (.closureDetail t.entry a t.action t.point (t.detailCause.getD .actLimit) missing (t.faultWords.getD (0, 0)) words)

/-- The movement has failed: the transaction becomes DETAILING and DETAIL is queued (R74, R75). -/
def State.startDetail (s : State) (a : Nat) (t : OpenTxn) (cause : DetailCause) (words : Word × Word) : State :=
  let t' : OpenTxn :=
    { t with
      state := .detailing, deadline := none, actTimer := none, faultWords := some words, detailCause := some cause }
  let s := s.modNode a fun n => { n with txn := some t' }
  if s.urgentFull then (s.endDetail a t' true (0, 0)).silentExchange a
  else s.pushCommand { address := a, command := .detail t.entry, txn := some t.id }

/-! ### Completions (R66, R70, R73, R76, R77, R80) -/

/-- The completion of a SET in SETTING (R70, R77). -/
def State.setCompletion (s : State) (a : Nat) (t : OpenTxn) (j : Judgement) : State :=
  match j with
  | .accepted =>
    let s := s.modTxn a fun t => { t with state := .primed }
    if t.late then s.sendGo a t else s
  | .busy => s.modTxn a fun t => { t with retry := true }
  | .refused => s.nodeFault a t (.closureFailed t.entry .refused t.action t.point a)
  | .detail _ _ => s.nodeFault a t (.closureFailed t.entry .refused t.action t.point a)
  | .disallowed => s.nodeFault a t (.closureFailed t.entry .refused t.action t.point a)
  | .silent => s.failTxn a t .silent

/-- The completion of a GO in GOING (R73, R77). -/
def State.goCompletion (s : State) (a : Nat) (t : OpenTxn) (j : Judgement) : State :=
  match j with
  | .accepted =>
    let s := s.modTxn a fun t =>
      { t with
        state := .acting
        deadline := some (s.mgt.lineTime + BitVec.ofNat 32 s.site.closureActLimit)
        actTimer := some s.site.closureActLimit }
    s.claimClosure t.entry (match t.action with | .toOpen => .opening | .toShut => .shutting)
  | .silent => s.failTxn a t .silent
  | .busy => s.nodeFault a t (.closureFailed t.entry .refused t.action t.point a)
  | .refused => s.nodeFault a t (.closureFailed t.entry .refused t.action t.point a)
  | .detail _ _ => s.nodeFault a t (.closureFailed t.entry .refused t.action t.point a)
  | .disallowed => s.nodeFault a t (.closureFailed t.entry .refused t.action t.point a)

/-- The completion of a DETAIL in DETAILING (R76, R77). -/
def State.detailCompletion (s : State) (a : Nat) (t : OpenTxn) (j : Judgement) : State :=
  match j with
  | .detail w1 w2 => s.endDetail a t false (w1, w2)
  | .accepted => s.endDetail a t true (0, 0)
  | .busy => s.endDetail a t true (0, 0)
  | .refused => s.endDetail a t true (0, 0)
  | .disallowed => s.endDetail a t true (0, 0)
  | .silent => s.endDetail a t true (0, 0)

/-- The completion of a CLEAR (R80). -/
def State.clearCompletion (s : State) (a : Nat) (j : Judgement) : State :=
  let s := s.modNode a fun n => { n with clearMark := false }
  match j with
  | .accepted =>
    ((s.modNode a fun n => { n with faulted := false }).clear .closureFault (.node a)).report (.nodeCleared a .cleared)
  | .silent => s.report (.nodeCleared a .silent)
  | .busy => s.report (.nodeCleared a .refused)
  | .refused => s.report (.nodeCleared a .refused)
  | .detail _ _ => s.report (.nodeCleared a .refused)
  | .disallowed => s.report (.nodeCleared a .refused)

/-- The transaction a SET, GO or DETAIL belongs to, if it is still open in the state the command leaves it (R66). -/
def State.txnFor (s : State) (q : QueuedCommand) (st : TxnState) : Option OpenTxn :=
  match s.txnAt q.address with
  | some t => if q.txn = some t.id ∧ t.state = st then some t else none
  | none => none

/-- DTX's FRAME_REFUSED report where the judgement is disallowed. -/
def State.refuseIfDisallowed (s : State) (q : QueuedCommand) (ans : Answer) (block : RefusingBlock) : State :=
  if q.command.judge ans = .disallowed then s.refuseAnswer q ans block else s

/-- DTX takes the completion of a command it queued (R66): one for a transaction that has since closed is discarded
without a report (log 12). -/
def State.dtxCompletion (s : State) (q : QueuedCommand) (ans : Answer) : State :=
  match q.command with
  | .set _ _ =>
    match s.txnFor q .setting with
    | some t => (s.refuseIfDisallowed q ans .dtx).setCompletion q.address t (q.command.judge ans)
    | none => s
  | .go _ =>
    match s.txnFor q .going with
    | some t => (s.refuseIfDisallowed q ans .dtx).goCompletion q.address t (q.command.judge ans)
    | none => s
  | .detail _ =>
    match s.txnFor q .detailing with
    | some t => (s.refuseIfDisallowed q ans .dtx).detailCompletion q.address t (q.command.judge ans)
    | none => s
  | .cancel _ => s.refuseIfDisallowed q ans .dtx
  | .clear => (s.refuseIfDisallowed q ans .dtx).clearCompletion q.address (q.command.judge ans)
  | .gripExpect _ _ => s

/-! ### Leads and points (R68, R69, R72) -/

/-- The open transaction that counts as the cabin's claim, with its node. -/
def State.openClaim (s : State) (entry : BitVec 16) : Option (Nat × OpenTxn) :=
  nodeAddresses.findSome? fun a =>
    match s.txnAt a with
    | some t => if t.entry = entry ∧ t.overtaken = false then some (a, t) else none
    | none => none

/-- The wait entry that is the cabin's claim, with its node. -/
def State.waitClaim (s : State) (entry : BitVec 16) : Option (Nat × WaitEntry) :=
  nodeAddresses.findSome? fun a =>
    match s.node a with
    | some n => (n.waiting.find? fun w => decide (w.entry = entry)).map fun w => (a, w)
    | none => none

/-- A cabin's wait entry is taken off a node's list. -/
def State.unlist (s : State) (a : Nat) (entry : BitVec 16) : State :=
  s.modNode a fun n => { n with waiting := n.waiting.filter fun w => decide (w.entry ≠ entry) }

/-- The raise and the report of an overtaken claim (R69, step 3). -/
def State.reportOvertaken (s : State) (a : Nat) (w : WaitEntry) : State :=
  (s.raise .closureLate (.cabin w.entry)).report (.closureFailed w.entry .overtaken w.action w.point a)

/-- An earlier claim of the cabin is overtaken (R69). -/
def State.overtake (s : State) (entry : BitVec 16) : State :=
  match s.openClaim entry with
  | some (a, t) =>
    let s := if t.state = .detailing then s.modTxn a fun t => { t with overtaken := true } else s.cancelTxn a t
    s.reportOvertaken a t.claim
  | none =>
    match s.waitClaim entry with
    | some (a, w) => (s.unlist a entry).reportOvertaken a w
    | none => s

/-- DTX takes the lead of an OPEN or SHUT point (R68). -/
def State.closureLead (s : State) (entry : BitVec 16) (action : ClosureAction) (point a : Nat) : State :=
  let s := s.overtake entry
  let w : WaitEntry := { entry := entry, action := action, point := point, late := false }
  match s.node a with
  | none => s
  | some n =>
    if n.faulted then s.failAtFaulted a w
    else
      match n.txn with
      | none => s.serve a (w :: n.waiting)
      | some _ =>
        s.modNode a fun n => { n with waiting := placeBehind (fun y => s.ahead y.entry entry) w n.waiting }

/-- A late claim's cause (R72). -/
def State.raiseLate (s : State) (entry : BitVec 16) : State := s.raise .closureLate (.cabin entry)

/-- DTX takes the point of an OPEN or SHUT point (R72). -/
def State.closurePoint (s : State) (entry : BitVec 16) (point a : Nat) : State :=
  match s.node a with
  | none => s
  | some n =>
    match n.txn.filter fun t => decide (t.entry = entry ∧ t.point = point ∧ t.overtaken = false) with
    | some t =>
      match t.state with
      | .primed => s.sendGo a t
      | .setting => (s.modTxn a fun t => { t with late := true }).raiseLate entry
      | .going => s
      | .acting => s
      | .detailing => s
    | none =>
      if n.waiting.any fun w => decide (w.entry = entry ∧ w.point = point) then
        (s.modNode a fun n =>
          { n with waiting := n.waiting.map fun w => if w.entry = entry ∧ w.point = point then { w with late := true } else w }).raiseLate
          entry
      else s

/-! ### CLOSURE_DONE, the act timer, polls and leaving (R71, R74, R75, R78) -/

/-- DTX takes a CLOSURE_DONE frame from node a (R74). An outcome code out of range makes it unusable (R172). -/
def State.closureDone (s : State) (a : Nat) (payload : List Word) : State :=
  match s.txnAt a, payload with
  | some t, [e, outcome] =>
    if t.state = .acting ∧ t.entry = e ∧ outcome = 0 then s.completeTxn a t
    else s.refuseFrame a Kind.closureDone .dtx
  | some t, [e, outcome, w1, w2] =>
    if t.state = .acting ∧ t.entry = e ∧ outcome = 1 then s.startDetail a t .faultReported (w1, w2)
    else s.refuseFrame a Kind.closureDone .dtx
  | _, _ => s.refuseFrame a Kind.closureDone .dtx

/-- The act timer of node a's transaction expires (R75). -/
def State.actExpiry (s : State) (a : Nat) : State :=
  match s.txnAt a with
  | some t => if t.state = .acting ∧ t.actTimer.isSome then s.startDetail a t .actLimit (0, 0) else s
  | none => s

/-- SET is queued again for a transaction whose retry mark is set (R71). -/
def State.retrySet (s : State) (a : Nat) : State :=
  match s.txnAt a with
  | some t =>
    if t.retry then
      let s := s.modTxn a fun t => { t with retry := false }
      if s.urgentFull then (s.failTxn a t .silent).silentExchange a
      else s.pushCommand { address := a, command := .set t.entry t.action, txn := some t.id }
    else s
  | none => s

/-- DTX is told of the end of a service poll (R71). -/
def State.pollEnded (s : State) : State := nodeAddresses.foldl State.retrySet s

/-- Node a ends what it holds for a record that left the train (R78). -/
def State.nodeLeave (entry : BitVec 16) (s : State) (a : Nat) : State :=
  let s := s.unlist a entry
  match s.txnAt a with
  | some t => if t.entry = entry ∧ t.state ≠ .detailing then s.cancelTxn a t else s
  | none => s

/-- DTX ends every claim of a record that left the train (R78). -/
def State.closureLeave (s : State) (entry : BitVec 16) : State :=
  (nodeAddresses.foldl (State.nodeLeave entry) s).clear .closureLate (.cabin entry)

end Sys2Proof.Machine
end

