-- ==== Sys2Proof/Machine/Grip.lean ====
section
/-! DEFINITION. GSW: grip expectations and verdicts, switch claims, the changes of DIVC (chapter 5). -/

namespace Sys2Proof.Machine

/-! ### Expectations (R85 to R87) -/

/-- The address whose kind in the node table is GRIP_UNIT (log 33). -/
def State.gripAddress (s : State) : Option Nat :=
  (s.slc.nodeTable.toList.findIdx? fun k => decide (k = .gripUnit)).map (· + 1)

/-- The expectation of an entry number leaves the list. -/
def State.dropExpectation (s : State) (entry : BitVec 16) : State :=
  s.modGsw fun g => { g with expectations := g.expectations.filter fun e => decide (e ≠ entry) }

/-- An expectation ends without a result: it is removed and NO_RESULT is claimed; one no longer held changes nothing
(R87, R91). -/
def State.endExpectation (s : State) (entry : BitVec 16) : State :=
  if entry ∈ s.gsw.expectations then
    (s.dropExpectation entry).claimRecord entry fun r => { r with grip := .noResult }
  else s

/-- GSW takes the lead of the GRIP_TEST point (R86). The list holds no entry number twice (R85; log 38). A full urgent
queue is silence at once (R146; log 11). -/
def State.gripLead (s : State) (entry : BitVec 16) : State :=
  let s := s.modGsw fun g =>
    { g with
      expectations := placeBehind (fun y => s.ahead y entry) entry (g.expectations.filter fun e => decide (e ≠ entry)) }
  let s := s.claimRecord entry fun r => { r with grip := .awaited, gripForce := none }
  match s.gripAddress, s.record entry with
  | some a, some r =>
    if s.urgentFull then (s.endExpectation entry).silentExchange a
    else s.pushCommand { address := a, command := .gripExpect entry r.cabin, txn := none }
  | _, _ => s

/-- GSW takes the completion of a GRIP_EXPECT (R87). -/
def State.gripCompletion (s : State) (q : QueuedCommand) (ans : Answer) : State :=
  match q.command with
  | .gripExpect e _ =>
    if q.command.judge ans = .accepted then s else (s.refuseIfDisallowed q ans .gsw).endExpectation e
  | _ => s

/-! ### The result (R53, R88 to R90) -/

/-- The retire claim (R53). -/
def State.retire (s : State) (cabin : BitVec 8) (force : Word) : State :=
  s.modTrn fun t =>
    { t with
      directory := mod1 t.directory cabin.toNat fun d => { d with retired := some .gripFail, force := some force } }

/-- The further effects of a FAIL verdict (R89). -/
def State.failGrip (s : State) (entry : BitVec 16) (cabin : BitVec 8) (force : Word) : State :=
  let s := s.claimRecord entry fun r => r.flagged .grip
  let s := if cabin = 0 then s else s.retire cabin force
  s.raise .gripFail (.cabin entry)

/-- The verdict on a measured force: both limits included (R88). -/
def State.verdict (s : State) (force : Word) : GripResult :=
  if s.site.gripMin ≤ force.toNat ∧ force.toNat ≤ s.site.gripMax then .pass else .fail

/-- A result is judged (R88). -/
def State.judgeGrip (s : State) (entry : BitVec 16) (force : Word) : State :=
  let v := s.verdict force
  let s := s.dropExpectation entry
  let s := s.claimRecord entry fun r => { r with grip := v, gripForce := some force }
  let cabin := match s.record entry with | some r => r.cabin | none => 0
  let s := s.report (.gripResult entry v cabin force)
  if v = .fail then s.failGrip entry cabin force else s

/-- The reason of a stray result, read from the train (R90). -/
def State.strayReason (s : State) (entry : BitVec 16) : StrayReason :=
  match s.record entry with
  | none => .unknown
  | some r =>
    match r.grip with
    | .noResult => .late
    | .pass => .duplicate
    | .fail => .duplicate
    | .notTested => .unknown
    | .awaited => .unknown

/-- GSW takes a GRIP_RESULT frame (R88, R90). -/
def State.gripResult (s : State) (payload : List Word) : State :=
  match payload with
  | [entry, force] =>
    if entry ∈ s.gsw.expectations then s.judgeGrip entry force
    else s.report (.gripStray entry (s.strayReason entry) force)
  | _ => s

/-! ### Switch claims (R91, R92) -/

/-- The head of the switch claim list drives the switch; with no claim the command stays (R92). -/
def Gsw.driveHead (g : Gsw) : Gsw :=
  match g.claims with
  | [] => g
  | c :: _ => { g with commanded := c.wanted }

/-- A switch claim leaves the list (R92, R93, R95). -/
def State.dropClaim (s : State) (entry : BitVec 16) : State :=
  s.modGsw fun g => { g with claims := g.claims.filter fun c => decide (c.entry ≠ entry) }.driveHead

/-- GSW takes the lead of the DIVERT point (R91). The list holds no entry number twice (R92; log 38). -/
def State.divertLead (s : State) (entry : BitVec 16) : State :=
  let s := s.endExpectation entry
  let s := s.claimRecord entry fun r => if r.grip = .pass then r else r.flagged .grip
  match s.record entry with
  | none => s
  | some r =>
    let c : SwitchClaim := { entry := entry, wanted := if r.divert.isSome then .garage else .main }
    s.modGsw fun g =>
      { g with
        claims := placeBehind (fun y => s.ahead y.entry entry) c
          (g.claims.filter fun c => decide (c.entry ≠ entry)) }.driveHead

/-! ### DIVC and leaving the train (R94, R95) -/

/-- What DIVC shows is the commanded position. -/
def SwitchPos.shownBy (p : SwitchPos) (d : DivcPos) : Bool :=
  match p, d with
  | .main, .main => true
  | .garage, .garage => true
  | _, _ => false

/-- The clear claims for DIVERT_FAULT, in the order the faults were added. -/
def State.clearFaults (s : State) : List (BitVec 16) → State
  | [] => s
  | e :: es => (s.clear .divertFault (.cabin e)).clearFaults es

/-- GSW takes a change of DIVC (R94). -/
def State.divcChanged (s : State) (divc0 divc1 : Bool) : State :=
  let old := s.divc
  let s := s.setPins { s.pins with divc0 := divc0, divc1 := divc1 }
  if s.divc ≠ old ∧ s.gsw.commanded.shownBy s.divc then
    (s.clearFaults s.gsw.faults).modGsw fun g => { g with faults := [] }
  else s

/-- GSW ends what it holds for a record that left the train (R95). -/
def State.gripLeave (s : State) (entry : BitVec 16) : State :=
  let s := (s.dropExpectation entry).dropClaim entry
  let s := s.modGsw fun g => { g with faults := g.faults.filter fun e => decide (e ≠ entry) }
  (s.clear .gripFail (.cabin entry)).clear .divertFault (.cabin entry)

end Sys2Proof.Machine
end

