-- ==== Sys2Proof/Machine/Train.lean ====
section
/-! DEFINITION. TRN: entry, tags, matching, crowding, departure, removal and restore; and the DIVERT point (chapters 3, 5). -/

namespace Sys2Proof.Machine

/-! ### Entry numbers (R44) -/

/-- The first number from n on that no record in the train carries; `fuel` is above the number of records. -/
def freeNumber (train : List CabinRecord) : Nat → BitVec 16 → BitVec 16
  | 0, n => n
  | fuel + 1, n => if train.any (fun r => decide (r.entry = n)) then freeNumber train fuel (n + 1) else n

/-- The entry number the next record is given. -/
def Trn.nextEntry (t : Trn) : BitVec 16 := freeNumber t.train (t.train.length + 1) t.entryCounter

/-- A record joins the tail, and the counter steps past its number. -/
def State.joinTrain (s : State) (r : CabinRecord) : State :=
  s.modTrn fun t => { t with train := t.train ++ [r], entryCounter := r.entry + 1 }

/-! ### Crowding (R54) -/

def State.crowdingTest (s : State) : State :=
  match s.trn.crowding with
  | .calm =>
    if s.site.crowdHigh ≤ s.trn.train.length then
      (s.raise .trainCrowded .noSubject).modTrn fun t => { t with crowding := .raised }
    else s
  | .raised =>
    if s.trn.train.length ≤ s.site.crowdLow then
      (s.clear .trainCrowded .noSubject).modTrn fun t => { t with crowding := .calm }
    else s

/-! ### Matching (R50) -/

/-- The cabin number of the directory entry that holds a tag code. -/
def Trn.cabinOf (t : Trn) (tag : BitVec 32) : Option Nat :=
  (t.directory.toList.findIdx? fun d => decide (d.tag = some tag)).map (· + 1)

/-- A CABIN_ENTERED report of a record as it stands. -/
def State.reportEntered (s : State) (entry : BitVec 16) : State :=
  match s.record entry with
  | some r => s.report (.cabinEntered entry r.tagState r.divert r.cabin r.tag)
  | none => s

/-- Another record of the train carries the cabin number. -/
def State.carriedByOther (s : State) (entry : BitVec 16) (cabin : Nat) : Bool :=
  s.trn.train.any fun r => decide (r.entry ≠ entry ∧ r.cabin.toNat = cabin)

/-- Directory entry n is RETIRED. -/
def State.isRetired (s : State) (cabin : Nat) : Bool :=
  match nth1 s.trn.directory cabin with
  | some d => d.retired.isSome
  | none => false

/-- A tag is matched to a record, whose tag timer is cancelled (R50). -/
def State.matchTag (s : State) (entry : BitVec 16) (tag : BitVec 32) : State :=
  let s := s.claimRecord entry fun r => { r with tag := some tag, tagTimer := none }
  let s :=
    match s.trn.cabinOf tag with
    | none =>
      (s.claimRecord entry fun r => { r.flagged .unidentified with tagState := .unknown }).raise
        .unknownCabin (.cabin entry)
    | some n =>
      if s.carriedByOther entry n then
        (s.claimRecord entry fun r => { r.flagged .duplicate with tagState := .matched }).raise
          .cabinDuplicate (.cabin entry)
      else
        let retired := s.isRetired n
        s.claimRecord entry fun r =>
          { (if retired then r.flagged .retired else r) with tagState := .matched, cabin := BitVec.ofNat 8 n }
  s.reportEntered entry

/-! ### The entry edge (R45) -/

/-- The record made at an entry edge (R45, step 1). -/
def newRecord (entry : BitVec 16) (count : BitVec 24) : CabinRecord :=
  { entry := entry, cabin := 0, tagState := .awaited, tag := none, entryCount := count, lastPoint := 0,
    confirmation := none, closure := .unknown, grip := .notTested, gripForce := none, divert := none,
    restored := false, tagTimer := none }

/-- The pending tag meets the new record, or the record's tag timer starts (R45, step 3). -/
def State.meetTag (s : State) (entry : BitVec 16) : State :=
  match s.trn.slot with
  | some p => (s.modTrn fun t => { t with slot := none }).matchTag entry p.tag
  | none => s.claimRecord entry fun r => { r with tagTimer := some s.site.tagHoldLimit }

/-- TRN takes the entry edge with its counter value (R45). -/
def State.entryEdge (s : State) (count : BitVec 24) : State :=
  let s := s.wake .entryEdge
  if 32 ≤ s.trn.train.length then
    (s.raise .trainOverflow .noSubject).modTrn fun t => { t with overflowFlag := true }
  else
    let entry := s.trn.nextEntry
    let s := s.joinTrain (newRecord entry count)
    let s := s.scheduleRecord entry count 0
    (s.meetTag entry).crowdingTest

/-! ### Tags (R47 to R49) -/

/-- The oldest AWAITED record. -/
def State.oldestAwaited (s : State) : Option CabinRecord :=
  s.trn.train.find? fun r => decide (r.tagState = .awaited)

/-- TRN takes a tag code with its slot or record (R48). -/
def State.takeTag (s : State) (tag : BitVec 32) : State :=
  if s.perm.line = .setup then s.report (.tagOrphan .setup tag s.mgt.lineTime)
  else
    match s.oldestAwaited with
    | some r => s.matchTag r.entry tag
    | none =>
      let s :=
        match s.trn.slot with
        | some p => s.report (.tagOrphan .displaced p.tag p.arrival)
        | none => s
      s.modTrn fun t =>
        { t with slot := some { tag := tag, arrival := s.mgt.lineTime, timer := s.site.tagHoldLimit } }

/-- TRN takes a TAG_READ frame of the tag reader; a tag code of 0 is refused (R48). -/
def State.tagRead (s : State) (source : Nat) (payload : List Word) : State :=
  match payload with
  | [hi, lo] => if wide hi lo = 0 then s.refuseFrame source Kind.tagRead .trn else s.takeTag (wide hi lo)
  | _ => s

/-- A record's tag timer expires (R47). -/
def State.tagExpired (s : State) (entry : BitVec 16) : State :=
  match s.record entry with
  | none => s
  | some r =>
    if r.tagState = .awaited ∧ r.tagTimer.isSome then
      let s := s.claimRecord entry fun r => { r.flagged .unidentified with tagState := .absent, tagTimer := none }
      (s.raise .unknownCabin (.cabin entry)).reportEntered entry
    else s

/-- The pending slot's timer expires (R49). -/
def State.slotExpired (s : State) : State :=
  match s.trn.slot with
  | none => s
  | some p => (s.modTrn fun t => { t with slot := none }).report (.tagOrphan .expired p.tag p.arrival)

/-! ### Leaving the train (R46, R55) -/

/-- The test of R46. -/
def State.roomTest (s : State) : State :=
  if s.trn.overflowFlag = true ∧ s.trn.train.length < 32 then
    (s.clear .trainOverflow .noSubject).modTrn fun t => { t with overflowFlag := false }
  else s

/-- A record leaves the train (R55): it is taken out with its tag timer, TRAV, DTX and GSW end what they hold, TRN
clears its causes, and the tests follow. An UNSAFE leave clears DEPART_UNSAFE after step 3 (R57). -/
def State.leave (s : State) (entry : BitVec 16) (unsafely : Bool) : State :=
  let s := s.modTrn fun t => { t with train := t.train.filter fun r => decide (r.entry ≠ entry) }
  let s := ((s.travLeave entry).closureLeave entry).gripLeave entry
  let s := ((s.clear .unknownCabin (.cabin entry)).clear .cabinDuplicate (.cabin entry)).clear
    .departBlocked (.cabin entry)
  let s := if unsafely then s.clear .departUnsafe (.cabin entry) else s
  s.roomTest.crowdingTest

/-! ### Departure (R56, R57) -/

/-- The three checks of R56 and R57. -/
def CabinRecord.fit (r : CabinRecord) : Bool :=
  decide (r.grip = .pass) && decide (r.divert = none) && decide (r.closure = .shut)

/-- TRN takes the DEPART lead (R56). -/
def State.departLead (s : State) (entry : BitVec 16) : State :=
  match s.record entry with
  | none => s
  | some r => if r.fit then s else s.raise .departBlocked (.cabin entry)

/-- TRN takes the DEPART point (R57). -/
def State.departPoint (s : State) (entry : BitVec 16) : State :=
  match s.record entry with
  | none => s
  | some r =>
    if r.fit then
      (s.leave entry false).report (.cabinDeparted entry .departed r.grip r.closure r.divert r.cabin)
    else
      ((s.raise .departUnsafe (.cabin entry)).leave entry true).report
        (.cabinDeparted entry .unsafely r.grip r.closure r.divert r.cabin)

/-! ### The DIVERT point (R93) -/

/-- DIVERT_FAULT is raised and the entry number joins the fault list (R93, step 1). -/
def State.divertFault (s : State) (entry : BitVec 16) : State :=
  (s.raise .divertFault (.cabin entry)).modGsw fun g => { g with faults := g.faults ++ [entry] }

/-- The record leaves by its DIVERT point, with the CABIN_DIVERTED report (R93, step 3; log 25). -/
def State.diverted (s : State) (r : CabinRecord) (outcome : DivertOutcome) (wanted : SwitchPos) (shown : DivcPos) :
    State :=
  (s.leave r.entry false).report (.cabinDiverted r.entry outcome wanted shown r.divert r.cabin)

/-- GSW takes the DIVERT point (R93). -/
def State.divertPoint (s : State) (entry : BitVec 16) : State :=
  match s.record entry, s.gsw.claims.find? fun c => decide (c.entry = entry) with
  | some r, some c =>
    match c.wanted, s.divc with
    | .garage, .garage => (s.dropClaim entry).diverted r .garage .garage .garage
    | .garage, .main => (s.divertFault entry).dropClaim entry
    | .garage, .between => (s.divertFault entry).dropClaim entry
    | .main, .main => s.dropClaim entry
    | .main, .between => (s.divertFault entry).dropClaim entry
    | .main, .garage => ((s.divertFault entry).dropClaim entry).diverted r .astray .main .garage
  | _, _ => s

/-! ### Removal and restore (R59, R61) -/

/-- A record leaves as REMOVED, with its CABIN_REMOVED report (R59; log 25). -/
def State.removeRecord (s : State) (r : CabinRecord) : State :=
  (s.leave r.entry false).report
    (.cabinRemoved r.entry r.tagState r.closure r.grip r.divert r.cabin r.lastPoint)

/-- The record an accepted RECORD_WRITE makes (R61, steps 1 to 3). -/
def restoredRecord (entry : BitVec 16) (counter : BitVec 24) (f : RestoreFields) : CabinRecord :=
  { entry := entry, cabin := BitVec.ofNat 8 f.cabin,
    tagState := if 0 < f.cabin then .matched else if f.tag.isSome then .unknown else .absent,
    tag := f.tag, entryCount := counter - BitVec.ofNat 24 f.distance.toNat, lastPoint := f.lastPoint,
    confirmation := none, closure := f.closure, grip := f.grip, gripForce := f.force, divert := f.reason,
    restored := true, tagTimer := none }

/-- An accepted RECORD_WRITE makes a record (R61). -/
def State.restore (s : State) (f : RestoreFields) : State :=
  let entry := s.trn.nextEntry
  let r := restoredRecord entry s.trav.counter f
  let s := s.joinTrain r
  let s := s.scheduleRecord entry r.entryCount f.lastPoint
  s.crowdingTest.report (.cabinRestored entry r.cabin f.distance)

end Sys2Proof.Machine
end

