-- ==== Sys2Proof/Machine/Travel.lean ====
section
/-! DEFINITION. TRAV: steps, reverse supervision, zone edges, confirmation and the firing of the schedule (chapter 2). -/

namespace Sys2Proof.Machine

/-! ### Firing (R31, R33, R34, R39) -/

/-- The lead of point k is handed to its owner (R33). -/
def State.handLead (s : State) (entry : BitVec 16) (k : Nat) (p : PathPoint) : State :=
  match p.action, p.node with
  | .entry, _ => s
  | .openAt, some a => s.closureLead entry .toOpen k a
  | .openAt, none => s
  | .shutAt, some a => s.closureLead entry .toShut k a
  | .shutAt, none => s
  | .gripTest, _ => s.gripLead entry
  | .divert, _ => s.divertLead entry
  | .depart, _ => s.departLead entry
  | .mark, _ => s

/-- Point k is handed to its owner (R33); GSW takes the GRIP_TEST point without any change (R86). -/
def State.handPoint (s : State) (entry : BitVec 16) (k : Nat) (p : PathPoint) : State :=
  match p.action, p.node with
  | .entry, _ => s
  | .openAt, some a => s.closurePoint entry k a
  | .openAt, none => s
  | .shutAt, some a => s.closurePoint entry k a
  | .shutAt, none => s
  | .gripTest, _ => s
  | .divert, _ => s.divertPoint entry
  | .depart, _ => s.departPoint entry
  | .mark, _ => s

/-- Step 2 of R34: the WINDOW_END entry of a record that awaits k, or the end of the supervision of k. -/
def State.superviseAt (s : State) (r : CabinRecord) (k : Nat) (p : PathPoint) : State :=
  match r.confirmation with
  | none => s.endSupervision r.entry k
  | some c =>
    if c = k then
      s.addSched
        { entry := r.entry, kind := .windowEnd, point := k,
          due := r.entryCount + BitVec.ofNat 24 p.offset + BitVec.ofNat 24 p.tolerance }
    else s

/-- A POINT entry for point k fires (R34). -/
def State.firePoint (s : State) (entry : BitVec 16) (k : Nat) : State :=
  match s.record entry, s.trav.path[k]? with
  | some r, some p =>
    let s := s.claimRecord entry fun r => { r with lastPoint := k }
    let s := s.superviseAt r k p
    let s := if p.action = .depart then s else s.schedulePoint entry r.entryCount (k + 1)
    let s := if p.lead = 0 ∧ p.action.hasOwner then s.handLead entry k p else s
    s.handPoint entry k p
  | _, _ => s

/-- A LEAD entry fires (R33). -/
def State.fireLead (s : State) (entry : BitVec 16) (k : Nat) : State :=
  match s.trav.path[k]? with
  | some p => s.handLead entry k p
  | none => s

/-- A WINDOW_END entry fires (R39). -/
def State.fireWindowEnd (s : State) (entry : BitVec 16) (k : Nat) : State :=
  match s.record entry with
  | some r =>
    if r.confirmation = some k then (s.raise .cabinSlip (.cabin entry)).endSupervision entry k else s
  | none => s

/-- One entry leaves the schedule and fires (R31). -/
def State.fire (s : State) (e : SchedEntry) : State :=
  let s := s.modTrav fun t => { t with schedule := t.schedule.erase e }
  match e.kind with
  | .lead => s.fireLead e.entry e.point
  | .point => s.firePoint e.entry e.point
  | .windowEnd => s.fireWindowEnd e.entry e.point

/-- The most firings an entry can lead to: a POINT entry adds three entries at most, those of the next point (log 24). -/
def SchedEntry.weight (points : Nat) (e : SchedEntry) : Nat :=
  match e.kind with
  | .lead => 1
  | .point => 3 * (points - e.point) + 1
  | .windowEnd => 1

/-- The most firings one pass can make. -/
def Trav.weight (t : Trav) : Nat := (t.schedule.map fun e => e.weight t.path.length).sum

/-- Fire due entries one after another in schedule order (R31). -/
def State.fireUpTo (s : State) : Nat → State
  | 0 => s
  | n + 1 =>
    match s.trav.nextDue with
    | none => s
    | some e => (s.fire e).fireUpTo n

/-- A firing pass (R31, R35). -/
def State.firePass (s : State) : State := s.fireUpTo s.trav.weight

/-! ### The encoder (R23 to R25) -/

/-- The channels after one quadrature step; in the forward sense CEA changes before CEB. -/
def quadratureStep (p : InputLevels) (forward : Bool) : InputLevels :=
  if (p.cea == p.ceb) == forward then { p with cea := !p.cea } else { p with ceb := !p.ceb }

/-- The forward travel has regained the high-water count: CONVEYOR_REVERSE's condition clears (R25). -/
def State.regain (s : State) : State :=
  if s.trav.reverseFlag = true ∧ s.trav.shortfall = 0 then
    (s.clear .conveyorReverse .noSubject).modTrav fun t => { t with reverseFlag := false }
  else s

/-- The travel counter and high-water count after one forward step (R23, R24). -/
def Trav.forward (t : Trav) : Trav :=
  { t with
    counter := t.counter + 1
    highWater := if atOrAhead (t.counter + 1) t.highWater then t.counter + 1 else t.highWater }

/-- One forward step (R23, R24, R25, R31). -/
def State.stepForward (s : State) : State :=
  let s := s.setPins (quadratureStep s.pins true)
  let s := (s.modTrav Trav.forward).regain
  if s.perm.line = .setup then s else s.firePass

/-- One reverse step (R23, R25). -/
def State.stepReverse (s : State) : State :=
  let s := s.setPins (quadratureStep s.pins false)
  let s := s.modTrav fun t => { t with counter := t.counter - 1 }
  if (s.perm.line = .running ∨ s.perm.line = .stopping) ∧ s.site.reverseLimit < s.trav.shortfall ∧
      s.trav.reverseFlag = false then
    (s.raise .conveyorReverse .noSubject).modTrav fun t => { t with reverseFlag := true }
  else s

/-- Both channels change together (R23). -/
def State.skipStep (s : State) : State :=
  (s.setPins { s.pins with cea := !s.pins.cea, ceb := !s.pins.ceb }).report (.encoderSkip s.trav.counter)

/-- TRAV takes the line's move into RUNNING (R24). -/
def State.travRunning (s : State) : State :=
  let s := s.modTrav fun t => { t with highWater := t.counter }
  if s.trav.reverseFlag then
    (s.modTrav fun t => { t with reverseFlag := false }).clear .conveyorReverse .noSubject
  else s

/-! ### Zone edges (R28, R38) -/

/-- The record's distance lies within the confirmation window of a point, both ends included. -/
def CabinRecord.inWindow (r : CabinRecord) (counter : BitVec 24) (p : PathPoint) : Bool :=
  decide ((p.offset : Int) - p.tolerance ≤ r.distance counter) &&
  decide (r.distance counter ≤ (p.offset : Int) + p.tolerance)

/-- The first record, oldest first, that awaits point k and lies in its window. -/
def State.candidate (s : State) (k : Nat) : Option CabinRecord :=
  match s.trav.path[k]? with
  | none => none
  | some p => s.trn.train.find? fun r => decide (r.confirmation = some k) && r.inWindow s.trav.counter p

/-- A confirmation edge on input z for point k (R38). -/
def State.confirm (s : State) (z k : Nat) : State :=
  match s.candidate k with
  | some r => (((s.dropWindowEnd r.entry k).endSupervision r.entry k)).clear .zoneUnexpected (.input z)
  | none => s.raise .zoneUnexpected (.input z)

/-- A rising edge on zone input z, outside SETUP (R28). -/
def State.zoneTaken (s : State) (z : Nat) : State :=
  match s.trav.pointOf z with
  | none => s
  | some 0 => s.entryEdge s.trav.counter
  | some (k + 1) => if s.trav.masked z then s else s.confirm z (k + 1)

/-- A rising edge on zone input z (R28); the level is now high. -/
def State.zoneRise (s : State) (z : Nat) : State :=
  let s := s.setPins { s.pins with zin := s.pins.zin.setIfInBounds z true }
  if s.perm.line = .setup then s else s.zoneTaken z

end Sys2Proof.Machine
end

