-- ==== Sys2Proof/Machine/Rope.lean ====
section
/-! DEFINITION. RSU: valid slots, rope conditions and misses (chapter 7). -/

namespace Sys2Proof.Machine

def State.modRuntime (s : State) (k : Nat) (f : TowerRuntime → TowerRuntime) : State :=
  s.modRsu fun u => { u with runtime := mod1 u.runtime k f }

/-- The runtime record of tower k. -/
def State.runtimeAt (s : State) (k : Nat) : TowerRuntime := (nth1 s.rsu.runtime k).getD TowerRuntime.fresh

/-- The tower table's entry for tower k. -/
def State.towerAt (s : State) (k : Nat) : Option TowerEntry := (nth1 s.rsu.towers k).getD none

/-! ### Conditions (R116, R117) -/

/-- A reading lies inside a window, bounds included (R116). -/
def Reading.inside (r : Reading) (w : Window) : Bool :=
  decide (w.posLow ≤ r.position.toInt ∧ r.position.toInt ≤ w.posHigh) &&
  decide (w.loadLow ≤ r.load.toNat ∧ r.load.toNat ≤ w.loadHigh)

/-- The readings of the supervised assemblies. -/
def TowerEntry.supervised (t : TowerEntry) (rs : List Reading) : List Reading :=
  (rs.zipIdx.filter fun (_, i) => t.mask.getLsbD i).map Prod.fst

def TowerEntry.showsOff (t : TowerEntry) (rs : List Reading) : Bool := (t.supervised rs).any fun r => r.ropeOff

def TowerEntry.showsLimit (t : TowerEntry) (rs : List Reading) : Bool :=
  (t.supervised rs).any fun r => !r.inside t.outer

def TowerEntry.showsWarn (t : TowerEntry) (rs : List Reading) : Bool :=
  (t.supervised rs).any fun r => !r.inside t.inner

/-! ### Claims (R118) -/

/-- One rope claim: raised while shown, cleared once when no longer shown (R118). -/
def State.ropeClaim (s : State) (k : Nat) (kind : CauseKind) (shown flag : Bool)
    (set : TowerRuntime → Bool → TowerRuntime) : State :=
  if shown then (s.raise kind (.tower k)).modRuntime k fun t => set t true
  else if flag then (s.clear kind (.tower k)).modRuntime k fun t => set t false
  else s

/-- The three rope claims of a slot, in their order (R118). -/
def State.ropeClaims (s : State) (k : Nat) (t : TowerEntry) (rs : List Reading) : State :=
  let s := s.ropeClaim k .ropeOff (t.showsOff rs) (s.runtimeAt k).off fun u b => { u with off := b }
  let s := s.ropeClaim k .ropeLimit (t.showsLimit rs) (s.runtimeAt k).limit fun u b => { u with limit := b }
  s.ropeClaim k .ropeWarn (t.showsWarn rs) (s.runtimeAt k).warn fun u b => { u with warn := b }

/-- RSU takes a valid slot for tower k (R115). -/
def State.towerSlot (s : State) (k : Nat) (sweep : BitVec 16) (rs : List Reading) : State :=
  let s := s.modRuntime k fun u => { u with missCount := 0 }
  let s :=
    if (s.runtimeAt k).silent then
      (s.clear .towerSilent (.tower k)).modRuntime k fun u => { u with silent := false }
    else s
  let s := s.modRuntime k fun u => { u with last := some { sweep := sweep, time := s.mgt.lineTime, readings := rs } }
  match s.towerAt k with
  | some t => s.ropeClaims k t rs
  | none => s

/-- RSU takes a miss for tower k (R119). -/
def State.towerMiss (s : State) (k : Nat) : State :=
  match s.towerAt k with
  | none => s
  | some t =>
    if (s.runtimeAt k).missCount < t.missLimit then
      let s := s.modRuntime k fun u => { u with missCount := u.missCount + 1 }
      if (s.runtimeAt k).missCount = t.missLimit then
        (s.raise .towerSilent (.tower k)).modRuntime k fun u => { u with silent := true }
      else s
    else s.raise .towerSilent (.tower k)

end Sys2Proof.Machine
end

