-- ==== Sys2Proof/Machine/Summit.lean ====
section
/-! DEFINITION. SMT: the summit slot, the call machine, the valley signal word and the voice queues (chapter 8). -/

namespace Sys2Proof.Machine

/-- The codec's silence code (00, Terms). -/
def silenceCode : Byte := 128

/-! ### The call machine (R131 to R135) -/

/-- A change of the call state with its common effects (R131). VSO shows the silence code from the event in which the call
leaves CONNECTED, and not from the next sample time (R138, 8.8; log 41). -/
def State.setCall (s : State) (new : CallState) (event : CallEvent) : State :=
  let old := s.smt.call
  let s := if old = .idle then s.wake .call else s
  let ringing := decide (new = .outgoing ∨ new = .incoming)
  let limit := s.site.ringLimit * 1000
  let s := s.modSmt fun m =>
    { m with
      call := new
      ringTimer := if ringing then some limit else none
      ring := m.ring && !decide (new = .idle ∨ new = .clearing)
      uplink := if old = .connected then [] else m.uplink
      downlink := if old = .connected then [] else m.downlink
      playback := if old = .connected then .waiting else m.playback
      vso := if old = .connected then silenceCode else m.vso }
  s.report (.callState old new event)

/-- An entry into IDLE with its CALL_ENDED report (R131). -/
def State.endCall (s : State) (outcome : CallOutcome) (event : CallEvent) : State :=
  let s := s.setCall .idle event
  s.report (.callEnded outcome s.smt.autoMark s.smt.startTime s.smt.concealed)

/-- An entry to OUTGOING or INCOMING from IDLE begins the call record afresh (R131). -/
def State.beginCall (s : State) (new : CallState) (auto hook : Bool) (event : CallEvent) : State :=
  let s := s.setCall new event
  s.modSmt fun m =>
    { m with autoMark := auto, hookMark := hook, startTime := s.mgt.lineTime, clearingCount := 0, concealed := 0 }

/-- OUTGOING goes to CONNECTED; an automatic call rings while the handset is on-hook (R133). -/
def State.connectOut (s : State) (event : CallEvent) : State :=
  let s := s.setCall .connected event
  if s.smt.autoMark = true ∧ s.pins.hook = false then s.modSmt fun m => { m with ring := true } else s

/-- IDLE goes to OUTGOING, and on to CONNECTED where the summit calls or answers already (R132; log 10). -/
def State.placeCall (s : State) (auto hook : Bool) (event : CallEvent) : State :=
  let s := s.beginCall .outgoing auto hook event
  match s.smt.heldCall with
  | .call => s.connectOut .summitCall
  | .answer => s.connectOut .summitAnswer
  | .nothing => s
  | .hangup => s

/-- An off-hook edge in the call machine (R132 to R135). -/
def State.callOffHook (s : State) : State :=
  match s.smt.call with
  | .idle => s.placeCall false true .offHook
  | .outgoing => s.modSmt fun m => { m with hookMark := true }
  | .incoming => (s.setCall .connected .offHook).modSmt fun m => { m with hookMark := true, ring := false }
  | .connected => s.modSmt fun m => { m with hookMark := true, ring := false }
  | .clearing => s

/-- An on-hook edge in the call machine (R132 to R135). -/
def State.callOnHook (s : State) : State :=
  match s.smt.call with
  | .idle => s
  | .outgoing => if s.smt.autoMark then s else s.endCall .abandoned .onHook
  | .incoming => s
  | .connected => if s.smt.hookMark then s.setCall .clearing .onHook else s
  | .clearing => s

/-- HOOK shows a new level; in SETUP the edge is ignored for the call (R132). -/
def State.hookEdge (s : State) (offHook : Bool) : State :=
  let s := s.setPins { s.pins with hook := offHook }
  if s.perm.line = .setup then s else if offHook then s.callOffHook else s.callOnHook

/-- A call code is taken (R129, R132 to R135). -/
def State.callCodeTaken (s : State) (c : CallCode) : State :=
  match s.smt.call, c with
  | .idle, .call => (s.beginCall .incoming false false .summitCall).modSmt fun m => { m with ring := true }
  | .outgoing, .call => s.connectOut .summitCall
  | .outgoing, .answer => s.connectOut .summitAnswer
  | .incoming, .nothing => s.endCall .withdrawn .summitNone
  | .incoming, .hangup => s.endCall .withdrawn .summitHangup
  | .connected, .nothing => s.endCall .endedSummit .summitNone
  | .connected, .hangup => s.endCall .endedSummit .summitHangup
  | .clearing, .nothing => s.endCall .endedValley .summitNone
  | .clearing, .hangup => s.endCall .endedValley .summitHangup
  | _, _ => s

/-- The automatic call claim is taken: it places the call from IDLE, and is ignored elsewhere (R17, R132; log 9). -/
def State.takeAutoClaim (s : State) : State :=
  if s.smt.autoClaims = 0 then s
  else
    let s := s.modSmt fun m => { m with autoClaims := m.autoClaims - 1 }
    if s.smt.call = .idle ∧ s.perm.line ≠ .setup then s.placeCall true s.pins.hook .autoCall else s

/-- The ring timer expires (R133, R134). -/
def State.ringExpired (s : State) : State :=
  if s.smt.ringTimer = none then s
  else
    match s.smt.call with
    | .outgoing => s.endCall .unanswered .ringLimit
    | .incoming => s.endCall .missed .ringLimit
    | .idle => s
    | .connected => s
    | .clearing => s

/-- SMT takes the line's move into SETUP (R127, R132). -/
def State.summitSetup (s : State) : State :=
  let s := s.modSmt fun m => { m with releaseRun := none, callRun := none }
  if s.smt.call = .idle then s else s.endCall .dropped .setupEntered

/-! ### The valley signal word (R130, 11.3) -/

/-- The valley safety code (R130). -/
def Perm.valleySafety (p : Perm) : SafetyCode :=
  if p.holdsResponse .emergency then .emergency
  else if p.line ≠ .running then .stop
  else if p.holdsResponse .slow then .slow
  else .clear

/-- The valley call code (R130). -/
def CallState.valleyCode : CallState → CallCode
  | .idle => .nothing | .outgoing => .call | .incoming => .nothing | .connected => .answer | .clearing => .hangup

/-- The valley signal word: safety code in bits 3 to 0, call code in bits 7 to 4. -/
def State.valleyWord (s : State) : Word := word (s.perm.valleySafety.code + 16 * s.smt.call.valleyCode.code)

/-- SMT counts a sweep sent: in CLEARING the twentieth ends the call (R130, R135). -/
def State.countSweep (s : State) : State :=
  if s.smt.call = .clearing then
    let s := s.modSmt fun m => { m with clearingCount := m.clearingCount + 1 }
    if s.smt.clearingCount = 20 then s.endCall .endedValley .clearingLimit else s
  else s

/-! ### Voice (R136 to R138) -/

/-- A queue of at most 256 takes one more at its tail and drops its oldest. -/
def joinCapped {α : Type} (queue : List α) (x : α) : List α := (if queue.length < 256 then queue else queue.drop 1) ++ [x]

/-- A sample arrives on VSI (R136). -/
def State.sampleIn (s : State) (b : Byte) : State :=
  if s.smt.call = .connected then s.modSmt fun m => { m with uplink := joinCapped m.uplink b } else s

/-- The uplink voice field: the 80 oldest samples, padded with silence codes (R136). -/
def uplinkField (queue : List Byte) : List Byte := (queue ++ List.replicate 80 silenceCode).take 80

/-- Entries join the downlink queue one by one in CONNECTED (R137). -/
def State.appendDown (s : State) (es : List DownEntry) : State :=
  if s.smt.call = .connected then s.modSmt fun m => { m with downlink := es.foldl joinCapped m.downlink } else s

/-- The 80 concealed entries of a sweep without a summit voice field (R137). -/
def concealedField : List DownEntry := List.replicate 80 { sample := silenceCode, concealed := true }

/-- The concealed count steps where a concealed entry is output (R138). -/
def Smt.play (m : Smt) : Smt :=
  match m.downlink with
  | [] => { m with vso := silenceCode, playback := .waiting }
  | e :: rest =>
    { m with
      vso := e.sample
      downlink := rest
      playback := .playing
      concealed := if e.concealed then min 65535 (m.concealed + 1) else m.concealed }

/-- One codec sample time on VSO (R138). -/
def State.sampleOut (s : State) : State :=
  s.modSmt fun m =>
    if m.call = .connected then
      match m.playback with
      | .waiting => if m.downlink.length < 160 then { m with vso := silenceCode } else m.play
      | .playing => m.play
    else { m with vso := silenceCode }

/-! ### The summit slot (R125 to R129) -/

/-- SMT takes a summit miss (R126). -/
def State.summitMiss (s : State) : State :=
  let s := s.modSmt fun m => { m with releaseRun := none, callRun := none }
  let reached := decide (s.site.summitMissLimit ≤ s.smt.missCount + 1)
  let counted := decide (s.smt.missCount < s.site.summitMissLimit)
  let s := if counted then s.modSmt fun m => { m with missCount := m.missCount + 1 } else s
  if reached then
    let s := s.raise .summitLost .summit
    let s := if counted then s.modSmt fun m => { m with lostFlag := true } else s
    if s.smt.call = .idle then s else s.endCall .dropped .summitLost
  else s.appendDown concealedField

/-- The cause kind a held safety code shows (R128). -/
def SafetyCode.cause : SafetyCode → Option CauseKind
  | .clear => none | .slow => some .summitSlow | .stop => some .summitStop | .emergency => some .summitEmergency

/-- SMT raises the kind a code shows. -/
def State.raiseCode (s : State) (c : SafetyCode) : State :=
  match c.cause with | some k => s.raise k .summit | none => s

/-- SMT clears the kind a code showed. -/
def State.clearCode (s : State) (c : SafetyCode) : State :=
  match c.cause with | some k => s.clear k .summit | none => s

/-- A new held safety code: its kind is raised, then the old kind's condition clears (R128). -/
def State.holdSafety (s : State) (c : SafetyCode) : State :=
  let old := s.smt.held
  let s := s.modSmt fun m => { m with held := c, releaseRun := none }
  (s.raiseCode c).clearCode old

/-- A run holds the same code with a sweep number consecutive to n (R127). -/
def completesRun {α : Type} [DecidableEq α] (run : Option (α × BitVec 16)) (c : α) (n : BitVec 16) : Bool :=
  decide (run = some (c, n - 1))

/-- The safety code of a taken slot of sweep n (R127, R128). -/
def State.judgeSafety (s : State) (c : SafetyCode) (n : BitVec 16) : State :=
  if s.smt.held.code < c.code then s.holdSafety c
  else if c = s.smt.held then (s.modSmt fun m => { m with releaseRun := none }).raiseCode c
  else if completesRun s.smt.releaseRun c n then s.holdSafety c
  else (s.modSmt fun m => { m with releaseRun := some (c, n) }).raiseCode s.smt.held

/-- The call code of a taken slot of sweep n (R129). -/
def State.judgeCall (s : State) (c : CallCode) (n : BitVec 16) : State :=
  if c = s.smt.heldCall then s.modSmt fun m => { m with callRun := none }
  else if completesRun s.smt.callRun c n then
    (s.modSmt fun m => { m with heldCall := c, callRun := none }).callCodeTaken c
  else s.modSmt fun m => { m with callRun := some (c, n) }

/-- The entries a taken slot gives the downlink queue: its samples, or 80 concealed entries where it carries none. A slot
with no voice field is concealed after the connection, so the slot whose own code connects the call gives none
(R137; log 39). -/
def SummitContents.downlink (c : SummitContents) (connected : Bool) : List DownEntry :=
  match c.voice with
  | some samples => samples.map fun b => { sample := b, concealed := false }
  | none => if connected then concealedField else []

/-- SMT takes a valid summit slot (R125). -/
def State.summitSlot (s : State) (n : BitVec 16) (slot : List Word) : State :=
  match parseSummit slot with
  | none => s.summitMiss
  | some c =>
    let connected := decide (s.smt.call = .connected)
    let s := s.modSmt fun m => { m with missCount := 0 }
    let s :=
      if s.smt.lostFlag then
        (s.clear .summitLost .summit).modSmt fun m => { m with lostFlag := false }
      else s
    ((s.judgeSafety c.safety n).judgeCall c.call n).appendDown (c.downlink connected)

end Sys2Proof.Machine
end

