-- ==== Sys2Proof/Machine/Sweep.lean ====
section
/-! DEFINITION. SWP: sending a sweep, its return, its deadline and its slots; what the blocks do with a new line state
(chapter 6). -/

namespace Sys2Proof.Machine

/-! ### Sending (R99, R101) -/

/-- The interval in milliseconds, from the line state and the call state (R99). -/
def State.sweepInterval (s : State) : Nat := if s.perm.line = .quiet ∧ s.smt.call = .idle then 500 else 10

/-- Samples packed two to a word, the earlier in bits 15 to 8 (11.3). -/
def packVoice : List Byte → List Word
  | a :: b :: rest => (a ++ b) :: packVoice rest
  | [a] => [a ++ silenceCode]
  | [] => []

/-- The words of a SWEEP frame before its check: header, uplink voice field, empty slots (R101, 11.3). -/
def sweepRun (number : BitVec 16) (towers : Nat) (valley : Word) (voice : Option (List Byte)) : List Word :=
  let mark := if voice.isSome then 32768 else 0
  [number, word (towers % 32 + mark), valley] ++ packVoice (voice.getD []) ++ List.replicate (19 * towers) 0 ++
    List.replicate 42 0

/-- The uplink voice field, in CONNECTED (R136). -/
def State.uplinkVoice (s : State) : Option (List Byte) :=
  if s.smt.call = .connected then some (uplinkField s.smt.uplink) else none

/-- SMT hands over the 80 oldest samples of its uplink queue (R136). -/
def State.takeUplink (s : State) : State :=
  if s.smt.call = .connected then s.modSmt fun m => { m with uplink := m.uplink.drop 80 } else s

/-- A sweep is sent (R101). -/
def State.sendSweep (s : State) : State :=
  let run := sweepRun s.swp.number s.site.towerCount s.valleyWord s.uplinkVoice
  let s := s.takeUplink.countSweep
  s.modSwp fun w =>
    { w with
      tlOut := run ++ [checkWord run]
      outstanding := some { number := w.number, sendTime := s.mgt.lineTime }
      deadlineTimer := some 8
      number := w.number + 1
      sent := w.sent + 1 }

/-- A sweep is sent and the interval timer restarts from the states as they stand at the send (R99). -/
def State.sendAndRestart (s : State) : State :=
  let s := s.sendSweep
  s.modSwp fun w => { w with intervalTimer := some s.sweepInterval }

/-- The interval timer expires (R99; log 31). -/
def State.intervalExpired (s : State) : State := if s.swp.intervalTimer = none then s else s.sendAndRestart

/-- SWP takes the line's move into SETUP (R100). -/
def State.sweepSetup (s : State) : State :=
  s.modSwp fun w => { w with intervalTimer := none, deadlineTimer := none, outstanding := none }

/-! ### Slots (R105 to R107) -/

/-- A slot's own check: the sum of all its words (R171). -/
def slotCheckGood (slot : List Word) : Bool := decide (sumWords slot = 65535)

/-- What a tower slot is found to be (R105). -/
inductive SlotVerdict where
  | valid (readings : List Reading)
  | mismatch (inSlot inTable : Nat)
  | bad
  deriving DecidableEq, Repr

/-- The assembly count of the tower table's entry. -/
def State.assembliesAt (s : State) (k : Nat) : Nat :=
  match s.towerAt k with
  | some t => t.assemblies
  | none => 0

/-- The judgement of the slot in place k against the table's assembly count, in the order of the table of R105. -/
def judgeSlot (k inTable : Nat) (slot : List Word) : SlotVerdict :=
  match slot with
  | [] => .bad
  | w :: rest =>
    if bit w 15 = false then .bad
    else if slotCheckGood slot = false then .bad
    else if field w 0 5 ≠ k then .bad
    else if field w 8 4 ≠ inTable then .mismatch (field w 8 4) inTable
    else .valid (parseReadings (rest.getD 16 0) inTable 0 rest)

/-- The slot in place k is judged and handed to RSU (R105, R106). -/
def State.takeTowerSlot (s : State) (k : Nat) (sweep : BitVec 16) (slot : List Word) : State :=
  match judgeSlot k (s.assembliesAt k) slot with
  | .valid rs => (s.modSwp fun w => { w with mismatch := mod1 w.mismatch k fun _ => false }).towerSlot k sweep rs
  | .bad => s.towerMiss k
  | .mismatch inSlot inTable =>
    let s :=
      if (nth1 s.swp.mismatch k).getD false then s
      else
        (s.report (.towerMismatch k inSlot inTable sweep)).modSwp fun w =>
          { w with mismatch := mod1 w.mismatch k fun _ => true }
    s.towerMiss k

/-- The summit slot is judged and handed to SMT (R107). -/
def State.takeSummitSlot (s : State) (sweep : BitVec 16) (slot : List Word) : State :=
  if bit (slot.headD 0) 15 = true ∧ slotCheckGood slot = true then s.summitSlot sweep slot else s.summitMiss

/-! ### Returns (R102 to R104) -/

/-- The tower numbers of a sweep, ascending. -/
def towerNumbers (towers : Nat) : List Nat := List.range' 1 towers

/-- The tower count stated by a frame is the site record's; before it is written the test is not made (log 20). -/
def State.towerCountOk (s : State) (towers : Nat) : Bool :=
  match s.mgt.site with
  | some r => decide (towers = r.towerCount)
  | none => true

/-- A returned frame is intact: whole, a good check, the site's tower count, the length of its layout (R102). -/
def State.returnIntact (s : State) (ws : List Word) : Bool :=
  match ws with
  | _ :: h :: _ =>
    decide (sumWords ws = 65535) && s.towerCountOk (field h 0 5) &&
    decide (ws.length = sweepLength (field h 0 5) (bit h 15))
  | _ => false

/-- A valid return ends the outstanding sweep and its slots are handed on (R103): the towers', then the summit's (log 36),
each judged, with its TOWER_MISMATCH report, as it is handed on (log 40). -/
def State.validReturn (s : State) (ws : List Word) (n h : Word) : State :=
  let s := s.modSwp fun w => { w with deadlineTimer := none, outstanding := none, valid := w.valid + 1 }
  let s := (towerNumbers (field h 0 5)).foldl
    (fun s k => s.takeTowerSlot k n (towerSlotWords ws (bit h 15) k)) s
  s.takeSummitSlot n (summitSlotWords ws (bit h 15) (field h 0 5))

/-- A frame arrives on TL-RET (R102). -/
def State.returned (s : State) (ws : List Word) : State :=
  if s.returnIntact ws = false then s.modSwp fun w => { w with corrupt := w.corrupt + 1 }
  else
    match ws with
    | n :: h :: _ =>
      if s.swp.outstanding.map Outstanding.number = some n then s.validReturn ws n h
      else s.modSwp fun w => { w with stale := w.stale + 1 }
    | _ => s

/-- The return deadline timer expires: a miss for every tower, then for the summit (R104; log 36). -/
def State.deadlineExpired (s : State) : State :=
  if s.swp.deadlineTimer = none ∨ s.swp.outstanding = none then s
  else
    let s := s.modSwp fun w => { w with deadlineTimer := none, outstanding := none, missed := w.missed + 1 }
    ((towerNumbers s.site.towerCount).foldl State.towerMiss s).summitMiss

/-! ### A new line state at SWP, SMT and TRAV (R1; log 8) -/

/-- The line leaves SETUP for HELD: the first sweep is sent, and TRAV makes a firing pass (R35, R100). -/
def State.lineReadied (s : State) : State := (s.setLine .held (.request .lineReady)).sendAndRestart.firePass

/-- The line enters SETUP (R5, R100, R127, R132). -/
def State.lineToSetup (s : State) : State :=
  ((s.setLine .setup (.request .lineSetup)).sweepSetup).summitSetup

/-- The line enters RUNNING: the silence timer starts and TRAV resets the high-water count (R6, R12, R24). -/
def State.lineStarted (s : State) : State :=
  let s := s.setLine .running (.request .lineStart)
  (s.modPerm fun p => { p with silenceTimer := some (s.site.silenceLimit * 1000) }).travRunning

end Sys2Proof.Machine
end

