-- ==== Sys2Proof/Machine/Layouts.lean ====
section
/-! DEFINITION. The words the 640 sends on the station line: frames, table entries, RESPONSE payloads and report
entries (11.2). -/

namespace Sys2Proof.Machine

/-! ### Frames -/

/-- A frame of the 640: marked header, source 0, kind word, length, payload, check (R140). -/
def buildFrame (destination : Nat) (tag kind : Byte) (payload : List Word) : List Word :=
  let run := [word destination, 0, tag ++ kind, word payload.length] ++ payload
  run ++ [checkWord run]

/-- The kind of a command frame (11.2). -/
def Command.kind : Command → Byte
  | .set _ _ => Kind.setCmd
  | .go _ => Kind.goCmd
  | .detail _ => Kind.detailCmd
  | .cancel _ => Kind.cancelCmd
  | .clear => Kind.clear
  | .gripExpect _ _ => Kind.gripExpect

/-- The payload of a command frame (11.2). -/
def Command.payload : Command → List Word
  | .set e action => [e, word action.code]
  | .go e => [e]
  | .detail e => [e]
  | .cancel e => [e]
  | .clear => []
  | .gripExpect e cabin => [e, cabin.setWidth 16]

def QueuedCommand.frame (q : QueuedCommand) : List Word := buildFrame q.address 0 q.command.kind q.command.payload

/-- The RESPONSE frame (R152). -/
def PendingResponse.frame (r : PendingResponse) : List Word :=
  buildFrame 30 r.tag Kind.response (word r.kind.code :: word r.result.code :: r.payload)

/-! ### Table entries (11.2) -/

def PathPoint.words (p : PathPoint) : List Word :=
  [word (p.action.code + 8 * flag p.zone.isSome + 16 * p.zone.getD 0 + 256 * p.node.getD 0), word p.offset, word p.lead,
    word p.tolerance]

/-- A window's four bounds: positions in two's complement. -/
def Window.words (w : Window) : List Word :=
  [BitVec.ofInt 16 w.posLow, BitVec.ofInt 16 w.posHigh, word w.loadLow, word w.loadHigh]

def TowerEntry.words (t : TowerEntry) : List Word :=
  word (t.assemblies + 16 * t.missLimit + 256 * t.mask.toNat) :: (t.inner.words ++ t.outer.words)

/-- The retire reason's code: 0 none. -/
def retireCode : Option RetireReason → Nat
  | none => 0
  | some .gripFail => 1
  | some .console => 2

def DirEntry.words (d : DirEntry) : List Word :=
  word (flag d.tag.isSome + 2 * flag d.retired.isSome + 4 * retireCode d.retired + 16 * flag d.force.isSome) ::
    (twoWords (d.tag.getD 0) ++ [d.force.getD 0])

def CauseSetting.code (c : CauseSetting) : Nat := c.response.code + 4 * c.latch.code

/-! ### RESPONSE payloads (11.2) -/

/-- STATUS_READ: 19 words (R163). -/
def State.statusWords (s : State) : List Word :=
  let codes := s.perm.line.code + 16 * s.smt.call.code + 256 * s.mgt.resetCause.code +
    4096 * flag s.swp.outstanding.isSome
  [word codes, word s.trn.train.length, word s.perm.causes.length, s.swp.number] ++ twoWords s.swp.sent ++
    twoWords s.swp.valid ++ twoWords s.swp.missed ++ twoWords s.swp.stale ++ twoWords s.swp.corrupt ++
    twoWords s.mgt.lineTime ++
    (match s.swp.outstanding with
      | some o => o.number :: twoWords o.sendTime
      | none => [0, 0, 0])

end Sys2Proof.Machine

namespace Sys2Proof

open Sys2Proof.Machine

/-- The 13 fields of the site record, one word each (R160). -/
def SiteRecord.words (r : SiteRecord) : List Word :=
  [word r.towerCount, word r.pollPeriod, word r.crowdHigh, word r.crowdLow, word r.gripMin, word r.gripMax,
    word r.closureActLimit, word r.tagHoldLimit, word r.stopLimit, word r.silenceLimit, word r.summitMissLimit,
    word r.ringLimit, word r.reverseLimit]

end Sys2Proof

namespace Sys2Proof.Machine

/-- SITE_READ: the lock, then the fields when it is set (R162). -/
def State.siteWords (s : State) : List Word :=
  match s.mgt.siteLock, s.mgt.site with
  | true, some r => 1 :: r.words
  | true, none => [1]
  | false, _ => [0]

/-- The fields of an open transaction in a NODES read, 0 when none is open (R83). -/
def NodeRec.txnWord (n : NodeRec) : Nat :=
  match n.txn with
  | none => 0
  | some t => 4 + 8 * t.action.code + 16 * flag t.late + 32 * t.state.code + 256 * t.point

/-- The act deadline of a NODES read: 0 outside ACTING (R83). -/
def NodeRec.deadline (n : NodeRec) : BitVec 32 :=
  match n.txn with
  | none => 0
  | some t => if t.state = .acting then t.deadline.getD 0 else 0

/-- DTX's part of a NODES read (R83). -/
def NodeRec.words (n : NodeRec) : List Word :=
  [word (flag n.faulted + 2 * flag n.clearMark + n.txnWord), (n.txn.map OpenTxn.entry).getD 0] ++
    twoWords n.deadline ++ [word n.waiting.length]

/-- TABLE_READ NODES: 2 words, and 5 more for an address from 1 to 29 (R143). -/
def State.nodeWords (s : State) (a : Nat) : List Word :=
  let kind := (nth1 s.slc.nodeTable a).getD .noKind
  let r := (nth1 s.slc.answers a).getD AnswerRec.cleared
  let member := (nth1 s.slc.service a).getD false
  [word (kind.code + 8 * flag r.silent + 16 * flag r.stray + 32 * flag member), word r.silence] ++
    (match s.node a with
      | some n => n.words
      | none => [])

/-- The rope-off flags of readings, bit 0 for assembly 1. -/
def ropeOffWord : List Reading → Nat
  | [] => 0
  | r :: rs => flag r.ropeOff + 2 * ropeOffWord rs

def LastReadings.words (l : LastReadings) : List Word :=
  l.sweep :: (twoWords l.time ++ l.readings.flatMap (fun r => [r.position, r.load]) ++ [word (ropeOffWord l.readings)])

/-- The number of assemblies in the last readings. -/
def TowerRuntime.assemblies (u : TowerRuntime) : Nat :=
  match u.last with
  | some l => l.readings.length
  | none => 0

/-- TABLE_READ TOWERS: 11 to 31 words (R114). -/
def State.towerWords (s : State) (k : Nat) : List Word :=
  let entry := s.towerAt k
  let u := s.runtimeAt k
  let codes := u.missCount + 16 * flag u.silent + 32 * flag u.warn + 64 * flag u.limit + 128 * flag u.off +
    256 * flag u.last.isSome + 4096 * u.assemblies
  word (flag entry.isSome) ::
    ((match entry with
      | some t => t.words
      | none => List.replicate 9 0) ++
      [word codes] ++
      (match u.last with
        | some l => l.words
        | none => []))

/-- TABLE_READ CAUSES: response, latch mode, floor and subject type (R21). -/
def State.causeTableWord (s : State) (k : CauseKind) : Word :=
  word (s.perm.causeTable[k.index].code + 16 * k.floor.code + 256 * k.subjectType.code)

/-- TABLE_READ PATH (R27). -/
def State.pathWords (s : State) (k : Nat) : List Word :=
  word s.trav.path.length :: (match s.trav.path[k]? with | some p => p.words | none => [])

/-- The divert reason's code in RECORD_READ: 0 for none. -/
def divertCode : Option DivertReason → Nat
  | none => 0
  | some r => r.code

/-- The codes word of a record, as in RECORD_WRITE. -/
def CabinRecord.codesWord (r : CabinRecord) : Word :=
  word (r.closure.code + 16 * r.grip.code + 128 * flag r.gripForce.isSome + 256 * flag r.divert.isSome +
    512 * divertCode r.divert)

/-- The word of last point, confirmation, tag state and restored flag. -/
def CabinRecord.stateWord (r : CabinRecord) : Word :=
  word (r.lastPoint + 16 * r.confirmation.getD 0 + 256 * flag r.confirmation.isSome + 512 * r.tagState.code +
    2048 * flag r.restored)

/-- The 11 words of a record in RECORD_READ. -/
def CabinRecord.words (r : CabinRecord) (counter : BitVec 24) : List Word :=
  [r.entry, r.cabin.setWidth 16] ++ twoWords (r.tag.getD 0) ++ twoWords (r.entryCount.setWidth 32) ++
    twoWords ((counter - r.entryCount).signExtend 32) ++ [r.stateWord, r.codesWord, r.gripForce.getD 0]

/-- RECORD_READ: the train count, then the record at the position (R58). -/
def State.recordWords (s : State) (position : Nat) : List Word :=
  word s.trn.train.length ::
    (match s.trn.train[position]? with
      | some r => r.words s.trav.counter
      | none => [])

/-- The five words of a cause entry in CAUSES_READ. -/
def CauseEntry.words (e : CauseEntry) : List Word :=
  [word (e.kind.code + 32 * e.subject.type.code + 256 * e.response.code + 1024 * e.latch.code + 2048 * e.state.code),
    e.subject.value] ++ twoWords e.raisedTime ++ [word e.raiseCount]

/-- CAUSES_READ: the count, then up to 8 entries from the start index on (R19). -/
def State.causeWords (s : State) (start : Nat) : List Word :=
  word s.perm.causes.length :: ((s.perm.causes.drop start).take 8).flatMap CauseEntry.words

/-! ### Report entries (R167, 11.2) -/

/-- Report kinds are numbered 1 to 21 in the order of R167's table. -/
def Report.code : Report → Nat
  | .lineState _ _ _ => 1
  | .causeRaised _ => 2
  | .causeGone _ _ _ _ => 3
  | .encoderSkip _ => 4
  | .cabinEntered _ _ _ _ _ => 5
  | .tagOrphan _ _ _ => 6
  | .frameRefused _ _ _ => 7
  | .cabinDeparted _ _ _ _ _ _ => 8
  | .cabinRemoved _ _ _ _ _ _ _ => 9
  | .cabinRestored _ _ _ => 10
  | .closureFailed _ _ _ _ _ => 11
  | .closureDetail _ _ _ _ _ _ _ _ => 12
  | .nodeCleared _ _ => 13
  | .gripResult _ _ _ _ => 14
  | .gripStray _ _ _ => 15
  | .cabinDiverted _ _ _ _ _ _ => 16
  | .towerMismatch _ _ _ _ => 17
  | .callState _ _ _ => 18
  | .callEnded _ _ _ _ => 19
  | .strayNode _ => 20
  | .resetDone _ => 21

def Report.subject : Report → Subject
  | .lineState _ _ _ => .noSubject
  | .causeRaised e => e.subject
  | .causeGone _ subject _ _ => subject
  | .encoderSkip _ => .noSubject
  | .cabinEntered e _ _ _ _ => .cabin e
  | .tagOrphan _ _ _ => .noSubject
  | .frameRefused source _ _ => if 1 ≤ source ∧ source ≤ 30 then .node source else .noSubject
  | .cabinDeparted e _ _ _ _ _ => .cabin e
  | .cabinRemoved e _ _ _ _ _ _ => .cabin e
  | .cabinRestored e _ _ => .cabin e
  | .closureFailed e _ _ _ _ => .cabin e
  | .closureDetail e _ _ _ _ _ _ _ => .cabin e
  | .nodeCleared a _ => .node a
  | .gripResult e _ _ _ => .cabin e
  | .gripStray e _ _ => .cabin e
  | .cabinDiverted e _ _ _ _ _ => .cabin e
  | .towerMismatch k _ _ _ => .tower k
  | .callState _ _ _ => .summit
  | .callEnded _ _ _ _ => .summit
  | .strayNode a => .node a
  | .resetDone _ => .noSubject

/-- The divert reason in a report: 255 when the flag is clear. -/
def reasonCode : Option DivertReason → Nat
  | none => 255
  | some r => r.code

/-- The codes of a report's qualifier, in the order of R167's table. -/
def Report.qualifier : Report → List Nat
  | .lineState old new reason => [old.code, new.code, reason.code]
  | .causeRaised e => [e.kind.code]
  | .causeGone kind _ _ _ => [kind.code]
  | .encoderSkip _ => []
  | .cabinEntered _ tagState divert _ _ => [tagState.code, reasonCode divert]
  | .tagOrphan reason _ _ => [reason.code]
  | .frameRefused _ _ block => [block.code]
  | .cabinDeparted _ outcome grip closure divert _ => [outcome.code, grip.code, closure.code, reasonCode divert]
  | .cabinRemoved _ tagState closure grip divert _ _ => [tagState.code, closure.code, grip.code, reasonCode divert]
  | .cabinRestored _ _ _ => []
  | .closureFailed _ ending action point _ => [ending.code, action.reportCode, point]
  | .closureDetail _ a action point cause missing _ _ => [a, action.reportCode, point, cause.code, flag missing]
  | .nodeCleared _ outcome => [outcome.code]
  | .gripResult _ verdict _ _ => [verdict.code]
  | .gripStray _ reason _ => [reason.code]
  | .cabinDiverted _ outcome wanted divc divert _ => [outcome.code, wanted.code, divc.code, reasonCode divert]
  | .towerMismatch _ _ _ _ => []
  | .callState old new _ => [old.code, new.code]
  | .callEnded outcome auto _ _ => [outcome.code, flag auto]
  | .strayNode _ => []
  | .resetDone cause => [cause.code]

def LineReason.data : LineReason → List Word
  | .request kind => [word kind.code]
  | .cause kind subject => [word kind.code, word subject.type.code, subject.value]
  | .drive => []
  | .wake source => [word source.code]

/-- The data words of a report, in the order of R167's table. -/
def Report.data : Report → List Word
  | .lineState _ _ reason => reason.data
  | .causeRaised e => [word e.response.code, word e.latch.code, word e.state.code, word e.raiseCount]
  | .causeGone _ _ count way => [word count, word way.code]
  | .encoderSkip counter => twoWords (counter.setWidth 32)
  | .cabinEntered _ _ _ cabin tag => cabin.setWidth 16 :: twoWords (tag.getD 0)
  | .tagOrphan _ tag arrival => twoWords tag ++ twoWords arrival
  | .frameRefused source kind _ => [word source, kind.setWidth 16]
  | .cabinDeparted _ _ _ _ _ cabin => [cabin.setWidth 16]
  | .cabinRemoved _ _ _ _ _ cabin lastPoint => [cabin.setWidth 16, word lastPoint]
  | .cabinRestored _ cabin distance => [cabin.setWidth 16, distance]
  | .closureFailed _ _ _ _ a => [word a]
  | .closureDetail _ _ _ _ _ _ fault detail => [fault.1, fault.2, detail.1, detail.2]
  | .nodeCleared _ _ => []
  | .gripResult _ _ cabin force => [cabin.setWidth 16, force]
  | .gripStray _ _ force => [force]
  | .cabinDiverted _ _ _ _ _ cabin => [cabin.setWidth 16]
  | .towerMismatch _ inSlot inTable sweep => [word inSlot, word inTable, sweep]
  | .callState _ _ event => [word event.code]
  | .callEnded _ _ start concealed => twoWords start ++ [word concealed]
  | .strayNode _ => []
  | .resetDone _ => []

/-- Six byte fields, bits 15 to 8 then 7 to 0 of each word; unused fields are 255. -/
def qualifierWords (codes : List Nat) : List Word :=
  let byte := fun i => BitVec.ofNat 8 (codes.getD i 255)
  [byte 0 ++ byte 1, byte 2 ++ byte 3, byte 4 ++ byte 5]

def ReportEntry.words (e : ReportEntry) : List Word :=
  let r := e.report
  [word (r.code + 256 * flag (decide (r.cls = .alarm)) + 512 * r.data.length + 4096 * r.subject.type.code),
    r.subject.value] ++ twoWords e.time ++ qualifierWords r.qualifier ++ r.data

/-- The REPORT frame of the given entries and overflow mark (R169, 11.2). -/
def reportFrame (entries : List ReportEntry) (overflow : Bool) : List Word :=
  buildFrame 30 0 Kind.report (word (flag overflow + 2 * entries.length) :: entries.flatMap ReportEntry.words)

end Sys2Proof.Machine
end

