-- ==== Sys2Proof/Machine/Requests.lean ====
section
/-! DEFINITION. The management requests at the blocks that own them: tables, records, causes, line requests (chapter 10
and the owners' chapters). -/

namespace Sys2Proof.Machine

/-- What an owner gives back: the state it leaves, a result code and a payload (R157). -/
structure Reply where
  state : State
  result : ResultCode
  payload : List Word
  deriving DecidableEq, Repr

def State.done (s : State) (payload : List Word := []) : Reply := { state := s, result := .done, payload := payload }

def State.refuse (s : State) (result : ResultCode) (payload : List Word := []) : Reply :=
  { state := s, result := result, payload := payload }

/-- The line is RUNNING or STOPPING. -/
def State.underway (s : State) : Bool := decide (s.perm.line = .running ∨ s.perm.line = .stopping)

/-! ### The READY checks (R4) -/

/-- Check 3: point 0 is ENTRY at offset 0 with a zone input, and no other point is ENTRY. -/
def entryCheck : List PathPoint → Bool
  | [] => false
  | p :: rest =>
    decide (p.action = .entry) && decide (p.offset = 0) && p.zone.isSome && rest.all fun q => decide (q.action ≠ .entry)

/-- A test of every point above 0 against the point before it. -/
def successive (test : PathPoint → PathPoint → Bool) : List PathPoint → Bool
  | p :: q :: rest => test p q && successive test (q :: rest)
  | _ => true

/-- Check 6: one GRIP_TEST, one DIVERT, one DEPART, in this order, DEPART the last point. -/
def orderCheck (path : List PathPoint) : Bool :=
  let actions := path.map PathPoint.action
  decide (actions.count .gripTest = 1) && decide (actions.count .divert = 1) && decide (actions.count .depart = 1) &&
    decide (actions.idxOf .gripTest < actions.idxOf .divert) && decide (actions.getLast? = some .depart)

/-- Check 7: a SHUT point after the last OPEN point, or a SHUT point where there is no OPEN point. -/
def shutCheck (path : List PathPoint) : Bool :=
  decide ((path.filter fun p => decide (p.action = .openAt ∨ p.action = .shutAt)).getLast?.map PathPoint.action =
    some .shutAt)

/-- Checks 2 to 9 of R4, which concern the path alone: the number of the first that fails. -/
def pathChecks (path : List PathPoint) : Option Nat :=
  if ¬(2 ≤ path.length ∧ path.length ≤ 16) then some 2
  else if entryCheck path = false then some 3
  else if successive (fun p q => decide (p.offset < q.offset)) path = false then some 4
  else if successive (fun p q => decide (p.offset + q.lead < q.offset)) path = false then some 5
  else if orderCheck path = false then some 6
  else if shutCheck path = false then some 7
  else if successive (fun p q => decide (p.offset + p.tolerance + q.tolerance < q.offset)) path = false then some 8
  else if decide (path.filterMap PathPoint.zone).Nodup = false then some 9
  else none

/-- Check 10: every OPEN and SHUT point names a CLOSURE_DRIVE. -/
def State.driveCheck (s : State) : Bool :=
  s.trav.path.all fun p =>
    match p.action, p.node with
    | .openAt, some a => decide (nth1 s.slc.nodeTable a = some .closureDrive)
    | .shutAt, some a => decide (nth1 s.slc.nodeTable a = some .closureDrive)
    | .openAt, none => false
    | .shutAt, none => false
    | _, _ => true

/-- Check 11: one GRIP_UNIT, one TAG_READER, at least one CLOSURE_DRIVE. -/
def State.kindCheck (s : State) : Bool :=
  let kinds := s.slc.nodeTable.toList
  decide (kinds.count .gripUnit = 1) && decide (kinds.count .tagReader = 1) && decide (1 ≤ kinds.count .closureDrive)

/-- Check 12: an entry for every tower number up to the tower count. -/
def State.towerCheck (s : State) : Bool := (towerNumbers s.site.towerCount).all fun k => (s.towerAt k).isSome

/-- The number of the first READY check that fails (R4). -/
def State.readyCheck (s : State) : Option Nat :=
  if s.mgt.site = none then some 1
  else
    match pathChecks s.trav.path with
    | some n => some n
    | none =>
      if s.driveCheck = false then some 10
      else if s.kindCheck = false then some 11
      else if s.towerCheck = false then some 12
      else none

/-! ### Line requests (R4 to R7, R10, R11) -/

/-- LINE_READY (R4). -/
def State.reqLineReady (s : State) (ws : List Word) : Reply :=
  if s.perm.line ≠ .setup then s.refuse .refusedState [0]
  else if ws ≠ [] then s.refuse .refusedRange
  else
    match s.readyCheck with
    | some n => s.refuse .refusedState [word n]
    | none => s.lineReadied.done

/-- LINE_SETUP (R5). -/
def State.reqLineSetup (s : State) (ws : List Word) : Reply :=
  if s.perm.line ≠ .held then s.refuse .refusedState
  else if ws ≠ [] then s.refuse .refusedRange
  else if s.trn.train ≠ [] then s.refuse .refusedInUse
  else s.lineToSetup.done

/-- LINE_START (R6). -/
def State.reqLineStart (s : State) (ws : List Word) : Reply :=
  if s.perm.line ≠ .held then s.refuse .refusedState
  else if ws ≠ [] then s.refuse .refusedRange
  else if s.perm.stopping = true ∨ s.pins.dmov = true then s.refuse .refusedState
  else s.lineStarted.done

/-- LINE_HALT (R7). -/
def State.reqLineHalt (s : State) (ws : List Word) : Reply :=
  if s.perm.line ≠ .running then s.refuse .refusedState
  else if ws ≠ [] then s.refuse .refusedRange
  else (s.enterStopping (.request .lineHalt)).done

/-- LINE_PARK (R10). -/
def State.reqLinePark (s : State) (ws : List Word) : Reply :=
  if s.perm.line ≠ .held then s.refuse .refusedState
  else if ws ≠ [] then s.refuse .refusedRange
  else if s.trn.train ≠ [] ∨ s.smt.call ≠ .idle then s.refuse .refusedInUse
  else if s.perm.stopping then s.refuse .refusedState
  else (s.setLine .quiet (.request .linePark)).done

/-- LINE_WAKE (R11). -/
def State.reqLineWake (s : State) (ws : List Word) : Reply :=
  if s.perm.line ≠ .quiet then s.refuse .refusedState
  else if ws ≠ [] then s.refuse .refusedRange
  else (s.setLine .held (.request .lineWake)).done

/-! ### Causes (R18, R19, R21) -/

/-- CAUSES_READ (R19). -/
def State.reqCausesRead (s : State) (ws : List Word) : Reply :=
  match ws with
  | [start] => if start.toNat ≤ 47 then s.done (s.causeWords start.toNat) else s.refuse .refusedRange
  | _ => s.refuse .refusedRange

/-- CAUSE_ACK (R18). -/
def State.reqCauseAck (s : State) (ws : List Word) : Reply :=
  match parseAck ws with
  | none => s.refuse .refusedRange
  | some .all => ((s.ackEach s.perm.causes).afterRemoval s).done
  | some (.one k subject) =>
    if s.perm.find k subject = none then s.refuse .refusedUnknown
    else ((s.ackHere k subject).afterRemoval s).done

/-- The writes R21 refuses for a kind: below its floor, SELF under an EMERGENCY floor, or another TRAIN_CROWDED. -/
def CauseSetting.allowed (c : CauseSetting) (k : CauseKind) : Bool :=
  decide (k.floor.code ≤ c.response.code) && !(decide (k.floor = .emergency ∧ c.latch = .self)) &&
    (decide (k ≠ .trainCrowded) || decide (c = ⟨.slow, .self⟩))

/-- TABLE_WRITE CAUSES (R21). -/
def State.writeCauses (s : State) (index : Nat) (entry : List Word) : Reply :=
  if s.underway then s.refuse .refusedState
  else
    match CauseKind.ofCode index, parseCauseSetting entry with
    | some k, some c =>
      if c.allowed k then
        (s.modPerm fun p => { p with causeTable := p.causeTable.set k.index c }).done
      else s.refuse .refusedRange
    | _, _ => s.refuse .refusedRange

/-- TABLE_READ CAUSES (R21). -/
def State.readCauses (s : State) (index : Nat) : Reply :=
  match CauseKind.ofCode index with
  | some k => s.done [s.causeTableWord k]
  | none => s.refuse .refusedRange

/-! ### The path and the zone mask (R26, R27, R29) -/

/-- The effect of an accepted PATH write (R27). -/
def writePoint (path : List PathPoint) (k : Nat) (p : PathPoint) : List PathPoint :=
  if k < path.length then path.set k p else path ++ [p]

/-- The point names a masked zone input. -/
def PathPoint.maskedIn (p : PathPoint) (t : Trav) : Bool :=
  match p.zone with
  | some z => t.masked z
  | none => false

/-- TABLE_WRITE PATH (R26, R27). -/
def State.writePath (s : State) (index : Nat) (entry : List Word) : Reply :=
  if s.perm.line ≠ .setup then s.refuse .refusedState
  else if s.trn.train ≠ [] then s.refuse .refusedInUse
  else if 15 < index ∨ s.trav.path.length < index then s.refuse .refusedRange
  else if entry = [] then (s.modTrav fun t => { t with path := t.path.take index }).done
  else
    match parsePathPoint entry with
    | none => s.refuse .refusedRange
    | some p =>
      if index = 0 ∧ p.maskedIn s.trav = true then s.refuse .refusedInUse
      else (s.modTrav fun t => { t with path := writePoint t.path index p }).done

/-- TABLE_READ PATH (R27). -/
def State.readPath (s : State) (index : Nat) : Reply :=
  if 15 < index then s.refuse .refusedRange else s.done (s.pathWords index)

/-- The supervision of point k ends for a record that awaits it, its WINDOW_END entry dropped (R29). -/
def State.unsupervise (k : Nat) (s : State) (r : CabinRecord) : State :=
  if r.confirmation = some k then (s.dropWindowEnd r.entry k).endSupervision r.entry k else s

/-- Input z becomes a member of the zone mask (R29). -/
def State.maskInput (s : State) (z : Nat) : State :=
  let s := s.modTrav fun t => { t with zoneMask := t.zoneMask.setIfInBounds z true }
  let s := s.clear .zoneUnexpected (.input z)
  match s.trav.pointOf z with
  | some k => s.trn.train.foldl (State.unsupervise k) s
  | none => s

/-- Zone input z is the one point 0 names. -/
def Trav.isEntryInput (t : Trav) (z : Nat) : Bool :=
  match t.path with
  | [] => false
  | p :: _ => decide (p.zone = some z)

/-- TABLE_WRITE ZONE_MASK (R29). -/
def State.writeZoneMask (s : State) (index : Nat) (entry : List Word) : Reply :=
  if s.underway then s.refuse .refusedState
  else if 15 < index then s.refuse .refusedRange
  else if entry = [1] then
    if s.trav.isEntryInput index then s.refuse .refusedInUse
    else if s.trav.masked index then s.done
    else (s.maskInput index).done
  else if entry = [0] then
    (s.modTrav fun t => { t with zoneMask := t.zoneMask.setIfInBounds index false }).done
  else s.refuse .refusedRange

/-- TABLE_READ ZONE_MASK (R29). -/
def State.readZoneMask (s : State) (index : Nat) : Reply :=
  if 15 < index then s.refuse .refusedRange else s.done [word (flag (s.trav.masked index))]

/-! ### The node table (R142, R143) -/

/-- A write that changes the kind of address a (R142, R82). -/
def State.changeKind (s : State) (a : Nat) (kind : NodeKind) : State :=
  let silent := ((nth1 s.slc.answers a).getD AnswerRec.cleared).silent
  let s := s.modSlc fun c =>
    { c with
      nodeTable := mod1 c.nodeTable a fun _ => kind
      service := mod1 c.service a fun _ => false
      answers := mod1 c.answers a fun _ => AnswerRec.cleared }
  let s := if silent then s.clear .nodeSilent (.node a) else s
  s.kindChanged a

/-- TABLE_WRITE NODES (R142). -/
def State.writeNodes (s : State) (index : Nat) (entry : List Word) : Reply :=
  if s.perm.line ≠ .setup then s.refuse .refusedState
  else
    match entry, nth1 s.slc.nodeTable index with
    | [w], some old =>
      match NodeKind.ofCode w.toNat with
      | none => s.refuse .refusedRange
      | some kind =>
        if decide (index = 30) ≠ decide (kind = .console) then s.refuse .refusedRange
        else if kind = old then s.done
        else (s.changeKind index kind).done
    | _, _ => s.refuse .refusedRange

/-- TABLE_READ NODES (R143). -/
def State.readNodes (s : State) (index : Nat) : Reply :=
  if 1 ≤ index ∧ index ≤ 30 then s.done (s.nodeWords index) else s.refuse .refusedRange

/-- NODE_CLEAR (R79). A full urgent queue is silence at once (R146; log 11). -/
def State.reqNodeClear (s : State) (ws : List Word) : Reply :=
  match ws with
  | [w] =>
    let a := w.toNat
    match s.node a with
    | none => s.refuse .refusedRange
    | some n =>
      if nth1 s.slc.nodeTable a ≠ some .closureDrive then s.refuse .refusedRange
      else if n.txn.isSome = true ∨ n.clearMark = true then s.refuse .refusedInUse
      else
        let s := s.modNode a fun n => { n with clearMark := true }
        if s.urgentFull then ((s.clearCompletion a .silent).silentExchange a).done
        else (s.pushCommand { address := a, command := .clear, txn := none }).done
  | _ => s.refuse .refusedRange

/-! ### The tower table (R112 to R114) -/

/-- An accepted TOWERS write (R113; log 19). -/
def State.writeTower (s : State) (k : Nat) (entry : Option TowerEntry) : State :=
  let changed := decide ((s.towerAt k).map TowerEntry.assemblies ≠ entry.map TowerEntry.assemblies)
  let s := s.modRsu fun u => { u with towers := mod1 u.towers k fun _ => entry }
  s.modRuntime k fun u => { u with missCount := 0, last := if changed then none else u.last }

/-- TABLE_WRITE TOWERS (R112). -/
def State.writeTowers (s : State) (index : Nat) (entry : List Word) : Reply :=
  if s.underway then s.refuse .refusedState
  else if index < 1 ∨ 24 < index then s.refuse .refusedRange
  else if entry = [] then
    if s.perm.line ≠ .setup ∧ index ≤ s.site.towerCount then s.refuse .refusedInUse
    else (s.writeTower index none).done
  else
    match parseTower entry with
    | some t => (s.writeTower index (some t)).done
    | none => s.refuse .refusedRange

/-- TABLE_READ TOWERS (R114). -/
def State.readTowers (s : State) (index : Nat) : Reply :=
  if 1 ≤ index ∧ index ≤ 24 then s.done (s.towerWords index) else s.refuse .refusedRange

/-! ### The cabin directory (R52) -/

/-- A DIRECTORY entry from the request's words: an empty entry makes the number unused (R52, step 2). -/
def parseDirectory (entry : List Word) : Option DirEntry :=
  if entry = [] then some DirEntry.unused else parseDirEntry entry

/-- A record in the train carries the cabin number. -/
def State.carried (s : State) (cabin : Nat) : Bool := s.trn.train.any fun r => decide (r.cabin.toNat = cabin)

/-- Another directory entry holds the tag code. -/
def Trn.tagElsewhere (t : Trn) (cabin : Nat) (tag : Option (BitVec 32)) : Bool :=
  tag.isSome && t.directory.toList.zipIdx.any fun (d, i) => decide (i + 1 ≠ cabin ∧ d.tag = tag)

/-- TABLE_WRITE DIRECTORY (R52). -/
def State.writeDirectory (s : State) (index : Nat) (entry : List Word) : Reply :=
  if index < 1 ∨ 255 < index then s.refuse .refusedRange
  else
    match parseDirectory entry with
    | none => s.refuse .refusedRange
    | some d =>
      if s.carried index then s.refuse .refusedInUse
      else if s.trn.tagElsewhere index d.tag then s.refuse .refusedRange
      else (s.modTrn fun t => { t with directory := mod1 t.directory index fun _ => d }).done

/-- TABLE_READ DIRECTORY (R52). -/
def State.readDirectory (s : State) (index : Nat) : Reply :=
  match nth1 s.trn.directory index with
  | some d => s.done d.words
  | none => s.refuse .refusedRange

/-! ### Records (R58 to R60) -/

/-- RECORD_READ (R58). -/
def State.reqRecordRead (s : State) (ws : List Word) : Reply :=
  match ws with
  | [position] =>
    if position.toNat ≤ 31 then s.done (s.recordWords position.toNat) else s.refuse .refusedRange
  | _ => s.refuse .refusedRange

/-- RECORD_REMOVE (R59). -/
def State.reqRecordRemove (s : State) (ws : List Word) : Reply :=
  if s.perm.line ≠ .held ∧ s.perm.line ≠ .quiet then s.refuse .refusedState
  else
    match ws with
    | [entry] =>
      match s.record entry with
      | none => s.refuse .refusedUnknown
      | some r => (s.removeRecord r).done
    | _ => s.refuse .refusedRange

/-- The last point and the distance fit the path (R60). -/
def State.placeOk (s : State) (f : RestoreFields) : Bool :=
  decide (f.lastPoint + 1 < s.trav.path.length) &&
    (match s.trav.path[f.lastPoint]?, s.trav.path[f.lastPoint + 1]? with
      | some p, some q => decide (p.offset ≤ f.distance.toNat) && decide (f.distance.toNat < q.offset)
      | _, _ => false)

/-- The distance is less than the tail record's (R60). -/
def State.behindTail (s : State) (f : RestoreFields) : Bool :=
  match s.trn.train.getLast? with
  | none => true
  | some r => decide ((f.distance.toNat : Int) < r.distance s.trav.counter)

/-- The states supplied agree with each other (R60). -/
def RestoreFields.consistent (f : RestoreFields) : Bool :=
  !(decide (f.closure = .opening ∨ f.closure = .shutting ∨ f.grip = .awaited)) &&
    (f.force.isSome == decide (f.grip = .pass ∨ f.grip = .fail)) && (f.divertFlag == f.reason.isSome)

/-- The cabin number agrees with the directory, the train and the divert flag (R60). -/
def State.identityOk (s : State) (f : RestoreFields) : Bool :=
  if f.cabin = 0 then f.divertFlag
  else
    match nth1 s.trn.directory f.cabin with
    | none => false
    | some d =>
      f.tag.isSome && decide (d.tag = f.tag) && !s.carried f.cabin && (d.retired.isNone || f.divertFlag)

/-- RECORD_WRITE (R60). -/
def State.reqRecordWrite (s : State) (ws : List Word) : Reply :=
  if s.perm.line ≠ .setup then s.refuse .refusedState
  else if s.mgt.site = none ∨ pathChecks s.trav.path ≠ none then s.refuse .refusedState
  else if 32 ≤ s.trn.train.length then s.refuse .refusedInUse
  else
    match parseRestore ws with
    | none => s.refuse .refusedRange
    | some f =>
      if s.placeOk f && s.behindTail f && f.consistent && s.identityOk f then
        (s.restore f).done [s.trn.nextEntry]
      else s.refuse .refusedRange

/-! ### MGT's own requests (R161 to R163, R165) -/

/-- STATUS_READ (R163). -/
def State.reqStatusRead (s : State) (ws : List Word) : Reply :=
  if ws = [] then s.done s.statusWords else s.refuse .refusedRange

/-- SITE_WRITE (R161). -/
def State.reqSiteWrite (s : State) (ws : List Word) : Reply :=
  if s.mgt.siteLock then s.refuse .refusedOnce
  else
    match parseSite ws with
    | none => s.refuse .refusedRange
    | some r =>
      if r.inRange then (s.modMgt fun m => { m with site := some r, siteLock := true }).done
      else s.refuse .refusedRange

/-- SITE_READ (R162). -/
def State.reqSiteRead (s : State) (ws : List Word) : Reply :=
  if ws = [] then s.done s.siteWords else s.refuse .refusedRange

/-- PART_RESET (R165). -/
def State.reqPartReset (s : State) (ws : List Word) : Reply :=
  if s.underway then s.refuse .refusedState
  else if ws ≠ [] then s.refuse .refusedRange
  else (s.modMgt fun m => { m with resetRequest := true }).done

/-! ### TABLE_READ and TABLE_WRITE (R157) -/

/-- A table write at its owner; the entry length is judged with the ranges (R172; log 16). -/
def State.writeTable (s : State) (t : Table) (index : Nat) (entry : List Word) : Reply :=
  match t with
  | .path => s.writePath index entry
  | .zoneMask => s.writeZoneMask index entry
  | .nodes => s.writeNodes index entry
  | .towers => s.writeTowers index entry
  | .causes => s.writeCauses index entry
  | .directory => s.writeDirectory index entry

def State.readTable (s : State) (t : Table) (index : Nat) : Reply :=
  match t with
  | .path => s.readPath index
  | .zoneMask => s.readZoneMask index
  | .nodes => s.readNodes index
  | .towers => s.readTowers index
  | .causes => s.readCauses index
  | .directory => s.readDirectory index

/-- TABLE_WRITE: a table that is none of the six is refused by MGT itself (R157). A request with no index word is
judged by its owner with an index out of every range. -/
def State.reqTableWrite (s : State) (ws : List Word) : Reply :=
  match ws with
  | [] => s.refuse .refusedRange
  | t :: rest =>
    match Table.ofCode t with
    | none => s.refuse .refusedRange
    | some t =>
      match rest with
      | [] => s.writeTable t 65536 []
      | index :: entry => s.writeTable t index.toNat entry

/-- TABLE_READ (R157). -/
def State.reqTableRead (s : State) (ws : List Word) : Reply :=
  match ws with
  | [t, index] =>
    match Table.ofCode t with
    | none => s.refuse .refusedRange
    | some t => s.readTable t index.toNat
  | _ => s.refuse .refusedRange

/-! ### The pending response (R157, R158) -/

/-- A request at the block that owns it (R157). -/
def State.serveRequest (s : State) (kind : RequestKind) (ws : List Word) : Reply :=
  match kind with
  | .statusRead => s.reqStatusRead ws
  | .siteWrite => s.reqSiteWrite ws
  | .siteRead => s.reqSiteRead ws
  | .tableRead => s.reqTableRead ws
  | .tableWrite => s.reqTableWrite ws
  | .recordRead => s.reqRecordRead ws
  | .recordWrite => s.reqRecordWrite ws
  | .recordRemove => s.reqRecordRemove ws
  | .causesRead => s.reqCausesRead ws
  | .causeAck => s.reqCauseAck ws
  | .lineReady => s.reqLineReady ws
  | .lineSetup => s.reqLineSetup ws
  | .lineStart => s.reqLineStart ws
  | .lineHalt => s.reqLineHalt ws
  | .linePark => s.reqLinePark ws
  | .lineWake => s.reqLineWake ws
  | .nodeClear => s.reqNodeClear ws
  | .partReset => s.reqPartReset ws

/-- The reply becomes the pending response (R158). -/
def Reply.respond (r : Reply) (tag : Byte) (kind : RequestKind) : State :=
  r.state.modMgt fun m => { m with response := some { tag := tag, kind := kind, result := r.result, payload := r.payload } }

/-- MGT takes a request (R157, R158). -/
def State.request (s : State) (kind : RequestKind) (tag : Byte) (ws : List Word) : State :=
  (s.serveRequest kind ws).respond tag kind

end Sys2Proof.Machine
end

