-- ==== Sys2Proof/Machine/Resets.lean ====
section
/-! DEFINITION. The full reset and the command reset: what each block holds, and the end of a reset (10.5, R173, R174). -/

namespace Sys2Proof.Machine

/-- PERM after a command reset keeps its cause table (R22). -/
def Perm.commandReset (p : Perm) : Perm := { Perm.fullReset with causeTable := p.causeTable }

/-- TRAV after a command reset keeps the path table and the zone mask (R40). -/
def Trav.commandReset (t : Trav) : Trav := { Trav.fullReset with path := t.path, zoneMask := t.zoneMask }

/-- TRN after a command reset keeps the cabin directory (R62). -/
def Trn.commandReset (t : Trn) : Trn := { Trn.fullReset with directory := t.directory }

/-- RSU after a command reset keeps the tower table (R124). -/
def Rsu.commandReset (u : Rsu) : Rsu := { Rsu.fullReset with towers := u.towers }

/-- SLC after a command reset keeps the node table (R156). -/
def Slc.commandReset (c : Slc) : Slc := { Slc.fullReset with nodeTable := c.nodeTable }

/-- MGT after a full reset, the end's entries aside (R170; log 27). -/
def Mgt.fullReset (m : Mgt) : Mgt :=
  { response := none, site := none, siteLock := false, lineTime := 0, resetCause := m.resetCause,
    resetRequest := false, reports := [], overflowMark := false }

/-- MGT after a command reset keeps the site record and its lock (R170). -/
def Mgt.commandReset (m : Mgt) : Mgt := { m.fullReset with site := m.site, siteLock := m.siteLock }

/-- The command reset begins: every block holds its command reset values (R166). -/
def State.beginCommandReset (s : State) : State :=
  { s with
    perm := s.perm.commandReset
    trav := s.trav.commandReset
    trn := s.trn.commandReset
    dtx := Dtx.afterReset
    gsw := Gsw.afterReset
    swp := Swp.afterReset
    rsu := s.rsu.commandReset
    smt := Smt.afterReset
    slc := s.slc.commandReset
    mgt := s.mgt.commandReset
    phase := .command }

/-- The cause a full reset leaves; a power cause stands once given (R164; log 26). -/
def ResetPhase.fullCause (phase : ResetPhase) (source : ResetSource) : ResetCause :=
  match source, phase with
  | .powerUp, _ => .powerOn
  | .supplyLow, _ => .powerOn
  | .resetLow _, .full c => c
  | .resetLow _, .live => .pin
  | .resetLow _, .command => .pin

/-- A full reset begins, or extends or replaces the reset that lasts (R166, R173). -/
def State.beginFullReset (s : State) (cause : ResetCause) : State :=
  { s with
    perm := Perm.fullReset
    trav := Trav.fullReset
    trn := Trn.fullReset
    dtx := Dtx.afterReset
    gsw := Gsw.afterReset
    swp := Swp.afterReset
    rsu := Rsu.fullReset
    smt := Smt.afterReset
    slc := Slc.fullReset
    mgt := s.mgt.fullReset
    phase := .full cause }

/-- A low pulse on RESETN shorter than 1 microsecond begins nothing (R173). -/
def filtered (source : ResetSource) : Bool :=
  match source with
  | .resetLow ns => decide (ns < 1000)
  | .powerUp => false
  | .supplyLow => false

/-- The end of a reset: the inputs are as sampled then, line time starts from 0, the cause record is set, the queue
holds RESET_DONE, the broadcast CLEAR is owed, and DMOV found high raises DRIVE_UNCOMMANDED (R9, R155, R164, R174). -/
def State.endReset (s : State) (cause : ResetCause) (levels : InputLevels) : State :=
  let s := (s.setPins levels).setPhase .live
  let s := s.modMgt fun m =>
    { m with
      lineTime := 0
      resetCause := cause
      reports := [{ report := .resetDone cause, time := 0 }]
      overflowMark := false }
  let s := s.modSlc fun c => { c with clearPending := true }
  if levels.dmov then s.raise .driveUncommanded .noSubject else s

end Sys2Proof.Machine
end

