-- ==== Sys2Proof/Machine/Station.lean ====
section
/-! DEFINITION. SLC: frames received, exchanges, the service poll, turns and the arbiter (chapter 9). -/

namespace Sys2Proof.Machine

def State.setExchange (s : State) (x : Option Exchange) : State := s.modSlc fun c => { c with exchange := x }

/-! ### Completions and turn frames (R145, R150) -/

/-- The completion is handed to the block that queued the command (R145). -/
def State.complete (s : State) (q : QueuedCommand) (ans : Answer) : State :=
  match q.command with
  | .gripExpect _ _ => s.gripCompletion q ans
  | .set _ _ => s.dtxCompletion q ans
  | .go _ => s.dtxCompletion q ans
  | .detail _ => s.dtxCompletion q ans
  | .cancel _ => s.dtxCompletion q ans
  | .clear => s.dtxCompletion q ans

/-- What a frame of a node kind allowed in a turn is handed to; none where the kind is not allowed (R150). -/
def State.turnFrame (s : State) (a : Nat) (kind tag : Byte) (payload : List Word) : Option State :=
  match (nth1 s.slc.nodeTable a).getD .noKind with
  | .noKind => none
  | .closureDrive =>
    if kind = Kind.decline then some s
    else if kind = Kind.closureDone then some (s.closureDone a payload)
    else none
  | .gripUnit =>
    if kind = Kind.decline then some s
    else if kind = Kind.gripResult then some (s.gripResult payload)
    else none
  | .tagReader =>
    if kind = Kind.decline then some s
    else if kind = Kind.tagRead then some ((s.wake .tag).tagRead a payload)
    else none
  | .console =>
    if kind = Kind.decline then some s
    else (RequestKind.ofFrameKind kind).map fun k => s.request k tag payload

/-! ### Frames received (R140, R141) -/

/-- The exchange that awaits a frame: a command or a turn in AWAITING (log 15). -/
def State.awaiting (s : State) : Option Exchange :=
  s.slc.exchange.filter fun x =>
    decide (x.phase = .awaiting) &&
      (match x.kind with
        | .command _ _ => true
        | .turn => true
        | .poll _ => false
        | .response => false
        | .report => false
        | .broadcastClear => false)

/-- A frame is taken by the exchange that awaits it: the exchange ends, then the frame is handed on (R141, R145, R150;
log 13). -/
def State.takeFrame (s : State) (x : Exchange) (kind tag : Byte) (payload : List Word) : State :=
  let s := s.setExchange none
  let ok := lengthAllowed kind payload
  let s := if ok then s else s.refuseFrame x.address kind .slc
  match x.kind with
  | .command q _ => s.complete q (if ok then .frame kind payload else .badLength)
  | .turn =>
    if ok then (s.turnFrame x.address kind tag payload).getD (s.refuseFrame x.address kind .slc) else s
  | .poll _ => s
  | .response => s
  | .report => s
  | .broadcastClear => s

/-- A frame with destination 0 and a source from 1 to 30 (R141): silence and PERM's notice come first. -/
def State.judgeFrame (s : State) (source : Nat) (kind tag : Byte) (payload : List Word) : State :=
  let s := s.heardFrom source
  let s := if source = 30 then s.consoleNotice else s
  match s.awaiting with
  | none => s.refuseFrame source kind .slc
  | some x => if x.address = source then s.takeFrame x kind tag payload else s.refuseFrame source kind .slc

/-- A frame arrives on the station line (R140, R141). -/
def State.receive (s : State) (kind : Byte) (f : RxFrame) : State :=
  if f.whole kind = false then s
  else if f.destination ≠ 0 then s
  else if f.sender < 1 ∨ 30 < f.sender then s.refuseFrame f.sender kind .slc
  else s.judgeFrame f.sender kind f.tag f.payload

/-! ### Windows (R144, R145, R149) -/

/-- The last word of the 640's frame leaves the line and the exchange is AWAITING (R144). -/
def State.windowOpens (s : State) : State :=
  match s.slc.exchange with
  | none => s
  | some x =>
    if x.phase = .sending then
      match x.kind with
      | .command _ _ => s.setExchange (some { x with phase := .awaiting })
      | .poll _ => s.setExchange (some { x with phase := .awaiting })
      | .turn => s.setExchange (some { x with phase := .awaiting })
      | .response => s
      | .report => s
      | .broadcastClear => s
    else s

/-- A command's answer window closes with no answer taken: the command is sent once more, or the exchange is silent
(R145, R151; log 11). -/
def State.answerWindowCloses (s : State) : State :=
  match s.slc.exchange with
  | none => s
  | some x =>
    match x.kind, x.phase with
    | .command q false, .awaiting => s.setExchange (some { x with kind := .command q true, phase := .sending })
    | .command q true, .awaiting => ((s.setExchange none).complete q .silence).silentExchange x.address
    | _, _ => s

/-- A turn's window closes with no frame taken (R149). -/
def State.turnWindowCloses (s : State) : State :=
  match s.slc.exchange with
  | none => s
  | some x =>
    match x.kind, x.phase with
    | .turn, .awaiting => (s.setExchange none).silentExchange x.address
    | _, _ => s

/-! ### The service poll (R147, R148) -/

/-- The poll period in milliseconds (R147). -/
def State.pollPeriod (s : State) : Nat :=
  match s.mgt.site with
  | some r => r.pollPeriod
  | none => 20

/-- The poll timer expires (R147). -/
def State.pollExpired (s : State) : State :=
  if s.slc.pollTimer = none then s
  else s.modSlc fun c => { c with pollDue := true, pollTimer := some s.pollPeriod }

/-- The slot of address k holds an answer: one marked undamaged word carrying the address (R148). -/
def slotAnswers (h : SlotHeard) (k : Nat) : Bool :=
  match h with
  | .quiet => false
  | .heard marked damaged w => marked && !damaged && decide (addressOf w = k)

/-- Slot k is judged as it closes (R148). -/
def State.judgePollSlot (s : State) (k : Nat) (answered : Bool) : State :=
  match nth1 s.slc.nodeTable k with
  | none => s
  | some .noKind =>
    if answered then
      if ((nth1 s.slc.answers k).getD AnswerRec.cleared).stray then s
      else
        (s.report (.strayNode k)).modSlc fun c =>
          { c with answers := mod1 c.answers k fun a => { a with stray := true } }
    else s.modSlc fun c => { c with answers := mod1 c.answers k fun a => { a with stray := false } }
  | some _ => if answered then s.modSlc fun c => { c with service := mod1 c.service k fun _ => true } else s

/-- A poll slot closes; with the last the exchange ends and DTX is told (R148). -/
def State.pollSlotCloses (s : State) (h : SlotHeard) : State :=
  match s.slc.exchange with
  | none => s
  | some x =>
    match x.kind, x.phase with
    | .poll k, .awaiting =>
      let s := s.judgePollSlot k (slotAnswers h k)
      if k < 30 then s.setExchange (some { x with kind := .poll (k + 1) }) else (s.setExchange none).pollEnded
    | _, _ => s

/-! ### The arbiter (R153, R154) -/

/-- The members of the service set that may be granted a turn, ascending. -/
def State.grantable (s : State) : List Nat :=
  (List.range' 1 30).filter fun k =>
    (nth1 s.slc.service k).getD false && !(decide (k = 30) && s.mgt.response.isSome)

/-- The address a turn goes to (R154). -/
def State.turnAddress (s : State) : Option Nat :=
  match s.slc.turnPointer with
  | none => s.grantable.head?
  | some p =>
    match s.grantable.find? fun k => decide (p < k) with
    | some k => some k
    | none => s.grantable.head?

/-- An exchange begins in SENDING with the words of the 640's frame. -/
def State.begin (s : State) (kind : ExchangeKind) (address : Nat) (frame : List Word) : State :=
  s.setExchange (some { kind := kind, address := address, phase := .sending, frame := frame })

/-- A COMMAND begins: the command leaves the queue (R145). -/
def State.beginCommand (s : State) (q : QueuedCommand) : State :=
  (s.modSlc fun c => { c with urgent := c.urgent.drop 1 }).begin (.command q false) q.address q.frame

/-- A SERVICE_POLL begins and the poll due mark is cleared (R147, R148). -/
def State.beginPoll (s : State) : State :=
  (s.modSlc fun c => { c with pollDue := false }).begin (.poll 1) 31 (buildFrame 31 0 Kind.poll [])

/-- A TURN begins: the address leaves the service set and becomes the turn pointer (R149). -/
def State.beginTurn (s : State) (a : Nat) : State :=
  (s.modSlc fun c => { c with service := mod1 c.service a fun _ => false, turnPointer := some a }).begin
    .turn a (buildFrame a 0 Kind.turn [])

/-- A REPORT begins: up to 4 oldest entries and the overflow mark go into the frame (R152, R169). -/
def State.beginReport (s : State) : State :=
  let frame := reportFrame (s.mgt.reports.take 4) s.mgt.overflowMark
  (s.modMgt fun m => { m with reports := m.reports.drop 4, overflowMark := false }).begin .report 30 frame

/-- The first use of the line that is ready begins (R153). -/
def State.chooseReady (s : State) : State :=
  if s.slc.clearPending then s.begin .broadcastClear 31 (buildFrame 31 0 Kind.clear [])
  else
    match s.slc.urgent with
    | q :: _ => s.beginCommand q
    | [] =>
      if s.slc.pollDue then s.beginPoll
      else
        match s.turnAddress with
        | some a => s.beginTurn a
        | none =>
          match s.mgt.response with
          | some r => s.begin .response 30 r.frame
          | none => if s.mgt.reports = [] then s else s.beginReport

/-- The arbiter chooses while the line is free; it interrupts no exchange (R153). -/
def State.arbiter (s : State) : State := if s.slc.exchange = none then s.chooseReady else s

/-! ### Frames to a node: their last word has left (R144, R152, R155) -/

/-- The current exchange is of this kind and being sent. -/
def State.sending (s : State) (kind : ExchangeKind) : Bool :=
  match s.slc.exchange with
  | none => false
  | some x => decide (x.kind = kind ∧ x.phase = .sending)

/-- The RESPONSE has been sent; a command reset follows an accepted PART_RESET (R152, R165). -/
def State.responseIsSent (s : State) : State :=
  if s.sending .response then
    let s := (s.setExchange none).modMgt fun m => { m with response := none }
    if s.mgt.resetRequest then s.beginCommandReset else s
  else s

/-- A REPORT frame has been sent. -/
def State.reportIsSent (s : State) : State := if s.sending .report then s.setExchange none else s

/-- The broadcast CLEAR has been sent: the poll timer starts and the first poll is due at once (R155). -/
def State.clearIsSent (s : State) : State :=
  if s.sending .broadcastClear then
    (s.setExchange none).modSlc fun c =>
      { c with clearPending := false, pollTimer := some s.pollPeriod, pollDue := true }
  else s

end Sys2Proof.Machine
end

