-- ==== Sys2Proof/Machine/Management.lean ====
section
/-! DEFINITION. The meanings of the management requests: each is a frame received on the station line (R141, R157). -/

namespace Sys2Proof.Machine

open Host

/-- STATUS_READ (R163). -/
def execStatusRead (f : RxFrame) (s : State) : Outcome State Fault Refusal :=
  live (fun s => s.receive (RequestKind.frameKind .statusRead) f) s

/-- SITE_WRITE (R161). -/
def execSiteWrite (f : RxFrame) (s : State) : Outcome State Fault Refusal :=
  live (fun s => s.receive (RequestKind.frameKind .siteWrite) f) s

/-- SITE_READ (R162). -/
def execSiteRead (f : RxFrame) (s : State) : Outcome State Fault Refusal :=
  live (fun s => s.receive (RequestKind.frameKind .siteRead) f) s

/-- TABLE_WRITE PATH (R26, R27). -/
def execTableWritePath (f : RxFrame) (s : State) : Outcome State Fault Refusal :=
  live (fun s => s.receive (RequestKind.frameKind .tableWrite) f) s

/-- TABLE_WRITE ZONE_MASK (R29). -/
def execTableWriteZoneMask (f : RxFrame) (s : State) : Outcome State Fault Refusal :=
  live (fun s => s.receive (RequestKind.frameKind .tableWrite) f) s

/-- TABLE_WRITE NODES (R142). -/
def execTableWriteNodes (f : RxFrame) (s : State) : Outcome State Fault Refusal :=
  live (fun s => s.receive (RequestKind.frameKind .tableWrite) f) s

/-- TABLE_WRITE TOWERS (R112, R113). -/
def execTableWriteTowers (f : RxFrame) (s : State) : Outcome State Fault Refusal :=
  live (fun s => s.receive (RequestKind.frameKind .tableWrite) f) s

/-- TABLE_WRITE CAUSES (R21). -/
def execTableWriteCauses (f : RxFrame) (s : State) : Outcome State Fault Refusal :=
  live (fun s => s.receive (RequestKind.frameKind .tableWrite) f) s

/-- TABLE_WRITE DIRECTORY (R52). -/
def execTableWriteDirectory (f : RxFrame) (s : State) : Outcome State Fault Refusal :=
  live (fun s => s.receive (RequestKind.frameKind .tableWrite) f) s

/-- TABLE_READ PATH (R27). -/
def execTableReadPath (f : RxFrame) (s : State) : Outcome State Fault Refusal :=
  live (fun s => s.receive (RequestKind.frameKind .tableRead) f) s

/-- TABLE_READ ZONE_MASK (R29). -/
def execTableReadZoneMask (f : RxFrame) (s : State) : Outcome State Fault Refusal :=
  live (fun s => s.receive (RequestKind.frameKind .tableRead) f) s

/-- TABLE_READ NODES (R143). -/
def execTableReadNodes (f : RxFrame) (s : State) : Outcome State Fault Refusal :=
  live (fun s => s.receive (RequestKind.frameKind .tableRead) f) s

/-- TABLE_READ TOWERS (R114). -/
def execTableReadTowers (f : RxFrame) (s : State) : Outcome State Fault Refusal :=
  live (fun s => s.receive (RequestKind.frameKind .tableRead) f) s

/-- TABLE_READ CAUSES (R21). -/
def execTableReadCauses (f : RxFrame) (s : State) : Outcome State Fault Refusal :=
  live (fun s => s.receive (RequestKind.frameKind .tableRead) f) s

/-- TABLE_READ DIRECTORY (R52). -/
def execTableReadDirectory (f : RxFrame) (s : State) : Outcome State Fault Refusal :=
  live (fun s => s.receive (RequestKind.frameKind .tableRead) f) s

/-- RECORD_READ (R58). -/
def execRecordRead (f : RxFrame) (s : State) : Outcome State Fault Refusal :=
  live (fun s => s.receive (RequestKind.frameKind .recordRead) f) s

/-- RECORD_WRITE (R60, R61). -/
def execRecordWrite (f : RxFrame) (s : State) : Outcome State Fault Refusal :=
  live (fun s => s.receive (RequestKind.frameKind .recordWrite) f) s

/-- RECORD_REMOVE (R59). -/
def execRecordRemove (f : RxFrame) (s : State) : Outcome State Fault Refusal :=
  live (fun s => s.receive (RequestKind.frameKind .recordRemove) f) s

/-- CAUSES_READ (R19). -/
def execCausesRead (f : RxFrame) (s : State) : Outcome State Fault Refusal :=
  live (fun s => s.receive (RequestKind.frameKind .causesRead) f) s

/-- CAUSE_ACK naming one entry (R18). -/
def execCauseAck (f : RxFrame) (s : State) : Outcome State Fault Refusal :=
  live (fun s => s.receive (RequestKind.frameKind .causeAck) f) s

/-- CAUSE_ACK naming all entries (R18). -/
def execCauseAckAll (f : RxFrame) (s : State) : Outcome State Fault Refusal :=
  live (fun s => s.receive (RequestKind.frameKind .causeAck) f) s

/-- LINE_READY (R4). -/
def execLineReady (f : RxFrame) (s : State) : Outcome State Fault Refusal :=
  live (fun s => s.receive (RequestKind.frameKind .lineReady) f) s

/-- LINE_SETUP (R5). -/
def execLineSetup (f : RxFrame) (s : State) : Outcome State Fault Refusal :=
  live (fun s => s.receive (RequestKind.frameKind .lineSetup) f) s

/-- LINE_START (R6). -/
def execLineStart (f : RxFrame) (s : State) : Outcome State Fault Refusal :=
  live (fun s => s.receive (RequestKind.frameKind .lineStart) f) s

/-- LINE_HALT (R7). -/
def execLineHalt (f : RxFrame) (s : State) : Outcome State Fault Refusal :=
  live (fun s => s.receive (RequestKind.frameKind .lineHalt) f) s

/-- LINE_PARK (R10). -/
def execLinePark (f : RxFrame) (s : State) : Outcome State Fault Refusal :=
  live (fun s => s.receive (RequestKind.frameKind .linePark) f) s

/-- LINE_WAKE (R11). -/
def execLineWake (f : RxFrame) (s : State) : Outcome State Fault Refusal :=
  live (fun s => s.receive (RequestKind.frameKind .lineWake) f) s

/-- NODE_CLEAR (R79). -/
def execNodeClear (f : RxFrame) (s : State) : Outcome State Fault Refusal :=
  live (fun s => s.receive (RequestKind.frameKind .nodeClear) f) s

/-- PART_RESET (R165). -/
def execPartReset (f : RxFrame) (s : State) : Outcome State Fault Refusal :=
  live (fun s => s.receive (RequestKind.frameKind .partReset) f) s

end Sys2Proof.Machine
end

