-- ==== Sys2Proof/Machine/Frames.lean ====
section
/-! DEFINITION. The meanings of the node frames and of the station line's own progress (chapter 9). -/

namespace Sys2Proof.Machine

open Host

/-- A frame of kind SET_ACCEPT (R70). -/
def execSetAccept (f : RxFrame) (s : State) : Outcome State Fault Refusal :=
  live (fun s => s.receive Kind.setAccept f) s

/-- A frame of kind SET_REFUSE (R70). -/
def execSetRefuse (f : RxFrame) (s : State) : Outcome State Fault Refusal :=
  live (fun s => s.receive Kind.setRefuse f) s

/-- A frame of kind GO_ACCEPT (R73). -/
def execGoAccept (f : RxFrame) (s : State) : Outcome State Fault Refusal :=
  live (fun s => s.receive Kind.goAccept f) s

/-- A frame of kind GO_REFUSE (R73). -/
def execGoRefuse (f : RxFrame) (s : State) : Outcome State Fault Refusal :=
  live (fun s => s.receive Kind.goRefuse f) s

/-- A frame of kind DETAIL_ANSWER (R76). -/
def execDetailAnswer (f : RxFrame) (s : State) : Outcome State Fault Refusal :=
  live (fun s => s.receive Kind.detailAnswer f) s

/-- A frame of kind CANCEL_ACCEPT (R66). -/
def execCancelAccept (f : RxFrame) (s : State) : Outcome State Fault Refusal :=
  live (fun s => s.receive Kind.cancelAccept f) s

/-- A frame of kind CLEAR_ACCEPT (R80). -/
def execClearAccept (f : RxFrame) (s : State) : Outcome State Fault Refusal :=
  live (fun s => s.receive Kind.clearAccept f) s

/-- A frame of kind EXPECT_ACCEPT (R87). -/
def execExpectAccept (f : RxFrame) (s : State) : Outcome State Fault Refusal :=
  live (fun s => s.receive Kind.expectAccept f) s

/-- A frame of kind CLOSURE_DONE (R74). -/
def execClosureDone (f : RxFrame) (s : State) : Outcome State Fault Refusal :=
  live (fun s => s.receive Kind.closureDone f) s

/-- A frame of kind GRIP_RESULT (R88, R90). -/
def execGripResult (f : RxFrame) (s : State) : Outcome State Fault Refusal :=
  live (fun s => s.receive Kind.gripResult f) s

/-- A frame of kind TAG_READ (R48). -/
def execTagRead (f : RxFrame) (s : State) : Outcome State Fault Refusal :=
  live (fun s => s.receive Kind.tagRead f) s

/-- A frame of kind DECLINE (R150). -/
def execDecline (f : RxFrame) (s : State) : Outcome State Fault Refusal :=
  live (fun s => s.receive Kind.decline f) s

/-- A frame of any kind, judged as every frame is (R141). -/
def execUnsolicitedFrame (kind : Byte) (f : RxFrame) (s : State) : Outcome State Fault Refusal :=
  live (fun s => s.receive kind f) s

/-- The arbiter chooses the next exchange (R153). -/
def execArbiterChoice (s : State) : Outcome State Fault Refusal := live (fun s => s.arbiter) s

/-- The RESPONSE's last word has left the line (R152, R165). -/
def execResponseSent (s : State) : Outcome State Fault Refusal := live (fun s => s.responseIsSent) s

/-- The broadcast CLEAR's last word has left the line (R155). -/
def execBroadcastClearSent (s : State) : Outcome State Fault Refusal := live (fun s => s.clearIsSent) s

/-- The REPORT's last word has left the line (R144). -/
def execReportFrameSent (s : State) : Outcome State Fault Refusal := live (fun s => s.reportIsSent) s

/-- A command's answer window closes empty (R145). -/
def execAnswerWindowClose (s : State) : Outcome State Fault Refusal := live (fun s => s.answerWindowCloses) s

/-- A turn's answer window closes empty (R149). -/
def execTurnWindowClose (s : State) : Outcome State Fault Refusal := live (fun s => s.turnWindowCloses) s

/-- A poll slot closes (R148). -/
def execPollSlotClose (answer : SlotHeard) (s : State) : Outcome State Fault Refusal := live (fun s => s.pollSlotCloses answer) s

/-- The last word of the 640's command, POLL or TURN leaves the line (R144). -/
def execAnswerWindowOpens (s : State) : Outcome State Fault Refusal := live (fun s => s.windowOpens) s

end Sys2Proof.Machine
end

