-- ==== Sys2Proof/Machine/Pins.lean ====
section
/-! DEFINITION. The meanings of the pin events and of the resets (chapters 1, 2, 5, 8, 10, 11). -/

namespace Sys2Proof.Machine

open Host

/-! ### The encoder and the zone inputs -/

/-- One forward quadrature step (R23). -/
def execForwardStep (s : State) : Outcome State Fault Refusal := live (fun s => s.stepForward) s

/-- One reverse quadrature step (R23). -/
def execReverseStep (s : State) : Outcome State Fault Refusal := live (fun s => s.stepReverse) s

/-- CEA and CEB change together (R23). -/
def execEncoderSkip (s : State) : Outcome State Fault Refusal := live (fun s => s.skipStep) s

/-- A rising edge on a zone input (R28). -/
def execZoneEdge (input : Nat) (s : State) : Outcome State Fault Refusal := live (fun s => s.zoneRise input) s

/-! ### DMOV and DIVC -/

/-- The level DMOV shows is now this. -/
def State.setDmov (s : State) (level : Bool) : State := s.setPins { s.pins with dmov := level }

/-- A rise of DMOV: uncommanded in HELD, QUIET and SETUP (R9). -/
def State.dmovRises (s : State) : State :=
  let s := s.setDmov true
  match s.perm.line with
  | .held => s.raise .driveUncommanded .noSubject
  | .quiet => s.raise .driveUncommanded .noSubject
  | .setup => s.raise .driveUncommanded .noSubject
  | .running => s
  | .stopping => s

/-- The rope stands: STOPPING goes to HELD (R8). -/
def State.ropeStands (s : State) : State :=
  if s.perm.line = .stopping then (s.modPerm fun p => { p with stopTimer := none }).setLine .held .drive else s

/-- A fall of DMOV: the line is held from STOPPING, and the drive's two conditions clear (R8). -/
def State.dmovFalls (s : State) : State :=
  ((s.setDmov false).ropeStands.clear .driveNoStop .noSubject).clear .driveUncommanded .noSubject

/-- A rise of DMOV (R9). -/
def execDmovRise (s : State) : Outcome State Fault Refusal := live (fun s => s.dmovRises) s

/-- A fall of DMOV (R8). -/
def execDmovFall (s : State) : Outcome State Fault Refusal := live (fun s => s.dmovFalls) s

/-- A change of DIVC (R94). -/
def execDivcChange (divc0 divc1 : Bool) (s : State) : Outcome State Fault Refusal :=
  live (fun s => s.divcChanged divc0 divc1) s

/-! ### The handset and its codec -/

/-- An off-hook edge on HOOK (R132 to R135). -/
def execOffHook (s : State) : Outcome State Fault Refusal := live (fun s => s.hookEdge true) s

/-- An on-hook edge on HOOK (R132 to R135). -/
def execOnHook (s : State) : Outcome State Fault Refusal := live (fun s => s.hookEdge false) s

/-- A sample arrives on VSI (R136). -/
def execVsiSample (sample : Byte) (s : State) : Outcome State Fault Refusal := live (fun s => s.sampleIn sample) s

/-- A codec sample time on VSO (R138). -/
def execVsoSampleTime (s : State) : Outcome State Fault Refusal := live (fun s => s.sampleOut) s

/-! ### Resets -/

/-- A full reset begins, also while a reset lasts (R173). -/
def execFullReset (source : ResetSource) (s : State) : Outcome State Fault Refusal :=
  .next (if filtered source then s else s.beginFullReset (s.phase.fullCause source))

/-- A full reset ends (R164, R173, R174). -/
def execFullResetEnd (levels : InputLevels) (s : State) : Outcome State Fault Refusal :=
  match s.phase with
  | .full cause => .next (s.endReset cause levels)
  | .live => .next s
  | .command => .next s

/-- A command reset ends (R164, R166, R174). -/
def execCommandResetEnd (levels : InputLevels) (s : State) : Outcome State Fault Refusal :=
  match s.phase with
  | .command => .next (s.endReset .command levels)
  | .live => .next s
  | .full _ => .next s

end Sys2Proof.Machine
end

