-- ==== Sys2Proof/Machine/Timers.lean ====
section
/-! DEFINITION. The meanings of the timer expiries, of a returned SWEEP and of the automatic call claim. -/

namespace Sys2Proof.Machine

open Host

/-- The stop timer expires in STOPPING and is not started again (R8). -/
def State.stopExpired (s : State) : State :=
  if s.perm.line = .stopping ∧ s.perm.stopTimer ≠ none then
    (s.modPerm fun p => { p with stopTimer := none }).raise .driveNoStop .noSubject
  else s

/-- The console silence timer expires and is not started again (R12). -/
def State.silenceExpired (s : State) : State :=
  if s.perm.silenceTimer ≠ none then
    (s.modPerm fun p => { p with silenceTimer := none }).raise .consoleSilent (.node 30)
  else s

/-- The stop timer expires (R8). -/
def execStopTimerExpiry (s : State) : Outcome State Fault Refusal := live (fun s => s.stopExpired) s

/-- The console silence timer expires (R12). -/
def execConsoleSilenceExpiry (s : State) : Outcome State Fault Refusal := live (fun s => s.silenceExpired) s

/-- A record's tag timer expires (R47). -/
def execTagTimerExpiry (entry : BitVec 16) (s : State) : Outcome State Fault Refusal :=
  live (fun s => s.tagExpired entry) s

/-- The pending slot's timer expires (R49). -/
def execPendingSlotExpiry (s : State) : Outcome State Fault Refusal := live (fun s => s.slotExpired) s

/-- The act timer of a node's transaction expires (R75). -/
def execActTimerExpiry (address : Nat) (s : State) : Outcome State Fault Refusal :=
  live (fun s => s.actExpiry address) s

/-- The ring timer expires (R133, R134). -/
def execRingTimerExpiry (s : State) : Outcome State Fault Refusal := live (fun s => s.ringExpired) s

/-- The poll timer expires (R147). -/
def execPollTimerExpiry (s : State) : Outcome State Fault Refusal := live (fun s => s.pollExpired) s

/-- The interval timer expires (R99). -/
def execIntervalExpiry (s : State) : Outcome State Fault Refusal := live (fun s => s.intervalExpired) s

/-- The return deadline timer expires (R104). -/
def execReturnDeadlineExpiry (s : State) : Outcome State Fault Refusal := live (fun s => s.deadlineExpired) s

/-- A frame arrives on TL-RET (R102). -/
def execSweepReturn (words : List Word) (s : State) : Outcome State Fault Refusal :=
  live (fun s => s.returned words) s

/-- SMT takes PERM's automatic call claim (R17, R125, R132). -/
def execAutomaticCallClaim (s : State) : Outcome State Fault Refusal := live (fun s => s.takeAutoClaim) s

end Sys2Proof.Machine
end

