-- ==== Sys2Proof/Machine/Dispatch.lean ====
section
/-! DEFINITION. exec: one arm per command, each one call of its meaning. -/

namespace Sys2Proof.Machine

open Host

def exec (i : Instr) (s : State) : Host.Outcome State Fault Refusal :=
  match i with
  | .statusRead f => Sys2Proof.Machine.execStatusRead f s
  | .siteWrite f => Sys2Proof.Machine.execSiteWrite f s
  | .siteRead f => Sys2Proof.Machine.execSiteRead f s
  | .tableWritePath f => Sys2Proof.Machine.execTableWritePath f s
  | .tableWriteZoneMask f => Sys2Proof.Machine.execTableWriteZoneMask f s
  | .tableWriteNodes f => Sys2Proof.Machine.execTableWriteNodes f s
  | .tableWriteTowers f => Sys2Proof.Machine.execTableWriteTowers f s
  | .tableWriteCauses f => Sys2Proof.Machine.execTableWriteCauses f s
  | .tableWriteDirectory f => Sys2Proof.Machine.execTableWriteDirectory f s
  | .tableReadPath f => Sys2Proof.Machine.execTableReadPath f s
  | .tableReadZoneMask f => Sys2Proof.Machine.execTableReadZoneMask f s
  | .tableReadNodes f => Sys2Proof.Machine.execTableReadNodes f s
  | .tableReadTowers f => Sys2Proof.Machine.execTableReadTowers f s
  | .tableReadCauses f => Sys2Proof.Machine.execTableReadCauses f s
  | .tableReadDirectory f => Sys2Proof.Machine.execTableReadDirectory f s
  | .recordRead f => Sys2Proof.Machine.execRecordRead f s
  | .recordWrite f => Sys2Proof.Machine.execRecordWrite f s
  | .recordRemove f => Sys2Proof.Machine.execRecordRemove f s
  | .causesRead f => Sys2Proof.Machine.execCausesRead f s
  | .causeAck f => Sys2Proof.Machine.execCauseAck f s
  | .causeAckAll f => Sys2Proof.Machine.execCauseAckAll f s
  | .lineReady f => Sys2Proof.Machine.execLineReady f s
  | .lineSetup f => Sys2Proof.Machine.execLineSetup f s
  | .lineStart f => Sys2Proof.Machine.execLineStart f s
  | .lineHalt f => Sys2Proof.Machine.execLineHalt f s
  | .linePark f => Sys2Proof.Machine.execLinePark f s
  | .lineWake f => Sys2Proof.Machine.execLineWake f s
  | .nodeClear f => Sys2Proof.Machine.execNodeClear f s
  | .partReset f => Sys2Proof.Machine.execPartReset f s
  | .forwardStep => Sys2Proof.Machine.execForwardStep s
  | .reverseStep => Sys2Proof.Machine.execReverseStep s
  | .encoderSkip => Sys2Proof.Machine.execEncoderSkip s
  | .zoneEdge input => Sys2Proof.Machine.execZoneEdge input s
  | .dmovRise => Sys2Proof.Machine.execDmovRise s
  | .dmovFall => Sys2Proof.Machine.execDmovFall s
  | .divcChange divc0 divc1 => Sys2Proof.Machine.execDivcChange divc0 divc1 s
  | .offHook => Sys2Proof.Machine.execOffHook s
  | .onHook => Sys2Proof.Machine.execOnHook s
  | .vsiSample sample => Sys2Proof.Machine.execVsiSample sample s
  | .vsoSampleTime => Sys2Proof.Machine.execVsoSampleTime s
  | .fullReset source => Sys2Proof.Machine.execFullReset source s
  | .fullResetEnd levels => Sys2Proof.Machine.execFullResetEnd levels s
  | .commandResetEnd levels => Sys2Proof.Machine.execCommandResetEnd levels s
  | .stopTimerExpiry => Sys2Proof.Machine.execStopTimerExpiry s
  | .consoleSilenceExpiry => Sys2Proof.Machine.execConsoleSilenceExpiry s
  | .tagTimerExpiry entry => Sys2Proof.Machine.execTagTimerExpiry entry s
  | .pendingSlotExpiry => Sys2Proof.Machine.execPendingSlotExpiry s
  | .actTimerExpiry address => Sys2Proof.Machine.execActTimerExpiry address s
  | .ringTimerExpiry => Sys2Proof.Machine.execRingTimerExpiry s
  | .pollTimerExpiry => Sys2Proof.Machine.execPollTimerExpiry s
  | .intervalExpiry => Sys2Proof.Machine.execIntervalExpiry s
  | .returnDeadlineExpiry => Sys2Proof.Machine.execReturnDeadlineExpiry s
  | .sweepReturn words => Sys2Proof.Machine.execSweepReturn words s
  | .automaticCallClaim => Sys2Proof.Machine.execAutomaticCallClaim s
  | .setAccept f => Sys2Proof.Machine.execSetAccept f s
  | .setRefuse f => Sys2Proof.Machine.execSetRefuse f s
  | .goAccept f => Sys2Proof.Machine.execGoAccept f s
  | .goRefuse f => Sys2Proof.Machine.execGoRefuse f s
  | .detailAnswer f => Sys2Proof.Machine.execDetailAnswer f s
  | .cancelAccept f => Sys2Proof.Machine.execCancelAccept f s
  | .clearAccept f => Sys2Proof.Machine.execClearAccept f s
  | .expectAccept f => Sys2Proof.Machine.execExpectAccept f s
  | .closureDone f => Sys2Proof.Machine.execClosureDone f s
  | .gripResult f => Sys2Proof.Machine.execGripResult f s
  | .tagRead f => Sys2Proof.Machine.execTagRead f s
  | .decline f => Sys2Proof.Machine.execDecline f s
  | .unsolicitedFrame kind f => Sys2Proof.Machine.execUnsolicitedFrame kind f s
  | .arbiterChoice => Sys2Proof.Machine.execArbiterChoice s
  | .responseSent => Sys2Proof.Machine.execResponseSent s
  | .broadcastClearSent => Sys2Proof.Machine.execBroadcastClearSent s
  | .reportFrameSent => Sys2Proof.Machine.execReportFrameSent s
  | .answerWindowClose => Sys2Proof.Machine.execAnswerWindowClose s
  | .turnWindowClose => Sys2Proof.Machine.execTurnWindowClose s
  | .pollSlotClose answer => Sys2Proof.Machine.execPollSlotClose answer s
  | .answerWindowOpens => Sys2Proof.Machine.execAnswerWindowOpens s

end Sys2Proof.Machine
end

