-- ==== Sys2Proof/Machine/Step.lean ====
section
/-! DEFINITION. One step: the command at the front of the queue, or a millisecond of line time on an empty queue. -/

namespace Sys2Proof.Machine

open Host

/-- Line time counts one millisecond; it is 0 while a reset lasts (R159; log 1). -/
def State.tick (s : State) : State :=
  if s.phase = .live then s.modMgt fun m => { m with lineTime := m.lineTime + 1 } else s

/-- Take the command at the front of the queue; on an empty queue a millisecond passes (log 1). -/
def step (s : State) : Outcome State Fault Refusal :=
  match s.pending with
  | [] => .next s.tick
  | c :: rest => exec c (s.setPending rest)

/-- The state with the command a word spells put at the front of its queue; unchanged where it spells none. -/
def State.withFetchWord (s : State) (nbits w : Nat) : State :=
  match decodeTableWord nbits w with
  | some c => s.setPending (c :: s.pending)
  | none => s

end Sys2Proof.Machine
end

