-- ==== Sys2Proof/Safety.lean ====
section
/-! DEFINITION. The invariants of the 640, and the premises under which a frame reaches its owner. -/

namespace Sys2Proof.Machine

/-! ### Invariants -/

/-- The cause set is in order: no kind and subject twice, each subject of its kind's type, at most 47 entries but
CAUSE_OVERFLOW, counts from 1 to 255, SELF entries ACTIVE (R13); entries and cause table keep R21's bounds (R20). -/
structure CausesOk (p : Perm) : Prop where
  keys : (p.causes.map fun e => (e.kind, e.subject)).Nodup
  typed : ∀ e ∈ p.causes, e.subject.type = e.kind.subjectType
  room : p.others ≤ 47
  counts : ∀ e ∈ p.causes, 1 ≤ e.raiseCount ∧ e.raiseCount ≤ 255
  selfActive : ∀ e ∈ p.causes, e.latch = .self → e.state = .active
  bounds : ∀ e ∈ p.causes, CauseSetting.allowed { response := e.response, latch := e.latch } e.kind = true
  table : ∀ k : CauseKind, (p.causeTable[k.index]).allowed k = true

/-- PERM is in order: the drive lines follow the line state and the cause set (R2, R3), and RUNNING and QUIET hold no
stopping entry (R7, R10). -/
structure PermOk (p : Perm) : Prop where
  set : CausesOk p
  lines : p.drive = p
  calm : p.line = .running ∨ p.line = .quiet → p.stopping = false

/-- The report queue holds at most 64 entries, and 64 while the overflow mark is set (R168, R169). -/
structure ReportsOk (m : Mgt) : Prop where
  room : m.reports.length ≤ 64
  full : m.overflowMark = true → m.reports.length = 64

/-- The voice queues hold at most 256 and are empty outside CONNECTED, where playback waits and VSO is silent (R131, R136 to
R138; log 41). -/
structure VoiceOk (m : Smt) : Prop where
  up : m.uplink.length ≤ 256
  down : m.downlink.length ≤ 256
  still : m.call ≠ .connected → m.uplink = [] ∧ m.downlink = [] ∧ m.playback = .waiting ∧ m.vso = 128

/-- The urgent queue holds at most 64 commands (R146). -/
def UrgentOk (c : Slc) : Prop := c.urgent.length ≤ 64

/-- CONSOLE is held at address 30 and at no other (R142). -/
def TableOk (c : Slc) : Prop := ∀ k : Nat, nth1 c.nodeTable k = some .console ↔ k = 30

/-- QUIET only with an empty train and the call IDLE (R10). -/
def ParkOk (s : State) : Prop := s.perm.line = .quiet → s.trn.train = [] ∧ s.smt.call = .idle

/-- In SETUP the call is IDLE, no sweep is outstanding and the interval timer is stopped (R100, R132). -/
def SetupOk (s : State) : Prop :=
  s.perm.line = .setup → s.smt.call = .idle ∧ s.swp.outstanding = none ∧ s.swp.intervalTimer = none

/-- At most 32 records, no entry number and no nonzero cabin number twice (R41, R44), and every schedule entry names a
record of the train (R30). -/
structure TrainOk (s : State) : Prop where
  distinct : (s.trn.train.map CabinRecord.entry).Nodup
  room : s.trn.train.length ≤ 32
  cabins : ∀ a ∈ s.trn.train, ∀ b ∈ s.trn.train, a.cabin = b.cabin → a.cabin ≠ 0 → a.entry = b.entry
  named : ∀ e ∈ s.trav.schedule, e.entry ∈ s.trn.train.map CabinRecord.entry

/-- The entry numbers a node's claims name: that of its open transaction, unless it is overtaken, and those of its wait
list (R64, R69). -/
def NodeRec.claims (n : NodeRec) : List (BitVec 16) :=
  (match n.txn with
    | some t => if t.overtaken then [] else [t.entry]
    | none => []) ++ n.waiting.map WaitEntry.entry

/-- A FAULTED node holds no open transaction, and a node without one no wait entry (R63, R65). -/
structure NodeRec.Ok (n : NodeRec) : Prop where
  faulted : n.faulted = true → n.txn = none
  idle : n.txn = none → n.waiting = []

/-- The closure claims are in order: a cabin has at most one over all nodes, and every wait entry is of a record of the
train (R63 to R65). -/
structure DtxOk (s : State) : Prop where
  nodes : ∀ a n, s.node a = some n → n.Ok
  once : ∀ a n, s.node a = some n → n.claims.Nodup
  apart : ∀ a b m n e, s.node a = some m → s.node b = some n → e ∈ m.claims → e ∈ n.claims → a = b
  held : ∀ a n, s.node a = some n → ∀ w ∈ n.waiting, w.entry ∈ s.trn.train.map CabinRecord.entry

/-- Grip expectations and switch claims name records of the train, none twice (R85, R92). -/
structure GswOk (s : State) : Prop where
  expectations : s.gsw.expectations.Nodup
  expected : ∀ e ∈ s.gsw.expectations, e ∈ s.trn.train.map CabinRecord.entry
  claims : (s.gsw.claims.map SwitchClaim.entry).Nodup
  claimed : ∀ c ∈ s.gsw.claims, c.entry ∈ s.trn.train.map CabinRecord.entry

/-- A tower's miss count is at most its miss limit, and 0 where the table holds no entry for it (R121, R123). -/
def RsuOk (r : Rsu) : Prop :=
  ∀ k entry u, nth1 r.towers k = some entry → nth1 r.runtime k = some u →
    u.missCount ≤ (entry.map TowerEntry.missLimit).getD 0

/-- The path holds at most 16 points (R26). -/
def PathOk (t : Trav) : Prop := t.path.length ≤ 16

/-- While a reset lasts the line is SETUP (R22, R173). -/
def PhaseOk (s : State) : Prop := s.phase ≠ .live → s.perm.line = .setup

/-- The wait entries of every node together. -/
def State.waits (s : State) : List WaitEntry := s.dtx.nodes.toList.flatMap NodeRec.waiting

/-- The 640 is in order: every invariant together. -/
structure Inv (s : State) : Prop where
  perm : PermOk s.perm
  reports : ReportsOk s.mgt
  voice : VoiceOk s.smt
  urgent : UrgentOk s.slc
  table : TableOk s.slc
  park : ParkOk s
  setup : SetupOk s
  train : TrainOk s
  dtx : DtxOk s
  gsw : GswOk s
  rsu : RsuOk s.rsu
  path : PathOk s.trav
  phase : PhaseOk s

/-! ### The READY checks -/

/-- Check n of R4 passes, n from 1 to 12. -/
def ReadyPasses (s : State) (n : Nat) : Prop :=
  let path := s.trav.path
  let actions := path.map PathPoint.action
  let kinds := s.slc.nodeTable.toList
  match n with
  | 1 => s.mgt.site.isSome
  | 2 => 2 ≤ path.length ∧ path.length ≤ 16
  | 3 =>
    ∃ p rest, path = p :: rest ∧ p.action = .entry ∧ p.offset = 0 ∧ p.zone.isSome ∧ ∀ q ∈ rest, q.action ≠ .entry
  | 4 => ∀ (k : Nat) (p q : PathPoint), path[k]? = some p → path[k + 1]? = some q → p.offset < q.offset
  | 5 =>
    ∀ (k : Nat) (p q : PathPoint), path[k]? = some p → path[k + 1]? = some q →
      (p.offset : Int) < (q.offset : Int) - q.lead
  | 6 =>
    actions.count .gripTest = 1 ∧ actions.count .divert = 1 ∧ actions.count .depart = 1 ∧
      (∀ i j : Nat, actions[i]? = some .gripTest → actions[j]? = some .divert → i < j) ∧
      (∀ i j : Nat, actions[i]? = some .divert → actions[j]? = some .depart → i < j) ∧
      actions.getLast? = some .depart
  | 7 => ∃ i : Nat, actions[i]? = some .shutAt ∧ ∀ j : Nat, actions[j]? = some .openAt → j < i
  | 8 =>
    ∀ (k : Nat) (p q : PathPoint), path[k]? = some p → path[k + 1]? = some q →
      (p.offset : Int) + p.tolerance < (q.offset : Int) - q.tolerance
  | 9 =>
    ∀ (i j : Nat) (p q : PathPoint), path[i]? = some p → path[j]? = some q → p.zone.isSome → p.zone = q.zone → i = j
  | 10 =>
    ∀ p ∈ path, p.action = .openAt ∨ p.action = .shutAt →
      ∃ a, p.node = some a ∧ nth1 s.slc.nodeTable a = some .closureDrive
  | 11 => kinds.count .gripUnit = 1 ∧ kinds.count .tagReader = 1 ∧ 1 ≤ kinds.count .closureDrive
  | 12 => ∀ k : Nat, 1 ≤ k → k ≤ s.site.towerCount → (s.towerAt k).isSome
  | _ => True

/-! ### Premises of frames -/

/-- A whole frame to the 640 from address a, of a length its kind allows, outside a reset (R140, R141). -/
structure Arrives (s : State) (a : Nat) (kind : Byte) (f : RxFrame) : Prop where
  live : s.phase = .live
  whole : f.whole kind = true
  destination : f.destination = 0
  sender : f.sender = a
  low : 1 ≤ a
  high : a ≤ 30
  length : lengthAllowed kind f.payload = true

/-- The frame arrives in the turn of address a, whose node kind is this (R149, R150). -/
structure InTurn (s : State) (a : Nat) (node : NodeKind) (kind : Byte) (f : RxFrame) : Prop where
  arrives : Arrives s a kind f
  turn : ∃ words, s.slc.exchange = some { kind := .turn, address := a, phase := .awaiting, frame := words }
  node : nth1 s.slc.nodeTable a = some node

/-- The frame arrives as the answer to a command (R145). -/
structure Answers (s : State) (q : QueuedCommand) (kind : Byte) (f : RxFrame) : Prop where
  arrives : Arrives s q.address kind f
  exchange : ∃ repeated words,
    s.slc.exchange = some { kind := .command q repeated, address := q.address, phase := .awaiting, frame := words }

/-- What a frame of address a leaves before its owner sees it: silence and the console's notice are handled, and the
exchange that took it has ended (R141, R151, R12). -/
def State.taken (s : State) (a : Nat) : State :=
  ((if a = 30 then (s.heardFrom a).consoleNotice else s.heardFrom a)).setExchange none

/-- A management request arrives in the console's turn (R150, R157). -/
def Requested (s : State) (kind : RequestKind) (f : RxFrame) : Prop := InTurn s 30 .console kind.frameKind f

/-- The pending response after a request (R158). -/
def State.answered (s : State) (f : RxFrame) (kind : RequestKind) (result : ResultCode) (payload : List Word) : State :=
  s.modMgt fun m => { m with response := some { tag := f.tag, kind := kind, result := result, payload := payload } }

end Sys2Proof.Machine
end

