-- ==== Sys2Proof/Certificates/Slice0/Obligations.lean ====
section
/-! DEFINITION. The statements of slice 0: what the commands of the 640 do, and what every step keeps. -/

section

open Sys2Proof Sys2Proof.Machine Host

/-! ### The queue, the order every step keeps, resets -/

/-- The command at the front of the queue is taken and run on the rest; on an empty queue a millisecond of line time
passes outside a reset (R159; that it does so in place of idling is the model's own choice, log 1). -/
def Obligations.StepRunsTheFrontCommand : Prop :=
  (∀ (c : Instr) (rest : List Instr) (s : State), s.pending = c :: rest → step s = exec c (s.setPending rest)) ∧
    ∀ s : State, s.pending = [] →
      (s.phase = .live → step s = .next (s.modMgt fun m => { m with lineTime := m.lineTime + 1 })) ∧
        (s.phase ≠ .live → step s = .next s)

/-- Every command answers a next state, and leaves the commands that wait behind it. That a command standing for an
event that cannot occur in a state answers that same state is the model's own choice, log 3. -/
def Obligations.EveryCommandAnswersNext : Prop :=
  ∀ (c : Instr) (s : State), ∃ t, exec c s = .next t ∧ t.pending = s.pending

/-- The state right after reset is in order. -/
def Obligations.ResetStateIsInOrder : Prop := Inv State.reset

/-- Every step leaves the 640 in order: the cause set and its table in their bounds, the drive lines as line and set have
them (R2, R3, R7, R10, R13, R20); at most 64 reports and 64 urgent commands, at most 256 voice samples a way and none
outside CONNECTED, where VSO is silent (R131, R138, R146, R168; from the event that leaves it: log 41); CONSOLE at 30 alone (R142); QUIET with no train and no call, SETUP with no sweep
(R10, R100); at most 32 records, no number twice, and schedule entries of records alone (R30, R41, R44); a FAULTED node
with no transaction, a free node with no wait entry, a cabin with at most one closure claim over all nodes (R63 to R65);
expectations and switch claims of records, none twice (R85, R92); miss counts within their limits (R121); at most 16 path
points (R26); SETUP while a reset lasts (R22, R173). So all wait lists together, the expectations and the switch claims
hold at most 32 each (R65, R85, R92). -/
def Obligations.EveryStepKeepsTheOrder : Prop :=
  ∀ s t : State, Inv s → step s = .next t →
    Inv t ∧ t.waits.length ≤ 32 ∧ t.gsw.expectations.length ≤ 32 ∧ t.gsw.claims.length ≤ 32

/-- While a reset lasts no event but a reset's own acts (R166, R173). -/
def Obligations.NothingActsInsideAReset : Prop :=
  ∀ (c : Instr) (s : State), s.phase ≠ .live → (∀ source, c ≠ .fullReset source) →
    (∀ levels, c ≠ .fullResetEnd levels) → (∀ levels, c ≠ .commandResetEnd levels) → exec c s = .next s

/-- A full reset begins on power, on a supply drop, or on RESETN low for a microsecond or more: every block holds its
full reset values as its chapter lists them, line time is 0, and the cause is POWER_ON or PIN (R22, R40, R62, R84, R97, R110, R124, R139, R156, R164,
R170, R173; the causes of combined sources: log 26; that the values hold from the reset's start, with the cause record
kept until its end: log 27). -/
def Obligations.FullResetHoldsEveryBlock : Prop :=
  (∀ (source : ResetSource) (s : State),
    ((∀ ns, source = .resetLow ns → 1000 ≤ ns) →
      exec (.fullReset source) s =
        .next
          { perm := Perm.fullReset, trav := Trav.fullReset, trn := Trn.fullReset, dtx := Dtx.afterReset,
            gsw := Gsw.afterReset, swp := Swp.afterReset, rsu := Rsu.fullReset, smt := Smt.afterReset,
            slc := Slc.fullReset,
            mgt :=
              { response := none, site := none, siteLock := false, lineTime := 0, resetCause := s.mgt.resetCause,
                resetRequest := false, reports := [], overflowMark := false },
            pins := s.pins, pending := s.pending,
            phase :=
              .full
                (match source, s.phase with
                  | .powerUp, _ => .powerOn
                  | .supplyLow, _ => .powerOn
                  | .resetLow _, .full c => c
                  | .resetLow _, .live => .pin
                  | .resetLow _, .command => .pin) }) ∧
      ∀ ns, source = .resetLow ns → ns < 1000 → exec (.fullReset source) s = .next s) ∧
  (Perm.fullReset.line = .setup ∧ Perm.fullReset.causes = [] ∧ Perm.fullReset.stopTimer = none ∧
    Perm.fullReset.silenceTimer = none ∧ Perm.fullReset.runp = false ∧ Perm.fullReset.slowq = false ∧
    Perm.fullReset.estop = true ∧ ∀ k : CauseKind, Perm.fullReset.causeTable[k.index] = k.defaultSetting) ∧
  (Trav.fullReset.counter = 0 ∧ Trav.fullReset.highWater = 0 ∧ Trav.fullReset.reverseFlag = false ∧
    Trav.fullReset.path = [] ∧ Trav.fullReset.schedule = [] ∧ ∀ z : Fin 16, Trav.fullReset.zoneMask[z] = false) ∧
  (Trn.fullReset.train = [] ∧ Trn.fullReset.slot = none ∧ Trn.fullReset.entryCounter = 0 ∧
    Trn.fullReset.crowding = .calm ∧ Trn.fullReset.overflowFlag = false ∧
    ∀ n : Fin 255, Trn.fullReset.directory[n] = { tag := none, retired := none, force := none }) ∧
  (∀ a : Fin 29, Dtx.afterReset.nodes[a] =
    { faulted := false, txn := none, waiting := [], clearMark := false, changeMark := false }) ∧
  (Gsw.afterReset.expectations = [] ∧ Gsw.afterReset.claims = [] ∧ Gsw.afterReset.commanded = .main ∧
    Gsw.afterReset.faults = []) ∧
  (Swp.afterReset.number = 0 ∧ Swp.afterReset.outstanding = none ∧ Swp.afterReset.deadlineTimer = none ∧
    Swp.afterReset.intervalTimer = none ∧ Swp.afterReset.sent = 0 ∧ Swp.afterReset.valid = 0 ∧
    Swp.afterReset.missed = 0 ∧ Swp.afterReset.stale = 0 ∧ Swp.afterReset.corrupt = 0 ∧
    ∀ k : Fin 24, Swp.afterReset.mismatch[k] = false) ∧
  (∀ k : Fin 24, Rsu.fullReset.towers[k] = none ∧ Rsu.fullReset.runtime[k] =
    { missCount := 0, silent := false, warn := false, limit := false, off := false, last := none }) ∧
  (Smt.afterReset.missCount = 0 ∧ Smt.afterReset.lostFlag = false ∧ Smt.afterReset.held = .clear ∧
    Smt.afterReset.releaseRun = none ∧ Smt.afterReset.heldCall = .nothing ∧ Smt.afterReset.callRun = none ∧
    Smt.afterReset.call = .idle ∧ Smt.afterReset.uplink = [] ∧ Smt.afterReset.downlink = [] ∧
    Smt.afterReset.playback = .waiting ∧ Smt.afterReset.ring = false ∧ Smt.afterReset.vso = 128 ∧
    Smt.afterReset.ringTimer = none ∧ Smt.afterReset.autoMark = false ∧ Smt.afterReset.hookMark = false ∧
    Smt.afterReset.startTime = 0 ∧ Smt.afterReset.clearingCount = 0 ∧ Smt.afterReset.concealed = 0) ∧
  (Slc.fullReset.service.toList.all (· == false) = true ∧ Slc.fullReset.turnPointer = none ∧ Slc.fullReset.urgent = [] ∧
    Slc.fullReset.pollTimer = none ∧ Slc.fullReset.pollDue = false ∧ Slc.fullReset.exchange = none ∧
    ∀ a : Fin 30, Slc.fullReset.nodeTable[a] = (if a.val = 29 then .console else .noKind) ∧
      Slc.fullReset.answers[a] = { silent := false, silence := 0, stray := false })

/-- A reset ends: the inputs are as sampled, the cause is recorded, RESET_DONE is the one report, the broadcast CLEAR
is pending, and DRIVE_UNCOMMANDED is raised with DMOV high. The line, which is in SETUP while a reset lasts, is left in
SETUP (R9, R22, R155, R164, R174; that these come as the reset ends and not as it begins: log 27). -/
def Obligations.ResetEndLeavesTheLineInSetup : Prop :=
  ∀ (s : State) (levels : InputLevels) (cause : ResetCause) (c : Instr),
    (s.phase = .full cause ∧ c = .fullResetEnd levels ∨ s.phase = .command ∧ cause = .command ∧ c = .commandResetEnd levels) →
      let t : State :=
        { s with
          pins := levels
          phase := .live
          slc := { s.slc with clearPending := true }
          mgt :=
            { s.mgt with
              lineTime := 0, resetCause := cause, reports := [{ report := .resetDone cause, time := 0 }],
              overflowMark := false } }
      let u := if levels.dmov then t.raise .driveUncommanded .noSubject else t
      exec c s = .next u ∧ (PhaseOk s → u.perm.line = .setup)

/-- PART_RESET in SETUP, HELD and QUIET is answered DONE and asks for a command reset; in RUNNING and STOPPING it is
refused. When the RESPONSE has left the line with a reset asked, the command reset begins, which keeps the cause table,
path, zone mask, directory, tower table, node table, site record and lock (R22, R40, R62, R124, R152, R156, R165, R166,
R170; that the values hold from the reset's start, with no report and the cause record kept until its end: log 27). -/
def Obligations.PartResetFollowsItsResponse : Prop :=
  (∀ (s : State) (f : RxFrame), Requested s .partReset f → f.payload = [] →
    ((s.perm.line ≠ .running ∧ s.perm.line ≠ .stopping →
      exec (.partReset f) s =
        .next (((s.taken 30).modMgt fun m => { m with resetRequest := true }).answered f .partReset .done [])) ∧
    (s.perm.line = .running ∨ s.perm.line = .stopping →
      exec (.partReset f) s = .next ((s.taken 30).answered f .partReset .refusedState [])))) ∧
  ∀ (s : State) (x : Exchange), s.phase = .live → s.slc.exchange = some x → x.kind = .response → x.phase = .sending →
    (s.mgt.resetRequest = false →
      exec .responseSent s =
        .next ((s.modSlc fun c => { c with exchange := none }).modMgt fun m => { m with response := none })) ∧
    (s.mgt.resetRequest = true →
      exec .responseSent s =
        .next
          { perm := { Perm.fullReset with causeTable := s.perm.causeTable },
            trav := { Trav.fullReset with path := s.trav.path, zoneMask := s.trav.zoneMask },
            trn := { Trn.fullReset with directory := s.trn.directory }, dtx := Dtx.afterReset, gsw := Gsw.afterReset,
            swp := Swp.afterReset, rsu := { Rsu.fullReset with towers := s.rsu.towers }, smt := Smt.afterReset,
            slc := { Slc.fullReset with nodeTable := s.slc.nodeTable },
            mgt :=
              { response := none, site := s.mgt.site, siteLock := s.mgt.siteLock, lineTime := 0,
                resetCause := s.mgt.resetCause, resetRequest := false, reports := [], overflowMark := false },
            pins := s.pins, phase := .command, pending := s.pending })

/-! ### PERM: drive lines, claims, acknowledgements -/

/-- A change of the line state sets the three drive lines and makes one LINE_STATE report of class ALARM (R1, R2, R3). -/
def Obligations.LineStateChangeSetsDriveLines : Prop :=
  ∀ (s : State) (new : LineState) (reason : LineReason),
    s.setLine new reason =
        { s with
          perm :=
            { s.perm with
              line := new
              runp := decide (new = .running)
              slowq := decide (new = .running ∨ new = .stopping) && s.perm.causes.any fun e => decide (e.response = .slow)
              estop := decide (new = .setup) || s.perm.causes.any fun e => decide (e.response = .emergency) }
          mgt := s.mgt.addReport (.lineState s.perm.line new reason) } ∧
      (Report.lineState s.perm.line new reason).cls = .alarm

/-- Whatever command runs on a state in order, RUNP is on in RUNNING alone, SLOWQ on a SLOW entry in RUNNING and
STOPPING, ESTOP in SETUP and on an EMERGENCY entry, and RUNNING and QUIET hold no entry of response STOP or EMERGENCY
(R2, R3, R7, R10). -/
def Obligations.DriveLinesFollowLineAndCauses : Prop :=
  ∀ (c : Instr) (s t : State), Inv s → exec c s = .next t →
    t.perm.runp = decide (t.perm.line = .running) ∧
      t.perm.slowq =
        (decide (t.perm.line = .running ∨ t.perm.line = .stopping) &&
          t.perm.causes.any fun e => decide (e.response = .slow)) ∧
      t.perm.estop = (decide (t.perm.line = .setup) || t.perm.causes.any fun e => decide (e.response = .emergency)) ∧
      (t.perm.line = .running ∨ t.perm.line = .quiet →
        ∀ e ∈ t.perm.causes, e.response = .info ∨ e.response = .slow)

/-- A raise claim: an entry held counts up, a LATCHED one becoming ACTIVE with a report; a new entry joins at the end
with its report, and R2, R3, R7, R10 and R17 are applied; with 47 others held it is lost to CAUSE_OVERFLOW. A stopping
entry moves RUNNING to STOPPING, and on to HELD with DMOV low, and QUIET to HELD; an EMERGENCY entry outside SETUP sends
the automatic call claim. -/
def Obligations.RaiseClaimTakesOneOfThreeWays : Prop :=
  ∀ (s : State) (k : CauseKind) (x : Subject),
    (∀ e, s.perm.find k x = some e →
      let e' : CauseEntry :=
        { e with raiseCount := min 255 (e.raiseCount + 1), state := if e.state = .latched then .active else e.state }
      let held := s.modPerm fun p =>
        { p with causes := p.causes.map fun y => if y.kind = k ∧ y.subject = x then e' else y }
      s.raise k x = if e.state = .latched then held.report (.causeRaised e') else held) ∧
    (s.perm.find k x = none →
      k = .causeOverflow ∨ (s.perm.causes.filter fun e => decide (e.kind ≠ .causeOverflow)).length < 47 →
      let e : CauseEntry :=
        { kind := k, subject := x, response := s.perm.causeTable[k.index].response,
          latch := s.perm.causeTable[k.index].latch, state := .active, raisedTime := s.mgt.lineTime, raiseCount := 1 }
      let stops := e.response = .stop ∨ e.response = .emergency
      let made := (s.modPerm fun p => { p with causes := p.causes ++ [e] }.drive).report (.causeRaised e)
      let stopping := (made.modPerm fun p =>
        { p with silenceTimer := none, stopTimer := some (s.site.stopLimit * 1000) }).setLine .stopping (.cause k x)
      let moved :=
        if stops ∧ s.perm.line = .running then
          if s.pins.dmov then stopping
          else (stopping.modPerm fun p => { p with stopTimer := none }).setLine .held .drive
        else if stops ∧ s.perm.line = .quiet then made.setLine .held (.cause k x)
        else made
      s.raise k x =
        if e.response = .emergency ∧ s.perm.line ≠ .setup then
          moved.modSmt fun m => { m with autoClaims := m.autoClaims + 1 }
        else moved) ∧
    (s.perm.find k x = none → k ≠ .causeOverflow →
      47 ≤ (s.perm.causes.filter fun e => decide (e.kind ≠ .causeOverflow)).length →
      s.raise k x = s.raise .causeOverflow .noSubject) ∧
    ∀ e, (Report.causeRaised e).cls = .alarm

/-- A clear claim: SELF and ACTIVE_ACKED entries leave, with a CAUSE_GONE report of way CLEARED and the overflow test;
ACTIVE becomes LATCHED; LATCHED and no entry are unchanged. The overflow test: with 40 or fewer other entries
CAUSE_OVERFLOW's own clear claim is handled, unless it is LATCHED (R15, R16). -/
def Obligations.ClearClaimFollowsLatchAndState : Prop :=
  ∀ (s : State) (k : CauseKind) (x : Subject),
    (s.perm.find k x = none → s.clear k x = s) ∧
    (∀ e, s.perm.find k x = some e →
      (e.latch = .self ∨ e.state = .activeAcked →
        s.clear k x =
          ((s.modPerm fun p =>
            { p with causes := p.causes.filter fun y => !(decide (y.kind = k ∧ y.subject = x)) }.drive).report
              (.causeGone k x e.raiseCount .cleared)).overflowTest) ∧
      (e.latch = .latch → e.state = .active →
        s.clear k x = s.modPerm fun p =>
          { p with causes := p.causes.map fun y =>
              if y.kind = k ∧ y.subject = x then { e with state := .latched } else y }) ∧
      (e.latch = .latch → e.state = .latched → s.clear k x = s)) ∧
    (40 < (s.perm.causes.filter fun e => decide (e.kind ≠ .causeOverflow)).length → s.overflowTest = s) ∧
    (s.perm.find .causeOverflow .noSubject = none → s.overflowTest = s) ∧
    ∀ e, s.perm.find .causeOverflow .noSubject = some e →
      (e.state = .latched → s.overflowTest = s) ∧
      (e.state ≠ .latched → (s.perm.causes.filter fun e => decide (e.kind ≠ .causeOverflow)).length ≤ 40 →
        s.overflowTest = s.clear .causeOverflow .noSubject)

/-- CAUSE_ACK for one entry held: ACTIVE becomes ACTIVE_ACKED; LATCHED leaves with way ACKED and the overflow test;
ACTIVE_ACKED and SELF are unchanged; answered DONE. No such entry is REFUSED_UNKNOWN. For all entries it applies the
table to each in raise order, then makes the overflow test where an entry left, and is answered DONE. A kind that is none
of the 26 and a subject of another type or out of its type's range are REFUSED_RANGE (R13, R18). The model's own choices: a
value beside NONE or SUMMIT, and a kind, type or value beside all entries, that is not 0 is refused so too, log 17; the
range of CONSOLE_SILENT's subject is that of its type, NODE 1 to 30, log 35. -/
def Obligations.CauseAckActsByState : Prop :=
  (∀ (s : State) (f : RxFrame) (k : CauseKind) (x : Subject), Requested s .causeAck f →
    parseAck f.payload = some (.one k x) →
      let u := s.taken 30
      (u.perm.find k x = none → exec (.causeAck f) s = .next (u.answered f .causeAck .refusedUnknown [])) ∧
      ∀ e, u.perm.find k x = some e →
        (e.latch = .self ∨ e.state = .activeAcked → exec (.causeAck f) s = .next (u.answered f .causeAck .done [])) ∧
        (e.latch = .latch → e.state = .active →
          exec (.causeAck f) s =
            .next
              ((u.modPerm fun p =>
                { p with causes := p.causes.map fun y =>
                    if y.kind = k ∧ y.subject = x then { e with state := .activeAcked } else y }).answered
                f .causeAck .done [])) ∧
        (e.latch = .latch → e.state = .latched →
          exec (.causeAck f) s =
            .next (((u.removeCause e .acked).overflowTest).answered f .causeAck .done []))) ∧
  (∀ (s : State) (f : RxFrame) (w v : Word), Requested s .causeAck f → f.payload = [w, v] →
    let kind := w.toNat % 32
    let type := w.toNat / 256 % 8
    let misnamed :=
      kind = 0 ∨ 26 < kind ∨ (∃ k : CauseKind, k.code = kind ∧ k.subjectType.code ≠ type) ∨
        ((type = 0 ∨ type = 5) ∧ v ≠ 0) ∨ (type = 1 ∧ (v = 0 ∨ 24 < v.toNat)) ∨ (type = 2 ∧ (v = 0 ∨ 30 < v.toNat)) ∨
        (type = 4 ∧ 15 < v.toNat)
    (w.getLsbD 15 = false ∧ misnamed ∨ w.getLsbD 15 = true ∧ (kind ≠ 0 ∨ type ≠ 0 ∨ v ≠ 0)) →
      exec (.causeAck f) s = .next ((s.taken 30).answered f .causeAck .refusedRange []) ∧
        exec (.causeAckAll f) s = .next ((s.taken 30).answered f .causeAck .refusedRange [])) ∧
  ∀ (s : State) (f : RxFrame), Requested s .causeAck f → parseAck f.payload = some .all →
    let u := s.taken 30
    let acked := u.perm.causes.foldl (fun s e => s.ackHere e.kind e.subject) u
    exec (.causeAckAll f) s =
      .next
        ((if acked.perm.causes.length < u.perm.causes.length then acked.overflowTest else acked).answered
          f .causeAck .done [])

/-- A frame of a node leaves, before its owner sees it, the silence handled and the exchange ended; one from the console
also restarts the silence timer in RUNNING and clears CONSOLE_SILENT (R12, R141, R151). -/
def Obligations.FrameTakenNoticesItsNode : Prop :=
  ∀ (s : State) (a : Nat),
    let heard :=
      match nth1 s.slc.answers a with
      | some r =>
        if r.silent then
          (s.modSlc fun c => { c with answers := mod1 c.answers a fun r => { r with silent := false } }).clear
            .nodeSilent (.node a)
        else s
      | none => s
    let noticed :=
      if heard.perm.line = .running then
        heard.modPerm fun p => { p with silenceTimer := some (heard.site.silenceLimit * 1000) }
      else heard
    (a ≠ 30 → s.taken a = heard.modSlc fun c => { c with exchange := none }) ∧
      (a = 30 → s.taken a = (noticed.clear .consoleSilent (.node 30)).modSlc fun c => { c with exchange := none })

/-! ### The line requests (R4 to R7, R10, R11) -/

/-- LINE_READY: in SETUP with all twelve checks passed the line becomes HELD, the first sweep is sent and a firing pass
is made, answered DONE; the first check that fails is named in the refusal, and outside SETUP check number 0 (R4). The
order of the blocks' parts is the model's own choice, log 8. -/
def Obligations.LineReadyMakesTheTwelveChecks : Prop :=
  ∀ (s : State) (f : RxFrame), Requested s .lineReady f →
    let u := s.taken 30
    (s.perm.line ≠ .setup → exec (.lineReady f) s = .next (u.answered f .lineReady .refusedState [0])) ∧
    (s.perm.line = .setup → f.payload = [] →
      ((∀ n, 1 ≤ n → n ≤ 12 → ReadyPasses s n) →
        exec (.lineReady f) s =
          .next ((((u.setLine .held (.request .lineReady)).sendAndRestart).firePass).answered f .lineReady .done [])) ∧
      ∀ n, 1 ≤ n → n ≤ 12 → ¬ReadyPasses s n → (∀ m, 1 ≤ m → m < n → ReadyPasses s m) →
        exec (.lineReady f) s = .next (u.answered f .lineReady .refusedState [word n]))

/-- LINE_SETUP in HELD with an empty train: the line becomes SETUP with ESTOP asserted and the cause set as it was, the
interval timer stops, an outstanding sweep is abandoned, both runs become none and a call is dropped; answered DONE. With
a train it is REFUSED_IN_USE (R5, R100, R127, R132; the order of the LINE_STATE report and of the parts of SWP and SMT:
log 8). LINE_PARK in HELD with an empty train, an IDLE call and no stopping
entry: the line becomes QUIET; answered DONE. A train or a call is REFUSED_IN_USE, else a stopping entry REFUSED_STATE
(R10). -/
def Obligations.LineSetupAndParkNeedAnEmptyTrain : Prop :=
  (∀ (s : State) (f : RxFrame), Requested s .lineSetup f → f.payload = [] → s.perm.line = .held →
    let u := s.taken 30
    (s.trn.train = [] →
      let v := ((u.setLine .setup (.request .lineSetup)).modSwp fun w =>
        { w with intervalTimer := none, deadlineTimer := none, outstanding := none }).modSmt fun m =>
          { m with releaseRun := none, callRun := none }
      exec (.lineSetup f) s =
        .next ((if s.smt.call = .idle then v else v.endCall .dropped .setupEntered).answered f .lineSetup .done [])) ∧
    (s.trn.train ≠ [] → exec (.lineSetup f) s = .next (u.answered f .lineSetup .refusedInUse []))) ∧
  ∀ (s : State) (f : RxFrame), Requested s .linePark f → f.payload = [] → s.perm.line = .held →
    let u := s.taken 30
    let stopping := u.perm.causes.any fun e => decide (e.response = .stop ∨ e.response = .emergency)
    (s.trn.train = [] → s.smt.call = .idle → stopping = false →
      exec (.linePark f) s = .next ((u.setLine .quiet (.request .linePark)).answered f .linePark .done [])) ∧
    (s.trn.train ≠ [] ∨ s.smt.call ≠ .idle →
      exec (.linePark f) s = .next (u.answered f .linePark .refusedInUse [])) ∧
    (s.trn.train = [] → s.smt.call = .idle → stopping = true →
      exec (.linePark f) s = .next (u.answered f .linePark .refusedState []))

/-- LINE_START in HELD with no stopping entry and DMOV low: the line becomes RUNNING, the silence timer starts, the
high-water count is the travel counter, a set reverse flag is cleared with CONVEYOR_REVERSE's condition; answered DONE. A
stopping entry in any state, or DMOV high, is REFUSED_STATE (R6, R12, R24, R25). -/
def Obligations.LineStartNeedsACalmSet : Prop :=
  ∀ (s : State) (f : RxFrame), Requested s .lineStart f → f.payload = [] → s.perm.line = .held →
    let u := s.taken 30
    let stopping := u.perm.causes.any fun e => decide (e.response = .stop ∨ e.response = .emergency)
    (stopping = false → s.pins.dmov = false →
      let v := ((u.setLine .running (.request .lineStart)).modPerm fun p =>
        { p with silenceTimer := some (u.site.silenceLimit * 1000) }).modTrav fun t => { t with highWater := t.counter }
      exec (.lineStart f) s =
        .next
          ((if s.trav.reverseFlag then
              (v.modTrav fun t => { t with reverseFlag := false }).clear .conveyorReverse .noSubject
            else v).answered f .lineStart .done [])) ∧
    (stopping = true ∨ s.pins.dmov = true → exec (.lineStart f) s = .next (u.answered f .lineStart .refusedState []))

/-- LINE_HALT in RUNNING: permission is withdrawn, the silence timer stops and the stop timer starts; with DMOV low the
line goes on to HELD in the same event; answered DONE (R7, R8). LINE_WAKE in QUIET: the line becomes HELD; answered DONE
(R11). -/
def Obligations.LineHaltStopsAndLineWakeHolds : Prop :=
  ∀ (s : State) (f : RxFrame), f.payload = [] →
    let u := s.taken 30
    let stopping := (u.modPerm fun p =>
      { p with silenceTimer := none, stopTimer := some (u.site.stopLimit * 1000) }).setLine .stopping (.request .lineHalt)
    (Requested s .lineHalt f → s.perm.line = .running →
      exec (.lineHalt f) s =
        .next
          ((if s.pins.dmov then stopping
            else (stopping.modPerm fun p => { p with stopTimer := none }).setLine .held .drive).answered
            f .lineHalt .done [])) ∧
    (Requested s .lineWake f → s.perm.line = .quiet →
      exec (.lineWake f) s = .next ((u.setLine .held (.request .lineWake)).answered f .lineWake .done []))

/-- A line request in a state that does not take it is refused with REFUSED_STATE and moves nothing (R5, R6, R7, R10,
R11). -/
def Obligations.LineRequestsElsewhereAreRefused : Prop :=
  ∀ (s : State) (f : RxFrame),
    (Requested s .lineSetup f → s.perm.line ≠ .held →
      exec (.lineSetup f) s = .next ((s.taken 30).answered f .lineSetup .refusedState [])) ∧
    (Requested s .lineStart f → s.perm.line ≠ .held →
      exec (.lineStart f) s = .next ((s.taken 30).answered f .lineStart .refusedState [])) ∧
    (Requested s .lineHalt f → s.perm.line ≠ .running →
      exec (.lineHalt f) s = .next ((s.taken 30).answered f .lineHalt .refusedState [])) ∧
    (Requested s .linePark f → s.perm.line ≠ .held →
      exec (.linePark f) s = .next ((s.taken 30).answered f .linePark .refusedState [])) ∧
    (Requested s .lineWake f → s.perm.line ≠ .quiet →
      exec (.lineWake f) s = .next ((s.taken 30).answered f .lineWake .refusedState []))

/-- The line enters RUNNING by a LINE_START frame alone (R1, R6). -/
def Obligations.RunningIsEnteredByLineStartAlone : Prop :=
  ∀ (c : Instr) (s t : State), exec c s = .next t → s.perm.line ≠ .running → t.perm.line = .running →
    (∃ f, c = .lineStart f) ∨ ∃ kind f, c = .unsolicitedFrame kind f ∧ kind = 92

/-! ### Reads (R19, R21, R27, R29, R52, R58, R83, R114, R143, R162, R163) -/

/-- STATUS_READ is answered DONE with the 19 words of its items as they stand; SITE_READ with the lock's state, and with
the 13 fields in order when the lock is set (R162, R163). -/
def Obligations.StatusAndSiteReadsGiveTheirItems : Prop :=
  ∀ (s : State) (f : RxFrame), f.payload = [] →
    let u := s.taken 30
    (Requested s .statusRead f →
      exec (.statusRead f) s =
        .next
          (u.answered f .statusRead .done
            ([word (u.perm.line.code + 16 * s.smt.call.code + 256 * s.mgt.resetCause.code +
                4096 * (if s.swp.outstanding = none then 0 else 1)),
              word s.trn.train.length, word u.perm.causes.length, s.swp.number] ++
            twoWords s.swp.sent ++ twoWords s.swp.valid ++ twoWords s.swp.missed ++ twoWords s.swp.stale ++
            twoWords s.swp.corrupt ++ twoWords s.mgt.lineTime ++
            (match s.swp.outstanding with
              | some o => o.number :: twoWords o.sendTime
              | none => [0, 0, 0])))) ∧
    (Requested s .siteRead f →
      (s.mgt.siteLock = false → exec (.siteRead f) s = .next (u.answered f .siteRead .done [0])) ∧
      ∀ r, s.mgt.siteLock = true → s.mgt.site = some r →
        exec (.siteRead f) s =
          .next
            (u.answered f .siteRead .done
              [1, word r.towerCount, word r.pollPeriod, word r.crowdHigh, word r.crowdLow, word r.gripMin,
                word r.gripMax, word r.closureActLimit, word r.tagHoldLimit, word r.stopLimit, word r.silenceLimit,
                word r.summitMissLimit, word r.ringLimit, word r.reverseLimit]))

/-- TABLE_READ of each table is answered DONE in every line state with the entry at an index in range, and refused with
REFUSED_RANGE at an index outside the table. NODES gives kind, silent, stray and service marks and the silence count, and
for an address from 1 to 29 the node record's state, marks, transaction and number of wait entries; TOWERS gives the
entry's mark and fields, the runtime record, and the last readings where present (R21, R27, R29, R52, R83, R114, R143). -/
def Obligations.TableReadsGiveTheEntry : Prop :=
  ∀ (s : State) (f : RxFrame) (index : Word), Requested s .tableRead f →
    let u := s.taken 30
    (f.payload = [1, index] → index.toNat ≤ 15 →
      exec (.tableReadPath f) s =
        .next
          (u.answered f .tableRead .done
            (word s.trav.path.length ::
              match s.trav.path[index.toNat]? with
              | some p => p.words
              | none => []))) ∧
    (f.payload = [2, index] → index.toNat ≤ 15 →
      exec (.tableReadZoneMask f) s =
        .next (u.answered f .tableRead .done [if s.trav.zoneMask.getD index.toNat false then 1 else 0])) ∧
    (f.payload = [3, index] →
      ∀ kind r member, nth1 s.slc.nodeTable index.toNat = some kind → nth1 u.slc.answers index.toNat = some r →
        nth1 s.slc.service index.toNat = some member →
        let own :=
          [word (kind.code + (if r.silent then 8 else 0) + (if r.stray then 16 else 0) + if member then 32 else 0),
            word r.silence]
        (index.toNat = 30 → exec (.tableReadNodes f) s = .next (u.answered f .tableRead .done own)) ∧
        ∀ n, s.node index.toNat = some n →
          let base := (if n.faulted then 1 else 0) + if n.clearMark then 2 else 0
          let fields :=
            match n.txn with
            | none => [word base, 0, 0, 0]
            | some t =>
              [word (base + (4 + 8 * t.action.code + (if t.late then 16 else 0) + 32 * t.state.code + 256 * t.point)),
                t.entry] ++ twoWords (if t.state = .acting then t.deadline.getD 0 else 0)
          exec (.tableReadNodes f) s =
            .next (u.answered f .tableRead .done (own ++ (fields ++ [word n.waiting.length])))) ∧
    (f.payload = [4, index] →
      ∀ entry v, nth1 s.rsu.towers index.toNat = some entry → nth1 s.rsu.runtime index.toNat = some v →
        let window (w : Window) : List Word :=
          [BitVec.ofInt 16 w.posLow, BitVec.ofInt 16 w.posHigh, word w.loadLow, word w.loadHigh]
        let held :=
          match entry with
          | none => List.replicate 10 0
          | some t =>
            [1, word (t.assemblies + 16 * t.missLimit + 256 * t.mask.toNat)] ++ window t.inner ++ window t.outer
        let marks :=
          v.missCount + (if v.silent then 16 else 0) + (if v.warn then 32 else 0) + (if v.limit then 64 else 0) +
            if v.off then 128 else 0
        let last :=
          match v.last with
          | none => [word marks]
          | some l =>
            [word (marks + 256 + 4096 * l.readings.length), l.sweep] ++ twoWords l.time ++
              (l.readings.flatMap fun r => [r.position, r.load]) ++
              [word ((l.readings.zipIdx.map fun (r, i) => if r.ropeOff then 2 ^ i else 0).sum)]
        exec (.tableReadTowers f) s = .next (u.answered f .tableRead .done (held ++ last))) ∧
    (∀ k : CauseKind, f.payload = [5, index] → index.toNat = k.code →
      exec (.tableReadCauses f) s =
        .next
          (u.answered f .tableRead .done
            [word (s.perm.causeTable[k.index].response.code + 4 * s.perm.causeTable[k.index].latch.code +
              16 * k.floor.code + 256 * k.subjectType.code)])) ∧
    (∀ d : DirEntry, f.payload = [6, index] → nth1 s.trn.directory index.toNat = some d →
      exec (.tableReadDirectory f) s = .next (u.answered f .tableRead .done d.words)) ∧
    let refused := u.answered f .tableRead .refusedRange []
    (f.payload = [1, index] → 15 < index.toNat → exec (.tableReadPath f) s = .next refused) ∧
    (f.payload = [2, index] → 15 < index.toNat → exec (.tableReadZoneMask f) s = .next refused) ∧
    (f.payload = [3, index] → index.toNat < 1 ∨ 30 < index.toNat → exec (.tableReadNodes f) s = .next refused) ∧
    (f.payload = [4, index] → index.toNat < 1 ∨ 24 < index.toNat → exec (.tableReadTowers f) s = .next refused) ∧
    (f.payload = [5, index] → index.toNat < 1 ∨ 26 < index.toNat → exec (.tableReadCauses f) s = .next refused) ∧
    (f.payload = [6, index] → index.toNat < 1 ∨ 255 < index.toNat → exec (.tableReadDirectory f) s = .next refused)

/-- RECORD_READ gives the train's count and, at a position it holds, the record's 11 words; CAUSES_READ gives the count
of entries and up to 8 of them from the start index on; an index above 31 or 47 is refused; the reads change nothing (R19,
R58). -/
def Obligations.RecordAndCauseReadsGoByPosition : Prop :=
  ∀ (s : State) (f : RxFrame) (position : Word), f.payload = [position] →
    let u := s.taken 30
    (Requested s .recordRead f →
      (31 < position.toNat → exec (.recordRead f) s = .next (u.answered f .recordRead .refusedRange [])) ∧
      (position.toNat ≤ 31 → s.trn.train.length ≤ position.toNat →
        exec (.recordRead f) s = .next (u.answered f .recordRead .done [word s.trn.train.length])) ∧
      ∀ r, position.toNat ≤ 31 → s.trn.train[position.toNat]? = some r →
        exec (.recordRead f) s =
          .next
            (u.answered f .recordRead .done
              ([word s.trn.train.length, r.entry, r.cabin.setWidth 16] ++ twoWords (r.tag.getD 0) ++
                twoWords (r.entryCount.setWidth 32) ++ twoWords (BitVec.ofInt 32 (r.distance s.trav.counter)) ++
                [r.stateWord, r.codesWord, r.gripForce.getD 0]))) ∧
    (Requested s .causesRead f →
      (position.toNat ≤ 47 →
        exec (.causesRead f) s =
          .next
            (u.answered f .causesRead .done
              (word u.perm.causes.length ::
                ((u.perm.causes.drop position.toNat).take 8).flatMap fun e =>
                  [word (e.kind.code + 32 * e.subject.type.code + 256 * e.response.code + 1024 * e.latch.code +
                    2048 * e.state.code), e.subject.value] ++ twoWords e.raisedTime ++ [word e.raiseCount]))) ∧
      (47 < position.toNat → exec (.causesRead f) s = .next (u.answered f .causesRead .refusedRange [])))

/-! ### Writes (R21, R27, R29, R52, R59 to R61, R79, R112, R113, R142, R161) -/

/-- SITE_WRITE: with the lock set it is REFUSED_ONCE whatever its fields; a field out of range is REFUSED_RANGE; else
the 13 fields become the site record, the lock is set, and it is answered DONE (R160, R161). -/
def Obligations.SiteWriteIsTakenOnce : Prop :=
  ∀ (s : State) (f : RxFrame), Requested s .siteWrite f →
    let u := s.taken 30
    (s.mgt.siteLock = true → exec (.siteWrite f) s = .next (u.answered f .siteWrite .refusedOnce [])) ∧
    ∀ a b c d e g h i j k l m n : Word, s.mgt.siteLock = false → f.payload = [a, b, c, d, e, g, h, i, j, k, l, m, n] →
      let r : SiteRecord :=
        { towerCount := a.toNat, pollPeriod := b.toNat, crowdHigh := c.toNat, crowdLow := d.toNat, gripMin := e.toNat,
          gripMax := g.toNat, closureActLimit := h.toNat, tagHoldLimit := i.toNat, stopLimit := j.toNat,
          silenceLimit := k.toNat, summitMissLimit := l.toNat, ringLimit := m.toNat, reverseLimit := n.toNat }
      let ok :=
        (1 ≤ r.towerCount ∧ r.towerCount ≤ 24) ∧ (10 ≤ r.pollPeriod ∧ r.pollPeriod ≤ 100) ∧
          (2 ≤ r.crowdHigh ∧ r.crowdHigh ≤ 32) ∧ r.crowdLow < r.crowdHigh ∧ r.gripMin ≤ r.gripMax ∧ r.gripMax ≤ 60000 ∧
          (500 ≤ r.closureActLimit ∧ r.closureActLimit ≤ 10000) ∧ (50 ≤ r.tagHoldLimit ∧ r.tagHoldLimit ≤ 2000) ∧
          (5 ≤ r.stopLimit ∧ r.stopLimit ≤ 120) ∧ (1 ≤ r.silenceLimit ∧ r.silenceLimit ≤ 30) ∧
          (1 ≤ r.summitMissLimit ∧ r.summitMissLimit ≤ 15) ∧ (10 ≤ r.ringLimit ∧ r.ringLimit ≤ 120) ∧
          r.reverseLimit ≤ 2000
      (ok →
        exec (.siteWrite f) s =
          .next ((u.modMgt fun m => { m with site := some r, siteLock := true }).answered f .siteWrite .done [])) ∧
      (¬ok → exec (.siteWrite f) s = .next (u.answered f .siteWrite .refusedRange []))

/-- TABLE_WRITE PATH in SETUP with an empty train, at an index up to the number held: a point replaces or is appended;
an empty entry removes the points from the index on; point 0 may not name a masked input (R26, R27, R29). -/
def Obligations.PathWriteActsByIndex : Prop :=
  ∀ (s : State) (f : RxFrame) (index : Word) (entry : List Word), Requested s .tableWrite f →
    f.payload = 1 :: index :: entry →
    let u := s.taken 30
    let n := index.toNat
    (s.perm.line ≠ .setup → exec (.tableWritePath f) s = .next (u.answered f .tableWrite .refusedState [])) ∧
    (s.perm.line = .setup → s.trn.train ≠ [] →
      exec (.tableWritePath f) s = .next (u.answered f .tableWrite .refusedInUse [])) ∧
    (s.perm.line = .setup → s.trn.train = [] →
      (15 < n ∨ s.trav.path.length < n → exec (.tableWritePath f) s = .next (u.answered f .tableWrite .refusedRange [])) ∧
      (n ≤ 15 → n ≤ s.trav.path.length →
        (entry = [] →
          exec (.tableWritePath f) s =
            .next ((u.modTrav fun t => { t with path := t.path.take n }).answered f .tableWrite .done [])) ∧
        (entry ≠ [] → parsePathPoint entry = none →
          exec (.tableWritePath f) s = .next (u.answered f .tableWrite .refusedRange [])) ∧
        ∀ p, parsePathPoint entry = some p →
          let masked := n = 0 ∧ ∃ z, p.zone = some z ∧ s.trav.zoneMask.getD z false = true
          (masked → exec (.tableWritePath f) s = .next (u.answered f .tableWrite .refusedInUse [])) ∧
          (¬masked →
            (n < s.trav.path.length →
              exec (.tableWritePath f) s =
                .next ((u.modTrav fun t => { t with path := t.path.set n p }).answered f .tableWrite .done [])) ∧
            (n = s.trav.path.length →
              exec (.tableWritePath f) s =
                .next ((u.modTrav fun t => { t with path := t.path ++ [p] }).answered f .tableWrite .done [])))))

/-- TABLE_WRITE ZONE_MASK outside RUNNING and STOPPING: an input becomes a member, with ZONE_UNEXPECTED's condition
cleared and the supervision of its point ended for every record that awaits it, or leaves the mask; the entry input is
never masked (R29). -/
def Obligations.ZoneMaskWriteMasksAnInput : Prop :=
  ∀ (s : State) (f : RxFrame) (index entry : Word), Requested s .tableWrite f → f.payload = [2, index, entry] →
    let u := s.taken 30
    let z := index.toNat
    let isEntry := ∃ p rest, s.trav.path = p :: rest ∧ p.zone = some z
    (s.perm.line = .running ∨ s.perm.line = .stopping →
      exec (.tableWriteZoneMask f) s = .next (u.answered f .tableWrite .refusedState [])) ∧
    (s.perm.line ≠ .running → s.perm.line ≠ .stopping →
      (15 < z ∨ (entry ≠ 0 ∧ entry ≠ 1) →
        exec (.tableWriteZoneMask f) s = .next (u.answered f .tableWrite .refusedRange [])) ∧
      (z ≤ 15 → entry = 1 → isEntry →
        exec (.tableWriteZoneMask f) s = .next (u.answered f .tableWrite .refusedInUse [])) ∧
      (z ≤ 15 → entry = 1 → ¬isEntry → s.trav.zoneMask.getD z false = true →
        exec (.tableWriteZoneMask f) s = .next (u.answered f .tableWrite .done [])) ∧
      (z ≤ 15 → entry = 1 → ¬isEntry → s.trav.zoneMask.getD z false = false →
        let v := (u.modTrav fun t => { t with zoneMask := t.zoneMask.setIfInBounds z true }).clear
          .zoneUnexpected (.input z)
        exec (.tableWriteZoneMask f) s =
          .next
            ((match s.trav.path.findIdx? fun (p : PathPoint) => decide (p.zone = some z) with
              | some k =>
                v.trn.train.foldl
                  (fun (w : State) (r : CabinRecord) =>
                    if r.confirmation = some k then (w.dropWindowEnd r.entry k).endSupervision r.entry k else w) v
              | none => v).answered f .tableWrite .done [])) ∧
      (z ≤ 15 → entry = 0 →
        exec (.tableWriteZoneMask f) s =
          .next
            ((u.modTrav fun t => { t with zoneMask := t.zoneMask.setIfInBounds z false }).answered
              f .tableWrite .done [])))

/-- TABLE_WRITE NODES in SETUP: a new kind at an address from 1 to 29 replaces the old, takes the address out of the
service set, clears its answer record with NODE_SILENT's condition where its silent flag was set, and is passed to DTX;
CONSOLE stands at 30 alone (R82, R142). -/
def Obligations.NodesWriteChangesTheKind : Prop :=
  ∀ (s : State) (f : RxFrame) (index code : Word), Requested s .tableWrite f → f.payload = [3, index, code] →
    let u := s.taken 30
    let a := index.toNat
    (s.perm.line ≠ .setup → exec (.tableWriteNodes f) s = .next (u.answered f .tableWrite .refusedState [])) ∧
    (s.perm.line = .setup →
      (a < 1 ∨ 30 < a ∨ 4 < code.toNat ∨ (a = 30 ∧ code ≠ 4) ∨ (a < 30 ∧ code = 4) →
        exec (.tableWriteNodes f) s = .next (u.answered f .tableWrite .refusedRange [])) ∧
      ∀ kind old, 1 ≤ a → a ≤ 30 → NodeKind.ofCode code.toNat = some kind → (a = 30 ↔ kind = .console) →
        nth1 s.slc.nodeTable a = some old →
        (kind = old → exec (.tableWriteNodes f) s = .next (u.answered f .tableWrite .done [])) ∧
        (kind ≠ old →
          let v := u.modSlc fun c =>
            { c with
              nodeTable := mod1 c.nodeTable a fun _ => kind
              service := mod1 c.service a fun _ => false
              answers := mod1 c.answers a fun _ => { silent := false, silence := 0, stray := false } }
          let w :=
            if ((nth1 u.slc.answers a).map AnswerRec.silent) = some true then v.clear .nodeSilent (.node a) else v
          exec (.tableWriteNodes f) s =
            .next
              ((if (s.txnAt a).isSome then w.modNode a fun n => { n with changeMark := true }
                else
                  (w.modNode a fun n =>
                    { n with faulted := false, waiting := [], clearMark := false, changeMark := false }).clear
                    .closureFault (.node a)).answered f .tableWrite .done [])))

/-- TABLE_WRITE TOWERS outside RUNNING and STOPPING replaces or removes the entry, sets the miss count to 0, and discards
the last readings where the assembly count changed; in HELD and QUIET a tower of the sweep is not removed (R112, R113; an
entry that joins or leaves counts as a change: log 19). -/
def Obligations.TowersWriteReplacesTheEntry : Prop :=
  ∀ (s : State) (f : RxFrame) (index : Word) (words : List Word), Requested s .tableWrite f →
    f.payload = 4 :: index :: words →
    let u := s.taken 30
    let k := index.toNat
    let written (entry : Option TowerEntry) : State :=
      (u.modRsu fun r => { r with towers := mod1 r.towers k fun _ => entry }).modRsu fun r =>
        { r with runtime := mod1 r.runtime k fun t =>
            { t with
              missCount := 0
              last :=
                if (s.towerAt k).map TowerEntry.assemblies = entry.map TowerEntry.assemblies then t.last else none } }
    (s.perm.line = .running ∨ s.perm.line = .stopping →
      exec (.tableWriteTowers f) s = .next (u.answered f .tableWrite .refusedState [])) ∧
    (s.perm.line ≠ .running → s.perm.line ≠ .stopping →
      (k < 1 ∨ 24 < k ∨ (words ≠ [] ∧ parseTower words = none) →
        exec (.tableWriteTowers f) s = .next (u.answered f .tableWrite .refusedRange [])) ∧
      (1 ≤ k → k ≤ 24 → words = [] → s.perm.line ≠ .setup → k ≤ s.site.towerCount →
        exec (.tableWriteTowers f) s = .next (u.answered f .tableWrite .refusedInUse [])) ∧
      (1 ≤ k → k ≤ 24 → words = [] → s.perm.line = .setup ∨ s.site.towerCount < k →
        exec (.tableWriteTowers f) s = .next ((written none).answered f .tableWrite .done [])) ∧
      ∀ t, 1 ≤ k → k ≤ 24 → parseTower words = some t →
        exec (.tableWriteTowers f) s = .next ((written (some t)).answered f .tableWrite .done []))

/-- TABLE_WRITE CAUSES outside RUNNING and STOPPING replaces a kind's response and latch mode within its floor; a kind of
floor EMERGENCY stays LATCH, and TRAIN_CROWDED SLOW and SELF; entries held keep theirs (R21). -/
def Obligations.CausesWriteKeepsTheFloors : Prop :=
  ∀ (s : State) (f : RxFrame) (index w : Word), Requested s .tableWrite f → f.payload = [5, index, w] →
    let u := s.taken 30
    (s.perm.line = .running ∨ s.perm.line = .stopping →
      exec (.tableWriteCauses f) s = .next (u.answered f .tableWrite .refusedState [])) ∧
    (s.perm.line ≠ .running → s.perm.line ≠ .stopping →
      (index.toNat < 1 ∨ 26 < index.toNat →
        exec (.tableWriteCauses f) s = .next (u.answered f .tableWrite .refusedRange [])) ∧
      ∀ k : CauseKind, index.toNat = k.code →
        let response := Response.ofCode (w.toNat % 4)
        let mode := if w.getLsbD 2 then LatchMode.latch else LatchMode.self
        let refused :=
          response.code < k.floor.code ∨ (k.floor = .emergency ∧ mode = .self) ∨
            (k = .trainCrowded ∧ ¬(response = .slow ∧ mode = .self))
        (refused → exec (.tableWriteCauses f) s = .next (u.answered f .tableWrite .refusedRange [])) ∧
        (¬refused →
          exec (.tableWriteCauses f) s =
            .next
              ((u.modPerm fun p =>
                { p with causeTable := p.causeTable.set k.index { response := response, latch := mode } }).answered
                f .tableWrite .done [])))

/-- TABLE_WRITE DIRECTORY in every line state replaces the entry of a cabin number that no record carries, with a tag
code that no other entry holds; an empty entry makes it unused (R52). -/
def Obligations.DirectoryWriteKeepsTagsApart : Prop :=
  ∀ (s : State) (f : RxFrame) (index : Word) (entry : List Word), Requested s .tableWrite f →
    f.payload = 6 :: index :: entry →
    let u := s.taken 30
    let n := index.toNat
    (n < 1 ∨ 255 < n → exec (.tableWriteDirectory f) s = .next (u.answered f .tableWrite .refusedRange [])) ∧
    (1 ≤ n → n ≤ 255 →
      (entry ≠ [] → parseDirEntry entry = none →
        exec (.tableWriteDirectory f) s = .next (u.answered f .tableWrite .refusedRange [])) ∧
      ∀ d, (entry = [] ∧ d = DirEntry.unused ∨ entry ≠ [] ∧ parseDirEntry entry = some d) →
        let carried := ∃ r ∈ s.trn.train, r.cabin.toNat = n
        let elsewhere := ∃ m d', m ≠ n ∧ nth1 s.trn.directory m = some d' ∧ d'.tag = d.tag ∧ d.tag.isSome
        (carried → exec (.tableWriteDirectory f) s = .next (u.answered f .tableWrite .refusedInUse [])) ∧
        (¬carried → elsewhere → exec (.tableWriteDirectory f) s = .next (u.answered f .tableWrite .refusedRange [])) ∧
        (¬carried → ¬elsewhere →
          exec (.tableWriteDirectory f) s =
            .next
              ((u.modTrn fun t => { t with directory := mod1 t.directory n fun _ => d }).answered
                f .tableWrite .done [])))

/-- RECORD_WRITE accepted: the record joins the tail with a new entry number and its restored flag, TRAV schedules its
next point, the crowding test and a CABIN_RESTORED report follow, and the entry number is answered. It is refused by range
where the distance does not lie from the last point to before the next, is not behind the tail's, where the states
supplied disagree, where the cabin number disagrees with directory, train or divert flag, or where the cabin number or a
code is out of range (R60, R61, R172; the order of the refusals: log 16; the report follows the crowding test: log 25). The
entry number is the counter's value, or the next that no record carries, and the counter steps past it (R44). -/
def Obligations.RecordWriteRestoresARecord : Prop :=
  (∀ (s : State) (f : RxFrame) (cabin high low distance lastPoint codes force : Word), Requested s .recordWrite f →
    f.payload = [cabin, high, low, distance, lastPoint, codes, force] → s.perm.line = .setup → s.mgt.site ≠ none →
    pathChecks s.trav.path = none → s.trn.train.length < 32 →
    255 < cabin.toNat ∨ 5 < codes.toNat % 8 ∨ 4 < codes.toNat / 16 % 8 ∨ 5 < codes.toNat / 512 % 8 →
      exec (.recordWrite f) s = .next ((s.taken 30).answered f .recordWrite .refusedRange [])) ∧
  ∀ (s : State) (f : RxFrame) (g : RestoreFields), Requested s .recordWrite f → parseRestore f.payload = some g →
    let u := s.taken 30
    (s.perm.line ≠ .setup → exec (.recordWrite f) s = .next (u.answered f .recordWrite .refusedState [])) ∧
    (s.perm.line = .setup → s.mgt.site = none ∨ pathChecks s.trav.path ≠ none →
      exec (.recordWrite f) s = .next (u.answered f .recordWrite .refusedState [])) ∧
    (s.perm.line = .setup → s.mgt.site ≠ none → pathChecks s.trav.path = none →
      (32 ≤ s.trn.train.length → exec (.recordWrite f) s = .next (u.answered f .recordWrite .refusedInUse [])) ∧
      (s.trn.train.length < 32 →
        let place := ∃ p q : PathPoint, s.trav.path[g.lastPoint]? = some p ∧ s.trav.path[g.lastPoint + 1]? = some q ∧
          p.offset ≤ g.distance.toNat ∧ g.distance.toNat < q.offset
        let behind := ∀ r, s.trn.train.getLast? = some r → (g.distance.toNat : Int) < r.distance s.trav.counter
        let agree := g.closure ≠ .opening ∧ g.closure ≠ .shutting ∧ g.grip ≠ .awaited ∧
          (g.force.isSome = true ↔ g.grip = .pass ∨ g.grip = .fail) ∧ g.divertFlag = g.reason.isSome
        let known := g.cabin ≠ 0 → ∃ d, nth1 s.trn.directory g.cabin = some d ∧ g.tag.isSome = true ∧ d.tag = g.tag ∧
          (∀ x ∈ s.trn.train, x.cabin.toNat ≠ g.cabin) ∧ (d.retired.isSome = true → g.divertFlag = true)
        let ok := place ∧ behind ∧ agree ∧ known ∧ (g.cabin = 0 → g.divertFlag = true)
        (¬ok → exec (.recordWrite f) s = .next (u.answered f .recordWrite .refusedRange [])) ∧
        (ok →
          let entry := s.trn.nextEntry
          let count := s.trav.counter - g.distance.setWidth 24
          let r : CabinRecord :=
            { entry := entry, cabin := BitVec.ofNat 8 g.cabin,
              tagState := if 0 < g.cabin then .matched else if g.tag.isSome then .unknown else .absent,
              tag := g.tag, entryCount := count, lastPoint := g.lastPoint, confirmation := none, closure := g.closure,
              grip := g.grip, gripForce := g.force, divert := g.reason, restored := true, tagTimer := none }
          (∃ k ≤ s.trn.train.length, entry = s.trn.entryCounter + BitVec.ofNat 16 k ∧
            (∀ x ∈ s.trn.train, x.entry ≠ entry) ∧
            ∀ j < k, ∃ x ∈ s.trn.train, x.entry = s.trn.entryCounter + BitVec.ofNat 16 j) ∧
          exec (.recordWrite f) s =
            .next
              ((((((u.modTrn fun t => { t with train := t.train ++ [r], entryCounter := entry + 1 }).schedulePoint
                entry count (g.lastPoint + 1)).endSupervision entry g.lastPoint).crowdingTest).report
                (.cabinRestored entry (BitVec.ofNat 8 g.cabin) g.distance)).answered f .recordWrite .done [entry]))))

/-- RECORD_REMOVE in HELD and QUIET: the record leaves the train with a CABIN_REMOVED report; an entry number of no
record is REFUSED_UNKNOWN; in other states it is REFUSED_STATE (R55, R59; the report follows the leave: log 25). -/
def Obligations.RecordRemoveTakesTheRecordOut : Prop :=
  ∀ (s : State) (f : RxFrame) (entry : Word), Requested s .recordRemove f → f.payload = [entry] →
    let u := s.taken 30
    (s.perm.line ≠ .held → s.perm.line ≠ .quiet →
      exec (.recordRemove f) s = .next (u.answered f .recordRemove .refusedState [])) ∧
    (s.perm.line = .held ∨ s.perm.line = .quiet →
      (s.record entry = none → exec (.recordRemove f) s = .next (u.answered f .recordRemove .refusedUnknown [])) ∧
      ∀ r, s.record entry = some r →
        exec (.recordRemove f) s =
          .next
            (((u.leave entry false).report
              (.cabinRemoved entry r.tagState r.closure r.grip r.divert r.cabin r.lastPoint)).answered
              f .recordRemove .done []))

/-- NODE_CLEAR of a closure drive with no open transaction and no clear mark sets the mark and queues CLEAR; elsewhere
it is refused by range or in use (R79; a full urgent queue is silence at once: R146, log 11). -/
def Obligations.NodeClearQueuesClear : Prop :=
  ∀ (s : State) (f : RxFrame) (w : Word), Requested s .nodeClear f → f.payload = [w] →
    let u := s.taken 30
    let a := w.toNat
    (a < 1 ∨ 29 < a ∨ nth1 s.slc.nodeTable a ≠ some .closureDrive →
      exec (.nodeClear f) s = .next (u.answered f .nodeClear .refusedRange [])) ∧
    ∀ n, s.node a = some n → nth1 s.slc.nodeTable a = some .closureDrive →
      (n.txn.isSome = true ∨ n.clearMark = true →
        exec (.nodeClear f) s = .next (u.answered f .nodeClear .refusedInUse [])) ∧
      (n.txn = none → n.clearMark = false →
        (s.slc.urgent.length < 64 →
          exec (.nodeClear f) s =
            .next
              (((u.modNode a fun n => { n with clearMark := true }).modSlc fun c =>
                { c with urgent := c.urgent ++ [{ address := a, command := .clear, txn := none }] }).answered
                f .nodeClear .done [])) ∧
        (64 ≤ s.slc.urgent.length →
          exec (.nodeClear f) s =
            .next
              ((((u.modNode a fun n => { n with clearMark := false }).report (.nodeCleared a .silent)).silentExchange a).answered
                f .nodeClear .done [])))

/-- What the 640 sends in a read it takes back as the same in a write, at every value in range: path points, towers,
directory entries, cause settings and the site record decode to themselves; a ZONE_MASK entry written back, and the kind in
a NODES entry written back, leave the state as it is. And CAUSE_ACK's two words name every kind with every subject of its
type (11.2, R13, R29, R143; that CONSOLE_SILENT is named with any NODE from 1 to 30, and not with NODE 30 alone, is the
model's own reading, log 35). -/
def Obligations.TableEntriesRoundTrip : Prop :=
  (∀ p : PathPoint, p.inRange = true → parsePathPoint p.words = some p) ∧
  (∀ t : TowerEntry, t.inRange = true → parseTower t.words = some t) ∧
  (∀ d : DirEntry, d.tag ≠ some 0 → (d.tag = none → d.retired = none ∧ d.force = none) →
    parseDirEntry d.words = some d) ∧
  (∀ c : CauseSetting, parseCauseSetting [word c.code] = some c) ∧
  (∀ r : SiteRecord, r.inRange = true → parseSite r.words = some r) ∧
  (∀ (s : State) (z : Nat), z ≤ 15 → (s.readZoneMask z).result = .done ∧ (s.readZoneMask z).payload.length = 1 ∧
    (s.writeZoneMask z (s.readZoneMask z).payload).state = s) ∧
  (∀ (s : State) (a : Nat) (kind : NodeKind), nth1 s.slc.nodeTable a = some kind →
    let code := ((s.readNodes a).payload.headD 0).toNat % 8
    (s.readNodes a).result = .done ∧ NodeKind.ofCode code = some kind ∧ (s.writeNodes a [word code]).state = s) ∧
  ∀ (k : CauseKind) (x : Subject), x.type = k.subjectType →
    (match x with
      | .tower n => 1 ≤ n ∧ n ≤ 24
      | .node a => 1 ≤ a ∧ a ≤ 30
      | .input z => z ≤ 15
      | _ => True) →
    parseAck [word (k.code + 256 * x.type.code), x.value] = some (.one k x)

/-- A request whose payload its fields do not fill exactly, in a state that takes it, and a table code that is none of
the six, are answered REFUSED_RANGE and change nothing; so is a TABLE_WRITE with no index, or with an entry of a length
that its table does not have (R157, R172; that the state is judged before the length: log 16). -/
def Obligations.WrongLengthsAreRefusedByRange : Prop :=
  ∀ (s : State) (f : RxFrame),
    let u := s.taken 30
    let n := f.payload.length
    (Requested s .statusRead f → n ≠ 0 → exec (.statusRead f) s = .next (u.answered f .statusRead .refusedRange [])) ∧
    (Requested s .siteRead f → n ≠ 0 → exec (.siteRead f) s = .next (u.answered f .siteRead .refusedRange [])) ∧
    (Requested s .siteWrite f → n ≠ 13 → s.mgt.siteLock = false →
      exec (.siteWrite f) s = .next (u.answered f .siteWrite .refusedRange [])) ∧
    (Requested s .recordRead f → n ≠ 1 → exec (.recordRead f) s = .next (u.answered f .recordRead .refusedRange [])) ∧
    (Requested s .recordRemove f → n ≠ 1 → s.perm.line = .held ∨ s.perm.line = .quiet →
      exec (.recordRemove f) s = .next (u.answered f .recordRemove .refusedRange [])) ∧
    (Requested s .recordWrite f → n ≠ 7 → s.perm.line = .setup → s.mgt.site ≠ none → pathChecks s.trav.path = none →
      s.trn.train.length < 32 → exec (.recordWrite f) s = .next (u.answered f .recordWrite .refusedRange [])) ∧
    (Requested s .causesRead f → n ≠ 1 → exec (.causesRead f) s = .next (u.answered f .causesRead .refusedRange [])) ∧
    (Requested s .causeAck f → n ≠ 2 →
      exec (.causeAck f) s = .next (u.answered f .causeAck .refusedRange []) ∧
        exec (.causeAckAll f) s = .next (u.answered f .causeAck .refusedRange [])) ∧
    (Requested s .nodeClear f → n ≠ 1 → exec (.nodeClear f) s = .next (u.answered f .nodeClear .refusedRange [])) ∧
    (Requested s .partReset f → n ≠ 0 → s.perm.line ≠ .running → s.perm.line ≠ .stopping →
      exec (.partReset f) s = .next (u.answered f .partReset .refusedRange [])) ∧
    (Requested s .lineReady f → n ≠ 0 → s.perm.line = .setup →
      exec (.lineReady f) s = .next (u.answered f .lineReady .refusedRange [])) ∧
    (Requested s .lineSetup f → n ≠ 0 → s.perm.line = .held →
      exec (.lineSetup f) s = .next (u.answered f .lineSetup .refusedRange [])) ∧
    (Requested s .lineStart f → n ≠ 0 → s.perm.line = .held →
      exec (.lineStart f) s = .next (u.answered f .lineStart .refusedRange [])) ∧
    (Requested s .lineHalt f → n ≠ 0 → s.perm.line = .running →
      exec (.lineHalt f) s = .next (u.answered f .lineHalt .refusedRange [])) ∧
    (Requested s .linePark f → n ≠ 0 → s.perm.line = .held →
      exec (.linePark f) s = .next (u.answered f .linePark .refusedRange [])) ∧
    (Requested s .lineWake f → n ≠ 0 → s.perm.line = .quiet →
      exec (.lineWake f) s = .next (u.answered f .lineWake .refusedRange [])) ∧
    (Requested s .tableRead f → n ≠ 2 ∨ (f.payload.headD 0).toNat = 0 ∨ 6 < (f.payload.headD 0).toNat →
      ∀ c ∈ [Instr.tableReadPath f, .tableReadZoneMask f, .tableReadNodes f, .tableReadTowers f, .tableReadCauses f,
          .tableReadDirectory f],
        exec c s = .next (u.answered f .tableRead .refusedRange [])) ∧
    (Requested s .tableWrite f → (f.payload.headD 0).toNat = 0 ∨ 6 < (f.payload.headD 0).toNat →
      ∀ c ∈ [Instr.tableWritePath f, .tableWriteZoneMask f, .tableWriteNodes f, .tableWriteTowers f,
          .tableWriteCauses f, .tableWriteDirectory f],
        exec c s = .next (u.answered f .tableWrite .refusedRange [])) ∧
    (Requested s .tableWrite f →
      let table := f.payload.headD 0
      let refused := u.answered f .tableWrite .refusedRange []
      let still := s.perm.line ≠ .running ∧ s.perm.line ≠ .stopping
      (table = 1 → n ≠ 2 → n ≠ 6 → s.perm.line = .setup → s.trn.train = [] → exec (.tableWritePath f) s = .next refused) ∧
      (table = 2 → n ≠ 3 → still → exec (.tableWriteZoneMask f) s = .next refused) ∧
      (table = 3 → n ≠ 3 → s.perm.line = .setup → exec (.tableWriteNodes f) s = .next refused) ∧
      (table = 4 → n ≠ 2 → n ≠ 11 → still → exec (.tableWriteTowers f) s = .next refused) ∧
      (table = 5 → n ≠ 3 → still → exec (.tableWriteCauses f) s = .next refused) ∧
      (table = 6 → n ≠ 2 → n ≠ 6 → exec (.tableWriteDirectory f) s = .next refused))

/-! ### Travel, zone edges and the schedule (chapter 2) -/

/-- Outside a reset a forward step adds one to the travel counter and takes the high-water count along, clears a set
reverse flag once the high-water count is regained, and outside SETUP makes a firing pass; a reverse step takes one off,
and in RUNNING and STOPPING a shortfall above the limit raises CONVEYOR_REVERSE once; a step of both channels moves no
count and is reported (R23, R24, R25, R31). -/
def Obligations.EncoderStepsCountTravel : Prop :=
  ∀ s : State, s.phase = .live →
    (let up := s.trav.counter + 1
      let moved := (s.setPins (if s.pins.cea = s.pins.ceb then { s.pins with cea := !s.pins.cea }
        else { s.pins with ceb := !s.pins.ceb })).modTrav fun t =>
          { t with counter := up, highWater := if (up - t.highWater).toNat < 8388608 then up else t.highWater }
      let regained :=
        if s.trav.reverseFlag = true ∧ (up - s.trav.highWater).toNat < 8388608 then
          (moved.clear .conveyorReverse .noSubject).modTrav fun t => { t with reverseFlag := false }
        else moved
      exec .forwardStep s = .next (if s.perm.line = .setup then regained else regained.firePass)) ∧
    (let down := s.trav.counter - 1
      let moved := (s.setPins (if s.pins.cea = s.pins.ceb then { s.pins with ceb := !s.pins.ceb }
        else { s.pins with cea := !s.pins.cea })).modTrav fun t => { t with counter := down }
      let behind := ¬(down - s.trav.highWater).toNat < 8388608
      exec .reverseStep s =
        .next
          (if (s.perm.line = .running ∨ s.perm.line = .stopping) ∧ behind ∧
              s.site.reverseLimit < (s.trav.highWater - down).toNat ∧ s.trav.reverseFlag = false then
            (moved.raise .conveyorReverse .noSubject).modTrav fun t => { t with reverseFlag := true }
          else moved)) ∧
    exec .encoderSkip s =
      .next
        ((s.setPins { s.pins with cea := !s.pins.cea, ceb := !s.pins.ceb }).report (.encoderSkip s.trav.counter))

/-- After a forward step outside SETUP no schedule entry is due: every due entry has fired, those that joined during the
step among them. A pass fires one entry after another, each time the one whose due count lies furthest behind the counter,
and of those with equal due counts the one that joined first; it ends when none is due (R30, R31). -/
def Obligations.ForwardStepLeavesNothingDue : Prop :=
  (∀ s t : State, s.phase = .live → s.perm.line ≠ .setup → exec .forwardStep s = .next t →
    t.trav.counter = s.trav.counter + 1 ∧ ∀ e ∈ t.trav.schedule, (t.trav.counter - e.due).toNat ≥ 8388608) ∧
  ∀ s : State,
    let behind (e : SchedEntry) : Nat := (s.trav.counter - e.due).toNat
    ((∀ e ∈ s.trav.schedule, 8388608 ≤ behind e) → s.firePass = s) ∧
    ∀ before e after, s.trav.schedule = before ++ e :: after → behind e < 8388608 →
      (∀ x ∈ before, 8388608 ≤ behind x ∨ behind x < behind e) →
      (∀ x ∈ after, 8388608 ≤ behind x ∨ behind x ≤ behind e) → s.firePass = (s.fire e).firePass

/-- A zone edge is ignored in SETUP, on an input no point names and on a masked input; on point 0's input it makes a
record with a new entry number at the counter value, schedules point 1, takes the pending tag or starts the tag timer, and
makes the crowding test, or finds the train full; on another point's input it confirms the first record in the window, or
raises ZONE_UNEXPECTED (R11, R28, R38, R45, R46). The new entry number is the counter's value, or the next, wrapping from
65,535 to 0, that no record in the train carries, and the counter steps past it (R44). -/
def Obligations.ZoneEdgesEnterAndConfirm : Prop :=
  ∀ (s : State) (z : Nat), s.phase = .live → z < 16 →
    let u := s.setPins { s.pins with zin := s.pins.zin.setIfInBounds z true }
    let point := s.trav.path.findIdx? fun (p : PathPoint) => decide (p.zone = some z)
    (s.perm.line = .setup ∨ point = none → exec (.zoneEdge z) s = .next u) ∧
    (s.perm.line ≠ .setup → point = some 0 →
      let w := u.wake .entryEdge
      (32 ≤ s.trn.train.length →
        exec (.zoneEdge z) s =
          .next ((w.raise .trainOverflow .noSubject).modTrn fun t => { t with overflowFlag := true })) ∧
      (s.trn.train.length < 32 →
        let entry := s.trn.nextEntry
        let r : CabinRecord :=
          { entry := entry, cabin := 0, tagState := .awaited, tag := none, entryCount := s.trav.counter, lastPoint := 0,
            confirmation := none, closure := .unknown, grip := .notTested, gripForce := none, divert := none,
            restored := false, tagTimer := none }
        let made := ((w.modTrn fun t => { t with train := t.train ++ [r], entryCounter := entry + 1 }).schedulePoint
          entry s.trav.counter 1).endSupervision entry 0
        (∃ k ≤ s.trn.train.length, entry = s.trn.entryCounter + BitVec.ofNat 16 k ∧
          (∀ x ∈ s.trn.train, x.entry ≠ entry) ∧
          ∀ j < k, ∃ x ∈ s.trn.train, x.entry = s.trn.entryCounter + BitVec.ofNat 16 j) ∧
        exec (.zoneEdge z) s =
          .next
            (match s.trn.slot with
              | some p => (((made.modTrn fun t => { t with slot := none }).matchTag entry p.tag).crowdingTest)
              | none =>
                ((made.claimRecord entry fun r => { r with tagTimer := some s.site.tagHoldLimit }).crowdingTest)))) ∧
    ∀ k p, s.perm.line ≠ .setup → point = some (k + 1) → s.trav.path[k + 1]? = some p →
      let awaits := fun r : CabinRecord =>
        decide (r.confirmation = some (k + 1) ∧ (p.offset : Int) - p.tolerance ≤ r.distance s.trav.counter ∧
          r.distance s.trav.counter ≤ (p.offset : Int) + p.tolerance)
      (s.trav.zoneMask.getD z false = true → exec (.zoneEdge z) s = .next u) ∧
      (s.trav.zoneMask.getD z false = false →
        (s.trn.train.find? awaits = none → exec (.zoneEdge z) s = .next (u.raise .zoneUnexpected (.input z))) ∧
        ∀ r, s.trn.train.find? awaits = some r →
          exec (.zoneEdge z) s =
            .next
              (((u.dropWindowEnd r.entry (k + 1)).endSupervision r.entry (k + 1)).clear .zoneUnexpected (.input z)))

/-- A point is scheduled with due count entry count plus offset, and a lead above 0 of an owner's action with that less
the lead; a supervision that ends moves to the next point where it has an unmasked zone input. A due entry leaves the
schedule and fires. A WINDOW_END whose record still awaits its point raises CABIN_SLIP and moves the supervision on. A
POINT sets the last point, starts the window's end for the point awaited or moves the supervision on, schedules the next
point but for DEPART, hands over the lead where it is 0, and hands over the point (R31 to R34, R37, R39). -/
def Obligations.ScheduleEntriesFireByTheirKind : Prop :=
  (∀ (s : State) (entry : BitVec 16) (count : BitVec 24) (k : Nat),
    (∀ p, s.trav.path[k]? = some p →
      s.schedulePoint entry count k =
        s.modTrav fun t =>
          { t with
            schedule := t.schedule ++
              ({ entry := entry, kind := .point, point := k, due := count + BitVec.ofNat 24 p.offset } ::
                if 0 < p.lead ∧ (p.action ≠ .entry ∧ p.action ≠ .mark) then
                  [{ entry := entry, kind := .lead, point := k,
                     due := count + BitVec.ofNat 24 p.offset - BitVec.ofNat 24 p.lead }]
                else []) }) ∧
    s.endSupervision entry k =
      s.claimRecord entry fun r =>
        { r with
          confirmation :=
            match (s.trav.path[k + 1]?).bind PathPoint.zone with
            | some z => if s.trav.zoneMask.getD z false then none else some (k + 1)
            | none => none }) ∧
  ∀ (s : State) (e : SchedEntry),
    let u := s.modTrav fun t => { t with schedule := t.schedule.erase e }
    (∀ p, e.kind = .lead → s.trav.path[e.point]? = some p → s.fire e = u.handLead e.entry e.point p) ∧
    (∀ r, e.kind = .windowEnd → s.record e.entry = some r →
      (r.confirmation = some e.point →
        s.fire e = (u.raise .cabinSlip (.cabin e.entry)).endSupervision e.entry e.point) ∧
      (r.confirmation ≠ some e.point → s.fire e = u)) ∧
    ∀ r p, e.kind = .point → s.record e.entry = some r → s.trav.path[e.point]? = some p →
      let marked := u.claimRecord e.entry fun r => { r with lastPoint := e.point }
      let watched :=
        if r.confirmation = some e.point then
          marked.modTrav fun t =>
            { t with
              schedule := t.schedule ++
                [{ entry := e.entry, kind := .windowEnd, point := e.point,
                   due := r.entryCount + BitVec.ofNat 24 p.offset + BitVec.ofNat 24 p.tolerance }] }
        else if r.confirmation = none then marked.endSupervision e.entry e.point
        else marked
      let next := if p.action = .depart then watched else watched.schedulePoint e.entry r.entryCount (e.point + 1)
      let warned := if p.lead = 0 ∧ p.action.hasOwner = true then next.handLead e.entry e.point p else next
      s.fire e = warned.handPoint e.entry e.point p

/-- The DEPART lead raises DEPART_BLOCKED for a record that is not PASS, unflagged and SHUT. At the DEPART point a fit
record leaves as DEPARTED; another raises DEPART_UNSAFE, whose condition clears in the leave, and leaves as UNSAFE. At the
DIVERT point the record's switch claim is compared with DIVC: GARAGE confirmed sends the record out as GARAGE, MAIN
confirmed lets it pass, MAIN wanted with GARAGE shown raises DIVERT_FAULT and sends it out as ASTRAY, and any other
position raises DIVERT_FAULT; the claim leaves the list. A leave ends what TRAV, DTX and GSW hold for the record, in this
order: its schedule entries, its wait entries and open transactions but a DETAILING one, with CANCEL, its expectation, its
switch claim with the new head commanded, and its place in the fault list; their causes clear, then TRN's, and the tests of
TRAIN_OVERFLOW and TRAIN_CROWDED follow (R36, R46, R54 to R57, R78, R92, R93, R95; the report follows the leave: log 25). -/
def Obligations.RecordsLeaveAtDivertAndDepart : Prop :=
  (∀ (s : State) (entry : BitVec 16) (r : CabinRecord), s.record entry = some r →
    let fit := r.grip = .pass ∧ r.divert = none ∧ r.closure = .shut
    (fit →
      s.departLead entry = s ∧
        s.departPoint entry =
          (s.leave entry false).report (.cabinDeparted entry .departed r.grip r.closure r.divert r.cabin)) ∧
    (¬fit →
      s.departLead entry = s.raise .departBlocked (.cabin entry) ∧
        s.departPoint entry =
          ((s.raise .departUnsafe (.cabin entry)).leave entry true).report
            (.cabinDeparted entry .unsafely r.grip r.closure r.divert r.cabin)) ∧
    ∀ unsafely : Bool,
      let out := s.modTrn fun t => { t with train := t.train.filter fun r => decide (r.entry ≠ entry) }
      let told := ((out.travLeave entry).closureLeave entry).gripLeave entry
      let cleared := ((told.clear .unknownCabin (.cabin entry)).clear .cabinDuplicate (.cabin entry)).clear
        .departBlocked (.cabin entry)
      s.leave entry unsafely =
        ((if unsafely then cleared.clear .departUnsafe (.cabin entry) else cleared).roomTest).crowdingTest) ∧
  (∀ (s : State) (entry : BitVec 16),
    let claims := s.gsw.claims.filter fun c => decide (c.entry ≠ entry)
    (s.travLeave entry =
      (s.modTrav fun t => { t with schedule := t.schedule.filter fun e => decide (e.entry ≠ entry) }).clear
        .cabinSlip (.cabin entry)) ∧
    (s.closureLeave entry =
      ((List.range' 1 29).foldl
        (fun (u : State) (a : Nat) =>
          let v := u.modNode a fun n => { n with waiting := n.waiting.filter fun w => decide (w.entry ≠ entry) }
          match v.txnAt a with
          | some t => if t.entry = entry ∧ t.state ≠ .detailing then v.cancelTxn a t else v
          | none => v) s).clear .closureLate (.cabin entry)) ∧
    (∀ (a : Nat) (t : OpenTxn),
      s.cancelTxn a t =
        (if s.slc.urgent.length < 64 then
          s.modSlc fun c =>
            { c with urgent := c.urgent ++ [{ address := a, command := .cancel t.entry, txn := some t.id }] }
        else s.silentExchange a).closeTxn a) ∧
    (s.gripLeave entry =
      ((s.modGsw fun g =>
        { expectations := g.expectations.filter fun e => decide (e ≠ entry), claims := claims,
          commanded := (claims.head?.map SwitchClaim.wanted).getD g.commanded,
          faults := g.faults.filter fun e => decide (e ≠ entry) }).clear .gripFail (.cabin entry)).clear
            .divertFault (.cabin entry)) ∧
    (s.roomTest =
      if s.trn.overflowFlag = true ∧ s.trn.train.length < 32 then
        (s.clear .trainOverflow .noSubject).modTrn fun t => { t with overflowFlag := false }
      else s) ∧
    (s.trn.crowding = .calm →
      s.crowdingTest =
        if s.site.crowdHigh ≤ s.trn.train.length then
          (s.raise .trainCrowded .noSubject).modTrn fun t => { t with crowding := .raised }
        else s) ∧
    (s.trn.crowding = .raised →
      s.crowdingTest =
        if s.trn.train.length ≤ s.site.crowdLow then
          (s.clear .trainCrowded .noSubject).modTrn fun t => { t with crowding := .calm }
        else s)) ∧
  ∀ (s : State) (entry : BitVec 16) (r : CabinRecord) (c : SwitchClaim), s.record entry = some r →
    s.gsw.claims.find? (fun c => decide (c.entry = entry)) = some c →
    let faulted := (s.raise .divertFault (.cabin entry)).modGsw fun g => { g with faults := g.faults ++ [entry] }
    let out (u : State) (o : DivertOutcome) : State :=
      (u.leave entry false).report (.cabinDiverted entry o c.wanted .garage r.divert r.cabin)
    (c.wanted = .garage → s.pins.divc0 = false → s.pins.divc1 = true →
      s.divertPoint entry = out (s.dropClaim entry) .garage) ∧
    (c.wanted = .main → s.pins.divc0 = true → s.pins.divc1 = false → s.divertPoint entry = s.dropClaim entry) ∧
    (c.wanted = .main → s.pins.divc0 = false → s.pins.divc1 = true →
      s.divertPoint entry = out (faulted.dropClaim entry) .astray) ∧
    (c.wanted = .garage → s.pins.divc0 = true ∨ s.pins.divc1 = false → s.divertPoint entry = faulted.dropClaim entry) ∧
    (c.wanted = .main → s.pins.divc0 = s.pins.divc1 → s.divertPoint entry = faulted.dropClaim entry)

/-! ### The drive and its timers, the switch (chapters 1 and 5) -/

/-- DMOV and the two timers of PERM. A rise is uncommanded in HELD, QUIET and SETUP; a fall moves STOPPING to HELD and
clears the two drive conditions; the stop timer's expiry in STOPPING raises DRIVE_NO_STOP; the silence timer's expiry
raises CONSOLE_SILENT; neither timer is started again (R8, R9, R12; an edge is taken on any level, and the expiry of a
timer that does not run leaves the state: logs 3 and 5). -/
def Obligations.DriveAndPermTimersAreSupervised : Prop :=
  ∀ s : State, s.phase = .live →
    let high := s.setPins { s.pins with dmov := true }
    let low := s.setPins { s.pins with dmov := false }
    let stood :=
      if s.perm.line = .stopping then (low.modPerm fun p => { p with stopTimer := none }).setLine .held .drive else low
    exec .dmovRise s =
        .next
          (if s.perm.line = .held ∨ s.perm.line = .quiet ∨ s.perm.line = .setup then
            high.raise .driveUncommanded .noSubject
          else high) ∧
    exec .dmovFall s = .next ((stood.clear .driveNoStop .noSubject).clear .driveUncommanded .noSubject) ∧
    (s.perm.line = .stopping → s.perm.stopTimer ≠ none →
      exec .stopTimerExpiry s =
        .next ((s.modPerm fun p => { p with stopTimer := none }).raise .driveNoStop .noSubject)) ∧
    (s.perm.line ≠ .stopping ∨ s.perm.stopTimer = none → exec .stopTimerExpiry s = .next s) ∧
    (s.perm.silenceTimer ≠ none →
      exec .consoleSilenceExpiry s =
        .next ((s.modPerm fun p => { p with silenceTimer := none }).raise .consoleSilent (.node 30))) ∧
    (s.perm.silenceTimer = none → exec .consoleSilenceExpiry s = .next s)

/-- A change of DIVC that comes to show the commanded position clears DIVERT_FAULT for every listed record, in order,
and empties the list; any other change leaves GSW (R94). -/
def Obligations.SwitchConfirmationClearsFaults : Prop :=
  ∀ (s : State) (divc0 divc1 : Bool), s.phase = .live →
    let u := s.setPins { s.pins with divc0 := divc0, divc1 := divc1 }
    let confirmed := (s.gsw.commanded = .main ∧ u.divc = .main) ∨ (s.gsw.commanded = .garage ∧ u.divc = .garage)
    (u.divc ≠ s.divc → confirmed →
      exec (.divcChange divc0 divc1) s =
        .next
          ((s.gsw.faults.foldl (fun v e => v.clear .divertFault (.cabin e)) u).modGsw fun g => { g with faults := [] })) ∧
    (u.divc = s.divc ∨ ¬confirmed → exec (.divcChange divc0 divc1) s = .next u)

/-! ### The telephone and its voice (chapter 8) -/

/-- A change of the call state wakes the line before the call leaves IDLE, starts the ring timer on entry to OUTGOING and
INCOMING and stops it elsewhere, turns RING off on entry to IDLE and CLEARING, empties both voice queues on leaving
CONNECTED, and makes a CALL_STATE report; an entry into IDLE adds CALL_ENDED (R11, R131). That VSO turns silent in the event
that leaves CONNECTED, and not at the next sample time, is the model's own reading, log 41. -/
def Obligations.CallStateChangesHaveCommonEffects : Prop :=
  ∀ (s : State) (new : CallState) (event : CallEvent) (outcome : CallOutcome),
    let w := if s.smt.call = .idle ∧ s.perm.line = .quiet then s.setLine .held (.wake .call) else s
    let left := s.smt.call = .connected
    s.setCall new event =
        (w.modSmt fun m =>
          { m with
            call := new
            ringTimer := if new = .outgoing ∨ new = .incoming then some (s.site.ringLimit * 1000) else none
            ring := if new = .idle ∨ new = .clearing then false else m.ring
            uplink := if left then [] else m.uplink
            downlink := if left then [] else m.downlink
            playback := if left then .waiting else m.playback
            vso := if left then 128 else m.vso }).report (.callState s.smt.call new event) ∧
      s.endCall outcome event =
        (s.setCall .idle event).report (.callEnded outcome s.smt.autoMark s.smt.startTime s.smt.concealed)

/-- The handset, the ring limit and the automatic call outside SETUP, by the call state (R132 to R135): what each event
does to the call, its marks and RING. In SETUP the edges move HOOK alone. The model's own choices: the order of the
automatic claim, log 9; the event named by a call that connects at once, log 10; the expiry of a ring timer that does not
run and a claim that was not sent leave the state, log 3. -/
def Obligations.CallMachineTakesItsEvents : Prop :=
  ∀ s : State, s.phase = .live →
    let lifted := s.setPins { s.pins with hook := true }
    let hung := s.setPins { s.pins with hook := false }
    (s.perm.line = .setup → exec .offHook s = .next lifted ∧ exec .onHook s = .next hung) ∧
    (s.perm.line ≠ .setup →
      (s.smt.call = .idle →
        exec .offHook s = .next (lifted.placeCall false true .offHook) ∧ exec .onHook s = .next hung) ∧
      (s.smt.call = .outgoing →
        exec .offHook s = .next (lifted.modSmt fun m => { m with hookMark := true }) ∧
          exec .onHook s = .next (if s.smt.autoMark then hung else hung.endCall .abandoned .onHook)) ∧
      (s.smt.call = .incoming →
        exec .offHook s =
            .next ((lifted.setCall .connected .offHook).modSmt fun m => { m with hookMark := true, ring := false }) ∧
          exec .onHook s = .next hung) ∧
      (s.smt.call = .connected →
        exec .offHook s = .next (lifted.modSmt fun m => { m with hookMark := true, ring := false }) ∧
          exec .onHook s = .next (if s.smt.hookMark then hung.setCall .clearing .onHook else hung)) ∧
      (s.smt.call = .clearing → exec .offHook s = .next lifted ∧ exec .onHook s = .next hung)) ∧
    (s.smt.ringTimer ≠ none →
      (s.smt.call = .outgoing → exec .ringTimerExpiry s = .next (s.endCall .unanswered .ringLimit)) ∧
        (s.smt.call = .incoming → exec .ringTimerExpiry s = .next (s.endCall .missed .ringLimit)) ∧
        (s.smt.call ≠ .outgoing → s.smt.call ≠ .incoming → exec .ringTimerExpiry s = .next s)) ∧
    (s.smt.ringTimer = none → exec .ringTimerExpiry s = .next s) ∧
    (0 < s.smt.autoClaims →
      let taken := s.modSmt fun m => { m with autoClaims := m.autoClaims - 1 }
      exec .automaticCallClaim s =
        .next
          (if s.smt.call = .idle ∧ s.perm.line ≠ .setup then taken.placeCall true s.pins.hook .autoCall else taken)) ∧
    (s.smt.autoClaims = 0 → exec .automaticCallClaim s = .next s) ∧
    ∀ (auto hook : Bool) (event : CallEvent),
      let out := (s.setCall .outgoing event).modSmt fun m =>
        { m with
          autoMark := auto, hookMark := hook, startTime := s.mgt.lineTime, clearingCount := 0, concealed := 0 }
      let connect (seen : CallEvent) : State :=
        let c := out.setCall .connected seen
        if auto = true ∧ s.pins.hook = false then c.modSmt fun m => { m with ring := true } else c
      s.placeCall auto hook event =
        match s.smt.heldCall with
        | .call => connect .summitCall
        | .answer => connect .summitAnswer
        | .nothing => out
        | .hangup => out

/-- In CONNECTED a sample on VSI joins the uplink queue of at most 256, dropping the oldest when it is full; each sample
time on VSO outputs silence until 160 entries wait, then the oldest entry, a CONCEALED one counted up to 65,535, and
silence again on an underrun; outside CONNECTED samples are discarded and VSO is silent (R136, R138). -/
def Obligations.VoiceFlowsInConnectedAlone : Prop :=
  ∀ (s : State) (b : Byte), s.phase = .live →
    (s.smt.call ≠ .connected →
      exec (.vsiSample b) s = .next s ∧ exec .vsoSampleTime s = .next (s.modSmt fun m => { m with vso := 128 })) ∧
    (s.smt.call = .connected →
      (s.smt.uplink.length < 256 →
        exec (.vsiSample b) s = .next (s.modSmt fun m => { m with uplink := m.uplink ++ [b] })) ∧
      (256 ≤ s.smt.uplink.length →
        exec (.vsiSample b) s = .next (s.modSmt fun m => { m with uplink := m.uplink.drop 1 ++ [b] })) ∧
      (s.smt.playback = .waiting → s.smt.downlink.length < 160 →
        exec .vsoSampleTime s = .next (s.modSmt fun m => { m with vso := 128 })) ∧
      (s.smt.downlink = [] →
        exec .vsoSampleTime s = .next (s.modSmt fun m => { m with vso := 128, playback := .waiting })) ∧
      ∀ e rest, s.smt.downlink = e :: rest → s.smt.playback = .playing ∨ 160 ≤ s.smt.downlink.length →
        exec .vsoSampleTime s =
          .next
            (s.modSmt fun m =>
              { m with
                vso := e.sample, downlink := rest, playback := .playing
                concealed := if e.concealed then min 65535 (m.concealed + 1) else m.concealed }))

/-! ### Tags (chapter 3) -/

/-- A TAG_READ in the tag reader's turn wakes the line; a code of 0 is refused by TRN; in SETUP the tag is orphaned;
elsewhere it is matched to the oldest AWAITED record, or takes the pending slot, orphaning the tag held there (R11, R48;
the arrival time of a tag orphaned in SETUP: log 28). -/
def Obligations.TagReadsMatchOrWait : Prop :=
  ∀ (s : State) (a : Nat) (f : RxFrame) (hi lo : Word), InTurn s a .tagReader Kind.tagRead f → f.payload = [hi, lo] →
    let u := (s.taken a).wake .tag
    let tag := hi ++ lo
    let held : PendingTag := { tag := tag, arrival := s.mgt.lineTime, timer := s.site.tagHoldLimit }
    let awaited := s.trn.train.find? fun r => decide (r.tagState = .awaited)
    (tag = 0 → exec (.tagRead f) s = .next (u.report (.frameRefused a Kind.tagRead .trn))) ∧
    (tag ≠ 0 →
      (s.perm.line = .setup →
        exec (.tagRead f) s = .next (u.report (.tagOrphan .setup tag s.mgt.lineTime))) ∧
      (s.perm.line ≠ .setup →
        (∀ r, awaited = some r → exec (.tagRead f) s = .next (u.matchTag r.entry tag)) ∧
        (awaited = none → s.trn.slot = none →
          exec (.tagRead f) s = .next (u.modTrn fun t => { t with slot := some held })) ∧
        ∀ p, awaited = none → s.trn.slot = some p →
          exec (.tagRead f) s =
            .next
              ((u.report (.tagOrphan .displaced p.tag p.arrival)).modTrn fun t => { t with slot := some held })))

/-- Matching sets the record's tag and stops its timer: no directory entry makes it UNKNOWN and UNIDENTIFIED, a cabin
number another record carries DUPLICATE, else it is MATCHED with its number, flagged where the entry is RETIRED; a
CABIN_ENTERED report follows. The tag timer's expiry makes an AWAITED record ABSENT; the slot's, whatever the train holds,
orphans its tag (R47, R49, R50; the expiry of a timer that does not run, and of a record not in the train, leaves the state:
log 3). -/
def Obligations.MatchingFindsTheCabin : Prop :=
  (∀ s : State, s.phase = .live →
    (s.trn.slot = none → exec .pendingSlotExpiry s = .next s) ∧
    (∀ p, s.trn.slot = some p →
      exec .pendingSlotExpiry s =
        .next ((s.modTrn fun t => { t with slot := none }).report (.tagOrphan .expired p.tag p.arrival))) ∧
    ∀ entry, s.record entry = none → exec (.tagTimerExpiry entry) s = .next s) ∧
  ∀ (s : State) (r : CabinRecord), s.phase = .live → TrainOk s → s.record r.entry = some r →
    let x := Subject.cabin r.entry
    let flaggedBy (d : DivertReason) : Option DivertReason :=
      match r.divert with
      | some old => some old
      | none => some d
    let become (tagState : TagState) (cabin : BitVec 8) (divert : Option DivertReason) (tag : Option (BitVec 32)) :
        State :=
      s.claimRecord r.entry fun r =>
        { r with tag := tag, tagTimer := none, tagState := tagState, cabin := cabin, divert := divert }
    (∀ tag, (∀ n d, nth1 s.trn.directory n = some d → d.tag ≠ some tag) →
      s.matchTag r.entry tag =
        ((become .unknown r.cabin (flaggedBy .unidentified) (some tag)).raise .unknownCabin x).report
          (.cabinEntered r.entry .unknown (flaggedBy .unidentified) r.cabin (some tag))) ∧
    (∀ tag n d, nth1 s.trn.directory n = some d → d.tag = some tag →
      (∀ m d', nth1 s.trn.directory m = some d' → d'.tag = some tag → m = n) →
      let carried := ∃ y ∈ s.trn.train, y.entry ≠ r.entry ∧ y.cabin.toNat = n
      let divert := if d.retired.isSome then flaggedBy .retired else r.divert
      (carried →
        s.matchTag r.entry tag =
          ((become .matched r.cabin (flaggedBy .duplicate) (some tag)).raise .cabinDuplicate x).report
            (.cabinEntered r.entry .matched (flaggedBy .duplicate) r.cabin (some tag))) ∧
      (¬carried →
        s.matchTag r.entry tag =
          (become .matched (BitVec.ofNat 8 n) divert (some tag)).report
            (.cabinEntered r.entry .matched divert (BitVec.ofNat 8 n) (some tag)))) ∧
    (r.tagState = .awaited → r.tagTimer ≠ none →
      exec (.tagTimerExpiry r.entry) s =
        .next
          (((become .absent r.cabin (flaggedBy .unidentified) r.tag).raise .unknownCabin x).report
            (.cabinEntered r.entry .absent (flaggedBy .unidentified) r.cabin r.tag))) ∧
    (r.tagState ≠ .awaited ∨ r.tagTimer = none → exec (.tagTimerExpiry r.entry) s = .next s)

/-! ### Leads, closure transactions, the grip test (chapters 4 and 5) -/

/-- TRAV hands a lead and a point to the action's owner: OPEN and SHUT to DTX, GRIP_TEST and DIVERT to GSW, DEPART to TRN,
ENTRY and MARK to none; GSW takes the GRIP_TEST point without a change (R33, R86). A GRIP_TEST lead adds the expectation,
claims AWAITED and queues GRIP_EXPECT to the address of kind GRIP_UNIT. A DIVERT lead ends an expectation with NO_RESULT, flags a record that is not PASS,
and joins its switch claim, the head of which is commanded (R86, R91, R92). An OPEN or SHUT lead first overtakes the
cabin's earlier claim: an open transaction is cancelled, but a DETAILING one stays, no longer the cabin's claim; a wait
entry is taken off; CLOSURE_LATE is raised and CLOSURE_FAILED reported as OVERTAKEN. It then opens a transaction with SET
queued at a free node, waits behind an open transaction, and fails at a FAULTED node (R68, R69). The model's own choices: a
full urgent queue is silence at once, before NODE_SILENT, log 11; the number that ties a command to its transaction, log 22;
an entry number the list holds already gives way to its new claim, log 38; with no GRIP_UNIT nothing is queued, and of
several the lowest address is taken, log 33. -/
def Obligations.LeadsReachTheirOwners : Prop :=
  (∀ (s : State) (entry : BitVec 16) (k : Nat) (p : PathPoint),
    (p.action = .entry ∨ p.action = .mark → s.handLead entry k p = s ∧ s.handPoint entry k p = s) ∧
    (∀ a, p.action = .openAt → p.node = some a →
      s.handLead entry k p = s.closureLead entry .toOpen k a ∧ s.handPoint entry k p = s.closurePoint entry k a) ∧
    (∀ a, p.action = .shutAt → p.node = some a →
      s.handLead entry k p = s.closureLead entry .toShut k a ∧ s.handPoint entry k p = s.closurePoint entry k a) ∧
    (p.action = .gripTest → s.handLead entry k p = s.gripLead entry ∧ s.handPoint entry k p = s) ∧
    (p.action = .divert → s.handLead entry k p = s.divertLead entry ∧ s.handPoint entry k p = s.divertPoint entry) ∧
    (p.action = .depart → s.handLead entry k p = s.departLead entry ∧ s.handPoint entry k p = s.departPoint entry)) ∧
  (∀ s : State,
    (∀ a, nth1 s.slc.nodeTable a = some .gripUnit → (∀ b < a, nth1 s.slc.nodeTable b ≠ some .gripUnit) →
      s.gripAddress = some a) ∧
    ((∀ a, nth1 s.slc.nodeTable a ≠ some .gripUnit) → s.gripAddress = none)) ∧
  (∀ (s : State) (entry : BitVec 16) (r : CabinRecord), TrainOk s → s.record entry = some r →
    let others := s.gsw.expectations.filter fun e => decide (e ≠ entry)
    let expecting (list : List (BitVec 16)) (g : GripResult) : State :=
      (s.modGsw fun x => { x with expectations := list }).claimRecord entry fun r =>
        { r with grip := g, gripForce := none }
    (∀ a, s.gripAddress = some a →
      (s.slc.urgent.length < 64 →
        s.gripLead entry =
          (expecting (placeBehind (fun y => s.ahead y entry) entry others) .awaited).modSlc fun c =>
            { c with urgent := c.urgent ++ [{ address := a, command := .gripExpect entry r.cabin, txn := none }] }) ∧
      (64 ≤ s.slc.urgent.length → s.gripLead entry = (expecting others .noResult).silentExchange a)) ∧
    (s.gripAddress = none →
      s.gripLead entry = expecting (placeBehind (fun y => s.ahead y entry) entry others) .awaited) ∧
    (let held := entry ∈ s.gsw.expectations
      let grip := if held then GripResult.noResult else r.grip
      let divert :=
        if grip = .pass then r.divert
        else match r.divert with
          | some d => some d
          | none => some .grip
      let claim : SwitchClaim := { entry := entry, wanted := if divert.isSome then .garage else .main }
      let claims := placeBehind (fun y => s.ahead y.entry entry) claim
        (s.gsw.claims.filter fun c => decide (c.entry ≠ entry))
      s.divertLead entry =
        ((s.modGsw fun g =>
          { g with
            expectations := others
            claims := claims
            commanded := (claims.head?.map SwitchClaim.wanted).getD g.commanded }).claimRecord entry fun r =>
              { r with grip := grip, divert := divert }))) ∧
  (∀ (s : State) (entry : BitVec 16), DtxOk s →
    ((∀ a n, s.node a = some n → entry ∉ n.claims) → s.overtake entry = s) ∧
    (∀ a t, s.txnAt a = some t → t.entry = entry → t.overtaken = false →
      let freed := if t.state = .detailing then s.modTxn a fun t => { t with overtaken := true } else s.cancelTxn a t
      s.overtake entry =
        (freed.raise .closureLate (.cabin entry)).report (.closureFailed entry .overtaken t.action t.point a)) ∧
    ∀ a n w, s.node a = some n → w ∈ n.waiting → w.entry = entry →
      let freed := s.modNode a fun n => { n with waiting := n.waiting.filter fun w => decide (w.entry ≠ entry) }
      s.overtake entry =
        (freed.raise .closureLate (.cabin entry)).report (.closureFailed entry .overtaken w.action w.point a)) ∧
  ∀ (s : State) (entry : BitVec 16) (action : ClosureAction) (k a : Nat) (n : NodeRec),
    let u := s.overtake entry
    u.node a = some n →
      let w : WaitEntry := { entry := entry, action := action, point := k, late := false }
      (n.faulted = true →
        s.closureLead entry action k a =
          (((u.claimRecord entry fun r => { r with closure := .fault }).raise .closureFault (.node a)).report
            (.closureFailed entry .nodeFaulted action k a))) ∧
      (n.faulted = false → n.txn.isSome = true →
        s.closureLead entry action k a =
          u.modNode a fun n => { n with waiting := placeBehind (fun y => u.ahead y.entry entry) w n.waiting }) ∧
      (n.faulted = false → n.txn = none → n.waiting = [] →
        let t : OpenTxn :=
          { id := u.dtx.nextTxn, entry := entry, action := action, point := k, state := .setting, late := false,
            retry := false, deadline := none, actTimer := none, faultWords := none, detailCause := none,
            overtaken := false }
        (u.slc.urgent.length < 64 →
          s.closureLead entry action k a =
            (((u.modDtx fun d => { d with nextTxn := d.nextTxn + 1 }).modNode a fun n =>
              { n with txn := some t, waiting := [] }).modSlc fun c =>
                { c with urgent := c.urgent ++ [{ address := a, command := .set entry action, txn := some t.id }] })) ∧
        (64 ≤ u.slc.urgent.length →
          s.closureLead entry action k a =
            ((u.claimRecord entry fun r => { r with closure := .fault }).report
              (.closureFailed entry .silent action k a)).silentExchange a))

/-- Answers to the commands of the urgent queue, naming their entry number, for the transaction they belong to: SET_ACCEPT
primes it, or goes on to GO when it is late; SET_REFUSE marks it for a retry or faults the node; GO_ACCEPT makes it ACTING
with its act deadline and claims OPENING or SHUTTING; GO_REFUSE faults the node; DETAIL_ANSWER ends the detail fetch;
CANCEL_ACCEPT and EXPECT_ACCEPT change nothing; CLEAR_ACCEPT makes the node READY. An answer its command does not allow is
refused by DTX, or GSW, and acts as a refusal: SET and GO fault the node, DETAIL ends with its words missing, CLEAR ends as
REFUSED, GRIP_EXPECT ends the expectation with NO_RESULT. A silent completion fails the claim of a SET or GO, and ends the
others alike, CLEAR as SILENT. The NODE_FAULT ending faults the node, raises CLOSURE_FAULT, reports, closes the transaction
and applies a change of kind that waited (R66, R67, R70, R72, R73, R76, R77, R80, R82, R87). The model's own choices: any
completion for a transaction since closed, or in another state, is discarded without a report, log 12; one of a wrong
length, which SLC has reported, is not reported again, log 13; a full urgent queue is silence at once, log 11. -/
def Obligations.AnswersMoveTheirTransactions : Prop :=
  ∀ (s : State) (q : QueuedCommand) (f : RxFrame) (e : BitVec 16),
    let a := q.address
    let u := s.taken a
    (∀ action, q.command = .set e action →
      (∀ t, s.txnAt a = some t → q.txn = some t.id → t.state = .setting →
        (Answers s q Kind.setAccept f → f.payload = [e] →
          let primed := u.modTxn a fun t => { t with state := .primed }
          exec (.setAccept f) s = .next (if t.late then primed.sendGo a t else primed)) ∧
        (Answers s q Kind.setRefuse f →
          (f.payload = [e, 0] → exec (.setRefuse f) s = .next (u.modTxn a fun t => { t with retry := true })) ∧
            (f.payload = [e, 1] →
              exec (.setRefuse f) s =
                .next (u.nodeFault a t (.closureFailed t.entry .refused t.action t.point a))))) ∧
      ((∀ t, s.txnAt a = some t → q.txn ≠ some t.id ∨ t.state ≠ .setting) →
        (Answers s q Kind.setAccept f → exec (.setAccept f) s = .next u) ∧
          (Answers s q Kind.setRefuse f → exec (.setRefuse f) s = .next u))) ∧
    (q.command = .go e →
      (∀ t, s.txnAt a = some t → q.txn = some t.id → t.state = .going →
        (Answers s q Kind.goAccept f → f.payload = [e] →
          exec (.goAccept f) s =
            .next
              ((u.modTxn a fun t =>
                { t with
                  state := .acting
                  deadline := some (s.mgt.lineTime + BitVec.ofNat 32 s.site.closureActLimit)
                  actTimer := some s.site.closureActLimit }).claimRecord t.entry fun r =>
                    { r with closure := match t.action with | .toOpen => .opening | .toShut => .shutting })) ∧
        (∀ w, Answers s q Kind.goRefuse f → f.payload = [e, w] →
          exec (.goRefuse f) s = .next (u.nodeFault a t (.closureFailed t.entry .refused t.action t.point a)))) ∧
      ((∀ t, s.txnAt a = some t → q.txn ≠ some t.id ∨ t.state ≠ .going) →
        (Answers s q Kind.goAccept f → exec (.goAccept f) s = .next u) ∧
          (Answers s q Kind.goRefuse f → exec (.goRefuse f) s = .next u))) ∧
    (q.command = .detail e → Answers s q Kind.detailAnswer f →
      (∀ t w1 w2, s.txnAt a = some t → q.txn = some t.id → t.state = .detailing → f.payload = [e, w1, w2] →
        exec (.detailAnswer f) s =
          .next
            (u.nodeFault a t
              (.closureDetail t.entry a t.action t.point (t.detailCause.getD .actLimit) false
                (t.faultWords.getD (0, 0)) (w1, w2)))) ∧
      ((∀ t, s.txnAt a = some t → q.txn ≠ some t.id ∨ t.state ≠ .detailing) → exec (.detailAnswer f) s = .next u)) ∧
    (q.command = .cancel e → Answers s q Kind.cancelAccept f → f.payload = [e] →
      exec (.cancelAccept f) s = .next u) ∧
    (q.command = .clear → Answers s q Kind.clearAccept f → f.payload = [] →
      exec (.clearAccept f) s =
        .next
          (((u.modNode a fun n => { n with clearMark := false, faulted := false }).clear .closureFault (.node a)).report
            (.nodeCleared a .cleared))) ∧
    (∀ cabin, q.command = .gripExpect e cabin → Answers s q Kind.expectAccept f → f.payload = [e] →
      exec (.expectAccept f) s = .next u) ∧
    (∀ (t : OpenTxn) (r : Report),
      s.nodeFault a t r =
        ((((((s.claimRecord t.entry fun r => { r with closure := .fault }).modNode a fun n =>
          { n with faulted := true }).raise .closureFault (.node a)).report r).closeTxn a).applyWaitingChange a)) ∧
    (∀ n, s.node a = some n →
      s.applyWaitingChange a =
        if n.changeMark then
          (s.modNode a fun n =>
            { n with faulted := false, waiting := [], clearMark := false, changeMark := false }).clear
            .closureFault (.node a)
        else s) ∧
    (∀ (t : OpenTxn) (ending : ClosureEnding),
      s.failTxn a t ending =
        (((s.claimRecord t.entry fun r => { r with closure := .fault }).report
          (.closureFailed t.entry ending t.action t.point a)).closeTxn a)) ∧
    (∀ t : OpenTxn,
      let going := s.modTxn a fun t => { t with state := .going }
      s.sendGo a t =
        if s.slc.urgent.length < 64 then
          going.modSlc fun c =>
            { c with urgent := c.urgent ++ [{ address := a, command := .go t.entry, txn := some t.id }] }
        else (going.failTxn a t .silent).silentExchange a) ∧
    (∀ kind : Byte, Answers s q kind f → exec (.unsolicitedFrame kind f) s = .next (u.complete q (.frame kind f.payload))) ∧
    let allowed (kind : Byte) (ws : List Word) : Prop :=
      match q.command with
      | .set e _ =>
        (kind = Kind.setAccept ∧ ws = [e]) ∨ (kind = Kind.setRefuse ∧ (ws = [e, 0] ∨ ws = [e, 1]))
      | .go e => (kind = Kind.goAccept ∧ ws = [e]) ∨ (kind = Kind.goRefuse ∧ ∃ reason, ws = [e, reason])
      | .detail e => kind = Kind.detailAnswer ∧ ∃ w1 w2, ws = [e, w1, w2]
      | .cancel e => kind = Kind.cancelAccept ∧ ws = [e]
      | .clear => kind = Kind.clearAccept ∧ ws = []
      | .gripExpect e _ => kind = Kind.expectAccept ∧ ws = [e]
    let owner : RefusingBlock :=
      match q.command with
      | .gripExpect _ _ => .gsw
      | _ => .dtx
    let tied (st : TxnState) (t : OpenTxn) : Prop := s.txnAt a = some t ∧ q.txn = some t.id ∧ t.state = st
    let unexpected (v : State) (e : BitVec 16) : State :=
      if e ∈ s.gsw.expectations then
        (v.modGsw fun g => { g with expectations := g.expectations.filter fun x => decide (x ≠ e) }).claimRecord e
          fun r => { r with grip := .noResult }
      else v
    let missing (v : State) (t : OpenTxn) : State :=
      v.nodeFault a t
        (.closureDetail t.entry a t.action t.point (t.detailCause.getD .actLimit) true (t.faultWords.getD (0, 0)) (0, 0))
    let clearEnded (v : State) (outcome : ClearOutcome) : State :=
      (v.modNode a fun n => { n with clearMark := false }).report (.nodeCleared a outcome)
    (∀ (ans : Answer) (v : State),
      (ans = .badLength ∧ v = s ∨
        ∃ kind ws, ans = .frame kind ws ∧ ¬allowed kind ws ∧ v = s.report (.frameRefused a kind owner)) →
      (∀ e action t, q.command = .set e action → tied .setting t →
        s.complete q ans = v.nodeFault a t (.closureFailed t.entry .refused t.action t.point a)) ∧
      (∀ e t, q.command = .go e → tied .going t →
        s.complete q ans = v.nodeFault a t (.closureFailed t.entry .refused t.action t.point a)) ∧
      (∀ e t, q.command = .detail e → tied .detailing t → s.complete q ans = missing v t) ∧
      (∀ e, q.command = .cancel e → s.complete q ans = v) ∧
      (q.command = .clear → s.complete q ans = clearEnded v .refused) ∧
      ∀ e cabin, q.command = .gripExpect e cabin → s.complete q ans = unexpected v e) ∧
    (∀ e action t, q.command = .set e action → tied .setting t → s.complete q .silence = s.failTxn a t .silent) ∧
    (∀ e t, q.command = .go e → tied .going t → s.complete q .silence = s.failTxn a t .silent) ∧
    (∀ e t, q.command = .detail e → tied .detailing t → s.complete q .silence = missing s t) ∧
    (∀ e, q.command = .cancel e → s.complete q .silence = s) ∧
    (q.command = .clear → s.complete q .silence = clearEnded s .silent) ∧
    (∀ e cabin, q.command = .gripExpect e cabin → s.complete q .silence = unexpected s e) ∧
    ∀ (ans : Answer) (e : BitVec 16),
      ((∃ action, q.command = .set e action) ∧ (∀ t, ¬tied .setting t) ∨ q.command = .go e ∧ (∀ t, ¬tied .going t) ∨
        q.command = .detail e ∧ ∀ t, ¬tied .detailing t) → s.complete q ans = s

/-- CLOSURE_DONE from the node of an ACTING transaction of its entry number: COMPLETE claims OPEN or SHUT and closes it,
FAULT starts the detail fetch with its words, and the act timer's expiry starts it with words 0; any other CLOSURE_DONE is
refused by DTX. The point of the cabin's claim sends GO to a PRIMED transaction, marks one in SETTING and a wait entry late
with CLOSURE_LATE raised, and does nothing else. As a transaction closes, a READY node serves the head of its wait list with
SET, a FAULTED one ends each entry as failed, head first (R67, R72, R74, R75). The model's own choices: a full urgent queue
is silence at once, log 11; the expiry of an act timer that does not run leaves the state, log 3; an outcome out of range
is DTX's to refuse, log 37. -/
def Obligations.ClosureEndsByDoneOrActTimer : Prop :=
  ∀ (s : State) (a : Nat) (f : RxFrame) (t : OpenTxn),
    let u := s.taken a
    let fetch (v : State) (cause : DetailCause) (words : Word × Word) : State :=
      let fetching : OpenTxn :=
        { t with
          state := .detailing, deadline := none, actTimer := none, faultWords := some words, detailCause := some cause }
      (v.modNode a fun n => { n with txn := some fetching }).modSlc fun c =>
        { c with urgent := c.urgent ++ [{ address := a, command := .detail t.entry, txn := some t.id }] }
    let unfetched (v : State) (cause : DetailCause) (words : Word × Word) : State :=
      let fetching : OpenTxn :=
        { t with
          state := .detailing, deadline := none, actTimer := none, faultWords := some words, detailCause := some cause }
      ((v.modNode a fun n => { n with txn := some fetching }).nodeFault a fetching
        (.closureDetail t.entry a t.action t.point cause true words (0, 0))).silentExchange a
    (InTurn s a .closureDrive Kind.closureDone f → s.txnAt a = some t →
      (t.state = .acting → f.payload = [t.entry, 0] →
        exec (.closureDone f) s =
          .next
            ((u.claimRecord t.entry fun r =>
              { r with closure := match t.action with | .toOpen => .opened | .toShut => .shut }).closeTxn a)) ∧
      (∀ w1 w2, t.state = .acting → f.payload = [t.entry, 1, w1, w2] → s.slc.urgent.length < 64 →
        exec (.closureDone f) s = .next (fetch u .faultReported (w1, w2))) ∧
      (t.state ≠ .acting ∨ f.payload.head? ≠ some t.entry ∨ 1 < (f.payload.getD 1 0).toNat →
        exec (.closureDone f) s = .next (u.report (.frameRefused a Kind.closureDone .dtx)))) ∧
    (InTurn s a .closureDrive Kind.closureDone f → s.txnAt a = none →
      exec (.closureDone f) s = .next (u.report (.frameRefused a Kind.closureDone .dtx))) ∧
    (s.phase = .live → s.txnAt a = some t → t.state = .acting → t.actTimer ≠ none → s.slc.urgent.length < 64 →
      exec (.actTimerExpiry a) s = .next (fetch s .actLimit (0, 0))) ∧
    (s.phase = .live → (∀ t, s.txnAt a = some t → t.state ≠ .acting ∨ t.actTimer = none) →
      exec (.actTimerExpiry a) s = .next s) ∧
    (s.txnAt a = some t → t.state = .acting → 64 ≤ s.slc.urgent.length →
      (∀ w1 w2, InTurn s a .closureDrive Kind.closureDone f → f.payload = [t.entry, 1, w1, w2] →
        exec (.closureDone f) s = .next (unfetched u .faultReported (w1, w2))) ∧
      (s.phase = .live → t.actTimer ≠ none → exec (.actTimerExpiry a) s = .next (unfetched s .actLimit (0, 0)))) ∧
    (∀ (n : NodeRec) (entry : BitVec 16) (k : Nat), s.node a = some n →
      let late (v : State) : State := v.raise .closureLate (.cabin entry)
      (∀ x, n.txn = some x → x.entry = entry → x.point = k → x.overtaken = false →
        (x.state = .primed → s.closurePoint entry k a = s.sendGo a x) ∧
        (x.state = .setting → s.closurePoint entry k a = late (s.modTxn a fun x => { x with late := true })) ∧
        (x.state ≠ .primed → x.state ≠ .setting → s.closurePoint entry k a = s)) ∧
      ((∀ x, n.txn = some x → x.entry ≠ entry ∨ x.point ≠ k ∨ x.overtaken = true) →
        ((∃ w ∈ n.waiting, w.entry = entry ∧ w.point = k) →
          s.closurePoint entry k a =
            late (s.modNode a fun n =>
              { n with waiting := n.waiting.map fun w =>
                  if w.entry = entry ∧ w.point = k then { w with late := true } else w })) ∧
        ((∀ w ∈ n.waiting, w.entry ≠ entry ∨ w.point ≠ k) → s.closurePoint entry k a = s))) ∧
    (∀ n, s.node a = some n →
      let closed := s.modNode a fun n => { n with txn := none }
      s.closeTxn a = if n.faulted then closed.drain a n.waiting else closed.serve a n.waiting) ∧
    s.drain a [] = s ∧ s.serve a [] = (s.modNode a fun n => { n with waiting := [] }) ∧
    ∀ (w : WaitEntry) (rest : List WaitEntry),
      let next (v : State) : State := v.modNode a fun n => { n with waiting := rest }
      let failed (v : State) (ending : ClosureEnding) : State := v.report (.closureFailed w.entry ending w.action w.point a)
      let claim (v : State) : State := v.claimRecord w.entry fun r => { r with closure := .fault }
      s.drain a (w :: rest) = (next (failed ((claim s).raise .closureFault (.node a)) .nodeFaulted)).drain a rest ∧
      (s.slc.urgent.length < 64 →
        let opened : OpenTxn :=
          { id := s.dtx.nextTxn, entry := w.entry, action := w.action, point := w.point, state := .setting,
            late := w.late, retry := false, deadline := none, actTimer := none, faultWords := none, detailCause := none,
            overtaken := false }
        s.serve a (w :: rest) =
          ((s.modDtx fun d => { d with nextTxn := d.nextTxn + 1 }).modNode a fun n =>
            { n with txn := some opened, waiting := rest }).modSlc fun c =>
              { c with urgent := c.urgent ++ [{ address := a, command := .set w.entry w.action, txn := some opened.id }] }) ∧
      (64 ≤ s.slc.urgent.length → s.serve a (w :: rest) = ((failed (claim (next s)) .silent).serve a rest).silentExchange a)

/-- A GRIP_RESULT with a held expectation is judged PASS between the site's limits, both included, else FAIL: the
expectation goes, the record takes verdict and force, a report is made, and a FAIL flags the record, retires a cabin with
a number and raises GRIP_FAIL. With none it is a stray, its reason read from the train (R53, R88, R89, R90). -/
def Obligations.GripResultIsJudged : Prop :=
  ∀ (s : State) (a : Nat) (f : RxFrame) (entry force : Word), TrainOk s → InTurn s a .gripUnit Kind.gripResult f →
    f.payload = [entry, force] →
    let u := s.taken a
    (∀ r, entry ∈ s.gsw.expectations → s.record entry = some r →
      let passes := s.site.gripMin ≤ force.toNat ∧ force.toNat ≤ s.site.gripMax
      let judged (v : GripResult) (divert : Option DivertReason) : State :=
        ((u.modGsw fun g => { g with expectations := g.expectations.filter fun e => decide (e ≠ entry) }).claimRecord
          entry fun r => { r with grip := v, gripForce := some force, divert := divert }).report
            (.gripResult entry v r.cabin force)
      let flagged :=
        match r.divert with
        | some d => some d
        | none => some DivertReason.grip
      (passes → exec (.gripResult f) s = .next (judged .pass r.divert)) ∧
      (¬passes →
        exec (.gripResult f) s =
          .next
            ((if r.cabin = 0 then judged .fail flagged
              else
                (judged .fail flagged).modTrn fun t =>
                  { t with directory := mod1 t.directory r.cabin.toNat fun d =>
                      { d with retired := some .gripFail, force := some force } }).raise .gripFail (.cabin entry)))) ∧
    (entry ∉ s.gsw.expectations →
      let reason : StrayReason :=
        match (s.record entry).map CabinRecord.grip with
        | some .noResult => .late
        | some .pass => .duplicate
        | some .fail => .duplicate
        | _ => .unknown
      exec (.gripResult f) s = .next (u.report (.gripStray entry reason force)))

/-! ### The station line (chapter 9) -/

/-- What becomes of a frame that no owner takes. Cut short, with a bad check, or to another address: nothing. From no node
address: FRAME_REFUSED. From a node with nothing awaiting a frame, or another node awaited: the node is noticed and the
frame refused, the exchange going on. In a turn, DECLINE ends the turn, and a kind its node kind does not allow, or any
kind from NONE, is refused. A frame of a length its kind does not allow, as an answer or in a turn, ends the exchange and is
refused by SLC, and its command's owner has an answer it does not allow (R140, R141, R145, R150, R172). The model's own
choices: a frame during a SERVICE_POLL finds nothing awaiting it, log 15; one report for an answer of a wrong length, log
13; a kind with no code forbids no length, log 14. -/
def Obligations.FramesNobodyTakesAreRefused : Prop :=
  (∀ (s : State) (a : Nat) (kind : Byte) (f : RxFrame), s.phase = .live →
    let noticed := if a = 30 then (s.heardFrom a).consoleNotice else s.heardFrom a
    (f.whole kind = false ∨ f.destination ≠ 0 → exec (.unsolicitedFrame kind f) s = .next s) ∧
    (f.whole kind = true → f.destination = 0 → f.sender = 0 ∨ f.sender = 31 →
      exec (.unsolicitedFrame kind f) s = .next (s.report (.frameRefused f.sender kind .slc))) ∧
    (f.whole kind = true → f.destination = 0 → f.sender = a → 1 ≤ a → a ≤ 30 →
      s.slc.exchange = none ∨
        (∃ x, s.slc.exchange = some x ∧
          (x.phase = .sending ∨ x.address ≠ a ∨ ∃ n, x.kind = .poll n)) →
      exec (.unsolicitedFrame kind f) s = .next (noticed.report (.frameRefused a kind .slc))) ∧
    (∀ node, InTurn s a node Kind.decline f → node ≠ .noKind → exec (.decline f) s = .next (s.taken a)) ∧
    ∀ node, InTurn s a node kind f →
      node = .noKind ∨
        (kind ≠ Kind.decline ∧ ¬(node = .closureDrive ∧ kind = Kind.closureDone) ∧
          ¬(node = .gripUnit ∧ kind = Kind.gripResult) ∧ ¬(node = .tagReader ∧ kind = Kind.tagRead) ∧
          ¬(node = .console ∧ 80 ≤ kind.toNat ∧ kind.toNat ≤ 97)) →
      exec (.unsolicitedFrame kind f) s = .next ((s.taken a).report (.frameRefused a kind .slc))) ∧
  (∀ (kind : Byte) (ws : List Word),
    let n := ws.length
    (((kind = Kind.decline ∨ kind = Kind.clearAccept) ∧ n ≠ 0) ∨
      ((kind = Kind.setAccept ∨ kind = Kind.goAccept ∨ kind = Kind.cancelAccept ∨ kind = Kind.expectAccept) ∧ n ≠ 1) ∨
      ((kind = Kind.setRefuse ∨ kind = Kind.goRefuse ∨ kind = Kind.gripResult ∨ kind = Kind.tagRead) ∧ n ≠ 2) ∨
      (kind = Kind.detailAnswer ∧ n ≠ 3) ∨
      (kind = Kind.closureDone ∧ n ≠ 2 ∧ n ≠ 4) ∨ (∃ e, kind = Kind.closureDone ∧ ws = [e, 1]) ∨
      (∃ e w1 w2, kind = Kind.closureDone ∧ ws = [e, 0, w1, w2]) ∨ (80 ≤ kind.toNat ∧ kind.toNat ≤ 97 ∧ 13 < n)) →
    lengthAllowed kind ws = false) ∧
  ∀ (s : State) (a : Nat) (kind : Byte) (f : RxFrame) (x : Exchange), s.phase = .live → f.whole kind = true →
    f.destination = 0 → f.sender = a → 1 ≤ a → a ≤ 30 → lengthAllowed kind f.payload = false →
    s.slc.exchange = some x → x.phase = .awaiting → x.address = a →
    let refused := (s.taken a).report (.frameRefused a kind .slc)
    (x.kind = .turn → exec (.unsolicitedFrame kind f) s = .next refused) ∧
    ∀ q b, x.kind = .command q b → exec (.unsolicitedFrame kind f) s = .next (refused.complete q .badLength)

/-- The arbiter on a free line takes the first use that is ready: the broadcast CLEAR, the head of the urgent queue, a due
poll, a turn for the next member of the service set above the turn pointer and round, the RESPONSE, a REPORT of up to four
entries with the overflow mark; with none the line stays idle; it interrupts no exchange (R145, R147, R149, R152 to R155,
R169). -/
def Obligations.ArbiterTakesTheFirstReadyUse : Prop :=
  ∀ s : State, s.phase = .live →
    let begin (u : State) (k : ExchangeKind) (a : Nat) (ws : List Word) : State :=
      u.modSlc fun c => { c with exchange := some { kind := k, address := a, phase := .sending, frame := ws } }
    let may (k : Nat) : Prop :=
      1 ≤ k ∧ k ≤ 30 ∧ nth1 s.slc.service k = some true ∧ (k = 30 → s.mgt.response = none)
    let first (p : Nat → Prop) (k : Nat) : Prop := p k ∧ ∀ j, p j → k ≤ j
    let above (k : Nat) : Prop := may k ∧ ∃ n, s.slc.turnPointer = some n ∧ n < k
    (s.slc.exchange ≠ none → exec .arbiterChoice s = .next s) ∧
    (s.slc.exchange = none →
      (s.slc.clearPending = true →
        exec .arbiterChoice s = .next (begin s .broadcastClear 31 (buildFrame 31 0 Kind.clear []))) ∧
      (s.slc.clearPending = false →
        (∀ q rest, s.slc.urgent = q :: rest →
          exec .arbiterChoice s =
            .next (begin (s.modSlc fun c => { c with urgent := rest }) (.command q false) q.address q.frame)) ∧
        (s.slc.urgent = [] →
          (s.slc.pollDue = true →
            exec .arbiterChoice s =
              .next (begin (s.modSlc fun c => { c with pollDue := false }) (.poll 1) 31 (buildFrame 31 0 Kind.poll []))) ∧
          (s.slc.pollDue = false →
            (∀ a, first above a ∨ ((∀ k, ¬above k) ∧ first may a) →
              exec .arbiterChoice s =
                .next
                  (begin
                    (s.modSlc fun c => { c with service := mod1 c.service a fun _ => false, turnPointer := some a })
                    .turn a (buildFrame a 0 Kind.turn []))) ∧
            ((∀ k, ¬may k) →
              (∀ r, s.mgt.response = some r → exec .arbiterChoice s = .next (begin s .response 30 r.frame)) ∧
              (s.mgt.response = none → s.mgt.reports ≠ [] →
                exec .arbiterChoice s =
                  .next
                    (begin (s.modMgt fun m => { m with reports := m.reports.drop 4, overflowMark := false }) .report 30
                      (reportFrame (s.mgt.reports.take 4) s.mgt.overflowMark))) ∧
              (s.mgt.response = none → s.mgt.reports = [] → exec .arbiterChoice s = .next s))))))

/-- The windows of the line: the window opens as the frame has left; a command's empty window repeats it once, and the
second is silence, for its owner and for the node; a turn's empty window is silence; a REPORT ends as sent; the broadcast
CLEAR as sent starts the poll timer with a poll due; the poll timer's expiry sets the due mark and restarts (R144, R145,
R147, R149, R151, R155; the owner is told before NODE_SILENT is raised: log 11; with no exchange, and with no poll
timer running, these events leave the state: log 3). -/
def Obligations.ExchangesEndByTheirOwnEvents : Prop :=
  ∀ (s : State) (x : Exchange), s.phase = .live →
    let free := s.modSlc fun c => { c with exchange := none }
    let silent (u : State) (k : Nat) : State :=
      (u.modSlc fun c =>
        { c with answers := mod1 c.answers k fun r =>
            { r with silence := min 65535 (r.silence + 1), silent := true } }).raise .nodeSilent (.node k)
    let period := match s.mgt.site with
      | some r => r.pollPeriod
      | none => 20
    (s.slc.exchange = some x →
      (x.phase = .sending →
        ((∃ q b, x.kind = .command q b) ∨ (∃ n, x.kind = .poll n) ∨ x.kind = .turn →
          exec .answerWindowOpens s =
            .next (s.modSlc fun c => { c with exchange := some { x with phase := .awaiting } })) ∧
        (x.kind = .report → exec .reportFrameSent s = .next free) ∧
        (x.kind = .broadcastClear →
          exec .broadcastClearSent s =
            .next
              (s.modSlc fun c =>
                { c with exchange := none, clearPending := false, pollTimer := some period, pollDue := true }))) ∧
      (x.phase = .awaiting →
        (∀ q, x.kind = .command q false →
          exec .answerWindowClose s =
            .next
              (s.modSlc fun c => { c with exchange := some { x with kind := .command q true, phase := .sending } })) ∧
        (∀ q, x.kind = .command q true →
          exec .answerWindowClose s = .next (silent (free.complete q .silence) x.address)) ∧
        (x.kind = .turn → exec .turnWindowClose s = .next (silent free x.address)))) ∧
    (s.slc.exchange = none →
      ∀ c ∈ [Instr.answerWindowOpens, .reportFrameSent, .broadcastClearSent, .answerWindowClose, .turnWindowClose,
          .responseSent, .pollSlotClose .quiet],
        exec c s = .next s) ∧
    (s.slc.pollTimer ≠ none →
      exec .pollTimerExpiry s = .next (s.modSlc fun c => { c with pollDue := true, pollTimer := some period })) ∧
    (s.slc.pollTimer = none → exec .pollTimerExpiry s = .next s)

/-- A poll slot: a marked whole word of its own address is an answer, by which a node of a kind joins the service set and
an address of kind NONE is reported once as stray; no answer clears the mark of a stray. After slot 30 the exchange ends
and DTX sends its BUSY transactions' SET again, in address order, each mark cleared (R71, R148; a full urgent queue is
silence at once: log 11). -/
def Obligations.PollSlotsFillTheServiceSet : Prop :=
  (∀ (s : State) (a : Nat),
    (∀ t, s.txnAt a = some t → t.retry = true →
      let cleared := s.modTxn a fun t => { t with retry := false }
      (s.slc.urgent.length < 64 →
        s.retrySet a =
          cleared.modSlc fun c =>
            { c with
              urgent := c.urgent ++ [{ address := a, command := .set t.entry t.action, txn := some t.id }] }) ∧
      (64 ≤ s.slc.urgent.length → s.retrySet a = (cleared.failTxn a t .silent).silentExchange a)) ∧
    ((∀ t, s.txnAt a = some t → t.retry = false) → s.retrySet a = s)) ∧
  ∀ (s : State) (x : Exchange) (k : Nat) (h : SlotHeard) (node : NodeKind) (r : AnswerRec), s.phase = .live →
    s.slc.exchange = some x → x.kind = .poll k → x.phase = .awaiting → nth1 s.slc.nodeTable k = some node →
    nth1 s.slc.answers k = some r →
    let answers := ∃ w : Word, h = .heard true false w ∧ w.toNat % 32 = k
    let ended (u : State) : State :=
      if k < 30 then u.modSlc fun c => { c with exchange := some { x with kind := .poll (k + 1) } }
      else
        (List.range' 1 29).foldl State.retrySet (u.modSlc fun c => { c with exchange := none })
    let stray (u : State) (b : Bool) : State :=
      u.modSlc fun c => { c with answers := mod1 c.answers k fun r => { r with stray := b } }
    (node ≠ .noKind → answers →
      exec (.pollSlotClose h) s =
        .next (ended (s.modSlc fun c => { c with service := mod1 c.service k fun _ => true }))) ∧
    (node ≠ .noKind → ¬answers → exec (.pollSlotClose h) s = .next (ended s)) ∧
    (node = .noKind → answers → r.stray = false →
      exec (.pollSlotClose h) s = .next (ended (stray (s.report (.strayNode k)) true))) ∧
    (node = .noKind → answers → r.stray = true → exec (.pollSlotClose h) s = .next (ended s)) ∧
    (node = .noKind → ¬answers → exec (.pollSlotClose h) s = .next (ended (stray s false)))

/-- A report joins the queue's tail with the line time while fewer than 64 are held. On a full queue an INFO report is
discarded, and an ALARM takes the oldest INFO entry's room, or is discarded with the overflow mark set where all are ALARM
(R168). LINE_STATE, CAUSE_RAISED, CLOSURE_DETAIL and RESET_DONE are ALARM, and CABIN_DIVERTED where it is ASTRAY; every
other report is INFO. -/
def Obligations.ReportsJoinByTheirClass : Prop :=
  (∀ r : Report,
    r.cls =
      match r with
      | .lineState _ _ _ => .alarm
      | .causeRaised _ => .alarm
      | .closureDetail _ _ _ _ _ _ _ _ => .alarm
      | .resetDone _ => .alarm
      | .cabinDiverted _ outcome _ _ _ _ => if outcome = .astray then .alarm else .info
      | _ => .info) ∧
  ∀ (s : State) (r : Report),
    let e : ReportEntry := { report := r, time := s.mgt.lineTime }
    (s.mgt.reports.length < 64 → s.report r = s.modMgt fun m => { m with reports := m.reports ++ [e] }) ∧
    (64 ≤ s.mgt.reports.length →
      (r.cls = .info → s.report r = s) ∧
      (r.cls = .alarm →
        (∀ before old after, s.mgt.reports = before ++ old :: after → old.report.cls = .info →
          (∀ y ∈ before, y.report.cls = .alarm) →
          s.report r = s.modMgt fun m => { m with reports := before ++ after ++ [e] }) ∧
        ((∀ y ∈ s.mgt.reports, y.report.cls = .alarm) →
          s.report r = s.modMgt fun m => { m with overflowMark := true })))

/-! ### The tower line (chapters 6 to 8) -/

/-- The interval timer's expiry sends a sweep: number, tower count and voice mark, the valley signal word, 80 uplink
samples in CONNECTED, empty slots and the check; it becomes outstanding, the deadline of 8 ms starts, number and sent
count step, the twentieth sweep in CLEARING ends the call, and the interval restarts at 500 ms in QUIET with the call
IDLE, else 10 ms (R99, R101, R130, R135, R136). The model's own choices: the expiry of an interval timer that does not run
leaves the state, log 3; a sweep sent over one outstanding takes its place, log 31. -/
def Obligations.IntervalExpirySendsASweep : Prop :=
  ∀ s : State, s.phase = .live →
    (s.swp.intervalTimer = none → exec .intervalExpiry s = .next s) ∧
    (s.swp.intervalTimer ≠ none →
      let connected := s.smt.call = .connected
      let samples := (s.smt.uplink ++ List.replicate 80 (128 : Byte)).take 80
      let safety :=
        if s.perm.causes.any (fun e => decide (e.response = .emergency)) then 3
        else if s.perm.line ≠ .running then 2
        else if s.perm.causes.any (fun e => decide (e.response = .slow)) then 1
        else 0
      let call := match s.smt.call with
        | .outgoing => 1
        | .connected => 2
        | .clearing => 3
        | _ => 0
      let run :=
        [s.swp.number, word (s.site.towerCount % 32 + if connected then 32768 else 0), word (safety + 16 * call)] ++
          (if connected then packVoice samples else []) ++ List.replicate (19 * s.site.towerCount) 0 ++
          List.replicate 42 0
      let counted := s.modSmt fun m =>
        { m with
          uplink := if connected then m.uplink.drop 80 else m.uplink
          clearingCount := if m.call = .clearing then m.clearingCount + 1 else m.clearingCount }
      let told :=
        if s.smt.call = .clearing ∧ s.smt.clearingCount = 19 then counted.endCall .endedValley .clearingLimit else counted
      exec .intervalExpiry s =
        .next
          (told.modSwp fun w =>
            { w with
              tlOut := run ++ [checkWord run]
              outstanding := some { number := w.number, sendTime := s.mgt.lineTime }
              deadlineTimer := some 8
              intervalTimer := some (if s.perm.line = .quiet ∧ told.smt.call = .idle then 500 else 10)
              number := w.number + 1
              sent := w.sent + 1 }))

/-- A returned frame that is cut short, has a bad check, another tower count or a wrong length counts as corrupt; an
intact one with no sweep outstanding or of another number as stale; else the sweep ends, the valid count steps and each
tower's slot, in order, and the summit's are handed on. The deadline's expiry ends an outstanding sweep as missed, with a
miss for every tower and for the summit (R102, R103, R104). The model's own choices: the summit's handover comes after the
towers', log 36; each tower's slot is judged, with its report, as it is handed on, log 40; before the site record is written, log 20; the expiry of a deadline that does not run, or with no sweep
outstanding, leaves the state, log 3. -/
def Obligations.SweepsEndByReturnOrDeadline : Prop :=
  ∀ (s : State) (n h : Word) (rest : List Word), s.phase = .live →
    let ws := n :: h :: rest
    let towers := h.toNat % 32
    let voice := h.getLsbD 15
    let intact :=
      sumWords ws = 65535 ∧ (∀ r, s.mgt.site = some r → towers = r.towerCount) ∧
        ws.length = 3 + (if voice then 40 else 0) + 19 * towers + 42 + 1
    (∀ short : List Word, short.length < 2 →
      exec (.sweepReturn short) s = .next (s.modSwp fun w => { w with corrupt := w.corrupt + 1 })) ∧
    (¬intact → exec (.sweepReturn ws) s = .next (s.modSwp fun w => { w with corrupt := w.corrupt + 1 })) ∧
    (intact → s.swp.outstanding.map Outstanding.number ≠ some n →
      exec (.sweepReturn ws) s = .next (s.modSwp fun w => { w with stale := w.stale + 1 })) ∧
    (intact → s.swp.outstanding.map Outstanding.number = some n →
      let ended := s.modSwp fun w => { w with deadlineTimer := none, outstanding := none, valid := w.valid + 1 }
      exec (.sweepReturn ws) s =
        .next
          (((List.range' 1 towers).foldl (fun u k => u.takeTowerSlot k n (towerSlotWords ws voice k)) ended).takeSummitSlot
            n (summitSlotWords ws voice towers))) ∧
    (s.swp.deadlineTimer ≠ none → s.swp.outstanding ≠ none →
      let ended := s.modSwp fun w => { w with deadlineTimer := none, outstanding := none, missed := w.missed + 1 }
      exec .returnDeadlineExpiry s =
        .next (((List.range' 1 s.site.towerCount).foldl State.towerMiss ended).summitMiss)) ∧
    (s.swp.deadlineTimer = none ∨ s.swp.outstanding = none → exec .returnDeadlineExpiry s = .next s)

/-- A tower's slot without its filled mark, with a bad check or another tower's number is a miss; another assembly count is
a miss reported once until a valid slot. A valid slot sets the miss count to 0, clears TOWER_SILENT, replaces the last
readings, and claims ROPE_OFF, ROPE_LIMIT and ROPE_WARN in this order from the supervised assemblies. A miss steps the
count to the limit, where TOWER_SILENT is raised on each (R105, R106, R115 to R119). -/
def Obligations.TowerSlotsAreJudged : Prop :=
  ∀ (s : State) (k : Nat) (n : BitVec 16) (w : Word) (rest : List Word) (t : TowerEntry) (v : TowerRuntime),
    s.towerAt k = some t → nth1 s.rsu.runtime k = some v →
      let good := w.getLsbD 15 = true ∧ sumWords (w :: rest) = 65535 ∧ w.toNat % 32 = k
      let count := w.toNat / 256 % 16
      let rs := parseReadings (rest.getD 16 0) t.assemblies 0 rest
      let set (u : State) (g : TowerRuntime → TowerRuntime) : State :=
        u.modRsu fun x => { x with runtime := mod1 x.runtime k g }
      let mark (u : State) (b : Bool) : State :=
        u.modSwp fun x => { x with mismatch := mod1 x.mismatch k fun _ => b }
      let inside (r : Reading) (win : Window) : Bool :=
        decide (win.posLow ≤ r.position.toInt ∧ r.position.toInt ≤ win.posHigh ∧ win.loadLow ≤ r.load.toNat ∧
          r.load.toNat ≤ win.loadHigh)
      let shows (test : Reading → Bool) : Bool := rs.zipIdx.any fun (r, i) => t.mask.getLsbD i && test r
      let claim (u : State) (kind : CauseKind) (shown held : Bool) (g : Bool → TowerRuntime → TowerRuntime) : State :=
        if shown then set (u.raise kind (.tower k)) (g true)
        else if held then set (u.clear kind (.tower k)) (g false)
        else u
      let miss :=
        if v.missCount < t.missLimit then
          let stepped := set s fun x => { x with missCount := x.missCount + 1 }
          if v.missCount + 1 = t.missLimit then
            set (stepped.raise .towerSilent (.tower k)) fun x => { x with silent := true }
          else stepped
        else s.raise .towerSilent (.tower k)
      (¬good → s.takeTowerSlot k n (w :: rest) = s.towerMiss k) ∧
      (good → count ≠ t.assemblies →
        s.takeTowerSlot k n (w :: rest) =
          (if nth1 s.swp.mismatch k = some true then s
            else mark (s.report (.towerMismatch k count t.assemblies n)) true).towerMiss k) ∧
      (good → count = t.assemblies →
        let fresh := set (mark s false) fun x => { x with missCount := 0 }
        let heard :=
          if v.silent then set (fresh.clear .towerSilent (.tower k)) fun x => { x with silent := false } else fresh
        let read := set heard fun x =>
          { x with last := some { sweep := n, time := s.mgt.lineTime, readings := rs } }
        let off := claim read .ropeOff (shows Reading.ropeOff) v.off fun b x => { x with off := b }
        let limit := claim off .ropeLimit (shows fun r => !inside r t.outer) v.limit fun b x => { x with limit := b }
        s.takeTowerSlot k n (w :: rest) =
          claim limit .ropeWarn (shows fun r => !inside r t.inner) v.warn fun b x => { x with warn := b }) ∧
      s.towerMiss k = miss

/-- The summit slot: a slot not filled, with a bad check or with contents out of range is a summit miss. A taken slot
clears SUMMIT_LOST, takes a more severe safety code at once and a less severe one, or another call code, from two
consecutive sweeps, shows the held safety code as its one cause, and feeds the downlink queue: 80 samples of its voice
field, or without one 80 concealed silence codes where the call was CONNECTED before the slot (that the slot which itself
connects the call conceals nothing: log 39). A call code taken moves the call: CALL rings in IDLE and connects OUTGOING, an
ANSWER connects OUTGOING, NONE and HANGUP end INCOMING as WITHDRAWN, CONNECTED as ENDED_SUMMIT and CLEARING as
ENDED_VALLEY; any other is kept as held alone (R107, R125 to R129, R132 to R135, R137). -/
def Obligations.SummitSlotsHoldTheirCodes : Prop :=
  ∀ (s : State) (n : BitVec 16) (slot : List Word),
    let good := (slot.headD 0).getLsbD 15 = true ∧ sumWords slot = 65535
    (¬good ∨ parseSummit slot = none → s.takeSummitSlot n slot = s.summitMiss) ∧
    (∀ c, good → parseSummit slot = some c →
      let back := s.modSmt fun m => { m with missCount := 0 }
      let found :=
        if s.smt.lostFlag then (back.clear .summitLost .summit).modSmt fun m => { m with lostFlag := false } else back
      let told := (found.judgeSafety c.safety n).judgeCall c.call n
      s.takeSummitSlot n slot =
        if told.smt.call = .connected then
          told.modSmt fun m =>
            { m with
              downlink :=
                (match c.voice with
                  | some samples => samples.map fun b => ({ sample := b, concealed := false } : DownEntry)
                  | none =>
                    if s.smt.call = CallState.connected then
                      List.replicate 80 ({ sample := 128, concealed := true } : DownEntry)
                    else []).foldl joinCapped m.downlink }
        else told) ∧
    (let begun := (s.setCall .incoming .summitCall).modSmt fun m =>
        { m with
          autoMark := false, hookMark := false, startTime := s.mgt.lineTime, clearingCount := 0, concealed := 0,
          ring := true }
     let connected (event : CallEvent) : State :=
        let c := s.setCall .connected event
        if s.smt.autoMark = true ∧ s.pins.hook = false then c.modSmt fun m => { m with ring := true } else c
     let ended (code : CallCode) (outcome : CallOutcome) : State :=
        s.endCall outcome (if code = .nothing then .summitNone else .summitHangup)
     ∀ code : CallCode,
      (s.smt.call = .idle → s.callCodeTaken code = if code = .call then begun else s) ∧
      (s.smt.call = .outgoing →
        s.callCodeTaken code =
          match code with
          | .call => connected .summitCall
          | .answer => connected .summitAnswer
          | _ => s) ∧
      (code = .call ∨ code = .answer → s.smt.call ≠ .idle → s.smt.call ≠ .outgoing → s.callCodeTaken code = s) ∧
      (code = .nothing ∨ code = .hangup →
        (s.smt.call = .incoming → s.callCodeTaken code = ended code .withdrawn) ∧
          (s.smt.call = .connected → s.callCodeTaken code = ended code .endedSummit) ∧
          (s.smt.call = .clearing → s.callCodeTaken code = ended code .endedValley))) ∧
    (∀ (queue : List DownEntry) (e : DownEntry),
      joinCapped queue e = if queue.length < 256 then queue ++ [e] else queue.drop 1 ++ [e]) ∧
    (∀ code : SafetyCode,
      let taken :=
        ((s.modSmt fun m => { m with held := code, releaseRun := none }).raiseCode code).clearCode s.smt.held
      (s.smt.held.code < code.code → s.judgeSafety code n = taken) ∧
      (code = s.smt.held →
        s.judgeSafety code n = (s.modSmt fun m => { m with releaseRun := none }).raiseCode code) ∧
      (code.code < s.smt.held.code →
        (s.smt.releaseRun = some (code, n - 1) → s.judgeSafety code n = taken) ∧
        (s.smt.releaseRun ≠ some (code, n - 1) →
          s.judgeSafety code n = (s.modSmt fun m => { m with releaseRun := some (code, n) }).raiseCode s.smt.held))) ∧
    (∀ code : CallCode,
      (code = s.smt.heldCall → s.judgeCall code n = s.modSmt fun m => { m with callRun := none }) ∧
      (code ≠ s.smt.heldCall → s.smt.callRun = some (code, n - 1) →
        s.judgeCall code n = (s.modSmt fun m => { m with heldCall := code, callRun := none }).callCodeTaken code) ∧
      (code ≠ s.smt.heldCall → s.smt.callRun ≠ some (code, n - 1) →
        s.judgeCall code n = s.modSmt fun m => { m with callRun := some (code, n) })) ∧
    (∀ code : SafetyCode,
      let claims (f : CauseKind → State) : State :=
        match code with
        | .clear => s
        | .slow => f .summitSlow
        | .stop => f .summitStop
        | .emergency => f .summitEmergency
      s.raiseCode code = claims (fun k => s.raise k .summit) ∧
        s.clearCode code = claims (fun k => s.clear k .summit)) ∧
    (let broken := s.modSmt fun m => { m with releaseRun := none, callRun := none }
      let limit := s.site.summitMissLimit
      let lost (u : State) : State := if s.smt.call = .idle then u else u.endCall .dropped .summitLost
      (s.smt.missCount + 1 < limit →
        let counted := broken.modSmt fun m => { m with missCount := m.missCount + 1 }
        s.summitMiss =
          if s.smt.call = .connected then
            counted.modSmt fun m =>
              { m with downlink := (List.replicate 80 { sample := 128, concealed := true }).foldl joinCapped m.downlink }
          else counted) ∧
      (s.smt.missCount + 1 = limit →
        s.summitMiss =
          lost
            (((broken.modSmt fun m => { m with missCount := m.missCount + 1 }).raise .summitLost .summit).modSmt fun m =>
              { m with lostFlag := true })) ∧
      (limit ≤ s.smt.missCount → s.summitMiss = lost (broken.raise .summitLost .summit)))

end
end

