-- ==== Sys2Proof/Laws/State.lean ====
section
/-! SUPPORT. What each change of one block does to each field of State: one lemma per field per update. -/

namespace Sys2Proof.Machine

@[simp] theorem State.modPerm_perm (s : State) (g : Perm → Perm) : (s.modPerm g).perm = g s.perm := rfl
@[simp] theorem State.modPerm_trav (s : State) (g : Perm → Perm) : (s.modPerm g).trav = s.trav := rfl
@[simp] theorem State.modPerm_trn (s : State) (g : Perm → Perm) : (s.modPerm g).trn = s.trn := rfl
@[simp] theorem State.modPerm_dtx (s : State) (g : Perm → Perm) : (s.modPerm g).dtx = s.dtx := rfl
@[simp] theorem State.modPerm_gsw (s : State) (g : Perm → Perm) : (s.modPerm g).gsw = s.gsw := rfl
@[simp] theorem State.modPerm_swp (s : State) (g : Perm → Perm) : (s.modPerm g).swp = s.swp := rfl
@[simp] theorem State.modPerm_rsu (s : State) (g : Perm → Perm) : (s.modPerm g).rsu = s.rsu := rfl
@[simp] theorem State.modPerm_smt (s : State) (g : Perm → Perm) : (s.modPerm g).smt = s.smt := rfl
@[simp] theorem State.modPerm_slc (s : State) (g : Perm → Perm) : (s.modPerm g).slc = s.slc := rfl
@[simp] theorem State.modPerm_mgt (s : State) (g : Perm → Perm) : (s.modPerm g).mgt = s.mgt := rfl
@[simp] theorem State.modPerm_pins (s : State) (g : Perm → Perm) : (s.modPerm g).pins = s.pins := rfl
@[simp] theorem State.modPerm_phase (s : State) (g : Perm → Perm) : (s.modPerm g).phase = s.phase := rfl
@[simp] theorem State.modPerm_pending (s : State) (g : Perm → Perm) : (s.modPerm g).pending = s.pending := rfl

@[simp] theorem State.modTrav_perm (s : State) (g : Trav → Trav) : (s.modTrav g).perm = s.perm := rfl
@[simp] theorem State.modTrav_trav (s : State) (g : Trav → Trav) : (s.modTrav g).trav = g s.trav := rfl
@[simp] theorem State.modTrav_trn (s : State) (g : Trav → Trav) : (s.modTrav g).trn = s.trn := rfl
@[simp] theorem State.modTrav_dtx (s : State) (g : Trav → Trav) : (s.modTrav g).dtx = s.dtx := rfl
@[simp] theorem State.modTrav_gsw (s : State) (g : Trav → Trav) : (s.modTrav g).gsw = s.gsw := rfl
@[simp] theorem State.modTrav_swp (s : State) (g : Trav → Trav) : (s.modTrav g).swp = s.swp := rfl
@[simp] theorem State.modTrav_rsu (s : State) (g : Trav → Trav) : (s.modTrav g).rsu = s.rsu := rfl
@[simp] theorem State.modTrav_smt (s : State) (g : Trav → Trav) : (s.modTrav g).smt = s.smt := rfl
@[simp] theorem State.modTrav_slc (s : State) (g : Trav → Trav) : (s.modTrav g).slc = s.slc := rfl
@[simp] theorem State.modTrav_mgt (s : State) (g : Trav → Trav) : (s.modTrav g).mgt = s.mgt := rfl
@[simp] theorem State.modTrav_pins (s : State) (g : Trav → Trav) : (s.modTrav g).pins = s.pins := rfl
@[simp] theorem State.modTrav_phase (s : State) (g : Trav → Trav) : (s.modTrav g).phase = s.phase := rfl
@[simp] theorem State.modTrav_pending (s : State) (g : Trav → Trav) : (s.modTrav g).pending = s.pending := rfl

@[simp] theorem State.modTrn_perm (s : State) (g : Trn → Trn) : (s.modTrn g).perm = s.perm := rfl
@[simp] theorem State.modTrn_trav (s : State) (g : Trn → Trn) : (s.modTrn g).trav = s.trav := rfl
@[simp] theorem State.modTrn_trn (s : State) (g : Trn → Trn) : (s.modTrn g).trn = g s.trn := rfl
@[simp] theorem State.modTrn_dtx (s : State) (g : Trn → Trn) : (s.modTrn g).dtx = s.dtx := rfl
@[simp] theorem State.modTrn_gsw (s : State) (g : Trn → Trn) : (s.modTrn g).gsw = s.gsw := rfl
@[simp] theorem State.modTrn_swp (s : State) (g : Trn → Trn) : (s.modTrn g).swp = s.swp := rfl
@[simp] theorem State.modTrn_rsu (s : State) (g : Trn → Trn) : (s.modTrn g).rsu = s.rsu := rfl
@[simp] theorem State.modTrn_smt (s : State) (g : Trn → Trn) : (s.modTrn g).smt = s.smt := rfl
@[simp] theorem State.modTrn_slc (s : State) (g : Trn → Trn) : (s.modTrn g).slc = s.slc := rfl
@[simp] theorem State.modTrn_mgt (s : State) (g : Trn → Trn) : (s.modTrn g).mgt = s.mgt := rfl
@[simp] theorem State.modTrn_pins (s : State) (g : Trn → Trn) : (s.modTrn g).pins = s.pins := rfl
@[simp] theorem State.modTrn_phase (s : State) (g : Trn → Trn) : (s.modTrn g).phase = s.phase := rfl
@[simp] theorem State.modTrn_pending (s : State) (g : Trn → Trn) : (s.modTrn g).pending = s.pending := rfl

@[simp] theorem State.modDtx_perm (s : State) (g : Dtx → Dtx) : (s.modDtx g).perm = s.perm := rfl
@[simp] theorem State.modDtx_trav (s : State) (g : Dtx → Dtx) : (s.modDtx g).trav = s.trav := rfl
@[simp] theorem State.modDtx_trn (s : State) (g : Dtx → Dtx) : (s.modDtx g).trn = s.trn := rfl
@[simp] theorem State.modDtx_dtx (s : State) (g : Dtx → Dtx) : (s.modDtx g).dtx = g s.dtx := rfl
@[simp] theorem State.modDtx_gsw (s : State) (g : Dtx → Dtx) : (s.modDtx g).gsw = s.gsw := rfl
@[simp] theorem State.modDtx_swp (s : State) (g : Dtx → Dtx) : (s.modDtx g).swp = s.swp := rfl
@[simp] theorem State.modDtx_rsu (s : State) (g : Dtx → Dtx) : (s.modDtx g).rsu = s.rsu := rfl
@[simp] theorem State.modDtx_smt (s : State) (g : Dtx → Dtx) : (s.modDtx g).smt = s.smt := rfl
@[simp] theorem State.modDtx_slc (s : State) (g : Dtx → Dtx) : (s.modDtx g).slc = s.slc := rfl
@[simp] theorem State.modDtx_mgt (s : State) (g : Dtx → Dtx) : (s.modDtx g).mgt = s.mgt := rfl
@[simp] theorem State.modDtx_pins (s : State) (g : Dtx → Dtx) : (s.modDtx g).pins = s.pins := rfl
@[simp] theorem State.modDtx_phase (s : State) (g : Dtx → Dtx) : (s.modDtx g).phase = s.phase := rfl
@[simp] theorem State.modDtx_pending (s : State) (g : Dtx → Dtx) : (s.modDtx g).pending = s.pending := rfl

@[simp] theorem State.modGsw_perm (s : State) (g : Gsw → Gsw) : (s.modGsw g).perm = s.perm := rfl
@[simp] theorem State.modGsw_trav (s : State) (g : Gsw → Gsw) : (s.modGsw g).trav = s.trav := rfl
@[simp] theorem State.modGsw_trn (s : State) (g : Gsw → Gsw) : (s.modGsw g).trn = s.trn := rfl
@[simp] theorem State.modGsw_dtx (s : State) (g : Gsw → Gsw) : (s.modGsw g).dtx = s.dtx := rfl
@[simp] theorem State.modGsw_gsw (s : State) (g : Gsw → Gsw) : (s.modGsw g).gsw = g s.gsw := rfl
@[simp] theorem State.modGsw_swp (s : State) (g : Gsw → Gsw) : (s.modGsw g).swp = s.swp := rfl
@[simp] theorem State.modGsw_rsu (s : State) (g : Gsw → Gsw) : (s.modGsw g).rsu = s.rsu := rfl
@[simp] theorem State.modGsw_smt (s : State) (g : Gsw → Gsw) : (s.modGsw g).smt = s.smt := rfl
@[simp] theorem State.modGsw_slc (s : State) (g : Gsw → Gsw) : (s.modGsw g).slc = s.slc := rfl
@[simp] theorem State.modGsw_mgt (s : State) (g : Gsw → Gsw) : (s.modGsw g).mgt = s.mgt := rfl
@[simp] theorem State.modGsw_pins (s : State) (g : Gsw → Gsw) : (s.modGsw g).pins = s.pins := rfl
@[simp] theorem State.modGsw_phase (s : State) (g : Gsw → Gsw) : (s.modGsw g).phase = s.phase := rfl
@[simp] theorem State.modGsw_pending (s : State) (g : Gsw → Gsw) : (s.modGsw g).pending = s.pending := rfl

@[simp] theorem State.modSwp_perm (s : State) (g : Swp → Swp) : (s.modSwp g).perm = s.perm := rfl
@[simp] theorem State.modSwp_trav (s : State) (g : Swp → Swp) : (s.modSwp g).trav = s.trav := rfl
@[simp] theorem State.modSwp_trn (s : State) (g : Swp → Swp) : (s.modSwp g).trn = s.trn := rfl
@[simp] theorem State.modSwp_dtx (s : State) (g : Swp → Swp) : (s.modSwp g).dtx = s.dtx := rfl
@[simp] theorem State.modSwp_gsw (s : State) (g : Swp → Swp) : (s.modSwp g).gsw = s.gsw := rfl
@[simp] theorem State.modSwp_swp (s : State) (g : Swp → Swp) : (s.modSwp g).swp = g s.swp := rfl
@[simp] theorem State.modSwp_rsu (s : State) (g : Swp → Swp) : (s.modSwp g).rsu = s.rsu := rfl
@[simp] theorem State.modSwp_smt (s : State) (g : Swp → Swp) : (s.modSwp g).smt = s.smt := rfl
@[simp] theorem State.modSwp_slc (s : State) (g : Swp → Swp) : (s.modSwp g).slc = s.slc := rfl
@[simp] theorem State.modSwp_mgt (s : State) (g : Swp → Swp) : (s.modSwp g).mgt = s.mgt := rfl
@[simp] theorem State.modSwp_pins (s : State) (g : Swp → Swp) : (s.modSwp g).pins = s.pins := rfl
@[simp] theorem State.modSwp_phase (s : State) (g : Swp → Swp) : (s.modSwp g).phase = s.phase := rfl
@[simp] theorem State.modSwp_pending (s : State) (g : Swp → Swp) : (s.modSwp g).pending = s.pending := rfl

@[simp] theorem State.modRsu_perm (s : State) (g : Rsu → Rsu) : (s.modRsu g).perm = s.perm := rfl
@[simp] theorem State.modRsu_trav (s : State) (g : Rsu → Rsu) : (s.modRsu g).trav = s.trav := rfl
@[simp] theorem State.modRsu_trn (s : State) (g : Rsu → Rsu) : (s.modRsu g).trn = s.trn := rfl
@[simp] theorem State.modRsu_dtx (s : State) (g : Rsu → Rsu) : (s.modRsu g).dtx = s.dtx := rfl
@[simp] theorem State.modRsu_gsw (s : State) (g : Rsu → Rsu) : (s.modRsu g).gsw = s.gsw := rfl
@[simp] theorem State.modRsu_swp (s : State) (g : Rsu → Rsu) : (s.modRsu g).swp = s.swp := rfl
@[simp] theorem State.modRsu_rsu (s : State) (g : Rsu → Rsu) : (s.modRsu g).rsu = g s.rsu := rfl
@[simp] theorem State.modRsu_smt (s : State) (g : Rsu → Rsu) : (s.modRsu g).smt = s.smt := rfl
@[simp] theorem State.modRsu_slc (s : State) (g : Rsu → Rsu) : (s.modRsu g).slc = s.slc := rfl
@[simp] theorem State.modRsu_mgt (s : State) (g : Rsu → Rsu) : (s.modRsu g).mgt = s.mgt := rfl
@[simp] theorem State.modRsu_pins (s : State) (g : Rsu → Rsu) : (s.modRsu g).pins = s.pins := rfl
@[simp] theorem State.modRsu_phase (s : State) (g : Rsu → Rsu) : (s.modRsu g).phase = s.phase := rfl
@[simp] theorem State.modRsu_pending (s : State) (g : Rsu → Rsu) : (s.modRsu g).pending = s.pending := rfl

@[simp] theorem State.modSmt_perm (s : State) (g : Smt → Smt) : (s.modSmt g).perm = s.perm := rfl
@[simp] theorem State.modSmt_trav (s : State) (g : Smt → Smt) : (s.modSmt g).trav = s.trav := rfl
@[simp] theorem State.modSmt_trn (s : State) (g : Smt → Smt) : (s.modSmt g).trn = s.trn := rfl
@[simp] theorem State.modSmt_dtx (s : State) (g : Smt → Smt) : (s.modSmt g).dtx = s.dtx := rfl
@[simp] theorem State.modSmt_gsw (s : State) (g : Smt → Smt) : (s.modSmt g).gsw = s.gsw := rfl
@[simp] theorem State.modSmt_swp (s : State) (g : Smt → Smt) : (s.modSmt g).swp = s.swp := rfl
@[simp] theorem State.modSmt_rsu (s : State) (g : Smt → Smt) : (s.modSmt g).rsu = s.rsu := rfl
@[simp] theorem State.modSmt_smt (s : State) (g : Smt → Smt) : (s.modSmt g).smt = g s.smt := rfl
@[simp] theorem State.modSmt_slc (s : State) (g : Smt → Smt) : (s.modSmt g).slc = s.slc := rfl
@[simp] theorem State.modSmt_mgt (s : State) (g : Smt → Smt) : (s.modSmt g).mgt = s.mgt := rfl
@[simp] theorem State.modSmt_pins (s : State) (g : Smt → Smt) : (s.modSmt g).pins = s.pins := rfl
@[simp] theorem State.modSmt_phase (s : State) (g : Smt → Smt) : (s.modSmt g).phase = s.phase := rfl
@[simp] theorem State.modSmt_pending (s : State) (g : Smt → Smt) : (s.modSmt g).pending = s.pending := rfl

@[simp] theorem State.modSlc_perm (s : State) (g : Slc → Slc) : (s.modSlc g).perm = s.perm := rfl
@[simp] theorem State.modSlc_trav (s : State) (g : Slc → Slc) : (s.modSlc g).trav = s.trav := rfl
@[simp] theorem State.modSlc_trn (s : State) (g : Slc → Slc) : (s.modSlc g).trn = s.trn := rfl
@[simp] theorem State.modSlc_dtx (s : State) (g : Slc → Slc) : (s.modSlc g).dtx = s.dtx := rfl
@[simp] theorem State.modSlc_gsw (s : State) (g : Slc → Slc) : (s.modSlc g).gsw = s.gsw := rfl
@[simp] theorem State.modSlc_swp (s : State) (g : Slc → Slc) : (s.modSlc g).swp = s.swp := rfl
@[simp] theorem State.modSlc_rsu (s : State) (g : Slc → Slc) : (s.modSlc g).rsu = s.rsu := rfl
@[simp] theorem State.modSlc_smt (s : State) (g : Slc → Slc) : (s.modSlc g).smt = s.smt := rfl
@[simp] theorem State.modSlc_slc (s : State) (g : Slc → Slc) : (s.modSlc g).slc = g s.slc := rfl
@[simp] theorem State.modSlc_mgt (s : State) (g : Slc → Slc) : (s.modSlc g).mgt = s.mgt := rfl
@[simp] theorem State.modSlc_pins (s : State) (g : Slc → Slc) : (s.modSlc g).pins = s.pins := rfl
@[simp] theorem State.modSlc_phase (s : State) (g : Slc → Slc) : (s.modSlc g).phase = s.phase := rfl
@[simp] theorem State.modSlc_pending (s : State) (g : Slc → Slc) : (s.modSlc g).pending = s.pending := rfl

@[simp] theorem State.modMgt_perm (s : State) (g : Mgt → Mgt) : (s.modMgt g).perm = s.perm := rfl
@[simp] theorem State.modMgt_trav (s : State) (g : Mgt → Mgt) : (s.modMgt g).trav = s.trav := rfl
@[simp] theorem State.modMgt_trn (s : State) (g : Mgt → Mgt) : (s.modMgt g).trn = s.trn := rfl
@[simp] theorem State.modMgt_dtx (s : State) (g : Mgt → Mgt) : (s.modMgt g).dtx = s.dtx := rfl
@[simp] theorem State.modMgt_gsw (s : State) (g : Mgt → Mgt) : (s.modMgt g).gsw = s.gsw := rfl
@[simp] theorem State.modMgt_swp (s : State) (g : Mgt → Mgt) : (s.modMgt g).swp = s.swp := rfl
@[simp] theorem State.modMgt_rsu (s : State) (g : Mgt → Mgt) : (s.modMgt g).rsu = s.rsu := rfl
@[simp] theorem State.modMgt_smt (s : State) (g : Mgt → Mgt) : (s.modMgt g).smt = s.smt := rfl
@[simp] theorem State.modMgt_slc (s : State) (g : Mgt → Mgt) : (s.modMgt g).slc = s.slc := rfl
@[simp] theorem State.modMgt_mgt (s : State) (g : Mgt → Mgt) : (s.modMgt g).mgt = g s.mgt := rfl
@[simp] theorem State.modMgt_pins (s : State) (g : Mgt → Mgt) : (s.modMgt g).pins = s.pins := rfl
@[simp] theorem State.modMgt_phase (s : State) (g : Mgt → Mgt) : (s.modMgt g).phase = s.phase := rfl
@[simp] theorem State.modMgt_pending (s : State) (g : Mgt → Mgt) : (s.modMgt g).pending = s.pending := rfl

@[simp] theorem State.setPins_perm (s : State) (x : InputLevels) : (s.setPins x).perm = s.perm := rfl
@[simp] theorem State.setPins_trav (s : State) (x : InputLevels) : (s.setPins x).trav = s.trav := rfl
@[simp] theorem State.setPins_trn (s : State) (x : InputLevels) : (s.setPins x).trn = s.trn := rfl
@[simp] theorem State.setPins_dtx (s : State) (x : InputLevels) : (s.setPins x).dtx = s.dtx := rfl
@[simp] theorem State.setPins_gsw (s : State) (x : InputLevels) : (s.setPins x).gsw = s.gsw := rfl
@[simp] theorem State.setPins_swp (s : State) (x : InputLevels) : (s.setPins x).swp = s.swp := rfl
@[simp] theorem State.setPins_rsu (s : State) (x : InputLevels) : (s.setPins x).rsu = s.rsu := rfl
@[simp] theorem State.setPins_smt (s : State) (x : InputLevels) : (s.setPins x).smt = s.smt := rfl
@[simp] theorem State.setPins_slc (s : State) (x : InputLevels) : (s.setPins x).slc = s.slc := rfl
@[simp] theorem State.setPins_mgt (s : State) (x : InputLevels) : (s.setPins x).mgt = s.mgt := rfl
@[simp] theorem State.setPins_pins (s : State) (x : InputLevels) : (s.setPins x).pins = x := rfl
@[simp] theorem State.setPins_phase (s : State) (x : InputLevels) : (s.setPins x).phase = s.phase := rfl
@[simp] theorem State.setPins_pending (s : State) (x : InputLevels) : (s.setPins x).pending = s.pending := rfl

@[simp] theorem State.setPhase_perm (s : State) (x : ResetPhase) : (s.setPhase x).perm = s.perm := rfl
@[simp] theorem State.setPhase_trav (s : State) (x : ResetPhase) : (s.setPhase x).trav = s.trav := rfl
@[simp] theorem State.setPhase_trn (s : State) (x : ResetPhase) : (s.setPhase x).trn = s.trn := rfl
@[simp] theorem State.setPhase_dtx (s : State) (x : ResetPhase) : (s.setPhase x).dtx = s.dtx := rfl
@[simp] theorem State.setPhase_gsw (s : State) (x : ResetPhase) : (s.setPhase x).gsw = s.gsw := rfl
@[simp] theorem State.setPhase_swp (s : State) (x : ResetPhase) : (s.setPhase x).swp = s.swp := rfl
@[simp] theorem State.setPhase_rsu (s : State) (x : ResetPhase) : (s.setPhase x).rsu = s.rsu := rfl
@[simp] theorem State.setPhase_smt (s : State) (x : ResetPhase) : (s.setPhase x).smt = s.smt := rfl
@[simp] theorem State.setPhase_slc (s : State) (x : ResetPhase) : (s.setPhase x).slc = s.slc := rfl
@[simp] theorem State.setPhase_mgt (s : State) (x : ResetPhase) : (s.setPhase x).mgt = s.mgt := rfl
@[simp] theorem State.setPhase_pins (s : State) (x : ResetPhase) : (s.setPhase x).pins = s.pins := rfl
@[simp] theorem State.setPhase_phase (s : State) (x : ResetPhase) : (s.setPhase x).phase = x := rfl
@[simp] theorem State.setPhase_pending (s : State) (x : ResetPhase) : (s.setPhase x).pending = s.pending := rfl

@[simp] theorem State.setPending_perm (s : State) (x : List Instr) : (s.setPending x).perm = s.perm := rfl
@[simp] theorem State.setPending_trav (s : State) (x : List Instr) : (s.setPending x).trav = s.trav := rfl
@[simp] theorem State.setPending_trn (s : State) (x : List Instr) : (s.setPending x).trn = s.trn := rfl
@[simp] theorem State.setPending_dtx (s : State) (x : List Instr) : (s.setPending x).dtx = s.dtx := rfl
@[simp] theorem State.setPending_gsw (s : State) (x : List Instr) : (s.setPending x).gsw = s.gsw := rfl
@[simp] theorem State.setPending_swp (s : State) (x : List Instr) : (s.setPending x).swp = s.swp := rfl
@[simp] theorem State.setPending_rsu (s : State) (x : List Instr) : (s.setPending x).rsu = s.rsu := rfl
@[simp] theorem State.setPending_smt (s : State) (x : List Instr) : (s.setPending x).smt = s.smt := rfl
@[simp] theorem State.setPending_slc (s : State) (x : List Instr) : (s.setPending x).slc = s.slc := rfl
@[simp] theorem State.setPending_mgt (s : State) (x : List Instr) : (s.setPending x).mgt = s.mgt := rfl
@[simp] theorem State.setPending_pins (s : State) (x : List Instr) : (s.setPending x).pins = s.pins := rfl
@[simp] theorem State.setPending_phase (s : State) (x : List Instr) : (s.setPending x).phase = s.phase := rfl
@[simp] theorem State.setPending_pending (s : State) (x : List Instr) : (s.setPending x).pending = x := rfl

end Sys2Proof.Machine
end

