-- ==== Sys2Proof/Laws/Perm.lean ====
section
/-! SUPPORT. PERM: what replacing, adding and removing an entry does to the cause set's order, and to the drive lines. -/

namespace Sys2Proof.Machine

/-! ### The drive lines -/

@[simp] theorem Perm.drive_line (p : Perm) : p.drive.line = p.line := rfl
@[simp] theorem Perm.drive_causes (p : Perm) : p.drive.causes = p.causes := rfl
@[simp] theorem Perm.drive_causeTable (p : Perm) : p.drive.causeTable = p.causeTable := rfl
@[simp] theorem Perm.drive_stopTimer (p : Perm) : p.drive.stopTimer = p.stopTimer := rfl
@[simp] theorem Perm.drive_silenceTimer (p : Perm) : p.drive.silenceTimer = p.silenceTimer := rfl
@[simp] theorem Perm.drive_drive (p : Perm) : p.drive.drive = p.drive := rfl

theorem CausesOk.of_eq {p p' : Perm} (h : CausesOk p) (hc : p'.causes = p.causes)
    (ht : p'.causeTable = p.causeTable) : CausesOk p' := by
  obtain ⟨a, b, c, d, e, f, g⟩ := h
  refine ⟨?_, ?_, ?_, ?_, ?_, ?_, ?_⟩ <;> simp_all [Perm.others]

/-- The drive lines follow. -/
def Perm.LinesOk (p : Perm) : Prop :=
  p.runp = decide (p.line = .running) ∧
  p.slowq = (decide (p.line = .running ∨ p.line = .stopping) && p.holdsResponse .slow) ∧
  p.estop = (decide (p.line = .setup) || p.holdsResponse .emergency)

theorem Perm.linesOk_iff (p : Perm) : p.drive = p ↔ p.LinesOk := by
  cases p
  simp only [Perm.drive, Perm.mk.injEq, Perm.LinesOk]
  grind

/-- The lines follow wherever line state and responses held agree with a state whose lines follow. -/
theorem Perm.lines_of_eq {p p' : Perm} (h : p.drive = p) (hl : p'.line = p.line)
    (hs : p'.holdsResponse .slow = p.holdsResponse .slow)
    (he : p'.holdsResponse .emergency = p.holdsResponse .emergency)
    (a : p'.runp = p.runp) (b : p'.slowq = p.slowq) (c : p'.estop = p.estop) : p'.drive = p' := by
  rw [Perm.linesOk_iff] at h ⊢
  obtain ⟨h1, h2, h3⟩ := h
  refine ⟨?_, ?_, ?_⟩ <;> simp_all

/-- Timers do not enter PERM's order. -/
theorem PermOk.setTimers {p : Perm} (h : PermOk p) (a b : Option Nat) :
    PermOk { p with stopTimer := a, silenceTimer := b } :=
  ⟨h.set.of_eq rfl rfl, Perm.lines_of_eq h.lines rfl rfl rfl rfl rfl rfl, h.calm⟩

/-! ### Finding an entry -/

theorem CauseEntry.names_iff (e : CauseEntry) (k : CauseKind) (subject : Subject) :
    e.names k subject = true ↔ e.kind = k ∧ e.subject = subject := by
  simp [CauseEntry.names]

theorem Perm.find_some {p : Perm} {k : CauseKind} {subject : Subject} {e : CauseEntry}
    (h : p.find k subject = some e) : e ∈ p.causes ∧ e.kind = k ∧ e.subject = subject := by
  have h' : p.causes.find? (fun e : CauseEntry => e.names k subject) = some e := h
  exact ⟨List.mem_of_find?_eq_some h', (e.names_iff k subject).1 (List.find?_some (p := fun e : CauseEntry => e.names k subject) h')⟩

theorem Perm.find_none {p : Perm} {k : CauseKind} {subject : Subject} (h : p.find k subject = none) :
    ∀ e ∈ p.causes, ¬(e.kind = k ∧ e.subject = subject) := by
  intro e he hk
  exact List.find?_eq_none.1 h e he ((e.names_iff k subject).2 hk)

/-- Two entries of an ordered set with one kind and subject are one. -/
theorem CausesOk.same {p : Perm} (h : CausesOk p) {a b : CauseEntry} (ha : a ∈ p.causes) (hb : b ∈ p.causes)
    (hk : a.kind = b.kind) (hs : a.subject = b.subject) : a = b :=
  List.inj_on_of_nodup_map h.keys ha hb (by simp [hk, hs])

/-! ### Replacing an entry -/

theorem Perm.mem_replace {p : Perm} {k : CauseKind} {subject : Subject} {new x : CauseEntry}
    (h : x ∈ (p.replace k subject new).causes) : x = new ∨ x ∈ p.causes := by
  simp only [Perm.replace, List.mem_map] at h
  obtain ⟨y, hy, rfl⟩ := h
  split <;> simp_all

/-- An entry is replaced by one of the same kind, subject, response and latch mode. -/
theorem CausesOk.replace {p : Perm} (h : CausesOk p) {e new : CauseEntry} (he : e ∈ p.causes)
    (hk : new.kind = e.kind) (hs : new.subject = e.subject) (hr : new.response = e.response)
    (hl : new.latch = e.latch) (hc : 1 ≤ new.raiseCount ∧ new.raiseCount ≤ 255)
    (ha : new.latch = .self → new.state = .active) : CausesOk (p.replace e.kind e.subject new) := by
  have key : ∀ x : CauseEntry, (fun e : CauseEntry => (e.kind, e.subject))
      (if x.names e.kind e.subject then new else x) = (x.kind, x.subject) := by
    intro x
    by_cases hx : x.names e.kind e.subject = true
    · have := (x.names_iff _ _).1 hx
      simp [hx, hk, hs, this.1, this.2]
    · simp [hx]
  refine ⟨?_, ?_, ?_, ?_, ?_, ?_, h.table⟩
  · simp only [Perm.replace, List.map_map]
    have : ((fun e : CauseEntry => (e.kind, e.subject)) ∘ fun x => if x.names e.kind e.subject = true then new else x) =
        fun x => (x.kind, x.subject) := funext key
    rw [this]; exact h.keys
  · intro x hx
    rcases Perm.mem_replace hx with rfl | hx
    · rw [hs, hk]; exact h.typed e he
    · exact h.typed x hx
  · have : (p.replace e.kind e.subject new).others = p.others := by
      simp only [Perm.others, Perm.replace, List.filter_map, List.length_map]
      congr 1
      apply List.filter_congr
      intro x _
      have := congrArg Prod.fst (key x)
      simp only at this
      simp [this]
    rw [this]; exact h.room
  · intro x hx
    rcases Perm.mem_replace hx with rfl | hx
    · exact hc
    · exact h.counts x hx
  · intro x hx
    rcases Perm.mem_replace hx with rfl | hx
    · exact ha
    · exact h.selfActive x hx
  · intro x hx
    rcases Perm.mem_replace hx with rfl | hx
    · rw [hr, hl, hk]; exact h.bounds e he
    · exact h.bounds x hx

/-- A test of the response finds the same after such a replacement. -/
theorem CausesOk.replace_any {p : Perm} (h : CausesOk p) {e new : CauseEntry} (he : e ∈ p.causes)
    (hr : new.response = e.response) (t : Response → Bool) :
    (p.replace e.kind e.subject new).causes.any (fun x => t x.response) = p.causes.any fun x => t x.response := by
  simp only [Perm.replace, List.any_map]
  rw [Bool.eq_iff_iff, List.any_eq_true, List.any_eq_true]
  have swap : ∀ x ∈ p.causes, (if x.names e.kind e.subject = true then new else x).response = x.response := by
    intro x hx
    split
    · next hn =>
      have := (x.names_iff _ _).1 hn
      rw [hr, h.same hx he this.1 this.2]
    · rfl
  constructor
  · rintro ⟨x, hx, ht⟩
    exact ⟨x, hx, by simpa [swap x hx] using ht⟩
  · rintro ⟨x, hx, ht⟩
    exact ⟨x, hx, by simpa [swap x hx] using ht⟩

theorem PermOk.replace {p : Perm} (h : PermOk p) {e new : CauseEntry} (he : e ∈ p.causes)
    (hk : new.kind = e.kind) (hs : new.subject = e.subject) (hr : new.response = e.response)
    (hl : new.latch = e.latch) (hc : 1 ≤ new.raiseCount ∧ new.raiseCount ≤ 255)
    (ha : new.latch = .self → new.state = .active) : PermOk (p.replace e.kind e.subject new) := by
  refine ⟨h.set.replace he hk hs hr hl hc ha, ?_, ?_⟩
  · refine Perm.lines_of_eq h.lines rfl ?_ ?_ rfl rfl rfl
    · exact h.set.replace_any he hr fun r => decide (r = .slow)
    · exact h.set.replace_any he hr fun r => decide (r = .emergency)
  · intro hl
    have := h.calm hl
    unfold Perm.stopping at this ⊢
    rw [h.set.replace_any he hr Response.stops]
    exact this

/-! ### Adding and removing an entry -/

/-- A new entry joins a set that holds none of its kind and subject and has room. -/
theorem CausesOk.add {p : Perm} (h : CausesOk p) {k : CauseKind} {subject : Subject} (time : BitVec 32)
    (hn : p.find k subject = none) (ht : subject.type = k.subjectType)
    (hr : k = .causeOverflow ∨ p.others < 47) :
    CausesOk { p with causes := p.causes ++ [p.newEntry k subject time] } := by
  have hnone := Perm.find_none hn
  refine ⟨?_, ?_, ?_, ?_, ?_, ?_, h.table⟩
  · simp only [List.map_append, List.map_cons, List.map_nil, Perm.newEntry]
    rw [List.nodup_append]
    refine ⟨h.keys, by simp, ?_⟩
    simp only [List.mem_map, List.mem_singleton]
    rintro _ ⟨e, he, rfl⟩ _ rfl heq
    simp only [Prod.mk.injEq] at heq
    exact hnone e he heq
  · intro x hx
    rcases List.mem_append.1 hx with hx | hx
    · exact h.typed x hx
    · rw [List.mem_singleton.1 hx]; exact ht
  · simp only [Perm.others, List.filter_append, List.length_append]
    have hroom := h.room
    simp only [Perm.others] at hroom hr
    rcases hr with rfl | hr
    · simpa [Perm.newEntry] using hroom
    · refine Nat.le_trans (Nat.add_le_add_left (List.length_filter_le _ _) _) ?_
      simp only [List.length_singleton]; omega
  · intro x hx
    rcases List.mem_append.1 hx with hx | hx
    · exact h.counts x hx
    · rw [List.mem_singleton.1 hx]; simp [Perm.newEntry]
  · intro x hx
    rcases List.mem_append.1 hx with hx | hx
    · exact h.selfActive x hx
    · rw [List.mem_singleton.1 hx]; intro _; rfl
  · intro x hx
    rcases List.mem_append.1 hx with hx | hx
    · exact h.bounds x hx
    · rw [List.mem_singleton.1 hx]; exact h.table k

/-- Entries leave the set. -/
theorem CausesOk.filter {p : Perm} (h : CausesOk p) (keep : CauseEntry → Bool) :
    CausesOk { p with causes := p.causes.filter keep } := by
  have sub : ∀ x, x ∈ p.causes.filter keep → x ∈ p.causes := fun x hx => (List.mem_filter.1 hx).1
  refine ⟨?_, fun x hx => h.typed x (sub x hx), ?_, fun x hx => h.counts x (sub x hx),
    fun x hx => h.selfActive x (sub x hx), fun x hx => h.bounds x (sub x hx), h.table⟩
  · exact h.keys.sublist (List.Sublist.map _ List.filter_sublist)
  · refine Nat.le_trans ?_ h.room
    exact (List.Sublist.filter _ List.filter_sublist).length_le

theorem PermOk.removed {p : Perm} (h : PermOk p) (keep : CauseEntry → Bool) :
    PermOk ({ p with causes := p.causes.filter keep } : Perm).drive := by
  refine ⟨(h.set.filter keep).of_eq rfl rfl, rfl, ?_⟩
  intro hl
  have := h.calm hl
  simp only [Perm.stopping, Perm.drive, List.any_eq_false] at this ⊢
  exact fun x hx => this x (List.mem_filter.1 hx).1

/-- A line state set with its drive lines keeps the order where it allows the entries held. -/
theorem CausesOk.setLine {p : Perm} (h : CausesOk p) (new : LineState)
    (hc : new = .running ∨ new = .quiet → p.stopping = false) : PermOk ({ p with line := new } : Perm).drive :=
  ⟨h.of_eq rfl rfl, rfl, hc⟩

end Sys2Proof.Machine
end

