-- ==== Sys2Proof/Laws/Keep.lean ====
section
/-! SUPPORT. Keep: what an event of the blocks leaves in order. One lemma for each shared operation, cited by all others. -/

namespace Sys2Proof.Machine

/-- From s to t the queue and the reset phase stand, the line moves to HELD or STOPPING at most, and PERM, MGT, SMT, SLC,
TRN and the schedule stay in order. -/
structure Calm (s t : State) : Prop where
  pending : t.pending = s.pending
  phase : t.phase = s.phase
  line : t.perm.line = s.perm.line ∨ t.perm.line = .held ∨ t.perm.line = .stopping
  perm : PermOk s.perm → PermOk t.perm
  reports : ReportsOk s.mgt → ReportsOk t.mgt
  voice : VoiceOk s.smt → VoiceOk t.smt
  urgent : UrgentOk s.slc → UrgentOk t.slc
  table : TableOk s.slc → TableOk t.slc
  park : ParkOk s → ParkOk t
  setup : SetupOk s → SetupOk t
  train : TrainOk s → TrainOk t

/-- From s to t the lists of DTX and GSW, the miss counts and the path stay in order. -/
structure Lists (s t : State) : Prop where
  dtx : TrainOk s → DtxOk s → DtxOk t
  gsw : TrainOk s → GswOk s → GswOk t
  rsu : TrainOk s → RsuOk s.rsu → RsuOk t.rsu
  path : TrainOk s → PathOk s.trav → PathOk t.trav

/-- From s to t the queue and the reset phase stand, the line moves to HELD or STOPPING at most, and each invariant that
held still holds. -/
structure Keep (s t : State) : Prop extends Calm s t, Lists s t

/-- From s to t the lists of DTX and GSW, RSU and the path are the same, and no record has left the train. -/
structure Same (s t : State) : Prop where
  dtx : t.dtx = s.dtx
  gsw : t.gsw = s.gsw
  rsu : t.rsu = s.rsu
  path : t.trav.path = s.trav.path
  entries : ∀ e ∈ s.trn.train.map CabinRecord.entry, e ∈ t.trn.train.map CabinRecord.entry

theorem Same.node {s t : State} (h : Same s t) (a : Nat) : t.node a = s.node a := by
  unfold State.node; rw [h.dtx]

/-- Of a change that leaves the four blocks and the train as they are. -/
theorem Same.ofEq {s t : State} (hd : t.dtx = s.dtx) (hg : t.gsw = s.gsw) (hr : t.rsu = s.rsu)
    (hp : t.trav.path = s.trav.path) (ht : t.trn.train = s.trn.train) : Same s t :=
  ⟨hd, hg, hr, hp, by rw [ht]; exact fun _ h => h⟩

theorem Same.rfl {s : State} : Same s s := Same.ofEq (Eq.refl _) (Eq.refl _) (Eq.refl _) (Eq.refl _) (Eq.refl _)

theorem Same.trans {s t u : State} (a : Same s t) (b : Same t u) : Same s u :=
  ⟨by rw [b.dtx, a.dtx], by rw [b.gsw, a.gsw], by rw [b.rsu, a.rsu], by rw [b.path, a.path],
    fun e h => b.entries e (a.entries e h)⟩

theorem Same.lists {s t : State} (h : Same s t) : Lists s t where
  dtx := fun _ k =>
    ⟨fun a n hn => k.nodes a n (by rw [← h.node]; exact hn), fun a n hn => k.once a n (by rw [← h.node]; exact hn),
      fun a b m n e hm hn => k.apart a b m n e (by rw [← h.node]; exact hm) (by rw [← h.node]; exact hn),
      fun a n hn w hw => h.entries _ (k.held a n (by rw [← h.node]; exact hn) w hw)⟩
  gsw := fun _ k => ⟨by rw [h.gsw]; exact k.expectations, by rw [h.gsw]; exact fun e he => h.entries e (k.expected e he),
    by rw [h.gsw]; exact k.claims, by rw [h.gsw]; exact fun c hc => h.entries _ (k.claimed c hc)⟩
  rsu := fun _ => by rw [h.rsu]; exact id
  path := fun _ => by unfold PathOk; rw [h.path]; exact id

/-- Of a change that leaves the four blocks and the train as they are. -/
theorem Lists.ofEq {s t : State} (hd : t.dtx = s.dtx) (hg : t.gsw = s.gsw) (hr : t.rsu = s.rsu)
    (hp : t.trav.path = s.trav.path) (ht : t.trn.train = s.trn.train) : Lists s t :=
  (Same.ofEq hd hg hr hp ht).lists

theorem Calm.rfl {s : State} : Calm s s :=
  ⟨by simp, by simp, by simp, id, id, id, id, id, id, id, id⟩

theorem Calm.trans {s t u : State} (a : Calm s t) (b : Calm t u) : Calm s u := by
  refine ⟨by rw [b.pending, a.pending], by rw [b.phase, a.phase], ?_, fun h => b.perm (a.perm h),
    fun h => b.reports (a.reports h), fun h => b.voice (a.voice h), fun h => b.urgent (a.urgent h),
    fun h => b.table (a.table h), fun h => b.park (a.park h), fun h => b.setup (a.setup h), fun h => b.train (a.train h)⟩
  rcases b.line with h | h | h
  · rw [h]; exact a.line
  · exact Or.inr (Or.inl h)
  · exact Or.inr (Or.inr h)

/-- The line never enters SETUP, QUIET or RUNNING. -/
theorem Calm.notSetup {s t : State} (a : Calm s t) (h : s.perm.line ≠ .setup) : t.perm.line ≠ .setup := by
  rcases a.line with e | e | e <;> simp_all

theorem Calm.notQuiet {s t : State} (a : Calm s t) (h : s.perm.line ≠ .quiet) : t.perm.line ≠ .quiet := by
  rcases a.line with e | e | e <;> simp_all

theorem Keep.rfl {s : State} : Keep s s := ⟨Calm.rfl, Same.rfl.lists⟩

theorem Keep.trans {s t u : State} (a : Keep s t) (b : Keep t u) : Keep s u :=
  ⟨a.toCalm.trans b.toCalm, ⟨fun ht h => b.dtx (a.train ht) (a.dtx ht h), fun ht h => b.gsw (a.train ht) (a.gsw ht h),
    fun ht h => b.rsu (a.train ht) (a.rsu ht h), fun ht h => b.path (a.train ht) (a.path ht h)⟩⟩

/-- A change that leaves the line, the train, the schedule, the call and its queues, SWP's timers, the urgent queue and
the node table. -/
theorem Calm.ofPerm {s t : State} (hp : t.pending = s.pending) (hph : t.phase = s.phase)
    (hl : t.perm.line = s.perm.line ∨ t.perm.line = .held ∨ t.perm.line = .stopping)
    (ho : PermOk s.perm → PermOk t.perm) (hr : ReportsOk s.mgt → ReportsOk t.mgt)
    (hs : t.slc.urgent = s.slc.urgent ∧ t.slc.nodeTable = s.slc.nodeTable) (ht : t.trn.train = s.trn.train)
    (hv : t.trav.schedule = s.trav.schedule)
    (hw : t.swp.outstanding = s.swp.outstanding ∧ t.swp.intervalTimer = s.swp.intervalTimer)
    (hm : t.smt.call = s.smt.call ∧ t.smt.uplink = s.smt.uplink ∧ t.smt.downlink = s.smt.downlink ∧
      t.smt.playback = s.smt.playback ∧ t.smt.vso = s.smt.vso) : Calm s t := by
  refine ⟨hp, hph, hl, ho, hr, ?_, ?_, ?_, ?_, ?_, ?_⟩
  · intro h
    obtain ⟨a, b, c⟩ := h
    obtain ⟨m1, m2, m3, m4, m5⟩ := hm
    exact ⟨by rw [m2]; exact a, by rw [m3]; exact b, by rw [m1, m2, m3, m4, m5]; exact c⟩
  · intro h; unfold UrgentOk at *; rw [hs.1]; exact h
  · intro h; unfold TableOk at *; rw [hs.2]; exact h
  · intro h hq
    rw [ht, hm.1]
    exact h (by rcases hl with e | e | e <;> simp_all)
  · intro h hq
    rw [hw.1, hw.2, hm.1]
    exact h (by rcases hl with e | e | e <;> simp_all)
  · intro h
    obtain ⟨a, b, c, d⟩ := h
    exact ⟨by rw [ht]; exact a, by rw [ht]; exact b, by rw [ht]; exact c, by rw [hv, ht]; exact d⟩

/-- A change as `Calm.ofPerm` has it that leaves the lists of DTX and GSW, RSU and the path too. -/
theorem Keep.ofPerm {s t : State} (hp : t.pending = s.pending) (hph : t.phase = s.phase)
    (hl : t.perm.line = s.perm.line ∨ t.perm.line = .held ∨ t.perm.line = .stopping)
    (ho : PermOk s.perm → PermOk t.perm) (hr : ReportsOk s.mgt → ReportsOk t.mgt)
    (hs : t.slc.urgent = s.slc.urgent ∧ t.slc.nodeTable = s.slc.nodeTable) (ht : t.trn.train = s.trn.train)
    (hv : t.trav.schedule = s.trav.schedule)
    (hw : t.swp.outstanding = s.swp.outstanding ∧ t.swp.intervalTimer = s.swp.intervalTimer)
    (hm : t.smt.call = s.smt.call ∧ t.smt.uplink = s.smt.uplink ∧ t.smt.downlink = s.smt.downlink ∧
      t.smt.playback = s.smt.playback ∧ t.smt.vso = s.smt.vso)
    (hsame : t.dtx = s.dtx ∧ t.gsw = s.gsw ∧ t.rsu = s.rsu ∧ t.trav.path = s.trav.path := by
      exact ⟨Eq.refl _, Eq.refl _, Eq.refl _, Eq.refl _⟩) : Keep s t :=
  ⟨Calm.ofPerm hp hph hl ho hr hs ht hv hw hm, Lists.ofEq hsame.1 hsame.2.1 hsame.2.2.1 hsame.2.2.2 ht⟩

/-! ### Reports -/

@[simp] theorem State.report_perm (s : State) (r : Report) : (s.report r).perm = s.perm := rfl
@[simp] theorem State.report_trav (s : State) (r : Report) : (s.report r).trav = s.trav := rfl
@[simp] theorem State.report_trn (s : State) (r : Report) : (s.report r).trn = s.trn := rfl
@[simp] theorem State.report_dtx (s : State) (r : Report) : (s.report r).dtx = s.dtx := rfl
@[simp] theorem State.report_gsw (s : State) (r : Report) : (s.report r).gsw = s.gsw := rfl
@[simp] theorem State.report_swp (s : State) (r : Report) : (s.report r).swp = s.swp := rfl
@[simp] theorem State.report_rsu (s : State) (r : Report) : (s.report r).rsu = s.rsu := rfl
@[simp] theorem State.report_smt (s : State) (r : Report) : (s.report r).smt = s.smt := rfl
@[simp] theorem State.report_slc (s : State) (r : Report) : (s.report r).slc = s.slc := rfl
@[simp] theorem State.report_mgt (s : State) (r : Report) : (s.report r).mgt = s.mgt.addReport r := rfl
@[simp] theorem State.report_pins (s : State) (r : Report) : (s.report r).pins = s.pins := rfl
@[simp] theorem State.report_phase (s : State) (r : Report) : (s.report r).phase = s.phase := rfl
@[simp] theorem State.report_pending (s : State) (r : Report) : (s.report r).pending = s.pending := rfl

theorem ReportsOk.add {m : Mgt} (h : ReportsOk m) (r : Report) : ReportsOk (m.addReport r) := by
  obtain ⟨hr, hf⟩ := h
  unfold Mgt.addReport
  simp only
  split
  · next hlt =>
    refine ⟨by simp; omega, ?_⟩
    intro ho; have := hf ho; omega
  · split
    · exact ⟨hr, hf⟩
    · split
      · next hge _ hany =>
        obtain ⟨x, hx, hp⟩ := List.any_eq_true.1 hany
        have hlen := List.length_eraseP_of_mem hx hp
        refine ⟨?_, ?_⟩ <;> simp only [List.length_append, List.length_singleton, hlen]
        · omega
        · intro ho; have := hf ho; omega
      · next hge _ _ => exact ⟨hr, fun _ => by simp only; omega⟩

theorem State.report_keep (s : State) (r : Report) : Keep s (s.report r) :=
  Keep.ofPerm rfl rfl (Or.inl rfl) id (fun h => h.add r) ⟨rfl, rfl⟩ rfl rfl ⟨rfl, rfl⟩ ⟨rfl, rfl, rfl, rfl, rfl⟩

theorem State.refuseFrame_keep (s : State) (a : Nat) (k : Byte) (b : RefusingBlock) : Keep s (s.refuseFrame a k b) :=
  s.report_keep _

/-! ### The line state -/

theorem State.setLine_perm (s : State) (new : LineState) (r : LineReason) :
    (s.setLine new r).perm = ({ s.perm with line := new } : Perm).drive := rfl

/-- A move to HELD or STOPPING; PERM's order asks the cause set's alone. -/
theorem State.setLine_keep (s : State) (new : LineState) (r : LineReason) (hn : new = .held ∨ new = .stopping)
    (hc : PermOk s.perm → CausesOk s.perm := fun h => h.set) : Keep s (s.setLine new r) := by
  refine Keep.ofPerm rfl rfl (Or.inr ?_) ?_ (fun h => h.add _) ⟨rfl, rfl⟩ rfl rfl ⟨rfl, rfl⟩ ⟨rfl, rfl, rfl, rfl, rfl⟩
  · rcases hn with rfl | rfl
    · exact Or.inl rfl
    · exact Or.inr rfl
  · intro h
    rw [State.setLine_perm]
    exact (hc h).setLine new (by rcases hn with rfl | rfl <;> simp)

theorem State.wake_keep (s : State) (w : WakeSource) : Keep s (s.wake w) := by
  unfold State.wake
  split
  · exact s.setLine_keep .held _ (Or.inl rfl)
  · exact Keep.rfl

theorem State.wake_notQuiet (s : State) (w : WakeSource) : (s.wake w).perm.line ≠ .quiet := by
  unfold State.wake
  split
  · simp [State.setLine]
  · assumption

/-- From s to t PERM's order is restored if its cause set is in order, whatever the line held; the rest is kept. -/
structure Settle (s t : State) : Prop where
  pending : t.pending = s.pending
  phase : t.phase = s.phase
  line : t.perm.line = s.perm.line ∨ t.perm.line = .held ∨ t.perm.line = .stopping
  reports : ReportsOk s.mgt → ReportsOk t.mgt
  trn : t.trn = s.trn
  trav : t.trav = s.trav
  dtx : t.dtx = s.dtx
  gsw : t.gsw = s.gsw
  rsu : t.rsu = s.rsu
  swp : t.swp = s.swp
  slc : t.slc = s.slc
  smt : t.smt = { s.smt with autoClaims := t.smt.autoClaims }

theorem State.enterStopping_settle (s : State) (r : LineReason) : Settle s (s.enterStopping r) := by
  unfold State.enterStopping
  simp only
  split
  · exact ⟨rfl, rfl, Or.inr (Or.inr rfl), fun h => h.add _, rfl, rfl, rfl, rfl, rfl, rfl, rfl, rfl⟩
  · exact ⟨rfl, rfl, Or.inr (Or.inl rfl), fun h => (h.add _).add _, rfl, rfl, rfl, rfl, rfl, rfl, rfl, rfl⟩

theorem State.enterStopping_perm (s : State) (r : LineReason) (h : CausesOk s.perm) :
    PermOk (s.enterStopping r).perm := by
  unfold State.enterStopping
  simp only
  split
  · rw [State.setLine_perm]
    refine CausesOk.setLine ?_ .stopping (by simp)
    exact h.of_eq rfl rfl
  · rw [State.setLine_perm]
    refine CausesOk.setLine ?_ .held (by simp)
    exact h.of_eq rfl rfl

theorem Settle.keep {s t : State} (a : Settle s t) (hp : PermOk s.perm → PermOk t.perm) : Keep s t :=
  Keep.ofPerm a.pending a.phase a.line hp a.reports (by rw [a.slc]; simp) (by rw [a.trn])
    (by rw [a.trav]) (by rw [a.swp]; simp) (by rw [a.smt]; simp) ⟨a.dtx, a.gsw, a.rsu, by rw [a.trav]⟩

theorem State.enterStopping_keep (s : State) (r : LineReason) : Keep s (s.enterStopping r) :=
  (s.enterStopping_settle r).keep fun h => s.enterStopping_perm r h.set

/-! ### Raise claims (R14) -/

theorem State.stopFor_settle (s : State) (e : CauseEntry) : Settle s (s.stopFor e) := by
  unfold State.stopFor
  split
  · split
    · exact s.enterStopping_settle _
    · exact ⟨rfl, rfl, Or.inr (Or.inl rfl), fun h => h.add _, rfl, rfl, rfl, rfl, rfl, rfl, rfl, rfl⟩
    all_goals exact ⟨rfl, rfl, Or.inl rfl, id, rfl, rfl, rfl, rfl, rfl, rfl, rfl, rfl⟩
  · exact ⟨rfl, rfl, Or.inl rfl, id, rfl, rfl, rfl, rfl, rfl, rfl, rfl, rfl⟩

/-- A new entry may stop a RUNNING line or wake a QUIET one, which restores PERM's order. -/
theorem State.stopFor_perm (s : State) (e : CauseEntry) (h : CausesOk s.perm) (hl : s.perm.drive = s.perm)
    (hc : e.response.stops = false → s.perm.line = .running ∨ s.perm.line = .quiet → s.perm.stopping = false) :
    PermOk (s.stopFor e).perm := by
  unfold State.stopFor
  split
  · split
    · exact s.enterStopping_perm _ h
    · exact h.setLine .held (by simp)
    all_goals
      next hs => exact ⟨h, hl, by rw [hs]; simp⟩
  · next hs => exact ⟨h, hl, hc (by simpa using hs)⟩

theorem State.claimCall_settle (s : State) (e : CauseEntry) : Settle s (s.claimCall e) := by
  unfold State.claimCall
  split <;> exact ⟨rfl, rfl, Or.inl rfl, id, rfl, rfl, rfl, rfl, rfl, rfl, rfl, rfl⟩

theorem State.claimCall_perm (s : State) (e : CauseEntry) : (s.claimCall e).perm = s.perm := by
  unfold State.claimCall
  split <;> rfl

theorem Settle.trans {s t u : State} (a : Settle s t) (b : Settle t u) : Settle s u := by
  refine ⟨by rw [b.pending, a.pending], by rw [b.phase, a.phase], ?_, fun h => b.reports (a.reports h),
    by rw [b.trn, a.trn], by rw [b.trav, a.trav], by rw [b.dtx, a.dtx],
    by rw [b.gsw, a.gsw], by rw [b.rsu, a.rsu], by rw [b.swp, a.swp], by rw [b.slc, a.slc], ?_⟩
  · rcases b.line with h | h | h
    · rw [h]; exact a.line
    · exact Or.inr (Or.inl h)
    · exact Or.inr (Or.inr h)
  · have h1 := b.smt
    have h2 := a.smt
    rw [h1, h2]

theorem State.addCause_settle (s : State) (k : CauseKind) (subject : Subject) : Settle s (s.addCause k subject) := by
  unfold State.addCause
  simp only
  refine Settle.trans ?_ (Settle.trans (State.stopFor_settle _ _) (State.claimCall_settle _ _))
  exact ⟨rfl, rfl, Or.inl rfl, fun h => h.add _, rfl, rfl, rfl, rfl, rfl, rfl, rfl, rfl⟩

theorem State.addCause_perm (s : State) (k : CauseKind) (subject : Subject) (h : PermOk s.perm)
    (hn : s.perm.find k subject = none) (ht : subject.type = k.subjectType)
    (hr : k = .causeOverflow ∨ s.perm.others < 47) : PermOk (s.addCause k subject).perm := by
  unfold State.addCause
  simp only
  rw [State.claimCall_perm]
  refine State.stopFor_perm _ _ ?_ rfl ?_
  · exact (h.set.add s.mgt.lineTime hn ht hr).of_eq rfl rfl
  · intro hs hl
    have hc := h.calm hl
    simp only [Perm.stopping, State.report_perm, State.modPerm_perm, Perm.drive_causes, List.any_append, List.any_cons,
      List.any_nil, Bool.or_false] at hc ⊢
    simp [hc, hs]

theorem State.raiseHere_keep (s : State) (k : CauseKind) (subject : Subject) (ht : subject.type = k.subjectType)
    (hr : s.perm.find k subject = none → k = .causeOverflow ∨ s.perm.others < 47) :
    Keep s (s.raiseHere k subject) := by
  unfold State.raiseHere
  split
  · next e he =>
    obtain ⟨hm, hk, hs⟩ := Perm.find_some he
    have ok : PermOk s.perm → PermOk (s.perm.replace k subject e.raisedAgain) := by
      intro h
      rw [← hk, ← hs]
      refine h.replace hm rfl rfl rfl rfl ?_ ?_
      · have := h.set.counts e hm
        simp only [CauseEntry.raisedAgain]; omega
      · intro hl
        have := h.set.selfActive e hm hl
        simp [CauseEntry.raisedAgain, this]
    split
    · exact Keep.ofPerm rfl rfl (Or.inl rfl) ok (fun h => h.add _) ⟨rfl, rfl⟩ rfl rfl ⟨rfl, rfl⟩ ⟨rfl, rfl, rfl, rfl, rfl⟩
    · exact Keep.ofPerm rfl rfl (Or.inl rfl) ok id ⟨rfl, rfl⟩ rfl rfl ⟨rfl, rfl⟩ ⟨rfl, rfl, rfl, rfl, rfl⟩
  · next hn => exact (s.addCause_settle k subject).keep fun h => s.addCause_perm k subject h hn ht (hr hn)

theorem State.raise_keep (s : State) (k : CauseKind) (subject : Subject) (ht : subject.type = k.subjectType) :
    Keep s (s.raise k subject) := by
  unfold State.raise
  split
  · exact s.raiseHere_keep _ _ rfl fun _ => Or.inl rfl
  · next h =>
    refine s.raiseHere_keep _ _ ht fun hn => ?_
    by_cases hk : k = .causeOverflow
    · exact Or.inl hk
    · refine Or.inr ?_
      by_contra hc
      exact h ⟨hn, hk, by omega⟩

/-! ### Clear claims and acknowledgements (R15, R16, R18) -/

theorem State.removeCause_keep (s : State) (e : CauseEntry) (w : GoneWay) : Keep s (s.removeCause e w) :=
  Keep.ofPerm rfl rfl (Or.inl rfl) (fun h => h.removed _) (fun h => h.add _) ⟨rfl, rfl⟩ rfl rfl ⟨rfl, rfl⟩
    ⟨rfl, rfl, rfl, rfl, rfl⟩

theorem State.restate_keep (s : State) {k : CauseKind} {subject : Subject} {e : CauseEntry}
    (he : s.perm.find k subject = some e) (hl : e.latch ≠ .self) (c : CauseState) :
    Keep s (s.modPerm fun p => p.replace k subject { e with state := c }) := by
  obtain ⟨hm, hk, hs⟩ := Perm.find_some he
  refine Keep.ofPerm rfl rfl (Or.inl rfl) ?_ id ⟨rfl, rfl⟩ rfl rfl ⟨rfl, rfl⟩ ⟨rfl, rfl, rfl, rfl, rfl⟩
  intro h
  simp only [State.modPerm_perm]
  rw [← hk, ← hs]
  exact h.replace hm rfl rfl rfl rfl (h.set.counts e hm) fun h' => absurd h' hl

theorem State.clearHere_keep (s : State) (k : CauseKind) (subject : Subject) : Keep s (s.clearHere k subject) := by
  unfold State.clearHere
  split
  · exact Keep.rfl
  · next e he =>
    split
    · exact s.removeCause_keep _ _
    · next hl =>
      split
      · exact s.removeCause_keep _ _
      · exact s.restate_keep he hl _
      · exact Keep.rfl

theorem State.overflowTest_keep (s : State) : Keep s s.overflowTest := by
  unfold State.overflowTest
  repeat' split
  all_goals first | exact Keep.rfl | exact s.clearHere_keep _ _

theorem State.afterRemoval_keep (s before : State) : Keep s (s.afterRemoval before) := by
  unfold State.afterRemoval
  split
  · exact s.overflowTest_keep
  · exact Keep.rfl

theorem State.clear_keep (s : State) (k : CauseKind) (subject : Subject) : Keep s (s.clear k subject) :=
  (s.clearHere_keep k subject).trans (State.afterRemoval_keep _ _)

theorem State.ackHere_keep (s : State) (k : CauseKind) (subject : Subject) : Keep s (s.ackHere k subject) := by
  unfold State.ackHere
  split
  · exact Keep.rfl
  · next e he =>
    split
    · exact Keep.rfl
    · next hl =>
      split
      · exact s.restate_keep he hl _
      · exact Keep.rfl
      · exact s.removeCause_keep _ _

theorem State.ackEach_keep (es : List CauseEntry) : ∀ s : State, Keep s (s.ackEach es) := by
  induction es with
  | nil => exact fun _ => Keep.rfl
  | cons e es ih => exact fun s => (s.ackHere_keep _ _).trans (ih _)

/-! ### Claims on records, the urgent queue, silence -/

/-- A change of DTX, GSW or RSU alone. -/
theorem State.modDtx_calm (s : State) (f : Dtx → Dtx) : Calm s (s.modDtx f) :=
  Calm.ofPerm rfl rfl (Or.inl rfl) id id ⟨rfl, rfl⟩ rfl rfl ⟨rfl, rfl⟩ ⟨rfl, rfl, rfl, rfl, rfl⟩

theorem State.modGsw_calm (s : State) (f : Gsw → Gsw) : Calm s (s.modGsw f) :=
  Calm.ofPerm rfl rfl (Or.inl rfl) id id ⟨rfl, rfl⟩ rfl rfl ⟨rfl, rfl⟩ ⟨rfl, rfl, rfl, rfl, rfl⟩

theorem State.modRsu_calm (s : State) (f : Rsu → Rsu) : Calm s (s.modRsu f) :=
  Calm.ofPerm rfl rfl (Or.inl rfl) id id ⟨rfl, rfl⟩ rfl rfl ⟨rfl, rfl⟩ ⟨rfl, rfl, rfl, rfl, rfl⟩

/-- A change of GSW that keeps its lists in order. -/
theorem State.modGsw_keep (s : State) (f : Gsw → Gsw) (h : TrainOk s → GswOk s → GswOk (s.modGsw f)) :
    Keep s (s.modGsw f) :=
  ⟨s.modGsw_calm f, ⟨fun _ k => ⟨k.nodes, k.once, k.apart, k.held⟩, h, fun _ => id, fun _ => id⟩⟩

/-- A change of RSU that keeps the miss counts in order. -/
theorem State.modRsu_keep (s : State) (f : Rsu → Rsu) (h : RsuOk s.rsu → RsuOk (f s.rsu)) : Keep s (s.modRsu f) :=
  ⟨s.modRsu_calm f, ⟨fun _ k => ⟨k.nodes, k.once, k.apart, k.held⟩,
    fun _ k => ⟨k.expectations, k.expected, k.claims, k.claimed⟩, fun _ => h, fun _ => id⟩⟩

theorem State.setPins_keep (s : State) (p : InputLevels) : Keep s (s.setPins p) :=
  Keep.ofPerm rfl rfl (Or.inl rfl) id id ⟨rfl, rfl⟩ rfl rfl ⟨rfl, rfl⟩ ⟨rfl, rfl, rfl, rfl, rfl⟩

/-- A change of TRN that leaves the train. -/
theorem State.modTrn_keep (s : State) (f : Trn → Trn) (h : (f s.trn).train = s.trn.train) : Keep s (s.modTrn f) :=
  Keep.ofPerm rfl rfl (Or.inl rfl) id id ⟨rfl, rfl⟩ h rfl ⟨rfl, rfl⟩ ⟨rfl, rfl, rfl, rfl, rfl⟩

/-- A change of TRAV that leaves the schedule. -/
theorem State.modTrav_calm (s : State) (f : Trav → Trav) (h : (f s.trav).schedule = s.trav.schedule) :
    Calm s (s.modTrav f) :=
  Calm.ofPerm rfl rfl (Or.inl rfl) id id ⟨rfl, rfl⟩ rfl h ⟨rfl, rfl⟩ ⟨rfl, rfl, rfl, rfl, rfl⟩

/-- A change of TRAV that leaves the schedule and the path. -/
theorem State.modTrav_keep (s : State) (f : Trav → Trav) (h : (f s.trav).schedule = s.trav.schedule)
    (hp : (f s.trav).path = s.trav.path := by rfl) : Keep s (s.modTrav f) :=
  ⟨s.modTrav_calm f h, Lists.ofEq rfl rfl rfl hp rfl⟩

/-- A change of TRAV that leaves the schedule, to a path of at most 16 points. -/
theorem State.modPath_keep (s : State) (f : Trav → Trav) (h : (f s.trav).schedule = s.trav.schedule)
    (hp : PathOk s.trav → PathOk (f s.trav)) : Keep s (s.modTrav f) :=
  ⟨s.modTrav_calm f h, ⟨fun _ k => ⟨k.nodes, k.once, k.apart, k.held⟩,
    fun _ k => ⟨k.expectations, k.expected, k.claims, k.claimed⟩, fun _ => id, fun _ => hp⟩⟩

/-- A change of SWP that leaves the outstanding sweep and the interval timer. -/
theorem State.modSwp_keep (s : State) (f : Swp → Swp)
    (h : (f s.swp).outstanding = s.swp.outstanding ∧ (f s.swp).intervalTimer = s.swp.intervalTimer) :
    Keep s (s.modSwp f) :=
  Keep.ofPerm rfl rfl (Or.inl rfl) id id ⟨rfl, rfl⟩ rfl rfl h ⟨rfl, rfl, rfl, rfl, rfl⟩

/-- A change of SMT that leaves the call state, the voice queues, playback and VSO. -/
theorem State.modSmt_keep (s : State) (f : Smt → Smt)
    (h : (f s.smt).call = s.smt.call ∧ (f s.smt).uplink = s.smt.uplink ∧ (f s.smt).downlink = s.smt.downlink ∧
      (f s.smt).playback = s.smt.playback ∧ (f s.smt).vso = s.smt.vso) : Keep s (s.modSmt f) :=
  Keep.ofPerm rfl rfl (Or.inl rfl) id id ⟨rfl, rfl⟩ rfl rfl ⟨rfl, rfl⟩ h

/-- A change of SLC that leaves the urgent queue and the node table. -/
theorem State.modSlc_keep (s : State) (f : Slc → Slc)
    (h : (f s.slc).urgent = s.slc.urgent ∧ (f s.slc).nodeTable = s.slc.nodeTable) : Keep s (s.modSlc f) :=
  Keep.ofPerm rfl rfl (Or.inl rfl) id id h rfl rfl ⟨rfl, rfl⟩ ⟨rfl, rfl, rfl, rfl, rfl⟩

/-- A change of MGT that leaves the report queue in order. -/
theorem State.modMgt_keep (s : State) (f : Mgt → Mgt) (h : ReportsOk s.mgt → ReportsOk (f s.mgt)) :
    Keep s (s.modMgt f) :=
  Keep.ofPerm rfl rfl (Or.inl rfl) id h ⟨rfl, rfl⟩ rfl rfl ⟨rfl, rfl⟩ ⟨rfl, rfl, rfl, rfl, rfl⟩

/-- A change of PERM's timers. -/
theorem State.setTimers_keep (s : State) (a b : Perm → Option Nat) :
    Keep s (s.modPerm fun p => { p with stopTimer := a p, silenceTimer := b p }) :=
  Keep.ofPerm rfl rfl (Or.inl rfl) (fun h => h.setTimers _ _) id ⟨rfl, rfl⟩ rfl rfl ⟨rfl, rfl⟩ ⟨rfl, rfl, rfl, rfl, rfl⟩

/-- What a claim does to the train. -/
theorem State.claimRecord_train (s : State) (entry : BitVec 16) (f : CabinRecord → CabinRecord) :
    (s.claimRecord entry f).trn.train = s.trn.train.map fun r => if r.entry = entry then f r else r := rfl

/-- A claim that leaves the entry number leaves the list of entry numbers. -/
theorem State.claimRecord_entries (s : State) (entry : BitVec 16) (f : CabinRecord → CabinRecord)
    (he : ∀ r, (f r).entry = r.entry) :
    (s.claimRecord entry f).trn.train.map CabinRecord.entry = s.trn.train.map CabinRecord.entry := by
  rw [State.claimRecord_train, List.map_map]
  congr 1
  funext r
  simp only [Function.comp]
  split <;> simp [he]

/-- Two claims on one record are one. -/
theorem State.claimRecord_claimRecord (s : State) (entry : BitVec 16) (f g : CabinRecord → CabinRecord)
    (hf : ∀ r, (f r).entry = r.entry) :
    (s.claimRecord entry f).claimRecord entry g = s.claimRecord entry fun r => g (f r) := by
  unfold State.claimRecord State.modTrn
  simp only [List.map_map]
  congr 3
  funext r
  simp only [Function.comp]
  by_cases h : r.entry = entry
  · rw [if_pos h, if_pos ((hf r).trans h), if_pos h]
  · rw [if_neg h, if_neg h, if_neg h]

/-- The record after a claim on it. -/
theorem State.record_claimRecord {s : State} {entry : BitVec 16} {r : CabinRecord} (h : s.record entry = some r)
    (f : CabinRecord → CabinRecord) (hf : ∀ r, (f r).entry = r.entry) :
    (s.claimRecord entry f).record entry = some (f r) := by
  unfold State.record State.claimRecord at *
  simp only [State.modTrn_trn]
  rw [List.find?_map]
  have same : ((fun r : CabinRecord => decide (r.entry = entry)) ∘ fun r => if r.entry = entry then f r else r) =
      fun r => decide (r.entry = entry) := by
    funext x
    simp only [Function.comp]
    by_cases hx : x.entry = entry
    · simp [hx, hf]
    · simp [hx]
  rw [same, h]
  have he := List.find?_some h
  simp only [decide_eq_true_eq] at he
  simp [he]

theorem State.claimRecord_same (s : State) (entry : BitVec 16) (f : CabinRecord → CabinRecord)
    (he : ∀ r, (f r).entry = r.entry) : Same s (s.claimRecord entry f) :=
  ⟨rfl, rfl, rfl, rfl, by rw [s.claimRecord_entries entry f he]; exact fun _ h => h⟩

/-- A claim that leaves the entry number, and sets a cabin number no other record carries. -/
theorem State.claimRecord_keep' (s : State) (entry : BitVec 16) (f : CabinRecord → CabinRecord)
    (he : ∀ r, (f r).entry = r.entry)
    (hc : ∀ r ∈ s.trn.train, r.entry = entry → (f r).cabin ≠ 0 →
      (f r).cabin = r.cabin ∨ ∀ x ∈ s.trn.train, x.entry ≠ entry → x.cabin ≠ (f r).cabin) :
    Keep s (s.claimRecord entry f) := by
  have hent := s.claimRecord_entries entry f he
  refine ⟨⟨rfl, rfl, Or.inl rfl, id, id, id, id, id, ?_, id, ?_⟩, (s.claimRecord_same entry f he).lists⟩
  · intro h hq
    have := h hq
    simp only [State.claimRecord, State.modTrn_trn, State.modTrn_smt, this, List.map_nil, true_and]
  · intro h
    refine ⟨by rw [hent]; exact h.distinct, by rw [State.claimRecord_train]; simpa using h.room, ?_, ?_⟩
    · rw [State.claimRecord_train]
      intro a ha b hb hab hz
      obtain ⟨x, hx, rfl⟩ := List.mem_map.1 ha
      obtain ⟨y, hy, rfl⟩ := List.mem_map.1 hb
      have ent : ∀ r : CabinRecord, (if r.entry = entry then f r else r).entry = r.entry := by
        intro r; split <;> simp [he]
      rw [ent, ent]
      by_cases hxe : x.entry = entry
      · by_cases hye : y.entry = entry
        · rw [hxe, hye]
        · rw [if_pos hxe] at hab hz
          rw [if_neg hye] at hab
          rcases hc x hx hxe hz with h1 | h1
          · exact h.cabins x hx y hy (by rw [← h1, hab]) (by rw [← h1]; exact hz)
          · exact absurd hab.symm (h1 y hy hye)
      · by_cases hye : y.entry = entry
        · rw [if_neg hxe] at hab hz
          rw [if_pos hye] at hab
          rcases hc y hy hye (by rw [← hab]; exact hz) with h1 | h1
          · exact h.cabins x hx y hy (by rw [hab, h1]) hz
          · exact absurd hab (h1 x hx hxe)
        · rw [if_neg hxe] at hab hz
          rw [if_neg hye] at hab
          exact h.cabins x hx y hy hab hz
    · rw [hent]; exact h.named

/-- A claim that leaves the entry number and the cabin number. -/
theorem State.claimRecord_keep (s : State) (entry : BitVec 16) (f : CabinRecord → CabinRecord)
    (he : ∀ r, (f r).entry = r.entry) (hc : ∀ r, (f r).cabin = r.cabin) : Keep s (s.claimRecord entry f) :=
  s.claimRecord_keep' entry f he fun r _ _ _ => Or.inl (hc r)

theorem State.claimClosure_keep (s : State) (entry : BitVec 16) (c : ClosureState) : Keep s (s.claimClosure entry c) :=
  s.claimRecord_keep entry _ (fun _ => rfl) fun _ => rfl

theorem State.pushCommand_keep (s : State) (q : QueuedCommand) (h : s.urgentFull = false) :
    Keep s (s.pushCommand q) := by
  refine ⟨⟨rfl, rfl, Or.inl rfl, id, id, id, ?_, id, id, id, fun h => ⟨h.distinct, h.room, h.cabins, h.named⟩⟩,
    Lists.ofEq rfl rfl rfl rfl rfl⟩
  intro _
  simp only [State.urgentFull, decide_eq_false_iff_not, Nat.not_le] at h
  simp only [UrgentOk, State.pushCommand, State.modSlc_slc, List.length_append, List.length_singleton]
  omega

theorem State.silentExchange_keep (s : State) (k : Nat) : Keep s (s.silentExchange k) :=
  (State.modSlc_keep s _ ⟨rfl, rfl⟩).trans (State.raise_keep _ _ _ rfl)

theorem State.heardFrom_keep (s : State) (k : Nat) : Keep s (s.heardFrom k) := by
  unfold State.heardFrom
  repeat' split
  · exact (State.modSlc_keep s _ ⟨rfl, rfl⟩).trans (State.clear_keep _ _ _)
  all_goals exact Keep.rfl

theorem State.consoleNotice_keep (s : State) : Keep s s.consoleNotice := by
  unfold State.consoleNotice
  simp only
  refine Keep.trans ?_ (State.clear_keep _ _ _)
  split
  · exact s.setTimers_keep (fun p => p.stopTimer) _
  · exact Keep.rfl

/-! ### What claims leave of the other blocks -/

theorem State.clearHere_rest (s : State) (k : CauseKind) (x : Subject) :
    s.clearHere k x = { s with perm := (s.clearHere k x).perm, mgt := (s.clearHere k x).mgt } := by
  unfold State.clearHere
  repeat' split
  all_goals rfl

theorem State.overflowTest_rest (s : State) :
    s.overflowTest = { s with perm := s.overflowTest.perm, mgt := s.overflowTest.mgt } := by
  unfold State.overflowTest
  repeat' split
  all_goals first | rfl | exact s.clearHere_rest _ _

/-- A clear claim changes PERM and the report queue alone. -/
theorem State.clear_rest (s : State) (k : CauseKind) (x : Subject) :
    s.clear k x = { s with perm := (s.clear k x).perm, mgt := (s.clear k x).mgt } := by
  unfold State.clear State.afterRemoval
  have h := s.clearHere_rest k x
  split
  · rw [State.overflowTest_rest, h]
  · exact h

/-- A raise claim changes PERM, the report queue and the count of automatic call claims alone. -/
theorem State.raise_rest (s : State) (k : CauseKind) (x : Subject) :
    s.raise k x =
      { s with perm := (s.raise k x).perm, mgt := (s.raise k x).mgt, smt := (s.raise k x).smt } := by
  have here : ∀ (k : CauseKind) (x : Subject), s.raiseHere k x =
      { s with perm := (s.raiseHere k x).perm, mgt := (s.raiseHere k x).mgt, smt := (s.raiseHere k x).smt } := by
    intro k x
    unfold State.raiseHere
    split
    · simp only
      split <;> rfl
    · unfold State.addCause State.claimCall State.stopFor State.enterStopping
      simp only
      repeat' split
      all_goals rfl
  unfold State.raise
  split <;> exact here _ _

theorem State.wake_rest (s : State) (w : WakeSource) :
    s.wake w = { s with perm := (s.wake w).perm, mgt := (s.wake w).mgt } := by
  unfold State.wake
  split <;> rfl

@[simp] theorem State.clear_trav (s : State) (k : CauseKind) (x : Subject) : (s.clear k x).trav = s.trav := by
  rw [State.clear_rest]
@[simp] theorem State.clear_trn (s : State) (k : CauseKind) (x : Subject) : (s.clear k x).trn = s.trn := by
  rw [State.clear_rest]
@[simp] theorem State.clear_dtx (s : State) (k : CauseKind) (x : Subject) : (s.clear k x).dtx = s.dtx := by
  rw [State.clear_rest]
@[simp] theorem State.clear_gsw (s : State) (k : CauseKind) (x : Subject) : (s.clear k x).gsw = s.gsw := by
  rw [State.clear_rest]
@[simp] theorem State.clear_swp (s : State) (k : CauseKind) (x : Subject) : (s.clear k x).swp = s.swp := by
  rw [State.clear_rest]
@[simp] theorem State.clear_rsu (s : State) (k : CauseKind) (x : Subject) : (s.clear k x).rsu = s.rsu := by
  rw [State.clear_rest]
@[simp] theorem State.clear_smt (s : State) (k : CauseKind) (x : Subject) : (s.clear k x).smt = s.smt := by
  rw [State.clear_rest]
@[simp] theorem State.clear_slc (s : State) (k : CauseKind) (x : Subject) : (s.clear k x).slc = s.slc := by
  rw [State.clear_rest]
@[simp] theorem State.clear_pins (s : State) (k : CauseKind) (x : Subject) : (s.clear k x).pins = s.pins := by
  rw [State.clear_rest]
@[simp] theorem State.clear_phase (s : State) (k : CauseKind) (x : Subject) : (s.clear k x).phase = s.phase := by
  rw [State.clear_rest]
@[simp] theorem State.clear_pending (s : State) (k : CauseKind) (x : Subject) : (s.clear k x).pending = s.pending := by
  rw [State.clear_rest]

@[simp] theorem State.raise_trav (s : State) (k : CauseKind) (x : Subject) : (s.raise k x).trav = s.trav := by
  rw [State.raise_rest]
@[simp] theorem State.raise_trn (s : State) (k : CauseKind) (x : Subject) : (s.raise k x).trn = s.trn := by
  rw [State.raise_rest]
@[simp] theorem State.raise_dtx (s : State) (k : CauseKind) (x : Subject) : (s.raise k x).dtx = s.dtx := by
  rw [State.raise_rest]
@[simp] theorem State.raise_gsw (s : State) (k : CauseKind) (x : Subject) : (s.raise k x).gsw = s.gsw := by
  rw [State.raise_rest]
@[simp] theorem State.raise_swp (s : State) (k : CauseKind) (x : Subject) : (s.raise k x).swp = s.swp := by
  rw [State.raise_rest]
@[simp] theorem State.raise_rsu (s : State) (k : CauseKind) (x : Subject) : (s.raise k x).rsu = s.rsu := by
  rw [State.raise_rest]
@[simp] theorem State.raise_slc (s : State) (k : CauseKind) (x : Subject) : (s.raise k x).slc = s.slc := by
  rw [State.raise_rest]
@[simp] theorem State.raise_pins (s : State) (k : CauseKind) (x : Subject) : (s.raise k x).pins = s.pins := by
  rw [State.raise_rest]
@[simp] theorem State.raise_phase (s : State) (k : CauseKind) (x : Subject) : (s.raise k x).phase = s.phase := by
  rw [State.raise_rest]
@[simp] theorem State.raise_pending (s : State) (k : CauseKind) (x : Subject) : (s.raise k x).pending = s.pending := by
  rw [State.raise_rest]

@[simp] theorem State.wake_trav (s : State) (w : WakeSource) : (s.wake w).trav = s.trav := by
  rw [State.wake_rest]
@[simp] theorem State.wake_trn (s : State) (w : WakeSource) : (s.wake w).trn = s.trn := by
  rw [State.wake_rest]
@[simp] theorem State.wake_dtx (s : State) (w : WakeSource) : (s.wake w).dtx = s.dtx := by
  rw [State.wake_rest]
@[simp] theorem State.wake_gsw (s : State) (w : WakeSource) : (s.wake w).gsw = s.gsw := by
  rw [State.wake_rest]
@[simp] theorem State.wake_swp (s : State) (w : WakeSource) : (s.wake w).swp = s.swp := by
  rw [State.wake_rest]
@[simp] theorem State.wake_rsu (s : State) (w : WakeSource) : (s.wake w).rsu = s.rsu := by
  rw [State.wake_rest]
@[simp] theorem State.wake_smt (s : State) (w : WakeSource) : (s.wake w).smt = s.smt := by
  rw [State.wake_rest]
@[simp] theorem State.wake_slc (s : State) (w : WakeSource) : (s.wake w).slc = s.slc := by
  rw [State.wake_rest]
@[simp] theorem State.wake_pins (s : State) (w : WakeSource) : (s.wake w).pins = s.pins := by
  rw [State.wake_rest]
@[simp] theorem State.wake_phase (s : State) (w : WakeSource) : (s.wake w).phase = s.phase := by
  rw [State.wake_rest]
@[simp] theorem State.wake_pending (s : State) (w : WakeSource) : (s.wake w).pending = s.pending := by
  rw [State.wake_rest]

end Sys2Proof.Machine
end

