-- ==== Sys2Proof/Laws/Nodes.lean ====
section
/-! SUPPORT. What DTX does to its node records: one lemma for each of its operations says what it leaves of the claims at
the node, and that the records stay in order. -/

namespace Sys2Proof.Machine

/-! ### Numbered tables -/

theorem nth1_mod1 {α : Type} {n : Nat} (v : Vector α n) (a : Nat) (f : α → α) (k : Nat) :
    nth1 (mod1 v a f) k = if k = a then (nth1 v k).map f else nth1 v k := by
  unfold nth1 mod1
  by_cases ha : a = 0
  · subst ha
    by_cases hk : k = 0 <;> simp [hk]
  · by_cases hk : k = 0
    · subst hk
      simp [Ne.symm ha]
    · simp only [ha, hk, if_false]
      cases hv : v[a - 1]? with
      | none =>
        by_cases e : k = a
        · subst e
          simp [hv]
        · simp [e]
      | some x =>
        simp only [Vector.getElem?_setIfInBounds]
        by_cases e : k = a
        · subst e
          have : k - 1 < n := by
            by_contra hh
            rw [Vector.getElem?_eq_none (by omega)] at hv
            cases hv
          rw [Vector.getElem?_eq_getElem this] at hv
          cases hv
          simp [this]
        · rw [if_neg (by omega), if_neg e]

theorem nth1_ext {α : Type} {n : Nat} {v w : Vector α n} (h : ∀ k, nth1 v k = nth1 w k) : v = w := by
  ext i hi
  have := h (i + 1)
  simpa [nth1, hi] using this

theorem mod1_mod1 {α : Type} {n : Nat} (v : Vector α n) (a : Nat) (f g : α → α) :
    mod1 (mod1 v a f) a g = mod1 v a fun x => g (f x) := by
  refine nth1_ext fun k => ?_
  simp only [nth1_mod1]
  split
  · rw [Option.map_map]; rfl
  · rfl

theorem mod1_fix {α : Type} {n : Nat} {v : Vector α n} {a : Nat} {f : α → α} (h : ∀ x, nth1 v a = some x → f x = x) :
    mod1 v a f = v := by
  refine nth1_ext fun k => ?_
  rw [nth1_mod1]
  split
  · next e =>
    subst e
    cases hv : nth1 v k with
    | none => rfl
    | some x => rw [Option.map_some, h x hv]
  · rfl

theorem nth1_some_le {α : Type} {n : Nat} {v : Vector α n} {k : Nat} {a : α} (h : nth1 v k = some a) : k ≤ n := by
  unfold nth1 at h
  by_contra hh
  split at h
  · cases h
  · rw [Vector.getElem?_eq_none (by omega)] at h
    cases h

theorem nth1_mem {α : Type} {n : Nat} {v : Vector α n} {k : Nat} {a : α} (h : nth1 v k = some a) : a ∈ v := by
  unfold nth1 at h
  split at h
  · cases h
  · exact Vector.mem_of_getElem? h

theorem nth1_some_pos {α : Type} {n : Nat} {v : Vector α n} {k : Nat} {a : α} (h : nth1 v k = some a) : 1 ≤ k := by
  unfold nth1 at h
  split at h
  · cases h
  · omega

theorem State.node_modNode (s : State) (a b : Nat) (f : NodeRec → NodeRec) :
    (s.modNode a f).node b = if b = a then (s.node b).map f else s.node b := nth1_mod1 _ _ _ _

/-- Every node record is at one of the addresses of DTX. -/
theorem State.node_mem {s : State} {a : Nat} {n : NodeRec} (h : s.node a = some n) : a ∈ nodeAddresses := by
  have := nth1_some_pos h
  have := nth1_some_le h
  simp [nodeAddresses]
  omega

/-! ### What shared operations leave -/

theorem State.report_same (s : State) (r : Report) : Same s (s.report r) := Same.ofEq rfl rfl rfl rfl rfl

theorem State.raise_same (s : State) (k : CauseKind) (x : Subject) : Same s (s.raise k x) :=
  Same.ofEq (by simp) (by simp) (by simp) (by simp) (by simp)

theorem State.clear_same (s : State) (k : CauseKind) (x : Subject) : Same s (s.clear k x) :=
  Same.ofEq (by simp) (by simp) (by simp) (by simp) (by simp)

theorem State.claimClosure_same (s : State) (e : BitVec 16) (c : ClosureState) : Same s (s.claimClosure e c) :=
  s.claimRecord_same e _ fun _ => rfl

theorem State.pushCommand_same (s : State) (q : QueuedCommand) : Same s (s.pushCommand q) := Same.ofEq rfl rfl rfl rfl rfl

theorem State.modSlc_same (s : State) (f : Slc → Slc) : Same s (s.modSlc f) := Same.ofEq rfl rfl rfl rfl rfl

theorem State.silentExchange_same (s : State) (k : Nat) : Same s (s.silentExchange k) :=
  (s.modSlc_same _).trans (State.raise_same _ _ _)

theorem State.failClaim_same (s : State) (a : Nat) (w : WaitEntry) (e : ClosureEnding) : Same s (s.failClaim a w e) :=
  (s.claimClosure_same _ _).trans (State.report_same _ _)

theorem State.failAtFaulted_same (s : State) (a : Nat) (w : WaitEntry) : Same s (s.failAtFaulted a w) :=
  ((s.claimClosure_same _ _).trans (State.raise_same _ _ _)).trans (State.report_same _ _)

theorem State.reportOvertaken_same (s : State) (a : Nat) (w : WaitEntry) : Same s (s.reportOvertaken a w) :=
  (s.raise_same _ _).trans (State.report_same _ _)

theorem State.refuseIfDisallowed_same (s : State) (q : QueuedCommand) (ans : Answer) (b : RefusingBlock) :
    Same s (s.refuseIfDisallowed q ans b) := by
  unfold State.refuseIfDisallowed State.refuseAnswer
  repeat' split
  · exact s.report_same _
  all_goals exact Same.rfl

/-! ### One node's record changes -/

/-- From s to t, of DTX node a's record alone changes, as P says; no record leaves the train. -/
structure AtNode (a : Nat) (P : NodeRec → NodeRec → Prop) (s t : State) : Prop where
  gsw : t.gsw = s.gsw
  rsu : t.rsu = s.rsu
  path : t.trav.path = s.trav.path
  entries : ∀ e ∈ s.trn.train.map CabinRecord.entry, e ∈ t.trn.train.map CabinRecord.entry
  others : ∀ b, b ≠ a → t.node b = s.node b
  here : ∀ n', t.node a = some n' → ∃ n, s.node a = some n ∧ P n n'

theorem Same.atNode {s t : State} (h : Same s t) (a : Nat) : AtNode a (fun n n' => n' = n) s t :=
  ⟨h.gsw, h.rsu, h.path, h.entries, fun b _ => h.node b, fun n' hn => ⟨n', by rw [← h.node]; exact hn, Eq.refl _⟩⟩

theorem AtNode.comp {a : Nat} {P Q R : NodeRec → NodeRec → Prop} {s t u : State} (h : AtNode a P s t)
    (k : AtNode a Q t u) (hr : ∀ n m n', P n m → Q m n' → R n n') : AtNode a R s u := by
  refine ⟨by rw [k.gsw, h.gsw], by rw [k.rsu, h.rsu], by rw [k.path, h.path], fun e he => k.entries e (h.entries e he),
    fun b hb => by rw [k.others b hb, h.others b hb], fun n' hn => ?_⟩
  obtain ⟨m, hm, hq⟩ := k.here n' hn
  obtain ⟨n, hn, hp⟩ := h.here m hm
  exact ⟨n, hn, hr n m n' hp hq⟩

theorem AtNode.imp {a : Nat} {P Q : NodeRec → NodeRec → Prop} {s t : State} (h : AtNode a P s t)
    (hq : ∀ n n', P n n' → Q n n') : AtNode a Q s t :=
  ⟨h.gsw, h.rsu, h.path, h.entries, h.others, fun n' hn => by
    obtain ⟨n, hs, hp⟩ := h.here n' hn
    exact ⟨n, hs, hq n n' hp⟩⟩

theorem AtNode.same {a : Nat} {P : NodeRec → NodeRec → Prop} {s t u : State} (h : AtNode a P s t) (k : Same t u) :
    AtNode a P s u := h.comp (k.atNode a) fun _ _ _ hp hq => by rw [hq]; exact hp

theorem Same.andThen {a : Nat} {P : NodeRec → NodeRec → Prop} {s t u : State} (h : Same s t) (k : AtNode a P t u) :
    AtNode a P s u := (h.atNode a).comp k fun _ _ _ hp hq => by rw [hp] at hq; exact hq

theorem State.modNode_at (s : State) (a : Nat) (f : NodeRec → NodeRec) :
    AtNode a (fun n n' => n' = f n) s (s.modNode a f) := by
  refine ⟨rfl, rfl, rfl, fun _ h => h, fun b hb => by rw [State.node_modNode, if_neg hb], fun n' hn => ?_⟩
  rw [State.node_modNode, if_pos rfl] at hn
  obtain ⟨n, hs, rfl⟩ := Option.map_eq_some_iff.1 hn
  exact ⟨n, hs, rfl⟩

/-! ### Claims shrink -/

/-- The claims and the wait list of n' are those of n, or fewer. -/
structure NodeRec.Shrinks (n n' : NodeRec) : Prop where
  claims : n'.claims.Sublist n.claims
  waits : (n'.waiting.map WaitEntry.entry).Sublist (n.waiting.map WaitEntry.entry)

/-- The claims shrink, and a record in order stays so. -/
structure NodeRec.Kept (n n' : NodeRec) : Prop extends n.Shrinks n' where
  ok : n.Ok → n'.Ok

/-- What is left is in order, and is of the wait list: the open transaction has gone. -/
structure NodeRec.Closed (n n' : NodeRec) : Prop where
  claims : n'.claims.Sublist (n.waiting.map WaitEntry.entry)
  waits : (n'.waiting.map WaitEntry.entry).Sublist (n.waiting.map WaitEntry.entry)
  ok : n'.Ok

theorem NodeRec.Kept.rfl {n : NodeRec} : n.Kept n := ⟨⟨List.Sublist.refl _, List.Sublist.refl _⟩, id⟩

theorem NodeRec.Kept.trans {n m k : NodeRec} (a : n.Kept m) (b : m.Kept k) : n.Kept k :=
  ⟨⟨b.claims.trans a.claims, b.waits.trans a.waits⟩, fun h => b.ok (a.ok h)⟩

theorem NodeRec.waits_claims (n : NodeRec) : (n.waiting.map WaitEntry.entry).Sublist n.claims :=
  List.sublist_append_right _ _

theorem NodeRec.Closed.kept {n n' : NodeRec} (h : n.Closed n') : n.Kept n' :=
  ⟨⟨h.claims.trans n.waits_claims, h.waits⟩, fun _ => h.ok⟩

/-- A change of marks, or of a transaction's own state. -/
theorem State.modTxn_at (s : State) (a : Nat) (f : OpenTxn → OpenTxn) (he : ∀ t, (f t).entry = t.entry)
    (ho : ∀ t, (f t).overtaken = false → t.overtaken = false) : AtNode a NodeRec.Kept s (s.modTxn a f) := by
  refine (s.modNode_at a _).imp ?_
  rintro n _ rfl
  refine ⟨⟨?_, List.Sublist.refl _⟩, fun h => ⟨?_, ?_⟩⟩
  · unfold NodeRec.claims
    refine List.Sublist.append ?_ (List.Sublist.refl _)
    cases ht : n.txn with
    | none => simp
    | some t =>
      have := ho t
      simp only [Option.map_some, he]
      cases h1 : (f t).overtaken <;> cases h2 : t.overtaken <;> simp_all
  · intro hf
    simp [h.faulted hf]
  · intro ht
    exact h.idle (by simpa using ht)

/-! ### Closing and serving (R67) -/

theorem State.openTxn_at (s : State) (a : Nat) (w : WaitEntry) :
    AtNode a (fun n n' => n'.claims = w.entry :: n.waiting.map WaitEntry.entry ∧ n'.waiting = n.waiting ∧
      n'.faulted = n.faulted ∧ n'.txn.isSome) s (s.openTxn a w) := by
  unfold State.openTxn
  simp only
  have first : AtNode a (fun n n' => n' = n) s (s.modDtx fun d => { d with nextTxn := s.dtx.nextTxn + 1 }) :=
    ⟨rfl, rfl, rfl, fun _ h => h, fun _ _ => rfl, fun n' hn => ⟨n', hn, rfl⟩⟩
  refine (first.comp (State.modNode_at _ a _) ?_).same (State.pushCommand_same _ _)
  rintro n _ n' rfl rfl
  exact ⟨by simp [NodeRec.claims], rfl, rfl, rfl⟩

theorem State.serve_at (a : Nat) (ws : List WaitEntry) : ∀ s : State,
    AtNode a (fun n n' => n.faulted = false → n.txn = none → n'.claims.Sublist (ws.map WaitEntry.entry) ∧
      (n'.waiting.map WaitEntry.entry).Sublist (ws.map WaitEntry.entry) ∧ n'.Ok) s (s.serve a ws) := by
  induction ws with
  | nil =>
    intro s
    refine (s.modNode_at a _).imp ?_
    rintro n _ rfl hf ht
    exact ⟨by simp [NodeRec.claims, ht], by simp, fun h => absurd h (by simp [hf]), fun _ => rfl⟩
  | cons w rest ih =>
    intro s
    unfold State.serve
    simp only
    split
    · refine (((s.modNode_at a _).same (State.failClaim_same _ a w .silent)).comp (ih _) ?_).same
        (State.silentExchange_same _ _)
      rintro n _ n' rfl h hf ht
      obtain ⟨h1, h2, h3⟩ := h hf ht
      exact ⟨h1.trans (List.sublist_cons_self _ _), h2.trans (List.sublist_cons_self _ _), h3⟩
    · refine (s.modNode_at a _).comp (State.openTxn_at _ a w) ?_
      rintro n _ n' rfl ⟨h1, h2, h3, h4⟩ hf ht
      refine ⟨by rw [h1]; exact List.Sublist.refl _, by rw [h2]; exact List.sublist_cons_self _ _, ?_, ?_⟩
      · intro hx
        rw [h3] at hx
        exact absurd hx (by simp [hf])
      · intro hx
        rw [hx] at h4
        cases h4

theorem State.drain_at (a : Nat) (ws : List WaitEntry) : ∀ s : State,
    AtNode a (fun n n' => n'.txn = n.txn ∧ (n.waiting = ws → n'.waiting = [])) s (s.drain a ws) := by
  induction ws with
  | nil => exact fun s => (Same.rfl.atNode a).imp fun n n' h => by subst h; exact ⟨rfl, id⟩
  | cons w rest ih =>
    intro s
    refine ((s.failAtFaulted_same a w).andThen (State.modNode_at _ a _)).comp (ih _) ?_
    rintro n _ n' rfl ⟨h1, h2⟩
    exact ⟨h1, fun _ => h2 rfl⟩

theorem State.closeTxn_at (s : State) (a : Nat) : AtNode a NodeRec.Closed s (s.closeTxn a) := by
  unfold State.closeTxn
  simp only
  have first := s.modNode_at a fun n => { n with txn := none }
  generalize s.modNode a (fun n => { n with txn := none }) = u at first
  cases hu : u.node a with
  | none =>
    exact ⟨first.gsw, first.rsu, first.path, first.entries, first.others, fun n' hn => by rw [hu] at hn; cases hn⟩
  | some m =>
    obtain ⟨n, hn, rfl⟩ := first.here m hu
    have close : ∀ t, (∀ P, AtNode a P u t → (∀ n', P { n with txn := none } n' → n.Closed n') →
        AtNode a NodeRec.Closed s t) := by
      intro t P k hp
      refine ⟨by rw [k.gsw, first.gsw], by rw [k.rsu, first.rsu], by rw [k.path, first.path],
        fun e he => k.entries e (first.entries e he), fun b hb => by rw [k.others b hb, first.others b hb], fun n' hn' => ?_⟩
      obtain ⟨x, hx, hq⟩ := k.here n' hn'
      rw [hu] at hx
      cases hx
      exact ⟨n, hn, hp n' hq⟩
    simp only
    split
    · refine close _ _ (u.drain_at a n.waiting) ?_
      rintro n' ⟨h1, h2⟩
      have hw := h2 rfl
      exact ⟨by simp [NodeRec.claims, h1, hw], by simp [hw], fun _ => h1, fun _ => hw⟩
    · next hf =>
      refine close _ _ (u.serve_at a n.waiting) ?_
      intro n' h
      obtain ⟨h1, h2, h3⟩ := h (by simpa using hf) rfl
      exact ⟨h1, h2, h3⟩

theorem State.applyKindChange_at (s : State) (a : Nat) : AtNode a NodeRec.Kept s (s.applyKindChange a) := by
  refine ((s.modNode_at a _).imp ?_).same (State.clear_same _ _ _)
  rintro n _ rfl
  exact ⟨⟨by simp [NodeRec.claims], by simp⟩, fun _ => ⟨fun hf => absurd hf Bool.false_ne_true, fun _ => rfl⟩⟩

theorem State.applyWaitingChange_at (s : State) (a : Nat) : AtNode a NodeRec.Kept s (s.applyWaitingChange a) := by
  unfold State.applyWaitingChange
  repeat' split
  · exact s.applyKindChange_at a
  all_goals exact (Same.rfl.atNode a).imp fun _ _ h => by subst h; exact NodeRec.Kept.rfl

theorem State.kindChanged_at (s : State) (a : Nat) : AtNode a NodeRec.Kept s (s.kindChanged a) := by
  unfold State.kindChanged
  split
  · refine (s.modNode_at a _).imp ?_
    rintro n _ rfl
    exact ⟨⟨List.Sublist.refl _, List.Sublist.refl _⟩, fun h => ⟨h.faulted, h.idle⟩⟩
  · exact s.applyKindChange_at a

theorem State.failTxn_at (s : State) (a : Nat) (t : OpenTxn) (e : ClosureEnding) :
    AtNode a NodeRec.Closed s (s.failTxn a t e) := (s.failClaim_same _ _ _).andThen (State.closeTxn_at _ _)

theorem State.completeTxn_at (s : State) (a : Nat) (t : OpenTxn) : AtNode a NodeRec.Closed s (s.completeTxn a t) :=
  (s.claimClosure_same _ _).andThen (State.closeTxn_at _ _)

theorem State.cancelTxn_at (s : State) (a : Nat) (t : OpenTxn) : AtNode a NodeRec.Closed s (s.cancelTxn a t) := by
  unfold State.cancelTxn
  simp only
  split
  · exact (s.silentExchange_same _).andThen (State.closeTxn_at _ _)
  · exact (s.pushCommand_same _).andThen (State.closeTxn_at _ _)

theorem State.nodeFault_at (s : State) (a : Nat) (t : OpenTxn) (r : Report) :
    AtNode a (fun n n' => n.Shrinks n' ∧ n'.Ok) s (s.nodeFault a t r) := by
  unfold State.nodeFault
  simp only
  have first := ((s.claimClosure_same t.entry .fault).andThen (State.modNode_at _ a fun n => { n with faulted := true })).same
    ((State.raise_same _ .closureFault (.node a)).trans (State.report_same _ r))
  refine (first.comp (State.closeTxn_at _ a) (R := NodeRec.Closed) ?_).comp (State.applyWaitingChange_at _ a) ?_
  · rintro n _ n' rfl h
    exact ⟨h.claims, h.waits, h.ok⟩
  · intro n m n' h k
    exact ⟨⟨k.claims.trans h.kept.claims, k.waits.trans h.waits⟩, k.ok h.ok⟩

theorem State.nodeFault_kept (s : State) (a : Nat) (t : OpenTxn) (r : Report) :
    AtNode a NodeRec.Kept s (s.nodeFault a t r) := (s.nodeFault_at a t r).imp fun _ _ h => ⟨h.1, fun _ => h.2⟩

theorem State.failTxn_kept (s : State) (a : Nat) (t : OpenTxn) (e : ClosureEnding) :
    AtNode a NodeRec.Kept s (s.failTxn a t e) := (s.failTxn_at a t e).imp fun _ _ h => h.kept

theorem AtNode.kept {a : Nat} {s t u : State} (h : AtNode a NodeRec.Kept s t) (k : AtNode a NodeRec.Kept t u) :
    AtNode a NodeRec.Kept s u := h.comp k fun _ _ _ hp hq => hp.trans hq

theorem Same.kept {s t : State} (h : Same s t) (a : Nat) : AtNode a NodeRec.Kept s t :=
  (h.atNode a).imp fun _ _ e => by subst e; exact NodeRec.Kept.rfl

/-! ### Commands and completions (R66, R70, R73, R76, R77, R80) -/

theorem State.sendGo_at (s : State) (a : Nat) (t : OpenTxn) : AtNode a NodeRec.Kept s (s.sendGo a t) := by
  unfold State.sendGo
  simp only
  have first := s.modTxn_at a (fun t => { t with state := .going }) (fun _ => rfl) fun _ h => h
  split
  · exact (first.kept (State.failTxn_kept _ _ _ _)).same (State.silentExchange_same _ _)
  · exact first.same (State.pushCommand_same _ _)

/-- The transaction of the detail fetch is the one that was open. -/
theorem State.startDetail_at (s : State) (a : Nat) (t : OpenTxn) (c : DetailCause) (w : Word × Word)
    (h : s.txnAt a = some t) : AtNode a NodeRec.Kept s (s.startDetail a t c w) := by
  unfold State.startDetail
  simp only
  have first : AtNode a NodeRec.Kept s (s.modNode a fun n =>
      { n with txn := some { t with
          state := .detailing, deadline := none, actTimer := none, faultWords := some w, detailCause := some c } }) := by
    have k := s.modNode_at a fun n =>
      { n with txn := some { t with
          state := .detailing, deadline := none, actTimer := none, faultWords := some w, detailCause := some c } }
    refine ⟨k.gsw, k.rsu, k.path, k.entries, k.others, fun n' hn => ?_⟩
    obtain ⟨n, hs, rfl⟩ := k.here n' hn
    have ht : n.txn = some t := by
      unfold State.txnAt at h
      rw [hs] at h
      exact h
    refine ⟨n, hs, ⟨by simp [NodeRec.claims, ht], List.Sublist.refl _⟩, fun ok => ⟨fun hf => ?_, fun hx => by cases hx⟩⟩
    rw [ok.faulted hf] at ht
    cases ht
  split
  · exact (first.kept (State.nodeFault_kept _ _ _ _)).same (State.silentExchange_same _ _)
  · exact first.same (State.pushCommand_same _ _)

theorem State.setCompletion_at (s : State) (a : Nat) (t : OpenTxn) (j : Judgement) :
    AtNode a NodeRec.Kept s (s.setCompletion a t j) := by
  unfold State.setCompletion
  simp only
  split
  · have first := s.modTxn_at a (fun t => { t with state := .primed }) (fun _ => rfl) fun _ h => h
    split
    · exact first.kept (State.sendGo_at _ _ _)
    · exact first
  · exact s.modTxn_at a _ (fun _ => rfl) fun _ h => h
  · exact s.nodeFault_kept _ _ _
  · exact s.nodeFault_kept _ _ _
  · exact s.nodeFault_kept _ _ _
  · exact s.failTxn_kept _ _ _

theorem State.goCompletion_at (s : State) (a : Nat) (t : OpenTxn) (j : Judgement) :
    AtNode a NodeRec.Kept s (s.goCompletion a t j) := by
  unfold State.goCompletion
  split
  · exact (s.modTxn_at a (fun t =>
      { t with
        state := .acting
        deadline := some (s.mgt.lineTime + BitVec.ofNat 32 s.site.closureActLimit)
        actTimer := some s.site.closureActLimit }) (fun _ => rfl) fun _ h => h).same (State.claimClosure_same _ _ _)
  · exact s.failTxn_kept _ _ _
  all_goals exact s.nodeFault_kept _ _ _

theorem State.detailCompletion_at (s : State) (a : Nat) (t : OpenTxn) (j : Judgement) :
    AtNode a NodeRec.Kept s (s.detailCompletion a t j) := by
  unfold State.detailCompletion
  split <;> exact s.nodeFault_kept _ _ _

/-- A change of a node's marks, or back to READY. -/
theorem State.modMarks_at (s : State) (a : Nat) (f : NodeRec → NodeRec) (ht : ∀ n, (f n).txn = n.txn)
    (hw : ∀ n, (f n).waiting = n.waiting) (hf : ∀ n, (f n).faulted = true → n.faulted = true) :
    AtNode a NodeRec.Kept s (s.modNode a f) := by
  refine (s.modNode_at a f).imp ?_
  rintro n _ rfl
  refine ⟨⟨by simp [NodeRec.claims, ht, hw], by simp [hw]⟩, fun h => ⟨fun k => ?_, fun k => ?_⟩⟩
  · rw [ht]; exact h.faulted (hf n k)
  · rw [hw]; exact h.idle (by rw [← ht]; exact k)

theorem State.clearCompletion_at (s : State) (a : Nat) (j : Judgement) :
    AtNode a NodeRec.Kept s (s.clearCompletion a j) := by
  unfold State.clearCompletion
  simp only
  have first := s.modMarks_at a (fun n => { n with clearMark := false }) (fun _ => rfl) (fun _ => rfl) fun _ h => h
  split
  · exact ((first.kept (State.modMarks_at _ a (fun n => { n with faulted := false }) (fun _ => rfl) (fun _ => rfl)
      fun _ h => by cases h)).same (State.clear_same _ _ _)).same (State.report_same _ _)
  all_goals exact first.same (State.report_same _ _)

theorem State.dtxCompletion_at (s : State) (q : QueuedCommand) (ans : Answer) :
    AtNode q.address NodeRec.Kept s (s.dtxCompletion q ans) := by
  have refused := s.refuseIfDisallowed_same q ans .dtx
  unfold State.dtxCompletion
  repeat' split
  · exact refused.andThen (State.setCompletion_at _ _ _ _)
  · exact Same.rfl.kept _
  · exact refused.andThen (State.goCompletion_at _ _ _ _)
  · exact Same.rfl.kept _
  · exact refused.andThen (State.detailCompletion_at _ _ _ _)
  · exact Same.rfl.kept _
  · exact refused.kept _
  · exact refused.andThen (State.clearCompletion_at _ _ _)
  · exact Same.rfl.kept _

theorem State.closureDone_at (s : State) (a : Nat) (ws : List Word) : AtNode a NodeRec.Kept s (s.closureDone a ws) := by
  unfold State.closureDone
  repeat' split
  · exact (s.completeTxn_at _ _).imp fun _ _ h => h.kept
  · exact (s.report_same _).kept _
  · next h => exact s.startDetail_at _ _ _ _ (by assumption)
  all_goals exact (s.report_same _).kept _

theorem State.actExpiry_at (s : State) (a : Nat) : AtNode a NodeRec.Kept s (s.actExpiry a) := by
  unfold State.actExpiry
  repeat' split
  · exact s.startDetail_at _ _ _ _ (by assumption)
  all_goals exact Same.rfl.kept _

theorem State.retrySet_at (s : State) (a : Nat) : AtNode a NodeRec.Kept s (s.retrySet a) := by
  unfold State.retrySet
  simp only
  have first := s.modTxn_at a (fun t => { t with retry := false }) (fun _ => rfl) fun _ h => h
  repeat' split
  · exact (first.kept (State.failTxn_kept _ _ _ _)).same (State.silentExchange_same _ _)
  · exact first.same (State.pushCommand_same _ _)
  all_goals exact Same.rfl.kept _

theorem State.closurePoint_at (s : State) (e : BitVec 16) (k a : Nat) : AtNode a NodeRec.Kept s (s.closurePoint e k a) := by
  unfold State.closurePoint
  repeat' split
  · exact Same.rfl.kept _
  · exact s.sendGo_at _ _
  · exact (s.modTxn_at a (fun t => { t with late := true }) (fun _ => rfl) fun _ h => h).same (State.raise_same _ _ _)
  · exact Same.rfl.kept _
  · exact Same.rfl.kept _
  · exact Same.rfl.kept _
  · refine ((s.modNode_at a _).imp ?_).same (State.raise_same _ _ _)
    rintro n _ rfl
    have same : (n.waiting.map fun w => if w.entry = e ∧ w.point = k then { w with late := true } else w).map
        WaitEntry.entry = n.waiting.map WaitEntry.entry := by
      rw [List.map_map]
      congr 1
      funext w
      simp only [Function.comp]
      split <;> rfl
    refine ⟨⟨by simp only [NodeRec.claims, same]; exact List.Sublist.refl _, by simp only [same]; exact List.Sublist.refl _⟩,
      fun h => ⟨h.faulted, fun ht => ?_⟩⟩
    simp [h.idle ht]
  · exact Same.rfl.kept _

/-! ### The claims of all nodes shrink -/

/-- From s to t the claims shrink at every node, and records in order stay so. -/
structure Shrunk (s t : State) : Prop where
  gsw : t.gsw = s.gsw
  rsu : t.rsu = s.rsu
  path : t.trav.path = s.trav.path
  entries : ∀ e ∈ s.trn.train.map CabinRecord.entry, e ∈ t.trn.train.map CabinRecord.entry
  node : ∀ b n', t.node b = some n' → ∃ n, s.node b = some n ∧ n.Kept n'

theorem Shrunk.rfl {s : State} : Shrunk s s :=
  ⟨Eq.refl _, Eq.refl _, Eq.refl _, fun _ h => h, fun _ n h => ⟨n, h, NodeRec.Kept.rfl⟩⟩

theorem AtNode.shrunk {a : Nat} {s t : State} (h : AtNode a NodeRec.Kept s t) : Shrunk s t := by
  refine ⟨h.gsw, h.rsu, h.path, h.entries, fun b n' hn => ?_⟩
  by_cases hb : b = a
  · subst hb; exact h.here n' hn
  · exact ⟨n', by rw [← h.others b hb]; exact hn, NodeRec.Kept.rfl⟩

theorem Same.shrunk {s t : State} (h : Same s t) : Shrunk s t := (h.kept 0).shrunk

theorem Shrunk.trans {s t u : State} (a : Shrunk s t) (b : Shrunk t u) : Shrunk s u := by
  refine ⟨by rw [b.gsw, a.gsw], by rw [b.rsu, a.rsu], by rw [b.path, a.path], fun e h => b.entries e (a.entries e h),
    fun k n' hn => ?_⟩
  obtain ⟨m, hm, h1⟩ := b.node k n' hn
  obtain ⟨n, hn, h2⟩ := a.node k m hm
  exact ⟨n, hn, h2.trans h1⟩

/-- What is left of the order of DTX where the train may have lost records that no wait entry names. -/
theorem Shrunk.dtxOk {s t : State} (h : Shrunk s t) (k : DtxOk s)
    (held : ∀ a n, t.node a = some n → ∀ w ∈ n.waiting, w.entry ∈ t.trn.train.map CabinRecord.entry) : DtxOk t := by
  refine ⟨fun a n hn => ?_, fun a n hn => ?_, fun a b m n e hm hn he he' => ?_, held⟩
  · obtain ⟨x, hx, hk⟩ := h.node a n hn
    exact hk.ok (k.nodes a x hx)
  · obtain ⟨x, hx, hk⟩ := h.node a n hn
    exact (k.once a x hx).sublist hk.claims
  · obtain ⟨x, hx, hk⟩ := h.node a m hm
    obtain ⟨y, hy, hk'⟩ := h.node b n hn
    exact k.apart a b x y e hx hy (hk.claims.subset he) (hk'.claims.subset he')

theorem Shrunk.held {s t : State} (h : Shrunk s t) (k : DtxOk s) (a : Nat) (n : NodeRec) (hn : t.node a = some n)
    (w : WaitEntry) (hw : w ∈ n.waiting) : w.entry ∈ s.trn.train.map CabinRecord.entry := by
  obtain ⟨x, hx, hk⟩ := h.node a n hn
  obtain ⟨y, hy, he⟩ := List.mem_map.1 (hk.waits.subset (List.mem_map_of_mem hw))
  rw [← he]
  exact k.held a x hx y hy

theorem Shrunk.lists {s t : State} (h : Shrunk s t) : Lists s t where
  dtx := fun _ k => h.dtxOk k fun a n hn w hw => h.entries _ (h.held k a n hn w hw)
  gsw := fun _ k => ⟨by rw [h.gsw]; exact k.expectations, by rw [h.gsw]; exact fun e he => h.entries e (k.expected e he),
    by rw [h.gsw]; exact k.claims, by rw [h.gsw]; exact fun c hc => h.entries _ (k.claimed c hc)⟩
  rsu := fun _ => by rw [h.rsu]; exact id
  path := fun _ => by unfold PathOk; rw [h.path]; exact id

theorem AtNode.lists {a : Nat} {s t : State} (h : AtNode a NodeRec.Kept s t) : Lists s t := h.shrunk.lists

/-! ### Leaving (R78) -/

theorem State.unlist_at (s : State) (a : Nat) (e : BitVec 16) :
    AtNode a (fun n n' => n.Kept n' ∧ ∀ w ∈ n'.waiting, w.entry ≠ e) s (s.unlist a e) := by
  refine (s.modNode_at a _).imp ?_
  rintro n _ rfl
  have sub : ((n.waiting.filter fun w => decide (w.entry ≠ e)).map WaitEntry.entry).Sublist
      (n.waiting.map WaitEntry.entry) := List.Sublist.map _ List.filter_sublist
  refine ⟨⟨⟨?_, sub⟩, fun h => ⟨h.faulted, fun ht => by simp [h.idle ht]⟩⟩, fun w hw => ?_⟩
  · exact List.Sublist.append (List.Sublist.refl _) sub
  · simpa using (List.mem_filter.1 hw).2

theorem State.nodeLeave_at (e : BitVec 16) (s : State) (a : Nat) :
    AtNode a (fun n n' => n.Kept n' ∧ ∀ w ∈ n'.waiting, w.entry ≠ e) s (State.nodeLeave e s a) := by
  unfold State.nodeLeave
  simp only
  have first := s.unlist_at a e
  repeat' split
  · refine first.comp (State.cancelTxn_at _ _ _) ?_
    rintro n m n' ⟨h1, h2⟩ h3
    refine ⟨h1.trans h3.kept, fun w hw he => ?_⟩
    obtain ⟨x, hx, hxe⟩ := List.mem_map.1 (h3.waits.subset (List.mem_map_of_mem hw))
    exact h2 x hx (by rw [hxe, he])
  all_goals exact first

/-- A record that leaves is named by no wait entry any more. -/
theorem State.nodesLeave_shrunk (e : BitVec 16) (l : List Nat) : ∀ s : State,
    Shrunk s (l.foldl (State.nodeLeave e) s) ∧
      ∀ a ∈ l, ∀ n, (l.foldl (State.nodeLeave e) s).node a = some n → ∀ w ∈ n.waiting, w.entry ≠ e := by
  induction l with
  | nil => exact fun s => ⟨Shrunk.rfl, by simp⟩
  | cons b l ih =>
    intro s
    have step := s.nodeLeave_at e b
    obtain ⟨h1, h2⟩ := ih (State.nodeLeave e s b)
    refine ⟨(step.imp fun _ _ h => h.1).shrunk.trans h1, fun a ha n hn w hw he => ?_⟩
    rcases List.mem_cons.1 ha with rfl | ha
    · obtain ⟨m, hm, hk⟩ := h1.node a n hn
      obtain ⟨x, hx, hxe⟩ := List.mem_map.1 (hk.waits.subset (List.mem_map_of_mem hw))
      obtain ⟨_, _, hy⟩ := step.here m hm
      exact hy.2 x hx (by rw [hxe, he])
    · exact h2 a ha n hn w hw he

theorem State.closureLeave_shrunk (s : State) (e : BitVec 16) : Shrunk s (s.closureLeave e) ∧
    ∀ a n, (s.closureLeave e).node a = some n → ∀ w ∈ n.waiting, w.entry ≠ e := by
  obtain ⟨h1, h2⟩ := State.nodesLeave_shrunk e nodeAddresses s
  have last := State.clear_same (nodeAddresses.foldl (State.nodeLeave e) s) .closureLate (.cabin e)
  refine ⟨h1.trans last.shrunk, fun a n hn => ?_⟩
  have hn : (nodeAddresses.foldl (State.nodeLeave e) s).node a = some n := by rw [← last.node]; exact hn
  exact h2 a (State.node_mem hn) n hn

/-! ### Overtaking and new claims (R68, R69) -/

theorem State.openClaim_some {s : State} {e : BitVec 16} {a : Nat} {t : OpenTxn} (h : s.openClaim e = some (a, t)) :
    s.txnAt a = some t ∧ t.entry = e ∧ t.overtaken = false := by
  obtain ⟨b, _, hb⟩ := List.exists_of_findSome?_eq_some h
  split at hb
  · split at hb
    · cases hb
      exact ⟨by assumption, by assumption⟩
    · cases hb
  · cases hb

theorem State.openClaim_none {s : State} {e : BitVec 16} (h : s.openClaim e = none) {a : Nat} {t : OpenTxn}
    (ht : s.txnAt a = some t) (he : t.entry = e) : t.overtaken = true := by
  have mem : a ∈ nodeAddresses := by
    unfold State.txnAt at ht
    cases hn : s.node a with
    | none => rw [hn] at ht; cases ht
    | some n => exact State.node_mem hn
  have := List.findSome?_eq_none_iff.1 h a mem
  rw [ht] at this
  cases ho : t.overtaken <;> simp_all

theorem State.waitClaim_none {s : State} {e : BitVec 16} (h : s.waitClaim e = none) {a : Nat} {n : NodeRec}
    (hn : s.node a = some n) : ∀ w ∈ n.waiting, w.entry ≠ e := by
  have := List.findSome?_eq_none_iff.1 h a (State.node_mem hn)
  rw [hn] at this
  simpa [List.find?_eq_none] using this

theorem State.waitClaim_some {s : State} {e : BitVec 16} {a : Nat} {w : WaitEntry} (h : s.waitClaim e = some (a, w)) :
    ∃ n, s.node a = some n ∧ w ∈ n.waiting ∧ w.entry = e := by
  obtain ⟨b, _, hb⟩ := List.exists_of_findSome?_eq_some h
  split at hb
  · next n hn =>
    obtain ⟨x, hx, hxa⟩ := Option.map_eq_some_iff.1 hb
    cases hxa
    exact ⟨n, hn, List.mem_of_find?_eq_some hx,
      by simpa using List.find?_some (p := fun w : WaitEntry => decide (w.entry = e)) hx⟩
  · cases hb

theorem NodeRec.mem_claims {n : NodeRec} {e : BitVec 16} :
    e ∈ n.claims ↔ (∃ t, n.txn = some t ∧ t.overtaken = false ∧ t.entry = e) ∨ ∃ w ∈ n.waiting, w.entry = e := by
  unfold NodeRec.claims
  rw [List.mem_append, List.mem_map]
  refine or_congr ?_ Iff.rfl
  cases n.txn with
  | none => simp
  | some t =>
    by_cases h : t.overtaken = true
    · simp [h]
    · have ho : t.overtaken = false := by simpa using h
      simp only [ho, Bool.false_eq_true, if_false, List.mem_singleton]
      exact ⟨fun k => ⟨t, rfl, ho, k.symm⟩, fun ⟨x, k1, _, k2⟩ => by cases k1; exact k2.symm⟩

theorem State.txnAt_eq {s : State} {a : Nat} {n : NodeRec} (h : s.node a = some n) : s.txnAt a = n.txn := by
  unfold State.txnAt; rw [h]; rfl

/-- Once a lead has overtaken an earlier claim of the cabin, no claim is the cabin's. -/
theorem State.overtake_shrunk (s : State) (e : BitVec 16) : Shrunk s (s.overtake e) ∧
    (DtxOk s → ∀ a n, (s.overtake e).node a = some n → e ∉ n.claims) := by
  unfold State.overtake
  split
  · next a t ho =>
    obtain ⟨ht, hte, hto⟩ := State.openClaim_some ho
    simp only
    have step : AtNode a (fun n n' => n.Kept n' ∧ (n.txn = some t → n.claims.Nodup → e ∉ n'.claims)) s
        ((if t.state = .detailing then s.modTxn a fun t => { t with overtaken := true } else s.cancelTxn a t).reportOvertaken
          a t.claim) := by
      refine AtNode.same ?_ (State.reportOvertaken_same _ _ _)
      have waits : ∀ n : NodeRec, n.txn = some t → n.claims.Nodup → e ∉ n.waiting.map WaitEntry.entry := by
        intro n hn nd
        unfold NodeRec.claims at nd
        rw [hn] at nd
        simp only [hto, Bool.false_eq_true, if_false, List.singleton_append, List.nodup_cons] at nd
        rw [← hte]
        exact nd.1
      split
      · have k := s.modTxn_at a (fun t => { t with overtaken := true }) (fun _ => rfl) (fun _ h => by cases h)
        have m := s.modNode_at a fun n => { n with txn := n.txn.map fun t => { t with overtaken := true } }
        refine ⟨k.gsw, k.rsu, k.path, k.entries, k.others, fun n' hn => ?_⟩
        obtain ⟨n, hs, hk⟩ := k.here n' hn
        obtain ⟨x, hx, rfl⟩ := m.here n' hn
        rw [hs] at hx
        cases hx
        refine ⟨n, hs, hk, fun h1 h2 => ?_⟩
        have := waits n h1 h2
        simpa [NodeRec.claims, h1] using this
      · exact (s.cancelTxn_at a t).imp fun n n' h => ⟨h.kept, fun h1 h2 h3 => waits n h1 h2 (h.claims.subset h3)⟩
    refine ⟨(step.imp fun _ _ h => h.1).shrunk, fun k b n hn he => ?_⟩
    by_cases hb : b = a
    · subst hb
      obtain ⟨x, hx, _, h⟩ := step.here n hn
      rw [State.txnAt_eq hx] at ht
      exact h ht (k.once _ x hx) he
    · rw [step.others b hb] at hn
      cases hx : s.node a with
      | none => unfold State.txnAt at ht; rw [hx] at ht; cases ht
      | some x =>
        rw [State.txnAt_eq hx] at ht
        exact hb (k.apart b a n x e hn hx he (NodeRec.mem_claims.2 (Or.inl ⟨t, ht, hto, hte⟩)))
  · next ho =>
    have none_open : ∀ a n, s.node a = some n → ∀ t, n.txn = some t → t.overtaken = false → t.entry ≠ e := by
      intro a n hn t ht h1 h2
      have := State.openClaim_none ho (by rw [State.txnAt_eq hn]; exact ht) h2
      rw [h1] at this
      cases this
    split
    · next a w hw =>
      have step := (s.unlist_at a e).same (State.reportOvertaken_same _ a w)
      refine ⟨(step.imp fun _ _ h => h.1).shrunk, fun k b n hn he => ?_⟩
      obtain ⟨x, hx, hxw, hxe⟩ := State.waitClaim_some hw
      by_cases hb : b = a
      · subst hb
        obtain ⟨y, hy, h1, h2⟩ := step.here n hn
        have m := ((s.modNode_at b fun n =>
          { n with waiting := n.waiting.filter fun w => decide (w.entry ≠ e) }).same
            (State.reportOvertaken_same _ b w)).here n hn
        obtain ⟨z, hz, rfl⟩ := m
        rcases NodeRec.mem_claims.1 he with ⟨t, ht, h3, h4⟩ | ⟨v, hv, hve⟩
        · exact none_open b z hz t ht h3 h4
        · exact h2 v hv hve
      · rw [step.others b hb] at hn
        exact hb (k.apart b a n x e hn hx he (NodeRec.mem_claims.2 (Or.inr ⟨w, hxw, hxe⟩)))
    · next hw =>
      refine ⟨Shrunk.rfl, fun _ b n hn he => ?_⟩
      rcases NodeRec.mem_claims.1 he with ⟨t, ht, h3, h4⟩ | ⟨v, hv, hve⟩
      · exact none_open b n hn t ht h3 h4
      · exact State.waitClaim_none hw hn v hv hve

/-- A claim of a record of the train is added at node a, where no node holds one of it. -/
theorem AtNode.added {a : Nat} {e : BitVec 16} {s t : State}
    (h : AtNode a (fun n n' => n.Ok → n.claims.Nodup → e ∉ n.claims →
      n'.Ok ∧ n'.claims.Nodup ∧ (∀ x ∈ n'.claims, x = e ∨ x ∈ n.claims) ∧
        ∀ w ∈ n'.waiting, w.entry = e ∨ ∃ v ∈ n.waiting, v.entry = w.entry) s t)
    (he : e ∈ s.trn.train.map CabinRecord.entry) (k : DtxOk s) (hf : ∀ b n, s.node b = some n → e ∉ n.claims) :
    DtxOk t := by
  have here : ∀ n', t.node a = some n' → ∃ n, s.node a = some n ∧ n'.Ok ∧ n'.claims.Nodup ∧
      (∀ x ∈ n'.claims, x = e ∨ x ∈ n.claims) ∧ ∀ w ∈ n'.waiting, w.entry = e ∨ ∃ v ∈ n.waiting, v.entry = w.entry := by
    intro n' hn
    obtain ⟨n, hs, hp⟩ := h.here n' hn
    exact ⟨n, hs, hp (k.nodes a n hs) (k.once a n hs) (hf a n hs)⟩
  have both : ∀ b m, b ≠ a → t.node b = some m → ∀ n', t.node a = some n' → ∀ x, x ∈ m.claims → x ∉ n'.claims := by
    intro b m hb hm n' hn x hx hx'
    rw [h.others b hb] at hm
    obtain ⟨n, hs, _, _, hc, _⟩ := here n' hn
    rcases hc x hx' with rfl | hc
    · exact hf b m hm hx
    · exact hb (k.apart b a m n x hm hs hx hc)
  refine ⟨fun b n hn => ?_, fun b n hn => ?_, fun b c m n x hm hn hx hx' => ?_, fun b n hn w hw => ?_⟩
  · by_cases hb : b = a
    · subst hb; obtain ⟨_, _, ok, _⟩ := here n hn; exact ok
    · exact k.nodes b n (by rw [← h.others b hb]; exact hn)
  · by_cases hb : b = a
    · subst hb; obtain ⟨_, _, _, nd, _⟩ := here n hn; exact nd
    · exact k.once b n (by rw [← h.others b hb]; exact hn)
  · by_cases hb : b = a
    · by_cases hc : c = a
      · rw [hb, hc]
      · subst hb; exact absurd hx (both c n hc hn m hm x hx')
    · by_cases hc : c = a
      · subst hc; exact absurd hx' (both b m hb hm n hn x hx)
      · rw [h.others b hb] at hm
        rw [h.others c hc] at hn
        exact k.apart b c m n x hm hn hx hx'
  · by_cases hb : b = a
    · subst hb
      obtain ⟨x, hx, _, _, _, hq⟩ := here n hn
      rcases hq w hw with hq | ⟨v, hv, hq⟩
      · rw [hq]; exact h.entries _ he
      · rw [← hq]; exact h.entries _ (k.held b x hx v hv)
    · exact h.entries _ (k.held b n (by rw [← h.others b hb]; exact hn) w hw)

theorem placeBehind_perm {α : Type} (p : α → Bool) (x : α) (l : List α) : (placeBehind p x l).Perm (x :: l) := by
  induction l with
  | nil => exact List.Perm.refl _
  | cons y ys ih =>
    unfold placeBehind
    split
    · exact (List.Perm.cons y ih).trans (List.Perm.swap x y ys)
    · exact List.Perm.refl _

theorem State.closureLead_lists (s : State) (e : BitVec 16) (c : ClosureAction) (k a : Nat)
    (he : e ∈ s.trn.train.map CabinRecord.entry) : Lists s (s.closureLead e c k a) := by
  obtain ⟨h1, h2⟩ := s.overtake_shrunk e
  unfold State.closureLead
  simp only
  generalize s.overtake e = u at h1 h2
  have he' := h1.entries e he
  have add : ∀ t P, AtNode a P u t → (∀ n n', u.node a = some n → P n n' → n.Ok → n.claims.Nodup → e ∉ n.claims →
      n'.Ok ∧ n'.claims.Nodup ∧ (∀ x ∈ n'.claims, x = e ∨ x ∈ n.claims) ∧
        ∀ w ∈ n'.waiting, w.entry = e ∨ ∃ v ∈ n.waiting, v.entry = w.entry) → Lists s t := by
    intro t P at_ hp
    have same : Shrunk s u := h1
    refine ⟨fun ht k => ?_, fun ht k => ?_, fun ht => ?_, fun ht => ?_⟩
    · refine AtNode.added (a := a) (e := e) ?_ he' (same.lists.dtx ht k) (h2 k)
      refine ⟨at_.gsw, at_.rsu, at_.path, at_.entries, at_.others, fun n' hn => ?_⟩
      obtain ⟨n, hs, hq⟩ := at_.here n' hn
      exact ⟨n, hs, hp n n' hs hq⟩
    · have := same.lists.gsw ht k
      exact ⟨by rw [at_.gsw]; exact this.expectations,
        by rw [at_.gsw]; exact fun x hx => at_.entries x (this.expected x hx),
        by rw [at_.gsw]; exact this.claims, by rw [at_.gsw]; exact fun x hx => at_.entries _ (this.claimed x hx)⟩
    · rw [at_.rsu]; exact same.lists.rsu ht
    · unfold PathOk; rw [at_.path]; exact same.lists.path ht
  cases hn : u.node a with
  | none => exact h1.lists
  | some n =>
    simp only
    split
    · exact (h1.trans (State.failAtFaulted_same _ _ _).shrunk).lists
    · next hf =>
      cases ht : n.txn with
      | none =>
        simp only
        refine add _ _ (u.serve_at a _) ?_
        intro m n' hm h ok _ _
        rw [hn] at hm
        cases hm
        have hw := ok.idle ht
        rw [hw] at h
        obtain ⟨q1, q2, q3⟩ := h (by simpa using hf) ht
        refine ⟨q3, List.Nodup.sublist q1 (by simp), fun x hx => ?_, fun w hw => ?_⟩
        · exact Or.inl (by simpa using q1.subset hx)
        · exact Or.inl (by simpa using q2.subset (List.mem_map_of_mem hw))
      | some t =>
        simp only
        refine add _ _ (u.modNode_at a _) ?_
        rintro m _ hm rfl ok nd fresh
        rw [hn] at hm
        cases hm
        have perm := placeBehind_perm (fun y => u.ahead y.entry e)
          ({ entry := e, action := c, point := k, late := false } : WaitEntry) n.waiting
        generalize placeBehind (fun y => u.ahead y.entry e)
          ({ entry := e, action := c, point := k, late := false } : WaitEntry) n.waiting = ws at perm
        have cl : (NodeRec.claims { n with waiting := ws }).Perm (e :: n.claims) := by
          unfold NodeRec.claims
          exact (List.Perm.append_left _ (perm.map WaitEntry.entry)).trans List.perm_middle
        refine ⟨⟨ok.faulted, fun hx => by rw [ht] at hx; cases hx⟩, ?_, fun x hx => ?_, fun w hw => ?_⟩
        · exact cl.nodup_iff.2 (List.nodup_cons.2 ⟨fresh, nd⟩)
        · simpa using cl.subset hx
        · rcases List.mem_cons.1 (perm.subset hw) with rfl | hw
          · exact Or.inl rfl
          · exact Or.inr ⟨w, hw, rfl⟩

end Sys2Proof.Machine
end

