-- ==== Sys2Proof/Laws/Cabins.lean ====
section
/-! SUPPORT. What TRAV's schedule, DTX, GSW and TRN keep in order. -/

namespace Sys2Proof.Machine

/-! ### The schedule -/

/-- A change of the schedule that names only records of the train. -/
theorem State.modSchedule_keep (s : State) (f : Trav → Trav)
    (h : (∀ e ∈ s.trav.schedule, e.entry ∈ s.trn.train.map CabinRecord.entry) →
      ∀ e ∈ (f s.trav).schedule, e.entry ∈ s.trn.train.map CabinRecord.entry)
    (hp : (f s.trav).path = s.trav.path := by rfl) : Keep s (s.modTrav f) :=
  ⟨⟨rfl, rfl, Or.inl rfl, id, id, id, id, id, id, id, fun k => ⟨k.distinct, k.room, k.cabins, h k.named⟩⟩,
    Lists.ofEq rfl rfl rfl hp rfl⟩

theorem State.addSched_keep (s : State) (e : SchedEntry) (h : e.entry ∈ s.trn.train.map CabinRecord.entry) :
    Keep s (s.addSched e) := by
  refine s.modSchedule_keep _ fun hn x hx => ?_
  rcases List.mem_append.1 hx with hx | hx
  · exact hn x hx
  · rw [List.mem_singleton.1 hx]; exact h

theorem State.dropWindowEnd_keep (s : State) (entry : BitVec 16) (k : Nat) : Keep s (s.dropWindowEnd entry k) :=
  s.modSchedule_keep _ fun hn x hx => hn x (List.mem_filter.1 hx).1

@[simp] theorem State.addSched_trn (s : State) (e : SchedEntry) : (s.addSched e).trn = s.trn := rfl

theorem State.endSupervision_keep (s : State) (entry : BitVec 16) (k : Nat) : Keep s (s.endSupervision entry k) :=
  s.claimRecord_keep entry _ (fun _ => rfl) fun _ => rfl

@[simp] theorem State.schedulePoint_trn (s : State) (entry : BitVec 16) (c : BitVec 24) (k : Nat) :
    (s.schedulePoint entry c k).trn = s.trn := by
  unfold State.schedulePoint
  simp only
  repeat' split
  all_goals rfl

theorem State.schedulePoint_keep (s : State) (entry : BitVec 16) (c : BitVec 24) (k : Nat)
    (h : entry ∈ s.trn.train.map CabinRecord.entry) : Keep s (s.schedulePoint entry c k) := by
  unfold State.schedulePoint
  simp only
  repeat' split
  · exact Keep.rfl
  · exact (s.addSched_keep _ h).trans (State.addSched_keep _ _ h)
  · exact s.addSched_keep _ h

theorem State.scheduleRecord_keep (s : State) (entry : BitVec 16) (c : BitVec 24) (k : Nat)
    (h : entry ∈ s.trn.train.map CabinRecord.entry) : Keep s (s.scheduleRecord entry c k) :=
  (s.schedulePoint_keep entry c _ h).trans (State.endSupervision_keep _ _ _)

/-- A record leaves the train together with its schedule entries. -/
theorem State.dropRecord_calm (s : State) (entry : BitVec 16) :
    Calm s ((s.modTrn fun t => { t with train := t.train.filter fun r => decide (r.entry ≠ entry) }).modTrav fun t =>
      { t with schedule := t.schedule.filter fun e => decide (e.entry ≠ entry) }) := by
  refine ⟨rfl, rfl, Or.inl rfl, id, id, id, id, id, ?_, id, ?_⟩
  · intro h hq
    have := h hq
    simp only [State.modTrav_trn, State.modTrn_trn, State.modTrav_smt, State.modTrn_smt, this, List.filter_nil, true_and]
  · intro h
    refine ⟨?_, ?_, ?_, ?_⟩
    · exact h.distinct.sublist (List.Sublist.map _ List.filter_sublist)
    · exact Nat.le_trans (List.length_filter_le _ _) h.room
    · intro a ha b hb
      exact h.cabins a (List.mem_filter.1 ha).1 b (List.mem_filter.1 hb).1
    · intro e he
      obtain ⟨he, hne⟩ := List.mem_filter.1 he
      obtain ⟨r, hr, hre⟩ := List.mem_map.1 (h.named e he)
      refine List.mem_map.2 ⟨r, List.mem_filter.2 ⟨hr, ?_⟩, hre⟩
      rw [hre]; exact hne

/-! ### DTX -/

theorem State.modNode_calm (s : State) (a : Nat) (f : NodeRec → NodeRec) : Calm s (s.modNode a f) := s.modDtx_calm _

theorem State.modTxn_calm (s : State) (a : Nat) (f : OpenTxn → OpenTxn) : Calm s (s.modTxn a f) := s.modNode_calm _ _

@[simp] theorem State.modNode_slc (s : State) (a : Nat) (f : NodeRec → NodeRec) : (s.modNode a f).slc = s.slc := rfl
@[simp] theorem State.modTxn_slc (s : State) (a : Nat) (f : OpenTxn → OpenTxn) : (s.modTxn a f).slc = s.slc := rfl

/-- Whether the urgent queue is full depends on SLC alone. -/
theorem State.urgentFull_of_slc {s t : State} (h : t.slc = s.slc) : t.urgentFull = s.urgentFull := by
  unfold State.urgentFull; rw [h]

theorem State.openTxn_calm (s : State) (a : Nat) (w : WaitEntry) (h : s.urgentFull = false) :
    Calm s (s.openTxn a w) := by
  unfold State.openTxn
  simp only
  refine (s.modDtx_calm _).trans (Calm.trans (State.modNode_calm _ a _) (State.pushCommand_keep _ _ ?_).toCalm)
  rw [← h]; exact State.urgentFull_of_slc rfl

theorem State.failClaim_calm (s : State) (a : Nat) (w : WaitEntry) (e : ClosureEnding) : Calm s (s.failClaim a w e) :=
  (s.claimClosure_keep _ _).toCalm.trans (State.report_keep _ _).toCalm

theorem State.failAtFaulted_calm (s : State) (a : Nat) (w : WaitEntry) : Calm s (s.failAtFaulted a w) :=
  ((s.claimClosure_keep _ _).toCalm.trans (State.raise_keep _ .closureFault (.node a) rfl).toCalm).trans (State.report_keep _ _).toCalm

theorem State.serve_calm (a : Nat) (ws : List WaitEntry) : ∀ s : State, Calm s (s.serve a ws) := by
  induction ws with
  | nil => exact fun s => s.modNode_calm a _
  | cons w rest ih =>
    intro s
    unfold State.serve
    simp only
    split
    · exact (((State.modNode_calm ..).trans (State.failClaim_calm ..)).trans (ih _)).trans (State.silentExchange_keep ..).toCalm
    · next h => exact (State.modNode_calm ..).trans (State.openTxn_calm _ _ _ (by simpa using h))

theorem State.drain_calm (a : Nat) (ws : List WaitEntry) : ∀ s : State, Calm s (s.drain a ws) := by
  induction ws with
  | nil => exact fun _ => Calm.rfl
  | cons w rest ih =>
    intro s
    exact ((s.failAtFaulted_calm a w).trans (State.modNode_calm _ a _)).trans (ih _)

theorem State.closeTxn_calm (s : State) (a : Nat) : Calm s (s.closeTxn a) := by
  unfold State.closeTxn
  simp only
  repeat' split
  all_goals
    with_reducible
      repeat
        first
        | exact Calm.rfl
        | refine Calm.trans ?_ (State.drain_calm ..)
        | refine Calm.trans ?_ (State.serve_calm ..)
        | refine Calm.trans ?_ (State.modNode_calm ..)

theorem State.applyKindChange_calm (s : State) (a : Nat) : Calm s (s.applyKindChange a) :=
  (s.modNode_calm a _).trans (State.clear_keep _ _ _).toCalm

theorem State.kindChanged_calm (s : State) (a : Nat) : Calm s (s.kindChanged a) := by
  unfold State.kindChanged
  split
  · exact s.modNode_calm a _
  · exact s.applyKindChange_calm a

theorem State.applyWaitingChange_calm (s : State) (a : Nat) : Calm s (s.applyWaitingChange a) := by
  unfold State.applyWaitingChange
  repeat' split
  · exact s.applyKindChange_calm a
  all_goals exact Calm.rfl

theorem State.failTxn_calm (s : State) (a : Nat) (t : OpenTxn) (e : ClosureEnding) : Calm s (s.failTxn a t e) :=
  (s.failClaim_calm _ _ _).trans (State.closeTxn_calm _ _)

theorem State.nodeFault_calm (s : State) (a : Nat) (t : OpenTxn) (r : Report) : Calm s (s.nodeFault a t r) := by
  unfold State.nodeFault
  simp only
  all_goals
    with_reducible
      repeat
        first
        | exact Calm.rfl
        | refine Calm.trans ?_ (State.applyWaitingChange_calm ..)
        | refine Calm.trans ?_ (State.closeTxn_calm ..)
        | refine Calm.trans ?_ (State.report_keep ..).toCalm
        | refine Calm.trans ?_ (State.raise_keep _ _ _ rfl).toCalm
        | refine Calm.trans ?_ (State.modNode_calm ..)
        | refine Calm.trans ?_ (State.claimClosure_keep ..).toCalm

theorem State.completeTxn_calm (s : State) (a : Nat) (t : OpenTxn) : Calm s (s.completeTxn a t) :=
  (s.claimClosure_keep _ _).toCalm.trans (State.closeTxn_calm _ _)

theorem State.cancelTxn_calm (s : State) (a : Nat) (t : OpenTxn) : Calm s (s.cancelTxn a t) := by
  unfold State.cancelTxn
  simp only
  repeat' split
  all_goals
    with_reducible
      repeat
        first
        | exact Calm.rfl
        | refine Calm.trans ?_ (State.closeTxn_calm ..)
        | refine Calm.trans ?_ (State.silentExchange_keep ..).toCalm
        | refine Calm.trans ?_ (State.pushCommand_keep _ _ (by simp_all)).toCalm

theorem State.sendGo_calm (s : State) (a : Nat) (t : OpenTxn) : Calm s (s.sendGo a t) := by
  unfold State.sendGo
  simp only
  repeat' split
  all_goals
    with_reducible
      repeat
        first
        | exact Calm.rfl
        | refine Calm.trans ?_ (State.silentExchange_keep ..).toCalm
        | refine Calm.trans ?_ (State.failTxn_calm ..)
        | refine Calm.trans ?_ (State.pushCommand_keep _ _ (by simp_all)).toCalm
        | refine Calm.trans ?_ (State.modTxn_calm ..)

theorem State.endDetail_calm (s : State) (a : Nat) (t : OpenTxn) (m : Bool) (w : Word × Word) :
    Calm s (s.endDetail a t m w) := s.nodeFault_calm _ _ _

theorem State.startDetail_calm (s : State) (a : Nat) (t : OpenTxn) (c : DetailCause) (w : Word × Word) : Calm s (s.startDetail a t c w) := by
  unfold State.startDetail
  simp only
  repeat' split
  all_goals
    with_reducible
      repeat
        first
        | exact Calm.rfl
        | refine Calm.trans ?_ (State.silentExchange_keep ..).toCalm
        | refine Calm.trans ?_ (State.endDetail_calm ..)
        | refine Calm.trans ?_ (State.pushCommand_keep _ _ (by simp_all)).toCalm
        | refine Calm.trans ?_ (State.modNode_calm ..)

theorem State.setCompletion_calm (s : State) (a : Nat) (t : OpenTxn) (j : Judgement) : Calm s (s.setCompletion a t j) := by
  unfold State.setCompletion
  simp only
  repeat' split
  all_goals
    with_reducible
      repeat
        first
        | exact Calm.rfl
        | refine Calm.trans ?_ (State.sendGo_calm ..)
        | refine Calm.trans ?_ (State.modTxn_calm ..)
        | refine Calm.trans ?_ (State.nodeFault_calm ..)
        | refine Calm.trans ?_ (State.failTxn_calm ..)

theorem State.goCompletion_calm (s : State) (a : Nat) (t : OpenTxn) (j : Judgement) : Calm s (s.goCompletion a t j) := by
  unfold State.goCompletion
  simp only
  repeat' split
  all_goals
    with_reducible
      repeat
        first
        | exact Calm.rfl
        | refine Calm.trans ?_ (State.claimClosure_keep ..).toCalm
        | refine Calm.trans ?_ (State.modTxn_calm ..)
        | refine Calm.trans ?_ (State.nodeFault_calm ..)
        | refine Calm.trans ?_ (State.failTxn_calm ..)

theorem State.detailCompletion_calm (s : State) (a : Nat) (t : OpenTxn) (j : Judgement) :
    Calm s (s.detailCompletion a t j) := by
  unfold State.detailCompletion
  split <;> exact s.endDetail_calm _ _ _ _

theorem State.clearCompletion_calm (s : State) (a : Nat) (j : Judgement) : Calm s (s.clearCompletion a j) := by
  unfold State.clearCompletion
  simp only
  repeat' split
  all_goals
    with_reducible
      repeat
        first
        | exact Calm.rfl
        | refine Calm.trans ?_ (State.report_keep ..).toCalm
        | refine Calm.trans ?_ (State.clear_keep ..).toCalm
        | refine Calm.trans ?_ (State.modNode_calm ..)

theorem State.refuseAnswer_calm (s : State) (q : QueuedCommand) (ans : Answer) (b : RefusingBlock) :
    Calm s (s.refuseAnswer q ans b) := by
  unfold State.refuseAnswer
  split
  · exact (s.refuseFrame_keep _ _ _).toCalm
  all_goals exact Calm.rfl

theorem State.refuseIfDisallowed_calm (s : State) (q : QueuedCommand) (ans : Answer) (b : RefusingBlock) :
    Calm s (s.refuseIfDisallowed q ans b) := by
  unfold State.refuseIfDisallowed
  split
  · exact s.refuseAnswer_calm _ _ _
  · exact Calm.rfl

theorem State.dtxCompletion_calm (s : State) (q : QueuedCommand) (ans : Answer) : Calm s (s.dtxCompletion q ans) := by
  unfold State.dtxCompletion
  repeat' split
  · exact (s.refuseIfDisallowed_calm _ _ _).trans (State.setCompletion_calm _ _ _ _)
  · exact Calm.rfl
  · exact (s.refuseIfDisallowed_calm _ _ _).trans (State.goCompletion_calm _ _ _ _)
  · exact Calm.rfl
  · exact (s.refuseIfDisallowed_calm _ _ _).trans (State.detailCompletion_calm _ _ _ _)
  · exact Calm.rfl
  · exact s.refuseIfDisallowed_calm _ _ _
  · exact (s.refuseIfDisallowed_calm _ _ _).trans (State.clearCompletion_calm _ _ _)
  · exact Calm.rfl

theorem State.unlist_calm (s : State) (a : Nat) (e : BitVec 16) : Calm s (s.unlist a e) := s.modNode_calm a _

theorem State.reportOvertaken_calm (s : State) (a : Nat) (w : WaitEntry) : Calm s (s.reportOvertaken a w) :=
  (s.raise_keep _ _ rfl).toCalm.trans (State.report_keep _ _).toCalm

theorem State.overtake_calm (s : State) (e : BitVec 16) : Calm s (s.overtake e) := by
  unfold State.overtake
  simp only
  repeat' split
  all_goals
    with_reducible
      repeat
        first
        | exact Calm.rfl
        | refine Calm.trans ?_ (State.reportOvertaken_calm ..)
        | refine Calm.trans ?_ (State.modTxn_calm ..)
        | refine Calm.trans ?_ (State.cancelTxn_calm ..)
        | refine Calm.trans ?_ (State.unlist_calm ..)

theorem State.closureLead_calm (s : State) (e : BitVec 16) (c : ClosureAction) (k a : Nat) : Calm s (s.closureLead e c k a) := by
  unfold State.closureLead
  simp only
  repeat' split
  all_goals
    with_reducible
      repeat
        first
        | exact Calm.rfl
        | refine Calm.trans ?_ (State.failAtFaulted_calm ..)
        | refine Calm.trans ?_ (State.serve_calm ..)
        | refine Calm.trans ?_ (State.modNode_calm ..)
        | refine Calm.trans ?_ (State.overtake_calm ..)

theorem State.raiseLate_calm (s : State) (e : BitVec 16) : Calm s (s.raiseLate e) := (s.raise_keep _ _ rfl).toCalm

theorem State.closurePoint_calm (s : State) (e : BitVec 16) (k a : Nat) : Calm s (s.closurePoint e k a) := by
  unfold State.closurePoint
  repeat' split
  · exact Calm.rfl
  · exact s.sendGo_calm _ _
  · exact (s.modTxn_calm _ _).trans (State.raiseLate_calm _ _)
  · exact Calm.rfl
  · exact Calm.rfl
  · exact Calm.rfl
  · exact (s.modNode_calm _ _).trans (State.raiseLate_calm _ _)
  · exact Calm.rfl

theorem State.closureDone_calm (s : State) (a : Nat) (ws : List Word) : Calm s (s.closureDone a ws) := by
  unfold State.closureDone
  repeat' split
  all_goals
    first
    | exact s.completeTxn_calm _ _
    | exact s.startDetail_calm _ _ _ _
    | exact (s.refuseFrame_keep _ _ _).toCalm

theorem State.actExpiry_calm (s : State) (a : Nat) : Calm s (s.actExpiry a) := by
  unfold State.actExpiry
  repeat' split
  · exact s.startDetail_calm _ _ _ _
  all_goals exact Calm.rfl

theorem State.retrySet_calm (s : State) (a : Nat) : Calm s (s.retrySet a) := by
  unfold State.retrySet
  simp only
  repeat' split
  all_goals
    with_reducible
      repeat
        first
        | exact Calm.rfl
        | refine Calm.trans ?_ (State.silentExchange_keep ..).toCalm
        | refine Calm.trans ?_ (State.failTxn_calm ..)
        | refine Calm.trans ?_ (State.pushCommand_keep _ _ (by simp_all)).toCalm
        | refine Calm.trans ?_ (State.modTxn_calm ..)

/-- A sequence of events of one kind. -/
theorem Calm.foldl {α : Type} (f : State → α → State) (h : ∀ s a, Calm s (f s a)) (l : List α) :
    ∀ s : State, Calm s (l.foldl f s) := by
  induction l with
  | nil => exact fun _ => Calm.rfl
  | cons a l ih => exact fun s => (h s a).trans (ih _)

/-- A sequence of events of one kind. -/
theorem Keep.foldl {α : Type} (f : State → α → State) (h : ∀ s a, Keep s (f s a)) (l : List α) :
    ∀ s : State, Keep s (l.foldl f s) := by
  induction l with
  | nil => exact fun _ => Keep.rfl
  | cons a l ih => exact fun s => (h s a).trans (ih _)

theorem State.nodeLeave_calm (e : BitVec 16) (s : State) (a : Nat) : Calm s (State.nodeLeave e s a) := by
  unfold State.nodeLeave
  simp only
  repeat' split
  all_goals
    with_reducible
      repeat
        first
        | exact Calm.rfl
        | refine Calm.trans ?_ (State.cancelTxn_calm ..)
        | refine Calm.trans ?_ (State.unlist_calm ..)

theorem State.closureLeave_calm (s : State) (e : BitVec 16) : Calm s (s.closureLeave e) :=
  (Calm.foldl _ (State.nodeLeave_calm e) _ s).trans (State.clear_keep _ _ _).toCalm

/-! ### DTX: what stays in order -/

theorem State.kindChanged_keep (s : State) (a : Nat) : Keep s (s.kindChanged a) :=
  ⟨s.kindChanged_calm a, (s.kindChanged_at a).lists⟩

/-- A change of a node's marks. -/
theorem State.modMarks_keep (s : State) (a : Nat) (f : NodeRec → NodeRec) (ht : ∀ n, (f n).txn = n.txn)
    (hw : ∀ n, (f n).waiting = n.waiting) (hf : ∀ n, (f n).faulted = true → n.faulted = true) :
    Keep s (s.modNode a f) := ⟨s.modNode_calm a f, (s.modMarks_at a f ht hw hf).lists⟩

theorem State.clearCompletion_keep (s : State) (a : Nat) (j : Judgement) : Keep s (s.clearCompletion a j) :=
  ⟨s.clearCompletion_calm a j, (s.clearCompletion_at a j).lists⟩

theorem State.refuseIfDisallowed_keep (s : State) (q : QueuedCommand) (ans : Answer) (b : RefusingBlock) :
    Keep s (s.refuseIfDisallowed q ans b) := ⟨s.refuseIfDisallowed_calm q ans b, (s.refuseIfDisallowed_same q ans b).lists⟩

theorem State.dtxCompletion_keep (s : State) (q : QueuedCommand) (ans : Answer) : Keep s (s.dtxCompletion q ans) :=
  ⟨s.dtxCompletion_calm q ans, (s.dtxCompletion_at q ans).lists⟩

/-- A lead of a record of the train. -/
theorem State.closureLead_keep (s : State) (e : BitVec 16) (c : ClosureAction) (k a : Nat)
    (he : e ∈ s.trn.train.map CabinRecord.entry) : Keep s (s.closureLead e c k a) :=
  ⟨s.closureLead_calm e c k a, s.closureLead_lists e c k a he⟩

theorem State.closurePoint_keep (s : State) (e : BitVec 16) (k a : Nat) : Keep s (s.closurePoint e k a) :=
  ⟨s.closurePoint_calm e k a, (s.closurePoint_at e k a).lists⟩

theorem State.closureDone_keep (s : State) (a : Nat) (ws : List Word) : Keep s (s.closureDone a ws) :=
  ⟨s.closureDone_calm a ws, (s.closureDone_at a ws).lists⟩

theorem State.actExpiry_keep (s : State) (a : Nat) : Keep s (s.actExpiry a) :=
  ⟨s.actExpiry_calm a, (s.actExpiry_at a).lists⟩

theorem State.retrySet_keep (s : State) (a : Nat) : Keep s (s.retrySet a) :=
  ⟨s.retrySet_calm a, (s.retrySet_at a).lists⟩

theorem State.pollEnded_keep (s : State) : Keep s s.pollEnded := Keep.foldl _ State.retrySet_keep _ s

/-! ### GSW -/

/-- The address GRIP_EXPECT goes to: the lowest of kind GRIP_UNIT (R86; log 33). -/
theorem State.gripAddress_some {s : State} {a : Nat} (h : nth1 s.slc.nodeTable a = some .gripUnit)
    (low : ∀ b < a, nth1 s.slc.nodeTable b ≠ some .gripUnit) : s.gripAddress = some a := by
  unfold nth1 at h low
  split at h
  · cases h
  · next ha =>
    unfold State.gripAddress
    have first : (s.slc.nodeTable.toList.findIdx? fun k => decide (k = .gripUnit)) = some (a - 1) := by
      obtain ⟨hlt, he⟩ := Vector.getElem?_eq_some_iff.1 h
      refine List.findIdx?_eq_some_iff_getElem.2 ⟨by simpa using hlt, by simpa using he, fun j hj => ?_⟩
      have := low (j + 1) (by omega)
      simp only [Nat.add_sub_cancel, Nat.add_eq_zero_iff, Nat.one_ne_zero, and_false, if_false] at this
      have hjl : j < 30 := by omega
      simpa [Vector.getElem?_eq_getElem hjl] using this
    rw [first, Option.map_some, Nat.sub_add_cancel (by omega)]

theorem State.gripAddress_none {s : State} (h : ∀ a, nth1 s.slc.nodeTable a ≠ some .gripUnit) : s.gripAddress = none := by
  unfold State.gripAddress
  rw [List.findIdx?_eq_none_iff.2]
  · rfl
  · intro k hk
    obtain ⟨i, hi, rfl⟩ := List.mem_iff_getElem.1 hk
    have hl : i < 30 := by simpa using hi
    have := h (i + 1)
    unfold nth1 at this
    simp only [Nat.add_sub_cancel, Nat.add_eq_zero_iff, Nat.one_ne_zero, and_false, if_false] at this
    simpa [Vector.getElem?_eq_getElem hl] using this
theorem State.dropExpectation_keep (s : State) (e : BitVec 16) : Keep s (s.dropExpectation e) :=
  s.modGsw_keep _ fun _ k => ⟨k.expectations.filter _, fun x hx => k.expected x (List.mem_filter.1 hx).1, k.claims,
    k.claimed⟩

/-- An expectation of a record of the train joins, in place of one it has. -/
theorem State.expect_keep (s : State) (e : BitVec 16) (p : BitVec 16 → Bool)
    (he : e ∈ s.trn.train.map CabinRecord.entry) :
    Keep s (s.modGsw fun g =>
      { g with expectations := placeBehind p e (g.expectations.filter fun x => decide (x ≠ e)) }) := by
  refine s.modGsw_keep _ fun _ k => ?_
  have perm := placeBehind_perm p e (s.gsw.expectations.filter fun x => decide (x ≠ e))
  refine ⟨perm.nodup_iff.2 (List.nodup_cons.2 ⟨by simp, k.expectations.filter _⟩), fun x hx => ?_, k.claims, k.claimed⟩
  rcases List.mem_cons.1 (perm.subset hx) with rfl | hx
  · exact he
  · exact k.expected x (List.mem_filter.1 hx).1

/-- The commanded position is that of the head, where there is one (R92). -/
theorem Gsw.driveHead_eq (g : Gsw) :
    g.driveHead = { g with commanded := (g.claims.head?.map SwitchClaim.wanted).getD g.commanded } := by
  rcases g with ⟨_, c, _, _⟩
  cases c <;> rfl
@[simp] theorem Gsw.driveHead_claims (g : Gsw) : g.driveHead.claims = g.claims := by
  unfold Gsw.driveHead; split <;> rfl

@[simp] theorem Gsw.driveHead_expectations (g : Gsw) : g.driveHead.expectations = g.expectations := by
  unfold Gsw.driveHead; split <;> rfl

/-- A switch claim of a record of the train joins, in place of one it has. -/
theorem State.claim_keep (s : State) (c : SwitchClaim) (p : SwitchClaim → Bool)
    (hc : c.entry ∈ s.trn.train.map CabinRecord.entry) :
    Keep s (s.modGsw fun g =>
      { g with claims := placeBehind p c (g.claims.filter fun x => decide (x.entry ≠ c.entry)) }.driveHead) := by
  refine s.modGsw_keep _ fun _ k => ?_
  have perm := placeBehind_perm p c (s.gsw.claims.filter fun x => decide (x.entry ≠ c.entry))
  refine ⟨by simpa using k.expectations, by simpa using k.expected, ?_, fun x hx => ?_⟩
  · simp only [State.modGsw_gsw, Gsw.driveHead_claims]
    refine (perm.map SwitchClaim.entry).nodup_iff.2 (List.nodup_cons.2 ⟨?_, ?_⟩)
    · intro hm
      obtain ⟨x, hx, hxe⟩ := List.mem_map.1 hm
      have := (List.mem_filter.1 hx).2
      simp [hxe] at this
    · exact k.claims.sublist (List.Sublist.map _ List.filter_sublist)
  · simp only [State.modGsw_gsw, Gsw.driveHead_claims] at hx
    rcases List.mem_cons.1 (perm.subset hx) with rfl | hx
    · exact hc
    · exact k.claimed x (List.mem_filter.1 hx).1

theorem State.record_mem {s : State} {e : BitVec 16} {r : CabinRecord} (h : s.record e = some r) :
    r ∈ s.trn.train ∧ r.entry = e :=
  ⟨List.mem_of_find?_eq_some h,
    by simpa using List.find?_some (p := fun r : CabinRecord => decide (r.entry = e)) h⟩

theorem State.endExpectation_keep (s : State) (e : BitVec 16) : Keep s (s.endExpectation e) := by
  unfold State.endExpectation
  split
  · exact (s.dropExpectation_keep e).trans (State.claimRecord_keep _ _ _ (fun _ => rfl) fun _ => rfl)
  · exact Keep.rfl

theorem State.gripLead_calm (s : State) (e : BitVec 16) : Calm s (s.gripLead e) := by
  unfold State.gripLead
  simp only
  repeat' split
  all_goals
    with_reducible
      repeat
        first
        | exact Calm.rfl
        | refine Calm.trans ?_ (State.silentExchange_keep ..).toCalm
        | refine Calm.trans ?_ (State.endExpectation_keep ..).toCalm
        | refine Calm.trans ?_ (State.pushCommand_keep _ _ (by simp_all)).toCalm
        | refine Calm.trans ?_ (Keep.toCalm (State.claimRecord_keep _ _ _ (fun _ => rfl) fun _ => rfl))
        | refine Calm.trans ?_ (State.modGsw_calm ..)

/-- A lead of a record of the train. -/
theorem State.gripLead_keep (s : State) (e : BitVec 16) (he : e ∈ s.trn.train.map CabinRecord.entry) :
    Keep s (s.gripLead e) := by
  unfold State.gripLead
  simp only
  repeat' split
  all_goals
    with_reducible
      repeat
        first
        | exact Keep.rfl
        | refine Keep.trans ?_ (State.silentExchange_keep ..)
        | refine Keep.trans ?_ (State.endExpectation_keep ..)
        | refine Keep.trans ?_ (State.pushCommand_keep _ _ (by simp_all))
        | refine Keep.trans ?_ (State.claimRecord_keep _ _ _ (fun _ => rfl) fun _ => rfl)
        | refine Keep.trans ?_ (State.expect_keep _ _ _ he)

theorem State.gripCompletion_keep (s : State) (q : QueuedCommand) (ans : Answer) : Keep s (s.gripCompletion q ans) := by
  unfold State.gripCompletion
  repeat' split
  · exact Keep.rfl
  · exact (s.refuseIfDisallowed_keep _ _ _).trans (State.endExpectation_keep _ _)
  · exact Keep.rfl

theorem State.retire_keep (s : State) (c : BitVec 8) (w : Word) : Keep s (s.retire c w) := s.modTrn_keep _ rfl

@[simp] theorem CabinRecord.flagged_entry (r : CabinRecord) (d : DivertReason) : (r.flagged d).entry = r.entry := rfl
@[simp] theorem CabinRecord.flagged_cabin (r : CabinRecord) (d : DivertReason) : (r.flagged d).cabin = r.cabin := rfl

theorem State.failGrip_keep (s : State) (e : BitVec 16) (c : BitVec 8) (w : Word) : Keep s (s.failGrip e c w) := by
  unfold State.failGrip
  simp only
  repeat' split
  all_goals
    with_reducible
      repeat
        first
        | exact Keep.rfl
        | refine Keep.trans ?_ (State.raise_keep _ _ _ rfl)
        | refine Keep.trans ?_ (State.retire_keep ..)
        | refine Keep.trans ?_ (State.claimRecord_keep _ _ _ (fun _ => rfl) fun _ => rfl)

theorem State.judgeGrip_keep (s : State) (e : BitVec 16) (w : Word) : Keep s (s.judgeGrip e w) := by
  unfold State.judgeGrip
  simp only
  repeat' split
  all_goals
    with_reducible
      repeat
        first
        | exact Keep.rfl
        | refine Keep.trans ?_ (State.failGrip_keep ..)
        | refine Keep.trans ?_ (State.report_keep ..)
        | refine Keep.trans ?_ (State.claimRecord_keep _ _ _ (fun _ => rfl) fun _ => rfl)
        | refine Keep.trans ?_ (State.dropExpectation_keep ..)

theorem State.gripResult_keep (s : State) (ws : List Word) : Keep s (s.gripResult ws) := by
  unfold State.gripResult
  repeat' split
  · exact s.judgeGrip_keep _ _
  · exact s.report_keep _
  · exact Keep.rfl

theorem State.dropClaim_keep (s : State) (e : BitVec 16) : Keep s (s.dropClaim e) := by
  refine s.modGsw_keep _ fun _ k => ⟨by simpa using k.expectations, by simpa using k.expected, ?_, fun c hc => ?_⟩
  · simp only [State.modGsw_gsw, Gsw.driveHead_claims]
    exact k.claims.sublist (List.Sublist.map _ List.filter_sublist)
  · simp only [State.modGsw_gsw, Gsw.driveHead_claims] at hc
    exact k.claimed c (List.mem_filter.1 hc).1

theorem State.divertLead_keep (s : State) (e : BitVec 16) : Keep s (s.divertLead e) := by
  unfold State.divertLead
  simp only
  have first := (s.endExpectation_keep e).trans (State.claimRecord_keep _ e
    (fun r => if r.grip = .pass then r else r.flagged .grip) (by intro r; split <;> simp) (by intro r; split <;> simp))
  generalize (s.endExpectation e).claimRecord e (fun r => if r.grip = .pass then r else r.flagged .grip) = u at first
  cases hr : u.record e with
  | none => exact first
  | some r =>
    obtain ⟨hm, he⟩ := State.record_mem hr
    exact first.trans (State.claim_keep u { entry := e, wanted := if r.divert.isSome then .garage else .main } _
      (List.mem_map.2 ⟨r, hm, he⟩))

theorem State.clearFaults_keep (l : List (BitVec 16)) : ∀ s : State, Keep s (s.clearFaults l) := by
  induction l with
  | nil => exact fun _ => Keep.rfl
  | cons e l ih => exact fun s => (s.clear_keep _ _).trans (ih _)

/-- A change of the fault list alone. -/
theorem State.modFaults_keep (s : State) (f : List (BitVec 16) → List (BitVec 16)) :
    Keep s (s.modGsw fun g => { g with faults := f g.faults }) :=
  s.modGsw_keep _ fun _ k => ⟨k.expectations, k.expected, k.claims, k.claimed⟩

theorem State.divcChanged_keep (s : State) (a b : Bool) : Keep s (s.divcChanged a b) := by
  unfold State.divcChanged
  simp only
  repeat' split
  all_goals
    with_reducible
      repeat
        first
        | exact Keep.rfl
        | refine Keep.trans ?_ (State.modFaults_keep _ fun _ => [])
        | refine Keep.trans ?_ (State.clearFaults_keep ..)
        | refine Keep.trans ?_ (State.setPins_keep ..)

theorem State.gripLeave_keep (s : State) (e : BitVec 16) : Keep s (s.gripLeave e) :=
  ((((s.dropExpectation_keep e).trans (State.dropClaim_keep _ e)).trans
    (State.modFaults_keep _ fun l => l.filter fun x => decide (x ≠ e))).trans (State.clear_keep _ .gripFail (.cabin e))).trans
      (State.clear_keep _ .divertFault (.cabin e))

@[simp] theorem State.gripLeave_dtx (s : State) (e : BitVec 16) : (s.gripLeave e).dtx = s.dtx := by
  unfold State.gripLeave; simp [State.dropClaim, State.dropExpectation]
@[simp] theorem State.gripLeave_rsu (s : State) (e : BitVec 16) : (s.gripLeave e).rsu = s.rsu := by
  unfold State.gripLeave; simp [State.dropClaim, State.dropExpectation]
@[simp] theorem State.gripLeave_trn (s : State) (e : BitVec 16) : (s.gripLeave e).trn = s.trn := by
  unfold State.gripLeave; simp [State.dropClaim, State.dropExpectation]
@[simp] theorem State.gripLeave_trav (s : State) (e : BitVec 16) : (s.gripLeave e).trav = s.trav := by
  unfold State.gripLeave; simp [State.dropClaim, State.dropExpectation]

/-! ### A record leaves the train (R55) -/

/-- With the record its schedule entries, wait entries, expectation and switch claim go; the open transaction it may have
in DETAILING stays. -/
theorem State.leaveLists (s : State) (e : BitVec 16) :
    let u := (s.modTrn fun t => { t with train := t.train.filter fun r => decide (r.entry ≠ e) }).travLeave e
    Keep s ((u.closureLeave e).gripLeave e) := by
  intro u
  have same : ∀ x ∈ s.trn.train.map CabinRecord.entry, x ≠ e → x ∈ u.trn.train.map CabinRecord.entry := by
    intro x hx hne
    obtain ⟨r, hr, rfl⟩ := List.mem_map.1 hx
    have ht : u.trn.train = s.trn.train.filter fun r => decide (r.entry ≠ e) := by
      show (State.clear _ _ _).trn.train = _
      rw [State.clear_trn]
      rfl
    rw [ht]
    exact List.mem_map.2 ⟨r, List.mem_filter.2 ⟨hr, by simpa using hne⟩, rfl⟩
  obtain ⟨h1, h2⟩ := u.closureLeave_shrunk e
  have hd : u.dtx = s.dtx := by show (State.clear _ _ _).dtx = _; rw [State.clear_dtx]; rfl
  have hg : u.gsw = s.gsw := by show (State.clear _ _ _).gsw = _; rw [State.clear_gsw]; rfl
  have hr : u.rsu = s.rsu := by show (State.clear _ _ _).rsu = _; rw [State.clear_rsu]; rfl
  have hp : u.trav.path = s.trav.path := by show (State.clear _ _ _).trav.path = _; rw [State.clear_trav]; rfl
  have calm : Calm s u := (s.dropRecord_calm e).trans (State.clear_keep _ .cabinSlip (.cabin e)).toCalm
  have calm' : Calm s ((u.closureLeave e).gripLeave e) :=
    (calm.trans (u.closureLeave_calm e)).trans (State.gripLeave_keep _ e).toCalm
  generalize u.closureLeave e = v at h1 h2 calm'
  have hnode : ∀ a, (v.gripLeave e).node a = v.node a := fun a => by
    unfold State.node; rw [State.gripLeave_dtx]
  have htrn : (v.gripLeave e).trn = v.trn := State.gripLeave_trn _ _
  have shrunk : Shrunk s { v with trn := s.trn } := by
    refine ⟨by show v.gsw = _; rw [h1.gsw, hg], by show v.rsu = _; rw [h1.rsu, hr],
      by show v.trav.path = _; rw [h1.path, hp], fun _ h => h, fun b n' hn => ?_⟩
    obtain ⟨n, hn, hk⟩ := h1.node b n' hn
    exact ⟨n, by unfold State.node at hn ⊢; rw [← hd]; exact hn, hk⟩
  refine ⟨calm', ⟨fun _ k => ?_, fun _ k => ?_, fun _ => ?_, fun _ => ?_⟩⟩
  · have ok := shrunk.dtxOk k fun a n hn w hw => shrunk.held k a n hn w hw
    refine ⟨fun a n hn => ok.nodes a n (by rw [hnode] at hn; exact hn), fun a n hn => ok.once a n (by rw [hnode] at hn; exact hn),
      fun a b m n x hm hn => ok.apart a b m n x (by rw [hnode] at hm; exact hm) (by rw [hnode] at hn; exact hn),
      fun a n hn w hw => ?_⟩
    rw [hnode] at hn
    rw [htrn]
    exact h1.entries _ (same _ (shrunk.held k a n hn w hw) (h2 a n hn w hw))
  · have he : (v.gripLeave e).gsw.expectations = s.gsw.expectations.filter fun x => decide (x ≠ e) := by
      unfold State.gripLeave
      simp only [State.clear_gsw, State.modGsw_gsw, State.dropClaim, State.dropExpectation, Gsw.driveHead_expectations]
      rw [h1.gsw, hg]
    have hc : (v.gripLeave e).gsw.claims = s.gsw.claims.filter fun x => decide (x.entry ≠ e) := by
      unfold State.gripLeave
      simp only [State.clear_gsw, State.modGsw_gsw, State.dropClaim, State.dropExpectation, Gsw.driveHead_claims]
      rw [h1.gsw, hg]
    refine ⟨by rw [he]; exact k.expectations.filter _, fun x hx => ?_,
      by rw [hc]; exact k.claims.sublist (List.Sublist.map _ List.filter_sublist), fun x hx => ?_⟩
    · rw [he] at hx
      rw [htrn]
      exact h1.entries _ (same x (k.expected x (List.mem_filter.1 hx).1) (by simpa using (List.mem_filter.1 hx).2))
    · rw [hc] at hx
      rw [htrn]
      exact h1.entries _ (same _ (k.claimed x (List.mem_filter.1 hx).1) (by simpa using (List.mem_filter.1 hx).2))
  · rw [State.gripLeave_rsu, h1.rsu, hr]; exact id
  · unfold PathOk; rw [State.gripLeave_trav, h1.path, hp]; exact id

end Sys2Proof.Machine
end

