-- ==== Sys2Proof/Laws/Train.lean ====
section
/-! SUPPORT. What TRN and TRAV keep in order: entry, tags, leaving, departure, restore and the firing of the schedule. -/

namespace Sys2Proof.Machine

/-! ### Entry numbers (R44) -/

/-- The number found is the first from n on that no record carries, unless the fuel ends before it. -/
theorem freeNumber_first (train : List CabinRecord) (fuel : Nat) : ∀ n : BitVec 16,
    ∃ k ≤ fuel, freeNumber train fuel n = n + BitVec.ofNat 16 k ∧
      (∀ j < k, n + BitVec.ofNat 16 j ∈ train.map CabinRecord.entry) ∧
      (k < fuel → n + BitVec.ofNat 16 k ∉ train.map CabinRecord.entry) := by
  induction fuel with
  | zero => exact fun n => ⟨0, le_rfl, by simp [freeNumber], by omega, by omega⟩
  | succ fuel ih =>
    intro n
    unfold freeNumber
    split
    · next h =>
      obtain ⟨k, hk, he, hj, hf⟩ := ih (n + 1)
      have shift : ∀ i, n + 1 + BitVec.ofNat 16 i = n + BitVec.ofNat 16 (i + 1) := fun i => by
        rw [BitVec.ofNat_add, BitVec.add_comm (BitVec.ofNat 16 i), ← BitVec.add_assoc]
        rfl
      refine ⟨k + 1, by omega, by rw [he, shift], fun j hlt => ?_, fun hlt => shift k ▸ hf (by omega)⟩
      rcases j with _ | j
      · obtain ⟨r, hr, he⟩ := List.any_eq_true.1 h
        exact List.mem_map.2 ⟨r, hr, by simpa using he⟩
      · exact shift j ▸ hj j (by omega)
    · next h =>
      refine ⟨0, by omega, by simp, by omega, fun _ hm => h ?_⟩
      obtain ⟨r, hr, he⟩ := List.mem_map.1 hm
      exact List.any_eq_true.2 ⟨r, hr, by simpa using he⟩

/-- A run of numbers that records carry is no longer than the train. -/
theorem carried_le {train : List CabinRecord} {n : BitVec 16} {k : Nat} (hk : k ≤ 65536)
    (h : ∀ j < k, n + BitVec.ofNat 16 j ∈ train.map CabinRecord.entry) : k ≤ train.length := by
  have sub : ((List.range k).map fun i => n + BitVec.ofNat 16 i) ⊆ train.map CabinRecord.entry := by
    intro x hx
    obtain ⟨i, hi, rfl⟩ := List.mem_map.1 hx
    exact h i (List.mem_range.1 hi)
  have nd : ((List.range k).map fun i => n + BitVec.ofNat 16 i).Nodup := by
    refine List.Nodup.map_on ?_ List.nodup_range
    intro i hi j hj hij
    have hi := List.mem_range.1 hi
    have hj := List.mem_range.1 hj
    have e : BitVec.ofNat 16 i = BitVec.ofNat 16 j := by
      have := congrArg (fun x => x - n) hij
      simpa [BitVec.add_comm] using this
    have := congrArg BitVec.toNat e
    simp only [BitVec.toNat_ofNat] at this
    omega
  simpa using (List.subperm_of_subset nd sub).length_le

/-- The number given is the counter's value, or the first after it that no record in the train carries. -/
theorem Trn.nextEntry_spec (t : Trn) (h : t.train.length < 65536) :
    ∃ k ≤ t.train.length, t.nextEntry = t.entryCounter + BitVec.ofNat 16 k ∧
      (∀ x ∈ t.train, x.entry ≠ t.nextEntry) ∧
      ∀ j < k, ∃ x ∈ t.train, x.entry = t.entryCounter + BitVec.ofNat 16 j := by
  obtain ⟨k, hk, he, hj, hf⟩ := freeNumber_first t.train (t.train.length + 1) t.entryCounter
  have hl := carried_le (by omega) hj
  exact ⟨k, hl, he, fun x hx hxe => hf (by omega) (List.mem_map.2 ⟨x, hx, hxe.trans he⟩),
    fun j hlt => List.mem_map.1 (hj j hlt)⟩

/-- The number given is carried by no record in the train. -/
theorem Trn.nextEntry_fresh (t : Trn) (h : t.train.length < 65536) : t.nextEntry ∉ t.train.map CabinRecord.entry := by
  obtain ⟨_, _, _, fresh, _⟩ := t.nextEntry_spec h
  intro hm
  obtain ⟨x, hx, hxe⟩ := List.mem_map.1 hm
  exact fresh x hx hxe

/-- A record joins: a fresh number, room, no cabin number twice, and the line not QUIET. -/
theorem State.joinTrain_keep (s : State) (r : CabinRecord) (hq : s.perm.line ≠ .quiet)
    (he : r.entry ∉ s.trn.train.map CabinRecord.entry) (hl : s.trn.train.length < 32)
    (hc : r.cabin ≠ 0 → ∀ x ∈ s.trn.train, x.cabin ≠ r.cabin) : Keep s (s.joinTrain r) := by
  refine ⟨⟨rfl, rfl, Or.inl rfl, id, id, id, id, id, fun _ h => absurd h hq, id, ?_⟩,
    Same.lists ⟨rfl, rfl, rfl, rfl, fun e he => ?_⟩⟩
  rotate_left
  · show e ∈ (s.trn.train ++ [r]).map CabinRecord.entry
    rw [List.map_append]
    exact List.mem_append_left _ he
  intro h
  have ht : (s.joinTrain r).trn.train = s.trn.train ++ [r] := rfl
  refine ⟨?_, ?_, ?_, ?_⟩
  · rw [ht, List.map_append, List.nodup_append]
    refine ⟨h.distinct, by simp, ?_⟩
    intro a ha b hb hab
    rw [List.map_singleton, List.mem_singleton] at hb
    exact he (by rw [← hb, ← hab]; exact ha)
  · rw [ht]; simp; omega
  · rw [ht]
    intro a ha b hb hab hz
    rcases List.mem_append.1 ha with ha | ha
    · rcases List.mem_append.1 hb with hb | hb
      · exact h.cabins a ha b hb hab hz
      · rw [List.mem_singleton.1 hb] at hab
        exact absurd hab (hc (by rw [← hab]; exact hz) a ha)
    · rw [List.mem_singleton.1 ha] at hab hz
      rcases List.mem_append.1 hb with hb | hb
      · exact absurd hab.symm (hc hz b hb)
      · rw [List.mem_singleton.1 ha, List.mem_singleton.1 hb]
  · intro e hm
    rw [ht, List.map_append]
    exact List.mem_append_left _ (h.named e hm)

/-! ### Crowding and matching -/

theorem State.crowdingTest_keep (s : State) : Keep s (s.crowdingTest) := by
  unfold State.crowdingTest
  repeat' split
  all_goals
    with_reducible
      repeat
        first
        | exact Keep.rfl
        | refine Keep.trans ?_ (State.modTrn_keep _ _ rfl)
        | refine Keep.trans ?_ (State.raise_keep _ _ _ rfl)
        | refine Keep.trans ?_ (State.clear_keep ..)

theorem State.reportEntered_keep (s : State) (e : BitVec 16) : Keep s (s.reportEntered e) := by
  unfold State.reportEntered
  repeat' split
  all_goals
    with_reducible
      repeat
        first
        | exact Keep.rfl
        | refine Keep.trans ?_ (State.report_keep ..)

/-- Matching a tag gives a record its cabin number only where no other record carries it (R50). -/
theorem State.matchTag_keep (s : State) (e : BitVec 16) (tag : BitVec 32) : Keep s (s.matchTag e tag) := by
  unfold State.matchTag
  simp only
  refine Keep.trans ?_ (State.reportEntered_keep _ _)
  refine Keep.trans
    (State.claimRecord_keep s e (fun r => { r with tag := some tag, tagTimer := none }) (fun _ => rfl) fun _ => rfl) ?_
  generalize (s.claimRecord e fun r => { r with tag := some tag, tagTimer := none }) = u
  split
  · refine Keep.trans ?_ (State.raise_keep _ _ _ rfl)
    exact State.claimRecord_keep u e _ (fun _ => rfl) fun _ => rfl
  · next n hn =>
    split
    · refine Keep.trans ?_ (State.raise_keep _ _ _ rfl)
      exact State.claimRecord_keep u e _ (fun _ => rfl) fun _ => rfl
    · next hc =>
      have hlt : n < 256 := by
        unfold Trn.cabinOf at hn
        obtain ⟨i, hi, rfl⟩ := Option.map_eq_some_iff.1 hn
        have := (List.findIdx?_eq_some_iff_findIdx_eq.1 hi).1
        simp at this
        omega
      refine State.claimRecord_keep' u e _ (fun r => by split <;> rfl) fun r _ _ _ => Or.inr fun x hx hxe hxc => hc ?_
      refine List.any_eq_true.2 ⟨x, hx, ?_⟩
      have : x.cabin.toNat = n := by
        rw [hxc]
        simp only [BitVec.toNat_ofNat]
        omega
      simp [hxe, this]

theorem State.meetTag_keep (s : State) (e : BitVec 16) : Keep s (s.meetTag e) := by
  unfold State.meetTag
  repeat' split
  all_goals
    with_reducible
      repeat
        first
        | exact Keep.rfl
        | refine Keep.trans ?_ (State.matchTag_keep ..)
        | refine Keep.trans ?_ (State.modTrn_keep _ _ rfl)
        | refine Keep.trans ?_ (State.claimRecord_keep _ _ _ (fun _ => rfl) fun _ => rfl)

/-- The numbers of the train after a record joined. -/
theorem State.joinTrain_mem (s : State) (r : CabinRecord) :
    r.entry ∈ (s.joinTrain r).trn.train.map CabinRecord.entry := by
  simp [State.joinTrain]

theorem State.entryEdge_keep (s : State) (c : BitVec 24) : Keep s (s.entryEdge c) := by
  unfold State.entryEdge
  simp only
  refine (s.wake_keep .entryEdge).trans ?_
  have hq := s.wake_notQuiet .entryEdge
  generalize s.wake .entryEdge = u at hq ⊢
  split
  · exact (u.raise_keep _ _ rfl).trans (State.modTrn_keep _ _ rfl)
  · next hl =>
    have join := u.joinTrain_keep (newRecord u.trn.nextEntry c) hq (u.trn.nextEntry_fresh (by omega)) (by omega)
      (fun h => absurd rfl h)
    exact ((join.trans (State.scheduleRecord_keep _ _ _ _ (u.joinTrain_mem _))).trans (State.meetTag_keep _ _)).trans
      (State.crowdingTest_keep _)

/-! ### Tags -/

theorem State.takeTag_keep (s : State) (tag : BitVec 32) : Keep s (s.takeTag tag) := by
  unfold State.takeTag
  simp only
  repeat' split
  all_goals
    with_reducible
      repeat
        first
        | exact Keep.rfl
        | refine Keep.trans ?_ (State.modTrn_keep _ _ rfl)
        | refine Keep.trans ?_ (State.report_keep ..)
        | refine Keep.trans ?_ (State.matchTag_keep ..)

theorem State.tagRead_keep (s : State) (a : Nat) (ws : List Word) : Keep s (s.tagRead a ws) := by
  unfold State.tagRead
  repeat' split
  all_goals
    with_reducible
      repeat
        first
        | exact Keep.rfl
        | refine Keep.trans ?_ (State.takeTag_keep ..)
        | refine Keep.trans ?_ (State.refuseFrame_keep ..)

theorem State.tagExpired_keep (s : State) (e : BitVec 16) : Keep s (s.tagExpired e) := by
  unfold State.tagExpired
  simp only
  repeat' split
  all_goals
    with_reducible
      repeat
        first
        | exact Keep.rfl
        | refine Keep.trans ?_ (State.reportEntered_keep ..)
        | refine Keep.trans ?_ (State.raise_keep _ _ _ rfl)
        | refine Keep.trans ?_ (State.claimRecord_keep _ _ _ (fun _ => rfl) fun _ => rfl)

theorem State.slotExpired_keep (s : State) : Keep s (s.slotExpired) := by
  unfold State.slotExpired
  repeat' split
  all_goals
    with_reducible
      repeat
        first
        | exact Keep.rfl
        | refine Keep.trans ?_ (State.report_keep ..)
        | refine Keep.trans ?_ (State.modTrn_keep _ _ rfl)

/-! ### Leaving, departure, the DIVERT point -/

theorem State.roomTest_keep (s : State) : Keep s (s.roomTest) := by
  unfold State.roomTest
  repeat' split
  all_goals
    with_reducible
      repeat
        first
        | exact Keep.rfl
        | refine Keep.trans ?_ (State.modTrn_keep _ _ rfl)
        | refine Keep.trans ?_ (State.clear_keep ..)

theorem State.leave_keep (s : State) (e : BitVec 16) (b : Bool) : Keep s (s.leave e b) := by
  unfold State.leave
  simp only
  refine Keep.trans ?_ ((State.roomTest_keep _).trans (State.crowdingTest_keep _))
  have first := s.leaveLists e
  have second := ((first.trans (State.clear_keep _ .unknownCabin (.cabin e))).trans
    (State.clear_keep _ .cabinDuplicate (.cabin e))).trans (State.clear_keep _ .departBlocked (.cabin e))
  split
  · exact second.trans (State.clear_keep _ _ _)
  · exact second

theorem State.departLead_keep (s : State) (e : BitVec 16) : Keep s (s.departLead e) := by
  unfold State.departLead
  repeat' split
  all_goals
    with_reducible
      repeat
        first
        | exact Keep.rfl
        | refine Keep.trans ?_ (State.raise_keep _ _ _ rfl)

theorem State.departPoint_keep (s : State) (e : BitVec 16) : Keep s (s.departPoint e) := by
  unfold State.departPoint
  repeat' split
  · exact Keep.rfl
  · exact (s.leave_keep _ _).trans (State.report_keep _ _)
  · exact ((s.raise_keep _ _ rfl).trans (State.leave_keep _ _ _)).trans (State.report_keep _ _)

theorem State.divertFault_keep (s : State) (e : BitVec 16) : Keep s (s.divertFault e) := by
  unfold State.divertFault
  exact (s.raise_keep _ _ rfl).trans (State.modFaults_keep _ fun l => l ++ [e])

theorem State.diverted_keep (s : State) (r : CabinRecord) (o : DivertOutcome) (w : SwitchPos) (d : DivcPos) :
    Keep s (s.diverted r o w d) := (s.leave_keep _ _).trans (State.report_keep _ _)

theorem State.divertPoint_keep (s : State) (e : BitVec 16) : Keep s (s.divertPoint e) := by
  unfold State.divertPoint
  repeat' split
  · exact (s.dropClaim_keep _).trans (State.diverted_keep _ _ _ _ _)
  · exact (s.divertFault_keep _).trans (State.dropClaim_keep _ _)
  · exact (s.divertFault_keep _).trans (State.dropClaim_keep _ _)
  · exact s.dropClaim_keep _
  · exact (s.divertFault_keep _).trans (State.dropClaim_keep _ _)
  · exact ((s.divertFault_keep _).trans (State.dropClaim_keep _ _)).trans (State.diverted_keep _ _ _ _ _)
  · exact Keep.rfl

theorem State.removeRecord_keep (s : State) (r : CabinRecord) : Keep s (s.removeRecord r) :=
  (s.leave_keep _ _).trans (State.report_keep _ _)

/-- A restore outside QUIET, with room, of a cabin number no record carries. -/
theorem State.restore_keep (s : State) (f : RestoreFields) (hq : s.perm.line ≠ .quiet) (hl : s.trn.train.length < 32)
    (hc : BitVec.ofNat 8 f.cabin ≠ 0 → ∀ x ∈ s.trn.train, x.cabin ≠ BitVec.ofNat 8 f.cabin) :
    Keep s (s.restore f) := by
  unfold State.restore
  simp only
  have join := s.joinTrain_keep (restoredRecord s.trn.nextEntry s.trav.counter f) hq
    (s.trn.nextEntry_fresh (by omega)) hl hc
  exact ((join.trans (State.scheduleRecord_keep _ _ _ _ (s.joinTrain_mem _))).trans (State.crowdingTest_keep _)).trans
    (State.report_keep _ _)

/-! ### Firing -/

theorem State.handLead_calm (s : State) (e : BitVec 16) (k : Nat) (p : PathPoint) : Calm s (s.handLead e k p) := by
  unfold State.handLead
  repeat' split
  all_goals
    first
    | exact Calm.rfl
    | exact s.closureLead_calm _ _ _ _
    | exact s.gripLead_calm _
    | exact (s.divertLead_keep _).toCalm
    | exact (s.departLead_keep _).toCalm

/-- A lead of a record of the train. -/
theorem State.handLead_keep (s : State) (e : BitVec 16) (k : Nat) (p : PathPoint)
    (he : e ∈ s.trn.train.map CabinRecord.entry) : Keep s (s.handLead e k p) := by
  unfold State.handLead
  repeat' split
  all_goals
    first
    | exact Keep.rfl
    | exact s.closureLead_keep _ _ _ _ he
    | exact s.gripLead_keep _ he
    | exact s.divertLead_keep _
    | exact s.departLead_keep _

theorem State.handPoint_keep (s : State) (e : BitVec 16) (k : Nat) (p : PathPoint) : Keep s (s.handPoint e k p) := by
  unfold State.handPoint
  repeat' split
  all_goals
    with_reducible
      repeat
        first
        | exact Keep.rfl
        | refine Keep.trans ?_ (State.closurePoint_keep ..)
        | refine Keep.trans ?_ (State.divertPoint_keep ..)
        | refine Keep.trans ?_ (State.departPoint_keep ..)

theorem State.superviseAt_entries (s : State) (r : CabinRecord) (k : Nat) (p : PathPoint) :
    (s.superviseAt r k p).trn.train.map CabinRecord.entry = s.trn.train.map CabinRecord.entry := by
  unfold State.superviseAt
  repeat' split
  · exact s.claimRecord_entries _ _ fun _ => rfl
  · rfl
  · rfl

theorem State.superviseAt_keep (s : State) (r : CabinRecord) (k : Nat) (p : PathPoint)
    (h : r.entry ∈ s.trn.train.map CabinRecord.entry) : Keep s (s.superviseAt r k p) := by
  unfold State.superviseAt
  repeat' split
  · exact s.endSupervision_keep _ _
  · exact s.addSched_keep _ h
  · exact Keep.rfl

theorem State.firePoint_keep (s : State) (e : BitVec 16) (k : Nat) : Keep s (s.firePoint e k) := by
  unfold State.firePoint
  split
  · next r p hr _ =>
    obtain ⟨hm, he⟩ := State.record_mem hr
    simp only
    refine Keep.trans ?_ (State.handPoint_keep _ _ _ _)
    have claim := s.claimRecord_keep e (fun r => { r with lastPoint := k }) (fun _ => rfl) fun _ => rfl
    have hent := s.claimRecord_entries e (fun r => { r with lastPoint := k }) fun _ => rfl
    have mem : r.entry ∈ (s.claimRecord e fun r => { r with lastPoint := k }).trn.train.map CabinRecord.entry := by
      rw [hent]; exact List.mem_map.2 ⟨r, hm, rfl⟩
    have sup := claim.trans (State.superviseAt_keep _ r k p mem)
    have mem' := mem
    rw [← State.superviseAt_entries _ r k p, he] at mem'
    generalize (s.claimRecord e fun r => { r with lastPoint := k }).superviseAt r k p = u at sup mem'
    have third : Keep s (if p.action = .depart then u else u.schedulePoint e r.entryCount (k + 1)) := by
      split
      · exact sup
      · exact sup.trans (u.schedulePoint_keep _ _ _ mem')
    have there : e ∈ (if p.action = .depart then u else u.schedulePoint e r.entryCount (k + 1)).trn.train.map
        CabinRecord.entry := by
      split
      · exact mem'
      · rw [State.schedulePoint_trn]; exact mem'
    generalize (if p.action = .depart then u else u.schedulePoint e r.entryCount (k + 1)) = v at third there
    split
    · exact third.trans (v.handLead_keep _ _ _ there)
    · exact third
  · exact Keep.rfl

theorem State.fireLead_calm (s : State) (e : BitVec 16) (k : Nat) : Calm s (s.fireLead e k) := by
  unfold State.fireLead
  split
  · exact s.handLead_calm _ _ _
  · exact Calm.rfl

theorem State.fireLead_keep (s : State) (e : BitVec 16) (k : Nat) (he : e ∈ s.trn.train.map CabinRecord.entry) :
    Keep s (s.fireLead e k) := by
  unfold State.fireLead
  split
  · exact s.handLead_keep _ _ _ he
  · exact Keep.rfl

theorem State.fireWindowEnd_keep (s : State) (e : BitVec 16) (k : Nat) : Keep s (s.fireWindowEnd e k) := by
  unfold State.fireWindowEnd
  repeat' split
  all_goals
    with_reducible
      repeat
        first
        | exact Keep.rfl
        | refine Keep.trans ?_ (State.endSupervision_keep ..)
        | refine Keep.trans ?_ (State.raise_keep _ _ _ rfl)

/-- An entry of the schedule fires: it names a record of the train. -/
theorem State.fire_keep (s : State) (e : SchedEntry) (he : e ∈ s.trav.schedule) : Keep s (s.fire e) := by
  unfold State.fire
  simp only
  have first : Keep s (s.modTrav fun t => { t with schedule := t.schedule.erase e }) :=
    s.modSchedule_keep _ fun hn x hx => hn x (List.mem_of_mem_erase hx)
  split
  · by_cases h : e.entry ∈ s.trn.train.map CabinRecord.entry
    · exact first.trans (State.fireLead_keep _ _ _ h)
    · refine ⟨first.toCalm.trans (State.fireLead_calm _ _ _), fun ht => absurd (ht.named e he) h,
        fun ht => absurd (ht.named e he) h, fun ht => absurd (ht.named e he) h,
        fun ht => absurd (ht.named e he) h⟩
  · exact first.trans (State.firePoint_keep _ _ _)
  · exact first.trans (State.fireWindowEnd_keep _ _ _)

theorem firstInOrder_mem {c : BitVec 24} : ∀ {l : List SchedEntry} {e : SchedEntry}, firstInOrder c l = some e → e ∈ l
  | [], _, h => by cases h
  | x :: xs, e, h => by
    unfold firstInOrder at h
    split at h
    · cases h; exact List.mem_cons_self
    · next y hy =>
      split at h
      · cases h; exact List.mem_cons_of_mem _ (firstInOrder_mem hy)
      · cases h; exact List.mem_cons_self

theorem Trav.nextDue_mem {t : Trav} {e : SchedEntry} (h : t.nextDue = some e) : e ∈ t.schedule :=
  (List.mem_filter.1 (firstInOrder_mem h)).1

theorem State.fireUpTo_keep (n : Nat) : ∀ s : State, Keep s (s.fireUpTo n) := by
  induction n with
  | zero => exact fun _ => Keep.rfl
  | succ n ih =>
    intro s
    unfold State.fireUpTo
    split
    · exact Keep.rfl
    · next h => exact (s.fire_keep _ (Trav.nextDue_mem h)).trans (ih _)

theorem State.firePass_keep (s : State) : Keep s s.firePass := State.fireUpTo_keep _ s

/-! ### The encoder and the zone inputs -/

theorem State.regain_keep (s : State) : Keep s (s.regain) := by
  unfold State.regain
  repeat' split
  all_goals
    with_reducible
      repeat
        first
        | exact Keep.rfl
        | refine Keep.trans ?_ (State.modTrav_keep _ _ rfl)
        | refine Keep.trans ?_ (State.clear_keep ..)

theorem State.forward_keep (s : State) : Keep s (s.modTrav Trav.forward) := s.modTrav_keep _ rfl rfl

theorem State.stepForward_keep (s : State) : Keep s (s.stepForward) := by
  unfold State.stepForward
  simp only
  repeat' split
  all_goals
    with_reducible
      repeat
        first
        | exact Keep.rfl
        | refine Keep.trans ?_ (State.firePass_keep ..)
        | refine Keep.trans ?_ (State.regain_keep ..)
        | refine Keep.trans ?_ (State.forward_keep _)
        | refine Keep.trans ?_ (State.setPins_keep ..)

theorem State.stepReverse_keep (s : State) : Keep s (s.stepReverse) := by
  unfold State.stepReverse
  simp only
  repeat' split
  all_goals
    with_reducible
      repeat
        first
        | exact Keep.rfl
        | refine Keep.trans ?_ (State.modTrav_keep _ _ rfl)
        | refine Keep.trans ?_ (State.raise_keep _ _ _ rfl)
        | refine Keep.trans ?_ (State.setPins_keep ..)

theorem State.skipStep_keep (s : State) : Keep s (s.skipStep) := by
  unfold State.skipStep
  simp only
  all_goals
    with_reducible
      repeat
        first
        | exact Keep.rfl
        | refine Keep.trans ?_ (State.report_keep ..)
        | refine Keep.trans ?_ (State.setPins_keep ..)

theorem State.travRunning_keep (s : State) : Keep s (s.travRunning) := by
  unfold State.travRunning
  simp only
  repeat' split
  all_goals
    with_reducible
      repeat
        first
        | exact Keep.rfl
        | refine Keep.trans ?_ (State.clear_keep ..)
        | refine Keep.trans ?_ (State.modTrav_keep _ _ rfl)

theorem State.confirm_keep (s : State) (z k : Nat) : Keep s (s.confirm z k) := by
  unfold State.confirm
  repeat' split
  all_goals
    with_reducible
      repeat
        first
        | exact Keep.rfl
        | refine Keep.trans ?_ (State.clear_keep ..)
        | refine Keep.trans ?_ (State.raise_keep _ _ _ rfl)
        | refine Keep.trans ?_ (State.endSupervision_keep ..)
        | refine Keep.trans ?_ (State.dropWindowEnd_keep ..)

theorem State.zoneTaken_keep (s : State) (z : Nat) : Keep s (s.zoneTaken z) := by
  unfold State.zoneTaken
  repeat' split
  all_goals
    with_reducible
      repeat
        first
        | exact Keep.rfl
        | refine Keep.trans ?_ (State.entryEdge_keep ..)
        | refine Keep.trans ?_ (State.confirm_keep ..)

theorem State.zoneRise_keep (s : State) (z : Nat) : Keep s (s.zoneRise z) := by
  unfold State.zoneRise
  simp only
  repeat' split
  all_goals
    with_reducible
      repeat
        first
        | exact Keep.rfl
        | refine Keep.trans ?_ (State.zoneTaken_keep ..)
        | refine Keep.trans ?_ (State.setPins_keep ..)

end Sys2Proof.Machine
end

