-- ==== Sys2Proof/Laws/Rope.lean ====
section
/-! SUPPORT. What RSU, SMT and SWP keep in order. -/

namespace Sys2Proof.Machine

/-! ### RSU -/

/-- A change of one runtime record that keeps its miss count in order. -/
theorem State.setRuntime_keep (s : State) (k : Nat) (f : TowerRuntime → TowerRuntime)
    (h : ∀ u entry, nth1 s.rsu.runtime k = some u → nth1 s.rsu.towers k = some entry →
      u.missCount ≤ (entry.map TowerEntry.missLimit).getD 0 →
      (f u).missCount ≤ (entry.map TowerEntry.missLimit).getD 0) : Keep s (s.modRuntime k f) := by
  refine s.modRsu_keep _ fun hk j entry u he hu => ?_
  simp only [nth1_mod1] at hu
  split at hu
  · next hj =>
    subst hj
    obtain ⟨v, hv, rfl⟩ := Option.map_eq_some_iff.1 hu
    exact h v entry hv he (hk j entry v he hv)
  · exact hk j entry u he hu

/-- A change of one runtime record that does not raise its miss count. -/
theorem State.modRuntime_keep (s : State) (k : Nat) (f : TowerRuntime → TowerRuntime)
    (h : ∀ u, (f u).missCount ≤ u.missCount) : Keep s (s.modRuntime k f) :=
  s.setRuntime_keep k f fun u _ _ _ hu => (h u).trans hu

theorem State.ropeClaim_keep (s : State) (k : Nat) (c : CauseKind) (a b : Bool)
    (f : TowerRuntime → Bool → TowerRuntime) (h : c.subjectType = .tower)
    (hf : ∀ u v, (f u v).missCount = u.missCount) : Keep s (s.ropeClaim k c a b f) := by
  unfold State.ropeClaim
  repeat' split
  · exact (s.raise_keep c (.tower k) h.symm).trans (State.modRuntime_keep _ _ _ fun u => (hf u _).le)
  · exact (s.clear_keep _ _).trans (State.modRuntime_keep _ _ _ fun u => (hf u _).le)
  · exact Keep.rfl

theorem State.ropeClaims_keep (s : State) (k : Nat) (t : TowerEntry) (rs : List Reading) :
    Keep s (s.ropeClaims k t rs) := by
  unfold State.ropeClaims
  refine Keep.trans ?_ (State.ropeClaim_keep _ _ _ _ _ _ rfl fun _ _ => rfl)
  refine Keep.trans ?_ (State.ropeClaim_keep _ _ _ _ _ _ rfl fun _ _ => rfl)
  exact State.ropeClaim_keep _ _ _ _ _ _ rfl fun _ _ => rfl

theorem State.towerSlot_keep (s : State) (k : Nat) (n : BitVec 16) (rs : List Reading) : Keep s (s.towerSlot k n rs) := by
  unfold State.towerSlot
  simp only
  repeat' split
  all_goals
    with_reducible
      repeat
        first
        | exact Keep.rfl
        | refine Keep.trans ?_ (State.ropeClaims_keep ..)
        | refine Keep.trans ?_ (State.modRuntime_keep _ _ _ fun _ => Nat.le_refl _)
        | refine Keep.trans ?_ (State.modRuntime_keep _ _ _ fun _ => Nat.zero_le _)
        | refine Keep.trans ?_ (State.clear_keep ..)

theorem State.towerMiss_keep (s : State) (k : Nat) : Keep s (s.towerMiss k) := by
  unfold State.towerMiss
  split
  · exact Keep.rfl
  · next t ht =>
    split
    · next hlt =>
      simp only
      have first : Keep s (s.modRuntime k fun u => { u with missCount := u.missCount + 1 }) := by
        refine s.setRuntime_keep k _ fun u entry hu he _ => ?_
        unfold State.towerAt at ht
        unfold State.runtimeAt at hlt
        rw [he] at ht
        rw [hu] at hlt
        have ht : entry = some t := ht
        subst ht
        exact hlt
      split
      · exact (first.trans (State.raise_keep _ _ _ rfl)).trans (State.modRuntime_keep _ _ _ fun _ => Nat.le_refl _)
      · exact first
    · exact s.raise_keep _ _ rfl

/-! ### The call machine -/

/-- A change of the call state: outside SETUP, or to IDLE. -/
theorem State.setCall_keep (s : State) (new : CallState) (e : CallEvent) (h : new = .idle ∨ s.perm.line ≠ .setup) :
    Keep s (s.setCall new e) := by
  have wake : Keep s (if s.smt.call = .idle then s.wake .call else s) := by
    split
    · exact s.wake_keep _
    · exact Keep.rfl
  have wakes : Same s (if s.smt.call = .idle then s.wake .call else s) := by
    split
    · exact Same.ofEq (s.wake_dtx _) (s.wake_gsw _) (s.wake_rsu _) (by rw [s.wake_trav]) (by rw [s.wake_trn])
    · exact Same.rfl
  have quiet : s.smt.call = .idle → (if s.smt.call = .idle then s.wake .call else s).perm.line ≠ .quiet := by
    intro hi
    rw [if_pos hi]
    exact s.wake_notQuiet _
  have same : (if s.smt.call = .idle then s.wake .call else s).smt = s.smt := by
    split
    · unfold State.wake; split <;> rfl
    · rfl
  unfold State.setCall
  simp only
  generalize (if s.smt.call = .idle then s.wake .call else s) = u at wake wakes quiet same ⊢
  refine ⟨⟨wake.pending, wake.phase, wake.line, wake.perm, fun k => (wake.reports k).add _, ?_, wake.urgent, wake.table,
    ?_, ?_, fun k => ⟨(wake.train k).distinct, (wake.train k).room, (wake.train k).cabins, (wake.train k).named⟩⟩,
    (Same.trans wakes (by exact Same.ofEq rfl rfl rfl rfl rfl)).lists⟩
  · intro k
    obtain ⟨hu, hd, hs⟩ := k
    simp only [State.report_smt, State.modSmt_smt, same]
    by_cases hc : s.smt.call = .connected
    · exact ⟨by simp [hc], by simp [hc], fun _ => by simp [hc, silenceCode]⟩
    · exact ⟨by simpa [hc] using hu, by simpa [hc] using hd, fun _ => by simpa [hc] using hs hc⟩
  · intro k hq
    have hq : u.perm.line = .quiet := hq
    have hsq : s.perm.line = .quiet := by rcases wake.line with e | e | e <;> simp_all
    exact absurd hq (quiet (k hsq).2)
  · intro k hq
    have hq : u.perm.line = .setup := hq
    have hsq : s.perm.line = .setup := by rcases wake.line with e | e | e <;> simp_all
    rcases h with rfl | h
    · exact ⟨rfl, (wake.setup k hq).2⟩
    · exact absurd hsq h

theorem State.endCall_keep (s : State) (c : CallOutcome) (e : CallEvent) : Keep s (s.endCall c e) :=
  (s.setCall_keep .idle e (Or.inl rfl)).trans (State.report_keep _ _)

/-- A change of SMT's marks and outputs. -/
theorem State.beginCall_keep (s : State) (new : CallState) (a b : Bool) (e : CallEvent) (h : s.perm.line ≠ .setup) :
    Keep s (s.beginCall new a b e) := by
  unfold State.beginCall
  exact (s.setCall_keep new e (Or.inr h)).trans (State.modSmt_keep _ _ ⟨rfl, rfl, rfl, rfl, rfl⟩)

theorem State.connectOut_keep (s : State) (e : CallEvent) (h : s.perm.line ≠ .setup) : Keep s (s.connectOut e) := by
  unfold State.connectOut
  simp only
  split
  · exact (s.setCall_keep _ e (Or.inr h)).trans (State.modSmt_keep _ _ ⟨rfl, rfl, rfl, rfl, rfl⟩)
  · exact s.setCall_keep _ e (Or.inr h)

theorem State.placeCall_keep (s : State) (a b : Bool) (e : CallEvent) (h : s.perm.line ≠ .setup) :
    Keep s (s.placeCall a b e) := by
  unfold State.placeCall
  simp only
  have first := s.beginCall_keep .outgoing a b e h
  have hn := first.notSetup h
  generalize s.beginCall .outgoing a b e = u at first hn
  split
  · exact first.trans (u.connectOut_keep _ hn)
  · exact first.trans (u.connectOut_keep _ hn)
  · exact first
  · exact first

theorem State.callOffHook_keep (s : State) (h : s.perm.line ≠ .setup) : Keep s s.callOffHook := by
  unfold State.callOffHook
  split
  · exact s.placeCall_keep _ _ _ h
  · exact s.modSmt_keep _ ⟨rfl, rfl, rfl, rfl, rfl⟩
  · exact (s.setCall_keep _ _ (Or.inr h)).trans (State.modSmt_keep _ _ ⟨rfl, rfl, rfl, rfl, rfl⟩)
  · exact s.modSmt_keep _ ⟨rfl, rfl, rfl, rfl, rfl⟩
  · exact Keep.rfl

theorem State.callOnHook_keep (s : State) (h : s.perm.line ≠ .setup) : Keep s s.callOnHook := by
  unfold State.callOnHook
  repeat' split
  all_goals first | exact Keep.rfl | exact s.endCall_keep _ _ | exact s.setCall_keep _ _ (Or.inr h)

theorem State.hookEdge_keep (s : State) (b : Bool) : Keep s (s.hookEdge b) := by
  unfold State.hookEdge
  simp only
  have first := s.setPins_keep { s.pins with hook := b }
  generalize s.setPins { s.pins with hook := b } = u at first
  repeat' split
  · exact first
  · next h _ => exact first.trans (u.callOffHook_keep h)
  · next h _ => exact first.trans (u.callOnHook_keep h)

theorem State.callCodeTaken_keep (s : State) (c : CallCode) (h : s.perm.line ≠ .setup) : Keep s (s.callCodeTaken c) := by
  unfold State.callCodeTaken
  split
  · exact (s.beginCall_keep _ _ _ _ h).trans (State.modSmt_keep _ _ ⟨rfl, rfl, rfl, rfl, rfl⟩)
  all_goals first | exact s.connectOut_keep _ h | exact s.endCall_keep _ _ | exact Keep.rfl

theorem State.takeAutoClaim_keep (s : State) : Keep s s.takeAutoClaim := by
  unfold State.takeAutoClaim
  simp only
  have first := s.modSmt_keep (fun m => { m with autoClaims := m.autoClaims - 1 }) ⟨rfl, rfl, rfl, rfl, rfl⟩
  generalize (s.modSmt fun m => { m with autoClaims := m.autoClaims - 1 }) = u at first
  repeat' split
  · exact Keep.rfl
  · next h => exact first.trans (u.placeCall_keep _ _ _ h.2)
  · exact first

theorem State.ringExpired_keep (s : State) : Keep s (s.ringExpired) := by
  unfold State.ringExpired
  repeat' split
  all_goals
    with_reducible
      repeat
        first
        | exact Keep.rfl
        | refine Keep.trans ?_ (State.endCall_keep ..)

theorem State.summitSetup_keep (s : State) : Keep s s.summitSetup := by
  unfold State.summitSetup
  simp only
  split
  · exact s.modSmt_keep _ ⟨rfl, rfl, rfl, rfl, rfl⟩
  · exact (s.modSmt_keep _ ⟨rfl, rfl, rfl, rfl, rfl⟩).trans (State.endCall_keep _ _ _)

theorem State.countSweep_keep (s : State) : Keep s s.countSweep := by
  unfold State.countSweep
  simp only
  repeat' split
  · exact (s.modSmt_keep _ ⟨rfl, rfl, rfl, rfl, rfl⟩).trans (State.endCall_keep _ _ _)
  · exact s.modSmt_keep _ ⟨rfl, rfl, rfl, rfl, rfl⟩
  · exact Keep.rfl

/-! ### Voice -/

/-- A change of SMT that leaves the call state and keeps the voice queues in order. -/
theorem State.modVoice_keep' (s : State) (f : Smt → Smt) (hc : (f s.smt).call = s.smt.call)
    (hv : VoiceOk s.smt → VoiceOk (f s.smt)) : Keep s (s.modSmt f) :=
  ⟨⟨rfl, rfl, Or.inl rfl, id, id, hv, id, id, fun k hq => ⟨(k hq).1, hc.trans (k hq).2⟩,
    fun k hq => ⟨hc.trans (k hq).1, (k hq).2⟩, fun k => ⟨k.distinct, k.room, k.cabins, k.named⟩⟩,
    Lists.ofEq rfl rfl rfl rfl rfl⟩

/-- A change of the voice queues alone, in CONNECTED. -/
theorem State.modVoice_keep (s : State) (f : Smt → Smt) (hc : (f s.smt).call = s.smt.call)
    (h : s.smt.call = .connected) (hu : s.smt.uplink.length ≤ 256 → (f s.smt).uplink.length ≤ 256)
    (hd : s.smt.downlink.length ≤ 256 → (f s.smt).downlink.length ≤ 256) : Keep s (s.modSmt f) :=
  s.modVoice_keep' f hc fun k => ⟨hu k.up, hd k.down, fun hn => absurd (hc.trans h) hn⟩

theorem joinCapped_length {α : Type} (q : List α) (x : α) (h : q.length ≤ 256) : (joinCapped q x).length ≤ 256 := by
  unfold joinCapped
  split <;> simp <;> omega

theorem foldl_joinCapped_length {α : Type} (xs : List α) : ∀ q : List α, q.length ≤ 256 →
    (xs.foldl joinCapped q).length ≤ 256 := by
  induction xs with
  | nil => exact fun _ h => h
  | cons x xs ih => exact fun q h => ih _ (joinCapped_length q x h)

theorem State.sampleIn_keep (s : State) (b : Byte) : Keep s (s.sampleIn b) := by
  unfold State.sampleIn
  split
  · next h => exact s.modVoice_keep _ rfl h (joinCapped_length _ _) id
  · exact Keep.rfl

theorem State.appendDown_keep (s : State) (es : List DownEntry) : Keep s (s.appendDown es) := by
  unfold State.appendDown
  split
  · next h => exact s.modVoice_keep _ rfl h id (foldl_joinCapped_length _ _)
  · exact Keep.rfl

theorem State.takeUplink_keep (s : State) : Keep s s.takeUplink := by
  unfold State.takeUplink
  split
  · next h => exact s.modVoice_keep _ rfl h (fun k => by simp; omega) id
  · exact Keep.rfl

theorem Smt.play_call (m : Smt) : m.play.call = m.call := by
  unfold Smt.play; split <;> rfl

theorem Smt.play_uplink (m : Smt) : m.play.uplink = m.uplink := by
  unfold Smt.play; split <;> rfl

theorem Smt.play_downlink (m : Smt) (h : m.downlink.length ≤ 256) : m.play.downlink.length ≤ 256 := by
  unfold Smt.play
  split
  · exact h
  · next e => rw [e] at h; simp at h ⊢; omega

theorem State.sampleOut_keep (s : State) : Keep s s.sampleOut := by
  unfold State.sampleOut
  by_cases h : s.smt.call = .connected
  · refine s.modVoice_keep _ ?_ h ?_ ?_
    all_goals
      simp only [h, if_true]
      repeat' split
    all_goals first | exact Smt.play_downlink _ | simp_all [Smt.play_call, Smt.play_uplink]
  · refine s.modVoice_keep' _ ?_ fun k => ?_ <;> simp only [if_neg h]
    exact ⟨k.up, k.down, fun hn => ⟨(k.still hn).1, (k.still hn).2.1, (k.still hn).2.2.1, rfl⟩⟩

/-! ### The summit slot -/

theorem State.summitMiss_keep (s : State) : Keep s s.summitMiss := by
  unfold State.summitMiss
  simp only
  refine (s.modSmt_keep (fun m => { m with releaseRun := none, callRun := none }) ⟨rfl, rfl, rfl, rfl, rfl⟩).trans ?_
  generalize (s.modSmt fun m => { m with releaseRun := none, callRun := none }) = u
  have second : Keep u (if decide (u.smt.missCount < u.site.summitMissLimit) = true then
      u.modSmt fun m => { m with missCount := m.missCount + 1 } else u) := by
    split
    · exact u.modSmt_keep _ ⟨rfl, rfl, rfl, rfl, rfl⟩
    · exact Keep.rfl
  generalize (if decide (u.smt.missCount < u.site.summitMissLimit) = true then
      u.modSmt fun m => { m with missCount := m.missCount + 1 } else u) = v at second
  refine second.trans ?_
  split
  · refine (v.raise_keep .summitLost .summit rfl).trans ?_
    generalize v.raise .summitLost .summit = w
    have third : Keep w (if decide (u.smt.missCount < u.site.summitMissLimit) = true then
        w.modSmt fun m => { m with lostFlag := true } else w) := by
      split
      · exact w.modSmt_keep _ ⟨rfl, rfl, rfl, rfl, rfl⟩
      · exact Keep.rfl
    generalize (if decide (u.smt.missCount < u.site.summitMissLimit) = true then
        w.modSmt fun m => { m with lostFlag := true } else w) = x at third
    split
    · exact third
    · exact third.trans (x.endCall_keep _ _)
  · exact v.appendDown_keep _

theorem State.raiseCode_keep (s : State) (c : SafetyCode) : Keep s (s.raiseCode c) := by
  unfold State.raiseCode
  cases c <;> first | exact Keep.rfl | exact s.raise_keep _ _ rfl

theorem State.clearCode_keep (s : State) (c : SafetyCode) : Keep s (s.clearCode c) := by
  unfold State.clearCode
  split
  · exact s.clear_keep _ _
  · exact Keep.rfl

theorem State.holdSafety_keep (s : State) (c : SafetyCode) : Keep s (s.holdSafety c) :=
  ((s.modSmt_keep _ ⟨rfl, rfl, rfl, rfl, rfl⟩).trans (State.raiseCode_keep _ _)).trans (State.clearCode_keep _ _)

theorem State.judgeSafety_keep (s : State) (c : SafetyCode) (n : BitVec 16) : Keep s (s.judgeSafety c n) := by
  unfold State.judgeSafety
  repeat' split
  · exact s.holdSafety_keep c
  · exact (s.modSmt_keep _ ⟨rfl, rfl, rfl, rfl, rfl⟩).trans (State.raiseCode_keep _ _)
  · exact s.holdSafety_keep c
  · exact (s.modSmt_keep _ ⟨rfl, rfl, rfl, rfl, rfl⟩).trans (State.raiseCode_keep _ _)

theorem State.judgeCall_keep (s : State) (c : CallCode) (n : BitVec 16) (h : s.perm.line ≠ .setup) :
    Keep s (s.judgeCall c n) := by
  unfold State.judgeCall
  repeat' split
  · exact s.modSmt_keep _ ⟨rfl, rfl, rfl, rfl, rfl⟩
  · exact (s.modSmt_keep (fun m => { m with heldCall := c, callRun := none }) ⟨rfl, rfl, rfl, rfl, rfl⟩).trans
      (State.callCodeTaken_keep _ c h)
  · exact s.modSmt_keep _ ⟨rfl, rfl, rfl, rfl, rfl⟩

theorem State.summitSlot_keep (s : State) (n : BitVec 16) (ws : List Word) (h : s.perm.line ≠ .setup) :
    Keep s (s.summitSlot n ws) := by
  unfold State.summitSlot
  split
  · exact s.summitMiss_keep
  · next c _ =>
    simp only
    have first := s.modSmt_keep (fun m => { m with missCount := 0 }) ⟨rfl, rfl, rfl, rfl, rfl⟩
    generalize (s.modSmt fun m => { m with missCount := 0 }) = u at first
    have second : Keep s (if u.smt.lostFlag = true then
        (u.clear .summitLost .summit).modSmt fun m => { m with lostFlag := false } else u) := by
      split
      · exact (first.trans (u.clear_keep _ _)).trans (State.modSmt_keep _ _ ⟨rfl, rfl, rfl, rfl, rfl⟩)
      · exact first
    generalize (if u.smt.lostFlag = true then
        (u.clear .summitLost .summit).modSmt fun m => { m with lostFlag := false } else u) = v at second
    have third := second.trans (v.judgeSafety_keep c.safety n)
    exact (third.trans (State.judgeCall_keep _ _ _ (third.notSetup h))).trans (State.appendDown_keep _ _)

/-! ### SWP -/

/-- A change of SWP outside SETUP. -/
theorem State.modSwp_keep' (s : State) (f : Swp → Swp) (h : s.perm.line ≠ .setup) : Keep s (s.modSwp f) :=
  ⟨⟨rfl, rfl, Or.inl rfl, id, id, id, id, id, id, fun _ hq => absurd hq h,
    fun k => ⟨k.distinct, k.room, k.cabins, k.named⟩⟩, Lists.ofEq rfl rfl rfl rfl rfl⟩

/-- A sweep ends. -/
theorem State.endSweep_keep (s : State) (f : Swp → Swp)
    (h : (f s.swp).outstanding = none ∧ (f s.swp).intervalTimer = s.swp.intervalTimer) : Keep s (s.modSwp f) := by
  refine ⟨⟨rfl, rfl, Or.inl rfl, id, id, id, id, id, id, ?_, fun k => ⟨k.distinct, k.room, k.cabins, k.named⟩⟩,
    Lists.ofEq rfl rfl rfl rfl rfl⟩
  intro k hq
  have := k hq
  exact ⟨this.1, h.1, by rw [State.modSwp_swp, h.2]; exact this.2.2⟩

theorem State.sendSweep_keep (s : State) (h : s.perm.line ≠ .setup) : Keep s s.sendSweep := by
  unfold State.sendSweep
  simp only
  have first := s.takeUplink_keep.trans (State.countSweep_keep _)
  exact first.trans (State.modSwp_keep' _ _ (first.notSetup h))

theorem State.sendAndRestart_keep (s : State) (h : s.perm.line ≠ .setup) : Keep s s.sendAndRestart := by
  unfold State.sendAndRestart
  exact (s.sendSweep_keep h).trans (State.modSwp_keep' _ _ ((s.sendSweep_keep h).notSetup h))

theorem State.takeTowerSlot_keep (s : State) (k : Nat) (n : BitVec 16) (ws : List Word) :
    Keep s (s.takeTowerSlot k n ws) := by
  unfold State.takeTowerSlot
  split
  · exact (s.modSwp_keep _ ⟨rfl, rfl⟩).trans (State.towerSlot_keep _ _ _ _)
  · exact s.towerMiss_keep _
  · simp only
    split
    · exact s.towerMiss_keep _
    · exact ((s.report_keep _).trans (State.modSwp_keep _ _ ⟨rfl, rfl⟩)).trans (State.towerMiss_keep _ _)

theorem State.takeSummitSlot_keep (s : State) (n : BitVec 16) (ws : List Word) (h : s.perm.line ≠ .setup) :
    Keep s (s.takeSummitSlot n ws) := by
  unfold State.takeSummitSlot
  split
  · exact s.summitSlot_keep _ _ h
  · exact s.summitMiss_keep

theorem State.validReturn_keep (s : State) (ws : List Word) (n h : Word) (hl : s.perm.line ≠ .setup) :
    Keep s (s.validReturn ws n h) := by
  unfold State.validReturn
  simp only
  have first := s.endSweep_keep
    (fun w => { w with deadlineTimer := none, outstanding := none, valid := w.valid + 1 }) ⟨rfl, rfl⟩
  have second := first.trans (Keep.foldl (fun s k => s.takeTowerSlot k n (towerSlotWords ws (bit h 15) k))
    (fun s k => s.takeTowerSlot_keep k n _) (towerNumbers (field h 0 5)) _)
  exact second.trans (State.takeSummitSlot_keep _ _ _ (second.notSetup hl))

theorem State.deadlineExpired_keep (s : State) : Keep s s.deadlineExpired := by
  unfold State.deadlineExpired
  simp only
  split
  · exact Keep.rfl
  · exact ((s.endSweep_keep _ ⟨rfl, rfl⟩).trans (Keep.foldl _ State.towerMiss_keep _ _)).trans
      (State.summitMiss_keep _)

theorem State.lineReadied_keep (s : State) : Keep s s.lineReadied :=
  ((s.setLine_keep .held _ (Or.inl rfl)).trans (State.sendAndRestart_keep _ (by simp [State.setLine]))).trans
    (State.firePass_keep _)

end Sys2Proof.Machine
end

