-- ==== Sys2Proof/Laws/Station.lean ====
section
/-! SUPPORT. Sound: what a command leaves in order. One lemma for each event of SLC, MGT, the line requests and the
resets. -/

namespace Sys2Proof.Machine

/-- From s to t the queue and the reset phase stand, and outside a reset the 640 stays in order. -/
structure Sound (s t : State) : Prop where
  pending : t.pending = s.pending
  phase : t.phase = s.phase
  inv : s.phase = .live → Inv s → Inv t

theorem Keep.sound {s t : State} (a : Keep s t) : Sound s t :=
  ⟨a.pending, a.phase, fun hp h => ⟨a.perm h.perm, a.reports h.reports, a.voice h.voice, a.urgent h.urgent, a.table h.table,
    a.park h.park, a.setup h.setup, a.train h.train, a.dtx h.train h.dtx, a.gsw h.train h.gsw, a.rsu h.train h.rsu,
    a.path h.train h.path, fun hn => absurd (a.phase.trans hp) hn⟩⟩

theorem Sound.rfl {s : State} : Sound s s := ⟨Eq.refl _, Eq.refl _, fun _ => id⟩

theorem Sound.trans {s t u : State} (a : Sound s t) (b : Sound t u) : Sound s u :=
  ⟨b.pending.trans a.pending, b.phase.trans a.phase, fun hp h => b.inv (a.phase.trans hp) (a.inv hp h)⟩

/-- What an event that enters, lasts or ends a reset leaves: the queue, and the 640 in order. -/
structure Resets (s t : State) : Prop where
  pending : t.pending = s.pending
  inv : Inv s → Inv t

theorem Sound.resets {s t : State} (a : Sound s t) (h : s.phase = .live) : Resets s t := ⟨a.pending, a.inv h⟩

/-! ### Bounds of the lists that name records -/

/-- Entry numbers of records of the train, none twice, are at most 32. -/
theorem TrainOk.bound {s : State} (h : TrainOk s) {l : List (BitVec 16)} (nd : l.Nodup)
    (sub : ∀ e ∈ l, e ∈ s.trn.train.map CabinRecord.entry) : l.length ≤ 32 := by
  have := (List.subperm_of_subset nd sub).length_le
  rw [List.length_map] at this
  exact this.trans h.room

/-- The wait entries of all nodes are at most 32: they name records of the train, none twice (R64, R65). -/
theorem DtxOk.bound {s : State} (h : DtxOk s) (ht : TrainOk s) : s.waits.length ≤ 32 := by
  have at_ : ∀ i (hi : i < s.dtx.nodes.toList.length), s.node (i + 1) = some s.dtx.nodes.toList[i] := by
    intro i hi
    unfold State.node nth1
    simp only [Nat.add_eq_zero_iff, Nat.one_ne_zero, and_false, if_false, Nat.add_sub_cancel]
    simp only [Vector.length_toList] at hi
    simp [hi]
  rw [← List.length_map (f := WaitEntry.entry)]
  refine ht.bound ?_ ?_
  · unfold State.waits
    rw [List.map_flatMap, List.nodup_flatMap]
    refine ⟨fun n hn => ?_, List.pairwise_iff_getElem.2 fun i j hi hj hij => ?_⟩
    · obtain ⟨i, hi, rfl⟩ := List.mem_iff_getElem.1 hn
      exact (h.once _ _ (at_ i hi)).sublist (List.sublist_append_right _ _)
    · intro e hm hn
      have := h.apart _ _ _ _ e (at_ i hi) (at_ j hj) (List.mem_append_right _ hm) (List.mem_append_right _ hn)
      omega
  · intro e he
    obtain ⟨w, hw, rfl⟩ := List.mem_map.1 he
    obtain ⟨n, hn, hw⟩ := List.mem_flatMap.1 hw
    obtain ⟨i, hi, rfl⟩ := List.mem_iff_getElem.1 hn
    exact h.held _ _ (at_ i hi) w hw

/-- GSW expects at most 32 grips and holds at most 32 switch claims (R85, R92). -/
theorem GswOk.bound {s : State} (h : GswOk s) (ht : TrainOk s) :
    s.gsw.expectations.length ≤ 32 ∧ s.gsw.claims.length ≤ 32 := by
  refine ⟨ht.bound h.expectations h.expected, ?_⟩
  rw [← List.length_map (f := SwitchClaim.entry)]
  refine ht.bound h.claims fun e he => ?_
  obtain ⟨c, hc, rfl⟩ := List.mem_map.1 he
  exact h.claimed c hc

/-! ### Exchanges -/

theorem State.setExchange_keep (s : State) (x : Option Exchange) : Keep s (s.setExchange x) :=
  s.modSlc_keep _ ⟨rfl, rfl⟩

theorem State.complete_keep (s : State) (q : QueuedCommand) (ans : Answer) : Keep s (s.complete q ans) := by
  unfold State.complete
  split
  · exact s.gripCompletion_keep q ans
  all_goals exact s.dtxCompletion_keep q ans

theorem State.windowOpens_keep (s : State) : Keep s s.windowOpens := by
  unfold State.windowOpens
  repeat' split
  all_goals first | exact Keep.rfl | exact s.setExchange_keep _

theorem State.answerWindowCloses_keep (s : State) : Keep s s.answerWindowCloses := by
  unfold State.answerWindowCloses
  repeat' split
  all_goals
    first
    | exact Keep.rfl
    | exact s.setExchange_keep _
    | exact ((s.setExchange_keep _).trans (State.complete_keep _ _ _)).trans (State.silentExchange_keep _ _)

theorem State.turnWindowCloses_keep (s : State) : Keep s s.turnWindowCloses := by
  unfold State.turnWindowCloses
  repeat' split
  all_goals first | exact Keep.rfl | exact (s.setExchange_keep _).trans (State.silentExchange_keep _ _)

theorem State.pollExpired_keep (s : State) : Keep s s.pollExpired := by
  unfold State.pollExpired
  split
  · exact Keep.rfl
  · exact s.modSlc_keep _ ⟨rfl, rfl⟩

theorem State.judgePollSlot_keep (s : State) (k : Nat) (b : Bool) : Keep s (s.judgePollSlot k b) := by
  unfold State.judgePollSlot
  repeat' split
  all_goals
    first
    | exact Keep.rfl
    | exact s.modSlc_keep _ ⟨rfl, rfl⟩
    | exact (s.report_keep _).trans (State.modSlc_keep _ _ ⟨rfl, rfl⟩)

theorem State.pollSlotCloses_keep (s : State) (h : SlotHeard) : Keep s (s.pollSlotCloses h) := by
  unfold State.pollSlotCloses
  split
  · exact Keep.rfl
  · next x _ =>
    split
    · next k _ _ =>
      simp only
      have first := s.judgePollSlot_keep k (slotAnswers h k)
      split
      · exact first.trans (State.setExchange_keep _ _)
      · exact (first.trans (State.setExchange_keep _ none)).trans (State.pollEnded_keep _)
    · exact Keep.rfl

/-! ### The arbiter -/

theorem State.begin_keep (s : State) (k : ExchangeKind) (a : Nat) (ws : List Word) : Keep s (s.begin k a ws) :=
  s.setExchange_keep _

/-- A change of SLC that leaves the node table and does not lengthen the urgent queue. -/
theorem State.modSlc_keep' (s : State) (f : Slc → Slc) (hu : UrgentOk s.slc → UrgentOk (f s.slc))
    (ht : TableOk s.slc → TableOk (f s.slc)) : Keep s (s.modSlc f) :=
  ⟨⟨rfl, rfl, Or.inl rfl, id, id, id, hu, ht, id, id,
    fun k => ⟨k.distinct, k.room, k.cabins, k.named⟩⟩, Lists.ofEq rfl rfl rfl rfl rfl⟩

theorem State.beginCommand_keep (s : State) (q : QueuedCommand) : Keep s (s.beginCommand q) := by
  unfold State.beginCommand
  refine Keep.trans (s.modSlc_keep' _ ?_ id) (State.begin_keep _ _ _ _)
  intro h
  unfold UrgentOk at *
  simp only [List.length_drop]
  omega

theorem State.beginPoll_keep (s : State) : Keep s s.beginPoll := by
  unfold State.beginPoll
  exact (s.modSlc_keep _ ⟨rfl, rfl⟩).trans (State.begin_keep _ _ _ _)

theorem State.beginTurn_keep (s : State) (a : Nat) : Keep s (s.beginTurn a) := by
  unfold State.beginTurn
  exact (s.modSlc_keep _ ⟨rfl, rfl⟩).trans (State.begin_keep _ _ _ _)

theorem State.beginReport_keep (s : State) : Keep s s.beginReport := by
  unfold State.beginReport
  refine Keep.trans (s.modMgt_keep _ ?_) (State.begin_keep _ _ _ _)
  intro h
  exact ⟨by have := h.room; simp only [List.length_drop]; omega, fun e => absurd e (by simp)⟩

theorem State.chooseReady_keep (s : State) : Keep s s.chooseReady := by
  unfold State.chooseReady
  repeat' split
  all_goals
    first
    | exact Keep.rfl
    | exact s.begin_keep _ _ _
    | exact s.beginCommand_keep _
    | exact s.beginPoll_keep
    | exact s.beginTurn_keep _
    | exact s.beginReport_keep

theorem State.arbiter_keep (s : State) : Keep s s.arbiter := by
  unfold State.arbiter
  split
  · exact s.chooseReady_keep
  · exact Keep.rfl

theorem State.reportIsSent_keep (s : State) : Keep s s.reportIsSent := by
  unfold State.reportIsSent
  split
  · exact s.setExchange_keep _
  · exact Keep.rfl

theorem State.clearIsSent_keep (s : State) : Keep s s.clearIsSent := by
  unfold State.clearIsSent
  split
  · exact (s.setExchange_keep _).trans (State.modSlc_keep _ _ ⟨rfl, rfl⟩)
  · exact Keep.rfl

/-! ### Resets -/

theorem Perm.fullReset_ok : PermOk Perm.fullReset :=
  ⟨⟨by decide, by decide, by decide, by decide, by decide, by decide, fun k => by cases k <;> decide +kernel⟩, rfl, by decide⟩

theorem Slc.fullReset_table : TableOk Slc.fullReset := by
  intro k
  by_cases h : k ≤ 30
  · have : ∀ j : Fin 31, nth1 Slc.fullReset.nodeTable j = some .console ↔ j.val = 30 := by decide +kernel
    exact this ⟨k, by omega⟩
  · have h0 : k ≠ 0 := by omega
    have : nth1 Slc.fullReset.nodeTable k = none := by
      unfold nth1
      rw [if_neg h0]
      exact Vector.getElem?_eq_none (by omega)
    rw [this]
    simp
    omega

/-- The reset values of the blocks are in order, whatever PERM, the tower table and the path. -/
theorem reset_inv {t : State} (perm : PermOk t.perm) (hl : t.perm.line = .setup)
    (reports : ReportsOk t.mgt) (hsmt : t.smt = Smt.afterReset) (hu : t.slc.urgent = [])
    (table : TableOk t.slc) (ht : t.trn.train = []) (hsc : t.trav.schedule = []) (hsw : t.swp = Swp.afterReset)
    (hd : t.dtx = Dtx.afterReset) (hg : t.gsw = Gsw.afterReset) (hru : t.rsu.runtime = Rsu.fullReset.runtime)
    (path : PathOk t.trav) : Inv t := by
  have fresh : ∀ a n, t.node a = some n → n = NodeRec.ready := by
    intro a n hn
    unfold State.node at hn
    rw [hd] at hn
    exact Vector.mem_replicate.1 (nth1_mem hn) |>.2
  refine ⟨perm, reports, ?_, by simp [UrgentOk, hu], table, ?_, ?_, ?_, ?_, ?_, ?_, path, fun _ => hl⟩
  · rw [hsmt]
    exact ⟨by decide, by decide, fun _ => ⟨rfl, rfl, rfl, rfl⟩⟩
  · intro _
    exact ⟨ht, by rw [hsmt]; rfl⟩
  · intro _
    exact ⟨by rw [hsmt]; rfl, by rw [hsw]; rfl, by rw [hsw]; rfl⟩
  · exact ⟨by simp [ht], by simp [ht], by simp [ht], by simp [hsc]⟩
  · refine ⟨fun a n hn => ?_, fun a n hn => ?_, fun a b m n e hm _ he => ?_, fun a n hn w hw => ?_⟩
    · rw [fresh a n hn]; exact ⟨fun _ => rfl, fun _ => rfl⟩
    · rw [fresh a n hn]; exact List.nodup_nil
    · rw [fresh a m hm] at he; cases he
    · rw [fresh a n hn] at hw; cases hw
  · refine ⟨?_, ?_, ?_, ?_⟩ <;> rw [hg]
    · exact List.nodup_nil
    · exact fun e he => by cases he
    · exact List.nodup_nil
    · exact fun e he => by cases he
  · intro k entry u _ hu
    rw [hru] at hu
    rw [(Vector.mem_replicate.1 (nth1_mem hu)).2]
    exact Nat.zero_le _

/-- An empty report queue without an overflow mark is in order. -/
theorem reset_reports {m : Mgt} (hr : m.reports = [] := by rfl) (ho : m.overflowMark = false := by rfl) : ReportsOk m :=
  ⟨by simp [hr], by simp [ho]⟩

theorem State.beginFullReset_resets (s : State) (c : ResetCause) : Resets s (s.beginFullReset c) :=
  ⟨rfl, fun _ => reset_inv Perm.fullReset_ok rfl reset_reports rfl rfl Slc.fullReset_table rfl rfl rfl rfl rfl rfl
    (by decide : ([] : List PathPoint).length ≤ 16)⟩

theorem State.beginCommandReset_resets (s : State) : Resets s s.beginCommandReset := by
  refine ⟨rfl, fun h => reset_inv ?_ rfl reset_reports rfl rfl h.table rfl rfl rfl rfl rfl rfl h.path⟩
  have e := Perm.fullReset_ok
  exact ⟨⟨e.set.keys, e.set.typed, e.set.room, e.set.counts, e.set.selfActive, e.set.bounds, h.perm.set.table⟩, rfl,
    e.calm⟩

theorem State.responseIsSent_resets (s : State) (hp : s.phase = .live) : Resets s s.responseIsSent := by
  unfold State.responseIsSent
  simp only
  have first := ((s.setExchange_keep none).trans
    (State.modMgt_keep _ (fun m => { m with response := none }) (fun h => ⟨h.room, h.full⟩))).sound.resets hp
  repeat' split
  · exact ⟨first.pending, fun h => (State.beginCommandReset_resets _).inv (first.inv h)⟩
  · exact first
  · exact ⟨rfl, id⟩

theorem State.setLive_resets (s : State) : Resets s (s.setPhase .live) :=
  ⟨rfl, fun h => ⟨h.perm, h.reports, h.voice, h.urgent, h.table, h.park, h.setup,
    ⟨h.train.distinct, h.train.room, h.train.cabins, h.train.named⟩, ⟨h.dtx.nodes, h.dtx.once, h.dtx.apart, h.dtx.held⟩,
    ⟨h.gsw.expectations, h.gsw.expected, h.gsw.claims, h.gsw.claimed⟩, h.rsu, h.path, fun hn => absurd rfl hn⟩⟩

theorem State.endReset_resets (s : State) (c : ResetCause) (p : InputLevels) : Resets s (s.endReset c p) := by
  have first := (s.setPhase .live).setPins_keep p
  have second := first.trans (State.modMgt_keep _ (fun m =>
    { m with
      lineTime := 0
      resetCause := c
      reports := [{ report := .resetDone c, time := 0 }]
      overflowMark := false }) (fun _ => ⟨by simp, by simp⟩))
  have third := second.trans (State.modSlc_keep _ (fun c => { c with clearPending := true }) ⟨rfl, rfl⟩)
  have last : Keep (s.setPhase .live) (s.endReset c p) := by
    unfold State.endReset
    simp only
    split
    · exact third.trans (State.raise_keep _ .driveUncommanded .noSubject rfl)
    · exact third
  exact ⟨last.pending, fun h => (last.sound.inv rfl (s.setLive_resets.inv h))⟩

/-! ### The line requests -/

theorem State.lineStarted_sound (s : State) (hc : s.perm.stopping = false) :
    Sound s s.lineStarted := by
  unfold State.lineStarted
  simp only
  have lists : Lists s (s.setLine .running (.request .lineStart)) := Lists.ofEq rfl rfl rfl rfl rfl
  have first : Sound s (s.setLine .running (.request .lineStart)) := by
    refine ⟨rfl, rfl, fun hp h => ⟨?_, h.reports.add _, h.voice, h.urgent, h.table, ?_, ?_,
      ⟨h.train.distinct, h.train.room, h.train.cabins, h.train.named⟩, lists.dtx h.train h.dtx, lists.gsw h.train h.gsw,
      h.rsu, h.path, fun hn => absurd hp hn⟩⟩
    · rw [State.setLine_perm]
      exact h.perm.set.setLine .running (fun _ => hc)
    · intro hq
      exact absurd hq (by simp [State.setLine_perm, Perm.drive])
    · intro hq
      exact absurd hq (by simp [State.setLine_perm, Perm.drive])
  have second := State.setTimers_keep (s.setLine .running (.request .lineStart)) (fun p => p.stopTimer)
    fun _ => some ((s.setLine .running (.request .lineStart)).site.silenceLimit * 1000)
  exact (first.trans second.sound).trans (State.travRunning_keep _).sound

theorem State.lineParked_sound (s : State) (ht : s.trn.train = []) (hi : s.smt.call = .idle)
    (hc : s.perm.stopping = false) : Sound s (s.setLine .quiet (.request .linePark)) := by
  have lists : Lists s (s.setLine .quiet (.request .linePark)) := Lists.ofEq rfl rfl rfl rfl rfl
  refine ⟨rfl, rfl, fun hp h => ⟨?_, h.reports.add _, h.voice, h.urgent, h.table, ?_, ?_,
    ⟨h.train.distinct, h.train.room, h.train.cabins, h.train.named⟩, lists.dtx h.train h.dtx, lists.gsw h.train h.gsw,
    h.rsu, h.path, fun hn => absurd hp hn⟩⟩
  · rw [State.setLine_perm]
    exact h.perm.set.setLine .quiet (fun _ => hc)
  · intro _
    exact ⟨ht, hi⟩
  · intro hq
    exact absurd hq (by simp [State.setLine_perm, Perm.drive])

/-- SMT's part of a move into SETUP leaves the call IDLE. -/
theorem State.summitSetup_idle (s : State) : s.summitSetup.smt.call = .idle := by
  unfold State.summitSetup
  simp only
  split
  · next h => exact h
  · rfl

theorem State.endCall_swp (s : State) (c : CallOutcome) (e : CallEvent) : (s.endCall c e).swp = s.swp := by
  unfold State.endCall State.setCall State.wake
  simp only
  repeat' split
  all_goals rfl

theorem State.summitSetup_swp (s : State) : s.summitSetup.swp = s.swp := by
  unfold State.summitSetup
  simp only
  split
  · rfl
  · exact State.endCall_swp _ _ _

theorem State.lineToSetup_sound (s : State) : Sound s s.lineToSetup := by
  unfold State.lineToSetup
  have first : ∀ h : Inv s, PermOk (s.setLine .setup (.request .lineSetup)).perm := fun h => by
    rw [State.setLine_perm]
    exact h.perm.set.setLine .setup (by simp)
  have last := ((s.setLine .setup (.request .lineSetup)).sweepSetup).summitSetup_keep
  have lists : Lists s (s.setLine .setup (.request .lineSetup)).sweepSetup := Lists.ofEq rfl rfl rfl rfl rfl
  refine ⟨last.pending, last.phase, fun hp h => ?_⟩
  have train : TrainOk (s.setLine .setup (.request .lineSetup)).sweepSetup :=
    ⟨h.train.distinct, h.train.room, h.train.cabins, h.train.named⟩
  refine ⟨last.perm (first h), last.reports (h.reports.add _), last.voice h.voice, last.urgent h.urgent,
    last.table h.table, last.park ?_, ?_, last.train train, last.dtx train (lists.dtx h.train h.dtx),
    last.gsw train (lists.gsw h.train h.gsw), last.rsu train h.rsu, last.path train h.path,
    fun hn => absurd (last.phase.trans hp) hn⟩
  · intro hq
    exact absurd hq (by simp [State.sweepSetup, State.setLine_perm, Perm.drive])
  · intro _
    refine ⟨State.summitSetup_idle _, ?_, ?_⟩ <;> rw [State.summitSetup_swp] <;> rfl

end Sys2Proof.Machine
end

