-- ==== Sys2Proof/Laws/Requests.lean ====
section
/-! SUPPORT. Sound for the requests, the frames received and the timers. -/

namespace Sys2Proof.Machine

@[simp] theorem State.done_state (s : State) (ws : List Word) : (s.done ws).state = s := rfl

@[simp] theorem State.refuse_state (s : State) (r : ResultCode) (ws : List Word) : (s.refuse r ws).state = s := rfl

/-! ### Requests that change their owner -/

theorem State.writeCauses_keep (s : State) (i : Nat) (ws : List Word) : Keep s (s.writeCauses i ws).state := by
  unfold State.writeCauses
  split
  · exact Keep.rfl
  · split
    · next k c _ _ =>
      split
      · next hc =>
        refine Keep.ofPerm rfl rfl (Or.inl rfl) ?_ id ⟨rfl, rfl⟩ rfl rfl ⟨rfl, rfl⟩ ⟨rfl, rfl, rfl, rfl, rfl⟩
        intro h
        have lines := Perm.lines_of_eq (p' := { s.perm with causeTable := s.perm.causeTable.set k.index c }) h.lines
          rfl rfl rfl rfl rfl rfl
        refine ⟨⟨h.set.keys, h.set.typed, h.set.room, h.set.counts, h.set.selfActive, h.set.bounds, ?_⟩,
          lines, h.calm⟩
        intro j
        show ((s.perm.causeTable.set k.index c)[j.index]).allowed j = true
        rw [Fin.getElem_fin, Vector.getElem_set]
        split
        · next e =>
          have : k = j := by
            revert e
            cases k <;> cases j <;> decide
          rw [← this]
          exact hc
        · exact h.set.table j
      · exact Keep.rfl
    · exact Keep.rfl

theorem State.writePath_keep (s : State) (i : Nat) (ws : List Word) : Keep s (s.writePath i ws).state := by
  unfold State.writePath
  split
  · exact Keep.rfl
  split
  · exact Keep.rfl
  split
  · exact Keep.rfl
  next hi =>
    split
    · refine s.modPath_keep (fun t => { t with path := t.path.take i }) rfl fun h => ?_
      unfold PathOk at *
      simp only [List.length_take]
      omega
    · split
      · exact Keep.rfl
      · split
        · exact Keep.rfl
        · next p _ _ =>
          refine s.modPath_keep (fun t => { t with path := writePoint t.path i p }) rfl fun h => ?_
          unfold PathOk at *
          simp only [writePoint]
          split
          · simpa using h
          · simp only [List.length_append, List.length_singleton]
            omega

theorem State.unsupervise_keep (k : Nat) (s : State) (r : CabinRecord) : Keep s (State.unsupervise k s r) := by
  unfold State.unsupervise
  split
  · exact (s.dropWindowEnd_keep _ _).trans (State.endSupervision_keep _ _ _)
  · exact Keep.rfl

theorem State.maskInput_keep (s : State) (z : Nat) : Keep s (s.maskInput z) := by
  unfold State.maskInput
  simp only
  have first := (s.modTrav_keep (fun t => { t with zoneMask := t.zoneMask.setIfInBounds z true }) rfl).trans
    (State.clear_keep _ .zoneUnexpected (.input z))
  split
  · exact first.trans (Keep.foldl _ (State.unsupervise_keep _) _ _)
  · exact first

theorem State.writeZoneMask_keep (s : State) (i : Nat) (ws : List Word) : Keep s (s.writeZoneMask i ws).state := by
  unfold State.writeZoneMask
  repeat' split
  all_goals first | exact Keep.rfl | exact s.maskInput_keep i | (simp only [State.done_state]; refine State.modTrav_keep s _ ?_; rfl)

theorem State.changeKind_keep (s : State) (a : Nat) (kind : NodeKind) (h : a = 30 ↔ kind = .console) :
    Keep s (s.changeKind a kind) := by
  unfold State.changeKind
  simp only
  have first := s.modSlc_keep' (fun c =>
    { c with
      nodeTable := mod1 c.nodeTable a fun _ => kind
      service := mod1 c.service a fun _ => false
      answers := mod1 c.answers a fun _ => AnswerRec.cleared }) id (by
    intro ht k
    show nth1 (mod1 s.slc.nodeTable a fun _ => kind) k = some .console ↔ k = 30
    rw [nth1_mod1]
    split
    · next e =>
      subst e
      cases hn : nth1 s.slc.nodeTable k with
      | none =>
        have : k ≠ 30 := fun e => by
          rw [(ht k).2 e] at hn
          cases hn
        simp [this]
      | some x => simp [h]
    · exact ht k)
  refine Keep.trans ?_ (State.kindChanged_keep _ _)
  split
  · exact first.trans (State.clear_keep _ _ _)
  · exact first

theorem State.writeNodes_keep (s : State) (i : Nat) (ws : List Word) : Keep s (s.writeNodes i ws).state := by
  unfold State.writeNodes
  repeat' split
  all_goals first | exact Keep.rfl | skip
  next h _ => exact s.changeKind_keep i _ (by simpa using h)

theorem State.markClear_keep (s : State) (a : Nat) : Keep s (s.modNode a fun n => { n with clearMark := true }) :=
  s.modMarks_keep a _ (fun _ => rfl) (fun _ => rfl) fun _ h => h

theorem State.reqNodeClear_keep (s : State) (ws : List Word) : Keep s (s.reqNodeClear ws).state := by
  unfold State.reqNodeClear
  simp only
  repeat' split
  all_goals first | exact Keep.rfl | skip
  · exact ((s.markClear_keep _).trans
      (State.clearCompletion_keep _ _ _)).trans (State.silentExchange_keep _ _)
  · next h =>
    exact (s.markClear_keep _).trans
      (State.pushCommand_keep _ _ (by simpa using h))

theorem State.writeTower_keep (s : State) (k : Nat) (e : Option TowerEntry) : Keep s (s.writeTower k e) := by
  show Keep s (s.modRsu fun u =>
    { u with
      towers := mod1 u.towers k fun _ => e
      runtime := mod1 u.runtime k fun u =>
        { u with
          missCount := 0
          last :=
            if decide ((s.towerAt k).map TowerEntry.assemblies ≠ e.map TowerEntry.assemblies) then none else u.last } })
  refine s.modRsu_keep _ fun hk j entry u he hu => ?_
  simp only [nth1_mod1] at he hu
  split at hu
  · obtain ⟨v, _, rfl⟩ := Option.map_eq_some_iff.1 hu
    exact Nat.zero_le _
  · next hj =>
    rw [if_neg hj] at he
    exact hk j entry u he hu

theorem State.writeTowers_keep (s : State) (i : Nat) (ws : List Word) : Keep s (s.writeTowers i ws).state := by
  unfold State.writeTowers
  repeat' split
  all_goals first | exact Keep.rfl | exact s.writeTower_keep _ _

theorem State.writeDirectory_keep (s : State) (i : Nat) (ws : List Word) : Keep s (s.writeDirectory i ws).state := by
  unfold State.writeDirectory
  repeat' split
  all_goals first | exact Keep.rfl | (simp only [State.done_state]; refine State.modTrn_keep s _ ?_; rfl)

theorem State.writeTable_keep (s : State) (t : Table) (i : Nat) (ws : List Word) :
    Keep s (s.writeTable t i ws).state := by
  cases t
  · exact s.writePath_keep i ws
  · exact s.writeZoneMask_keep i ws
  · exact s.writeNodes_keep i ws
  · exact s.writeTowers_keep i ws
  · exact s.writeCauses_keep i ws
  · exact s.writeDirectory_keep i ws

theorem State.reqTableWrite_keep (s : State) (ws : List Word) : Keep s (s.reqTableWrite ws).state := by
  unfold State.reqTableWrite
  repeat' split
  all_goals first | exact Keep.rfl | exact s.writeTable_keep _ _ _

/-- A read leaves the state. -/
theorem State.readTable_state (s : State) (t : Table) (i : Nat) : (s.readTable t i).state = s := by
  cases t <;> simp only [State.readTable, State.readPath, State.readZoneMask, State.readNodes, State.readTowers,
    State.readCauses, State.readDirectory] <;> (repeat' split) <;> rfl

theorem State.reqTableRead_state (s : State) (ws : List Word) : (s.reqTableRead ws).state = s := by
  unfold State.reqTableRead
  repeat' split
  all_goals first | rfl | exact s.readTable_state _ _

theorem State.reqCauseAck_keep (s : State) (ws : List Word) : Keep s (s.reqCauseAck ws).state := by
  unfold State.reqCauseAck
  repeat' split
  all_goals
    first
    | exact Keep.rfl
    | exact (State.ackEach_keep _ _).trans (State.afterRemoval_keep _ _)
    | exact (State.ackHere_keep _ _ _).trans (State.afterRemoval_keep _ _)

theorem State.reqRecordRemove_keep (s : State) (ws : List Word) : Keep s (s.reqRecordRemove ws).state := by
  unfold State.reqRecordRemove
  repeat' split
  all_goals first | (simp only [State.done_state]; exact s.removeRecord_keep _) | exact Keep.rfl

/-- A cabin number that no record carries, as RECORD_WRITE asks it. -/
theorem State.carried_false {s : State} {n : Nat} (h : s.carried n = false) (x : CabinRecord)
    (hx : x ∈ s.trn.train) : x.cabin.toNat ≠ n := by
  unfold State.carried at h
  rw [List.any_eq_false] at h
  simpa using h x hx

theorem State.reqRecordWrite_keep (s : State) (ws : List Word) : Keep s (s.reqRecordWrite ws).state := by
  unfold State.reqRecordWrite
  repeat' split
  all_goals first | exact Keep.rfl | skip
  next hl _ hr _ f _ ok =>
    refine s.restore_keep f (by simp at hl; simp [hl]) (by omega) ?_
    intro hz x hx hcab
    simp only [Bool.and_eq_true] at ok
    have id := ok.2
    unfold State.identityOk at id
    split at id
    · next h0 => exact hz (by rw [h0]; rfl)
    · split at id
      · cases id
      · next d hd =>
        simp only [Bool.and_eq_true, Bool.not_eq_true'] at id
        have hle := nth1_some_le hd
        refine State.carried_false id.1.2 x hx ?_
        rw [hcab]
        simp
        omega

theorem State.reqSiteWrite_keep (s : State) (ws : List Word) : Keep s (s.reqSiteWrite ws).state := by
  unfold State.reqSiteWrite
  repeat' split
  all_goals first | exact Keep.rfl | (simp only [State.done_state]; refine State.modMgt_keep s _ ?_; exact fun h => ⟨h.room, h.full⟩)

theorem State.reqPartReset_keep (s : State) (ws : List Word) : Keep s (s.reqPartReset ws).state := by
  unfold State.reqPartReset
  repeat' split
  all_goals first | exact Keep.rfl | (simp only [State.done_state]; refine State.modMgt_keep s _ ?_; exact fun h => ⟨h.room, h.full⟩)

/-! ### Line requests -/

theorem State.reqLineReady_keep (s : State) (ws : List Word) : Keep s (s.reqLineReady ws).state := by
  unfold State.reqLineReady
  repeat' split
  all_goals first | exact Keep.rfl | exact s.lineReadied_keep

theorem State.reqLineSetup_sound (s : State) (ws : List Word) : Sound s (s.reqLineSetup ws).state := by
  unfold State.reqLineSetup
  repeat' split
  all_goals first | exact Sound.rfl | exact s.lineToSetup_sound

theorem State.reqLineStart_sound (s : State) (ws : List Word) : Sound s (s.reqLineStart ws).state := by
  unfold State.reqLineStart
  repeat' split
  all_goals first | exact Sound.rfl | skip
  next h => exact s.lineStarted_sound (by simp only [not_or, Bool.not_eq_true] at h; exact h.1)

theorem State.reqLineHalt_keep (s : State) (ws : List Word) : Keep s (s.reqLineHalt ws).state := by
  unfold State.reqLineHalt
  repeat' split
  all_goals first | exact Keep.rfl | exact s.enterStopping_keep _

theorem State.reqLinePark_sound (s : State) (ws : List Word) : Sound s (s.reqLinePark ws).state := by
  unfold State.reqLinePark
  repeat' split
  all_goals first | exact Sound.rfl | skip
  next hu hc =>
    simp only [not_or, Classical.not_not] at hu
    exact s.lineParked_sound hu.1 hu.2 (by simpa using hc)

theorem State.reqLineWake_keep (s : State) (ws : List Word) : Keep s (s.reqLineWake ws).state := by
  unfold State.reqLineWake
  repeat' split
  all_goals first | exact Keep.rfl | exact s.setLine_keep .held _ (Or.inl rfl)

/-! ### Every request -/

theorem State.serveRequest_sound (s : State) (k : RequestKind) (ws : List Word) : Sound s (s.serveRequest k ws).state := by
  cases k
  case tableRead => unfold State.serveRequest; simp only [s.reqTableRead_state ws]; exact Sound.rfl
  case tableWrite => exact (s.reqTableWrite_keep ws).sound
  case siteWrite => exact (s.reqSiteWrite_keep ws).sound
  case recordWrite => exact (s.reqRecordWrite_keep ws).sound
  case recordRemove => exact (s.reqRecordRemove_keep ws).sound
  case causeAck => exact (s.reqCauseAck_keep ws).sound
  case lineReady => exact (s.reqLineReady_keep ws).sound
  case lineSetup => exact s.reqLineSetup_sound ws
  case lineStart => exact s.reqLineStart_sound ws
  case lineHalt => exact (s.reqLineHalt_keep ws).sound
  case linePark => exact s.reqLinePark_sound ws
  case lineWake => exact (s.reqLineWake_keep ws).sound
  case nodeClear => exact (s.reqNodeClear_keep ws).sound
  case partReset => exact (s.reqPartReset_keep ws).sound
  case statusRead => unfold State.serveRequest State.reqStatusRead; simp only; split <;> exact Sound.rfl
  case siteRead => unfold State.serveRequest State.reqSiteRead; simp only; split <;> exact Sound.rfl
  case recordRead => unfold State.serveRequest State.reqRecordRead; simp only; (repeat' split) <;> exact Sound.rfl
  case causesRead => unfold State.serveRequest State.reqCausesRead; simp only; (repeat' split) <;> exact Sound.rfl

theorem State.request_sound (s : State) (k : RequestKind) (tag : Byte) (ws : List Word) : Sound s (s.request k tag ws) := by
  unfold State.request Reply.respond
  refine (s.serveRequest_sound k ws).trans (State.modMgt_keep _ _ ?_).sound
  exact fun h => ⟨h.room, h.full⟩

/-! ### Frames received -/

theorem State.turnFrame_sound (s : State) (a : Nat) (k tag : Byte) (ws : List Word) (t : State)
    (h : s.turnFrame a k tag ws = some t) : Sound s t := by
  unfold State.turnFrame at h
  repeat' split at h
  all_goals first | cases h | skip
  · exact Sound.rfl
  · exact (s.closureDone_keep a ws).sound
  · exact Sound.rfl
  · exact (s.gripResult_keep ws).sound
  · exact Sound.rfl
  · exact ((s.wake_keep .tag).trans (State.tagRead_keep _ a ws)).sound
  · exact Sound.rfl
  · simp only [Option.map_eq_some_iff] at h
    obtain ⟨r, _, rfl⟩ := h
    exact s.request_sound r tag ws

theorem State.takeFrame_sound (s : State) (x : Exchange) (k tag : Byte) (ws : List Word) :
    Sound s (s.takeFrame x k tag ws) := by
  unfold State.takeFrame
  simp only
  have first : Keep s (if lengthAllowed k ws = true then s.setExchange none
      else (s.setExchange none).refuseFrame x.address k .slc) := by
    split
    · exact s.setExchange_keep none
    · exact (s.setExchange_keep none).trans (State.refuseFrame_keep _ _ _ _)
  generalize (if lengthAllowed k ws = true then s.setExchange none
      else (s.setExchange none).refuseFrame x.address k .slc) = u at first
  split
  · exact (first.trans (u.complete_keep _ _)).sound
  · split
    · cases e : u.turnFrame x.address k tag ws with
      | none => exact (first.trans (u.refuseFrame_keep _ _ _)).sound
      | some t => exact first.sound.trans (u.turnFrame_sound _ _ _ _ _ e)
    · exact first.sound
  all_goals exact first.sound

theorem State.judgeFrame_sound (s : State) (a : Nat) (k tag : Byte) (ws : List Word) :
    Sound s (s.judgeFrame a k tag ws) := by
  unfold State.judgeFrame
  simp only
  have first : Keep s (if a = 30 then (s.heardFrom a).consoleNotice else s.heardFrom a) := by
    split
    · exact (s.heardFrom_keep a).trans (State.consoleNotice_keep _)
    · exact s.heardFrom_keep a
  generalize (if a = 30 then (s.heardFrom a).consoleNotice else s.heardFrom a) = u at first
  repeat' split
  · exact (first.trans (u.refuseFrame_keep _ _ _)).sound
  · exact first.sound.trans (u.takeFrame_sound _ _ _ _)
  · exact (first.trans (u.refuseFrame_keep _ _ _)).sound

theorem State.receive_sound (s : State) (k : Byte) (f : RxFrame) : Sound s (s.receive k f) := by
  unfold State.receive
  repeat' split
  · exact Sound.rfl
  · exact Sound.rfl
  · exact (s.refuseFrame_keep _ _ _).sound
  · exact s.judgeFrame_sound _ _ _ _

/-! ### Pins and timers -/

theorem State.dmovRises_keep (s : State) : Keep s s.dmovRises := by
  unfold State.dmovRises State.setDmov
  simp only
  have first := s.setPins_keep { s.pins with dmov := true }
  generalize s.setPins { s.pins with dmov := true } = u at first
  split <;> first | exact first | exact first.trans (u.raise_keep _ _ rfl)

theorem State.ropeStands_keep (s : State) : Keep s s.ropeStands := by
  unfold State.ropeStands
  split
  · exact (s.setTimers_keep (fun _ => none) fun p => p.silenceTimer).trans (State.setLine_keep _ .held _ (Or.inl rfl))
  · exact Keep.rfl

theorem State.dmovFalls_keep (s : State) : Keep s s.dmovFalls := by
  unfold State.dmovFalls State.setDmov
  exact (((s.setPins_keep _).trans (State.ropeStands_keep _)).trans (State.clear_keep _ _ _)).trans
    (State.clear_keep _ _ _)

theorem State.stopExpired_keep (s : State) : Keep s s.stopExpired := by
  unfold State.stopExpired
  split
  · exact (s.setTimers_keep (fun _ => none) fun p => p.silenceTimer).trans (State.raise_keep _ _ _ rfl)
  · exact Keep.rfl

theorem State.silenceExpired_keep (s : State) : Keep s s.silenceExpired := by
  unfold State.silenceExpired
  split
  · exact (s.setTimers_keep (fun p => p.stopTimer) fun _ => none).trans (State.raise_keep _ _ _ rfl)
  · exact Keep.rfl

/-! ### Events that no SETUP state has: what stands even there -/

/-- From s to t the queue and the reset phase stand. -/
structure Still (s t : State) : Prop where
  pending : t.pending = s.pending
  phase : t.phase = s.phase

theorem Keep.still {s t : State} (a : Keep s t) : Still s t := ⟨a.pending, a.phase⟩

theorem Still.rfl {s : State} : Still s s := ⟨Eq.refl _, Eq.refl _⟩

theorem Still.trans {s t u : State} (a : Still s t) (b : Still t u) : Still s u :=
  ⟨b.pending.trans a.pending, b.phase.trans a.phase⟩

/-- An event that a 640 in order never meets. -/
theorem Still.sound {s t : State} (a : Still s t) (h : ¬Inv s) : Sound s t := ⟨a.pending, a.phase, fun _ k => absurd k h⟩

/-- The interval timer runs outside SETUP only. -/
theorem State.intervalExpired_sound (s : State) : Sound s s.intervalExpired := by
  unfold State.intervalExpired
  split
  · exact Sound.rfl
  · next h =>
    by_cases hl : s.perm.line = .setup
    · have still : Still s s.sendAndRestart := by
        unfold State.sendAndRestart State.sendSweep
        exact (s.takeUplink_keep.trans (State.countSweep_keep _)).still.trans ⟨rfl, rfl⟩
      exact still.sound fun k => absurd (k.setup hl).2.2 h
    · exact (s.sendAndRestart_keep hl).sound

theorem State.setCall_still (s : State) (c : CallState) (e : CallEvent) : Still s (s.setCall c e) := by
  unfold State.setCall State.wake
  simp only
  constructor <;> (repeat' split) <;> rfl

theorem State.connectOut_still (s : State) (e : CallEvent) : Still s (s.connectOut e) := by
  unfold State.connectOut
  simp only
  split
  · exact (s.setCall_still .connected e).trans ⟨rfl, rfl⟩
  · exact s.setCall_still .connected e

theorem State.judgeCall_still (s : State) (c : CallCode) (n : BitVec 16) : Still s (s.judgeCall c n) := by
  have taken : ∀ s : State, Still s (s.callCodeTaken c) := by
    intro s
    unfold State.callCodeTaken
    split
    all_goals
      first
      | exact Still.rfl
      | exact s.connectOut_still _
      | exact (s.endCall_keep _ _).still
      | exact (s.setCall_still .incoming .summitCall).trans ⟨rfl, rfl⟩
  unfold State.judgeCall
  repeat' split
  · exact ⟨rfl, rfl⟩
  · refine Still.trans ?_ (taken _)
    exact ⟨rfl, rfl⟩
  · exact ⟨rfl, rfl⟩

theorem State.summitSlot_still (s : State) (n : BitVec 16) (ws : List Word) : Still s (s.summitSlot n ws) := by
  unfold State.summitSlot
  split
  · exact s.summitMiss_keep.still
  · next c _ =>
    simp only
    refine Still.trans (Still.trans (Still.trans ?_ (State.judgeSafety_keep _ _ _).still) (State.judgeCall_still _ _ _))
      (State.appendDown_keep _ _).still
    split
    · refine Still.trans (u := (State.clear _ .summitLost .summit).modSmt _) (Still.trans ?_ (State.clear_keep _ _ _).still) ⟨rfl, rfl⟩
      exact ⟨rfl, rfl⟩
    · exact ⟨rfl, rfl⟩

theorem State.validReturn_still (s : State) (ws : List Word) (n h : Word) : Still s (s.validReturn ws n h) := by
  have last : ∀ (s : State) (slot : List Word), Still s (s.takeSummitSlot n slot) := by
    intro s slot
    unfold State.takeSummitSlot
    split
    · exact s.summitSlot_still _ _
    · exact s.summitMiss_keep.still
  unfold State.validReturn
  simp only
  refine Still.trans (Still.trans ?_
    (Keep.foldl (fun s k => s.takeTowerSlot k n (towerSlotWords ws (bit h 15) k))
      (fun s k => s.takeTowerSlot_keep k n _) (towerNumbers (field h 0 5)) _).still) (last _ _)
  exact ⟨rfl, rfl⟩

theorem State.returned_sound (s : State) (ws : List Word) : Sound s (s.returned ws) := by
  unfold State.returned
  split
  · exact (s.modSwp_keep (fun w => { w with corrupt := w.corrupt + 1 }) ⟨rfl, rfl⟩).sound
  · split
    · split
      · next n h _ _ ho =>
        by_cases hl : s.perm.line = .setup
        · exact (s.validReturn_still _ _ _).sound fun k => absurd ho (by simp [(k.setup hl).2.1])
        · exact (s.validReturn_keep _ _ _ hl).sound
      · exact (s.modSwp_keep (fun w => { w with stale := w.stale + 1 }) ⟨rfl, rfl⟩).sound
    · exact Sound.rfl

end Sys2Proof.Machine
end

