-- ==== Sys2Proof/Laws/Receive.lean ====
section
/-! SUPPORT. What a claim on the cause set leaves of the other blocks, and what a frame that its exchange takes comes
down to: citing these, a proof about a command reads its owner's operation alone. -/

namespace Sys2Proof.Machine

open Host

/-! ### Silence and the console's notice -/

@[simp] theorem State.heardFrom_phase (s : State) (a : Nat) : (s.heardFrom a).phase = s.phase :=
  (s.heardFrom_keep a).phase

@[simp] theorem State.consoleNotice_phase (s : State) : s.consoleNotice.phase = s.phase := s.consoleNotice_keep.phase

@[simp] theorem State.heardFrom_exchange (s : State) (a : Nat) : (s.heardFrom a).slc.exchange = s.slc.exchange := by
  unfold State.heardFrom
  repeat' split
  all_goals simp

@[simp] theorem State.heardFrom_nodeTable (s : State) (a : Nat) : (s.heardFrom a).slc.nodeTable = s.slc.nodeTable := by
  unfold State.heardFrom
  repeat' split
  all_goals simp

@[simp] theorem State.consoleNotice_slc (s : State) : s.consoleNotice.slc = s.slc := by
  unfold State.consoleNotice
  simp only [State.clear_slc]
  split <;> rfl

@[simp] theorem State.taken_exchange (s : State) (a : Nat) : (s.taken a).slc.exchange = none := rfl

@[simp] theorem State.taken_nodeTable (s : State) (a : Nat) : (s.taken a).slc.nodeTable = s.slc.nodeTable := by
  unfold State.taken State.setExchange
  simp only [State.modSlc_slc]
  split <;> simp

/-! ### What a clear claim and a frame taken leave, field by field -/

theorem Mgt.addReport_rest (m : Mgt) (r : Report) :
    m.addReport r = { m with reports := (m.addReport r).reports, overflowMark := (m.addReport r).overflowMark } := by
  unfold Mgt.addReport; simp only; repeat' split
  all_goals rfl
theorem State.clear_mgt_rest (s : State) (k : CauseKind) (x : Subject) :
    ∃ rs b, (s.clear k x).mgt = { s.mgt with reports := rs, overflowMark := b } := by
  unfold State.clear State.afterRemoval State.overflowTest State.clearHere State.removeCause State.report
  repeat' split
  all_goals first | exact ⟨_, _, rfl⟩ | exact ⟨_, _, Mgt.addReport_rest _ _⟩ | skip
  all_goals
    simp only [State.modMgt_mgt, State.modPerm_mgt]
    rw [Mgt.addReport_rest (s.mgt.addReport _), Mgt.addReport_rest s.mgt]
    exact ⟨_, _, rfl⟩
@[simp] theorem State.clear_site (s : State) (k : CauseKind) (x : Subject) : (s.clear k x).mgt.site = s.mgt.site := by
  obtain ⟨_, _, h⟩ := s.clear_mgt_rest k x; rw [h]
@[simp] theorem State.clear_lock (s : State) (k : CauseKind) (x : Subject) :
    (s.clear k x).mgt.siteLock = s.mgt.siteLock := by
  obtain ⟨_, _, h⟩ := s.clear_mgt_rest k x; rw [h]
@[simp] theorem State.clear_time (s : State) (k : CauseKind) (x : Subject) :
    (s.clear k x).mgt.lineTime = s.mgt.lineTime := by
  obtain ⟨_, _, h⟩ := s.clear_mgt_rest k x; rw [h]
@[simp] theorem State.clear_resetCause (s : State) (k : CauseKind) (x : Subject) :
    (s.clear k x).mgt.resetCause = s.mgt.resetCause := by
  obtain ⟨_, _, h⟩ := s.clear_mgt_rest k x; rw [h]
@[simp] theorem State.clear_resetRequest (s : State) (k : CauseKind) (x : Subject) :
    (s.clear k x).mgt.resetRequest = s.mgt.resetRequest := by
  obtain ⟨_, _, h⟩ := s.clear_mgt_rest k x; rw [h]
@[simp] theorem State.clear_response (s : State) (k : CauseKind) (x : Subject) :
    (s.clear k x).mgt.response = s.mgt.response := by
  obtain ⟨_, _, h⟩ := s.clear_mgt_rest k x; rw [h]
@[simp] theorem State.clear_line (s : State) (k : CauseKind) (x : Subject) :
    (s.clear k x).perm.line = s.perm.line := by
  unfold State.clear State.afterRemoval State.overflowTest State.clearHere State.removeCause
  repeat' split
  all_goals rfl
@[simp] theorem State.clear_causeTable (s : State) (k : CauseKind) (x : Subject) :
    (s.clear k x).perm.causeTable = s.perm.causeTable := by
  unfold State.clear State.afterRemoval State.overflowTest State.clearHere State.removeCause
  repeat' split
  all_goals rfl
theorem State.taken_rest (s : State) (a : Nat) :
    s.taken a =
      { s with
        perm := (s.taken a).perm
        mgt := (s.taken a).mgt
        slc := { s.slc with answers := (s.taken a).slc.answers, exchange := none } } := by
  unfold State.taken State.setExchange State.consoleNotice State.heardFrom State.modSlc
  repeat' split
  all_goals simp only [State.modPerm]
  all_goals simp
/-- What a frame taken leaves of MGT and PERM. -/
theorem State.taken_mgt_rest (s : State) (a : Nat) :
    (s.taken a).mgt.site = s.mgt.site ∧ (s.taken a).mgt.siteLock = s.mgt.siteLock ∧
      (s.taken a).mgt.lineTime = s.mgt.lineTime ∧ (s.taken a).mgt.resetCause = s.mgt.resetCause ∧
      (s.taken a).mgt.resetRequest = s.mgt.resetRequest ∧ (s.taken a).mgt.response = s.mgt.response ∧
      (s.taken a).perm.line = s.perm.line ∧ (s.taken a).perm.causeTable = s.perm.causeTable := by
  unfold State.taken State.setExchange State.consoleNotice State.heardFrom
  simp only [State.modSlc_perm, State.modSlc_mgt]
  repeat' split
  all_goals simp
@[simp] theorem State.taken_site (s : State) (a : Nat) : (s.taken a).mgt.site = s.mgt.site := (s.taken_mgt_rest a).1
@[simp] theorem State.taken_lock (s : State) (a : Nat) : (s.taken a).mgt.siteLock = s.mgt.siteLock :=
  (s.taken_mgt_rest a).2.1
@[simp] theorem State.taken_time (s : State) (a : Nat) : (s.taken a).mgt.lineTime = s.mgt.lineTime :=
  (s.taken_mgt_rest a).2.2.1
@[simp] theorem State.taken_resetCause (s : State) (a : Nat) : (s.taken a).mgt.resetCause = s.mgt.resetCause :=
  (s.taken_mgt_rest a).2.2.2.1
@[simp] theorem State.taken_resetRequest (s : State) (a : Nat) : (s.taken a).mgt.resetRequest = s.mgt.resetRequest :=
  (s.taken_mgt_rest a).2.2.2.2.1
@[simp] theorem State.taken_response (s : State) (a : Nat) : (s.taken a).mgt.response = s.mgt.response :=
  (s.taken_mgt_rest a).2.2.2.2.2.1
@[simp] theorem State.taken_line (s : State) (a : Nat) : (s.taken a).perm.line = s.perm.line :=
  (s.taken_mgt_rest a).2.2.2.2.2.2.1
@[simp] theorem State.taken_causeTable (s : State) (a : Nat) : (s.taken a).perm.causeTable = s.perm.causeTable :=
  (s.taken_mgt_rest a).2.2.2.2.2.2.2
@[simp] theorem State.taken_trav (s : State) (a : Nat) : (s.taken a).trav = s.trav := by rw [State.taken_rest]
@[simp] theorem State.taken_trn (s : State) (a : Nat) : (s.taken a).trn = s.trn := by rw [State.taken_rest]
@[simp] theorem State.taken_dtx (s : State) (a : Nat) : (s.taken a).dtx = s.dtx := by rw [State.taken_rest]
@[simp] theorem State.taken_gsw (s : State) (a : Nat) : (s.taken a).gsw = s.gsw := by rw [State.taken_rest]
@[simp] theorem State.taken_swp (s : State) (a : Nat) : (s.taken a).swp = s.swp := by rw [State.taken_rest]
@[simp] theorem State.taken_rsu (s : State) (a : Nat) : (s.taken a).rsu = s.rsu := by rw [State.taken_rest]
@[simp] theorem State.taken_smt (s : State) (a : Nat) : (s.taken a).smt = s.smt := by rw [State.taken_rest]
@[simp] theorem State.taken_pins (s : State) (a : Nat) : (s.taken a).pins = s.pins := by rw [State.taken_rest]
@[simp] theorem State.taken_phase (s : State) (a : Nat) : (s.taken a).phase = s.phase := by rw [State.taken_rest]
@[simp] theorem State.taken_pending (s : State) (a : Nat) : (s.taken a).pending = s.pending := by
  rw [State.taken_rest]
@[simp] theorem State.taken_urgent (s : State) (a : Nat) : (s.taken a).slc.urgent = s.slc.urgent := by
  rw [State.taken_rest]
@[simp] theorem State.taken_service (s : State) (a : Nat) : (s.taken a).slc.service = s.slc.service := by
  rw [State.taken_rest]

/-! ### Reports, line changes and raise claims, field by field -/

@[simp] theorem Mgt.addReport_site (m : Mgt) (r : Report) : (m.addReport r).site = m.site := by
  rw [Mgt.addReport_rest]
@[simp] theorem Mgt.addReport_lock (m : Mgt) (r : Report) : (m.addReport r).siteLock = m.siteLock := by
  rw [Mgt.addReport_rest]
@[simp] theorem Mgt.addReport_time (m : Mgt) (r : Report) : (m.addReport r).lineTime = m.lineTime := by
  rw [Mgt.addReport_rest]
@[simp] theorem Mgt.addReport_resetCause (m : Mgt) (r : Report) : (m.addReport r).resetCause = m.resetCause := by
  rw [Mgt.addReport_rest]
@[simp] theorem Mgt.addReport_resetRequest (m : Mgt) (r : Report) : (m.addReport r).resetRequest = m.resetRequest := by
  rw [Mgt.addReport_rest]
@[simp] theorem Mgt.addReport_response (m : Mgt) (r : Report) : (m.addReport r).response = m.response := by
  rw [Mgt.addReport_rest]

@[simp] theorem State.setLine_trav (s : State) (new : LineState) (r : LineReason) :
    (s.setLine new r).trav = s.trav := rfl
@[simp] theorem State.setLine_trn (s : State) (new : LineState) (r : LineReason) :
    (s.setLine new r).trn = s.trn := rfl
@[simp] theorem State.setLine_dtx (s : State) (new : LineState) (r : LineReason) :
    (s.setLine new r).dtx = s.dtx := rfl
@[simp] theorem State.setLine_gsw (s : State) (new : LineState) (r : LineReason) :
    (s.setLine new r).gsw = s.gsw := rfl
@[simp] theorem State.setLine_swp (s : State) (new : LineState) (r : LineReason) :
    (s.setLine new r).swp = s.swp := rfl
@[simp] theorem State.setLine_rsu (s : State) (new : LineState) (r : LineReason) :
    (s.setLine new r).rsu = s.rsu := rfl
@[simp] theorem State.setLine_smt (s : State) (new : LineState) (r : LineReason) :
    (s.setLine new r).smt = s.smt := rfl
@[simp] theorem State.setLine_slc (s : State) (new : LineState) (r : LineReason) :
    (s.setLine new r).slc = s.slc := rfl
@[simp] theorem State.setLine_pins (s : State) (new : LineState) (r : LineReason) :
    (s.setLine new r).pins = s.pins := rfl
@[simp] theorem State.setLine_phase (s : State) (new : LineState) (r : LineReason) :
    (s.setLine new r).phase = s.phase := rfl
@[simp] theorem State.setLine_pending (s : State) (new : LineState) (r : LineReason) :
    (s.setLine new r).pending = s.pending := rfl
@[simp] theorem State.setLine_mgt (s : State) (new : LineState) (r : LineReason) :
    (s.setLine new r).mgt = s.mgt.addReport (.lineState s.perm.line new r) := rfl
@[simp] theorem State.setLine_line (s : State) (new : LineState) (r : LineReason) :
    (s.setLine new r).perm.line = new := rfl

/-- What a raise claim leaves of MGT. -/
theorem State.raise_mgt_rest (s : State) (k : CauseKind) (x : Subject) :
    (s.raise k x).mgt.site = s.mgt.site ∧ (s.raise k x).mgt.siteLock = s.mgt.siteLock ∧
      (s.raise k x).mgt.lineTime = s.mgt.lineTime ∧ (s.raise k x).mgt.resetCause = s.mgt.resetCause ∧
      (s.raise k x).mgt.resetRequest = s.mgt.resetRequest ∧ (s.raise k x).mgt.response = s.mgt.response := by
  have stopping : ∀ (s : State) (r : LineReason), (s.enterStopping r).mgt.site = s.mgt.site ∧
      (s.enterStopping r).mgt.siteLock = s.mgt.siteLock ∧ (s.enterStopping r).mgt.lineTime = s.mgt.lineTime ∧
      (s.enterStopping r).mgt.resetCause = s.mgt.resetCause ∧
      (s.enterStopping r).mgt.resetRequest = s.mgt.resetRequest ∧
      (s.enterStopping r).mgt.response = s.mgt.response := by
    intro s r
    unfold State.enterStopping
    simp only
    split <;> simp
  have here : ∀ (k : CauseKind) (x : Subject),
      (s.raiseHere k x).mgt.site = s.mgt.site ∧ (s.raiseHere k x).mgt.siteLock = s.mgt.siteLock ∧
        (s.raiseHere k x).mgt.lineTime = s.mgt.lineTime ∧ (s.raiseHere k x).mgt.resetCause = s.mgt.resetCause ∧
        (s.raiseHere k x).mgt.resetRequest = s.mgt.resetRequest ∧
        (s.raiseHere k x).mgt.response = s.mgt.response := by
    intro k x
    unfold State.raiseHere State.addCause State.claimCall State.stopFor
    simp only
    repeat' split
    all_goals simp [stopping]
  unfold State.raise
  split <;> exact here _ _

@[simp] theorem State.raise_site (s : State) (k : CauseKind) (x : Subject) :
    (s.raise k x).mgt.site = s.mgt.site := (s.raise_mgt_rest k x).1
@[simp] theorem State.raise_lock (s : State) (k : CauseKind) (x : Subject) :
    (s.raise k x).mgt.siteLock = s.mgt.siteLock := (s.raise_mgt_rest k x).2.1
@[simp] theorem State.raise_time (s : State) (k : CauseKind) (x : Subject) :
    (s.raise k x).mgt.lineTime = s.mgt.lineTime := (s.raise_mgt_rest k x).2.2.1
@[simp] theorem State.raise_resetCause (s : State) (k : CauseKind) (x : Subject) :
    (s.raise k x).mgt.resetCause = s.mgt.resetCause := (s.raise_mgt_rest k x).2.2.2.1
@[simp] theorem State.raise_resetRequest (s : State) (k : CauseKind) (x : Subject) :
    (s.raise k x).mgt.resetRequest = s.mgt.resetRequest := (s.raise_mgt_rest k x).2.2.2.2.1
@[simp] theorem State.raise_response (s : State) (k : CauseKind) (x : Subject) :
    (s.raise k x).mgt.response = s.mgt.response := (s.raise_mgt_rest k x).2.2.2.2.2

/-! ### Frames -/

/-- A frame taken by the exchange that awaits it. -/
theorem State.receive_taken {s : State} {a : Nat} {kind : Byte} {f : RxFrame} {x : Exchange} (h : Arrives s a kind f)
    (hx : s.slc.exchange = some x) (hp : x.phase = .awaiting) (ha : x.address = a)
    (hk : x.kind = .turn ∨ ∃ q b, x.kind = .command q b) :
    s.receive kind f =
      match x.kind with
      | .command q _ => (s.taken a).complete q (.frame kind f.payload)
      | _ => ((s.taken a).turnFrame a kind f.tag f.payload).getD ((s.taken a).refuseFrame a kind .slc) := by
  have hpre : (if a = 30 then (s.heardFrom a).consoleNotice else s.heardFrom a).slc.exchange = some x := by
    split <;> simp [hx]
  have haw : (if a = 30 then (s.heardFrom a).consoleNotice else s.heardFrom a).awaiting = some x := by
    unfold State.awaiting
    rw [hpre]
    rcases hk with e | ⟨q, b, e⟩ <;> simp [Option.filter, hp, e]
  unfold State.receive State.judgeFrame
  have hlow := h.low
  have hhigh := h.high
  simp only [h.whole, h.destination, h.sender, Bool.true_eq_false, if_false, ne_eq, not_true_eq_false]
  rw [if_neg (by omega)]
  simp only [haw, ha, if_true]
  unfold State.takeFrame
  simp only [h.length, if_true, ha]
  rcases hk with e | ⟨q, b, e⟩
  · simp only [e]
    rfl
  · simp only [e]
    rfl

/-- A frame in a turn goes to the block its node kind names, or is refused (R150). -/
theorem State.receive_inTurn {s : State} {a : Nat} {node : NodeKind} {kind : Byte} {f : RxFrame}
    (h : InTurn s a node kind f) :
    s.receive kind f =
      ((s.taken a).turnFrame a kind f.tag f.payload).getD ((s.taken a).refuseFrame a kind .slc) := by
  obtain ⟨ws, hx⟩ := h.turn
  exact State.receive_taken h.arrives hx rfl rfl (Or.inl rfl)

/-- An answer completes its command (R145). -/
theorem State.receive_answer {s : State} {q : QueuedCommand} {kind : Byte} {f : RxFrame} (h : Answers s q kind f) :
    s.receive kind f = (s.taken q.address).complete q (.frame kind f.payload) := by
  obtain ⟨b, ws, hx⟩ := h.exchange
  exact State.receive_taken h.arrives hx rfl rfl (Or.inr ⟨q, b, rfl⟩)

theorem RequestKind.ofFrameKind_frameKind (k : RequestKind) : RequestKind.ofFrameKind k.frameKind = some k := by
  cases k <;> rfl

theorem RequestKind.frameKind_ne_decline (k : RequestKind) : k.frameKind ≠ Kind.decline := by
  cases k <;> decide

/-- A request in the console's turn is served on what its frame left (R157). -/
theorem State.receive_requested {s : State} {k : RequestKind} {f : RxFrame} (h : Requested s k f) :
    s.receive k.frameKind f = (s.taken 30).request k f.tag f.payload := by
  rw [State.receive_inTurn h]
  unfold State.turnFrame
  simp only [State.taken_nodeTable]
  rw [show nth1 s.slc.nodeTable 30 = some .console from h.node]
  simp only [Option.getD_some, if_neg k.frameKind_ne_decline, RequestKind.ofFrameKind_frameKind, Option.map_some]

/-- A request whose owner's reply is known. -/
theorem live_requested {s : State} {k : RequestKind} {f : RxFrame} (h : Requested s k f) :
    live (fun s => s.receive k.frameKind f) s =
      .next (((s.taken 30).serveRequest k f.payload).respond f.tag k) := by
  unfold live
  simp only [if_pos h.arrives.live]
  rw [State.receive_requested h]
  rfl

theorem live_inTurn {s : State} {a : Nat} {node : NodeKind} {kind : Byte} {f : RxFrame} (h : InTurn s a node kind f) :
    live (fun s => s.receive kind f) s =
      .next (((s.taken a).turnFrame a kind f.tag f.payload).getD ((s.taken a).refuseFrame a kind .slc)) := by
  unfold live
  simp only [if_pos h.arrives.live]
  rw [State.receive_inTurn h]

theorem live_answer {s : State} {q : QueuedCommand} {kind : Byte} {f : RxFrame} (h : Answers s q kind f) :
    live (fun s => s.receive kind f) s = .next ((s.taken q.address).complete q (.frame kind f.payload)) := by
  unfold live
  simp only [if_pos h.arrives.live]
  rw [State.receive_answer h]

/-- An event outside a reset. -/
theorem live_of {s : State} {f : State → State} (h : s.phase = .live) : live f s = .next (f s) := by
  unfold live
  rw [if_pos h]

/-- An event that may end in a reset, taken outside one. -/
theorem live_resets {f : State → State} (h : ∀ s, s.phase = .live → Resets s (f s)) {s t : State}
    (e : live f s = .next t) : Resets s t := by
  unfold live at e
  split at e
  · next hp => cases e; exact h s hp
  · cases e; exact ⟨rfl, id⟩

theorem live_sound {f : State → State} (h : ∀ s, Sound s (f s)) {s t : State} (e : live f s = .next t) : Sound s t := by
  unfold live at e
  split at e <;> cases e
  · exact h s
  · exact Sound.rfl

end Sys2Proof.Machine
end

