-- ==== Sys2Proof/Laws/Ready.lean ====
section
/-! SUPPORT. The READY checks as tests and as what they say: each check of R4 the model makes passes exactly when
`ReadyPasses` says so. -/

namespace Sys2Proof.Machine

theorem successive_iff (test : PathPoint → PathPoint → Bool) :
    ∀ l : List PathPoint, successive test l = true ↔
      ∀ (k : Nat) (p q : PathPoint), l[k]? = some p → l[k + 1]? = some q → test p q = true
  | [] => by simp [successive]
  | [p] => by simp [successive]
  | p :: q :: rest => by
    simp only [successive, Bool.and_eq_true, successive_iff test (q :: rest)]
    constructor
    · rintro ⟨h1, h2⟩ k a b ha hb
      cases k with
      | zero => simp at ha hb; subst ha hb; exact h1
      | succ k => exact h2 k a b (by simpa using ha) (by simpa using hb)
    · intro h
      exact ⟨h 0 p q rfl rfl, fun k a b ha hb => h (k+1) a b (by simpa using ha) (by simpa using hb)⟩

theorem ready_site (s : State) : s.mgt.site ≠ none ↔ ReadyPasses s 1 := by
  unfold ReadyPasses
  cases s.mgt.site <;> simp

theorem ready_length (s : State) : (2 ≤ s.trav.path.length ∧ s.trav.path.length ≤ 16) ↔ ReadyPasses s 2 := Iff.rfl

theorem ready_entry (s : State) : entryCheck s.trav.path = true ↔ ReadyPasses s 3 := by
  unfold ReadyPasses entryCheck
  cases s.trav.path with
  | nil => simp
  | cons p rest =>
    simp only [Bool.and_eq_true, decide_eq_true_eq, List.all_eq_true]
    constructor
    · rintro ⟨⟨⟨h1, h2⟩, h3⟩, h4⟩
      exact ⟨p, rest, rfl, h1, h2, h3, h4⟩
    · rintro ⟨p', rest', h, h1, h2, h3, h4⟩
      cases h
      exact ⟨⟨⟨h1, h2⟩, h3⟩, h4⟩

theorem ready_offsets (s : State) :
    successive (fun p q => decide (p.offset < q.offset)) s.trav.path = true ↔ ReadyPasses s 4 := by
  rw [successive_iff]
  simp only [decide_eq_true_eq]
  rfl

theorem ready_leads (s : State) :
    successive (fun p q => decide (p.offset + q.lead < q.offset)) s.trav.path = true ↔ ReadyPasses s 5 := by
  rw [successive_iff]
  unfold ReadyPasses
  simp only [decide_eq_true_eq]
  refine forall_congr' fun k => forall_congr' fun p => forall_congr' fun q => ?_
  refine imp_congr_right fun _ => imp_congr_right fun _ => ?_
  omega

theorem ready_windows (s : State) :
    successive (fun p q => decide (p.offset + p.tolerance + q.tolerance < q.offset)) s.trav.path = true ↔
      ReadyPasses s 8 := by
  rw [successive_iff]
  unfold ReadyPasses
  simp only [decide_eq_true_eq]
  refine forall_congr' fun k => forall_congr' fun p => forall_congr' fun q => ?_
  refine imp_congr_right fun _ => imp_congr_right fun _ => ?_
  omega

/-- A member counted once stands at its index alone. -/
theorem index_of_count_one {α : Type} [DecidableEq α] :
    ∀ (l : List α) (x : α) (i : Nat), l.count x = 1 → l[i]? = some x → i = l.idxOf x := by
  intro l
  induction l with
  | nil => simp
  | cons a l ih =>
    intro x i h1 h2
    by_cases hx : a = x
    · subst hx
      rw [List.count_cons_self] at h1
      cases i with
      | zero => simp
      | succ i =>
        have : a ∈ l := List.mem_of_getElem? (by simpa using h2)
        have := List.count_pos_iff.mpr this
        omega
    · rw [List.count_cons_of_ne hx] at h1
      cases i with
      | zero => simp at h2; exact absurd h2 hx
      | succ i =>
        rw [List.idxOf_cons_ne _ hx]
        rw [ih x i h1 (by simpa using h2)]

theorem ready_order (s : State) : orderCheck s.trav.path = true ↔ ReadyPasses s 6 := by
  unfold orderCheck ReadyPasses
  simp only [Bool.and_eq_true, decide_eq_true_eq]
  generalize s.trav.path.map PathPoint.action = l
  have at_ : ∀ x, l.count x = 1 → l[l.idxOf x]? = some x := by
    intro x h
    have hm : x ∈ l := List.count_pos_iff.mp (by omega)
    rw [List.getElem?_eq_getElem (List.idxOf_lt_length_iff.mpr hm)]
    simp
  constructor
  · rintro ⟨⟨⟨⟨h1, h2⟩, h3⟩, h4⟩, h5⟩
    refine ⟨h1, h2, h3, fun i j hi hj => ?_, fun i j hi hj => ?_, h5⟩
    · rw [index_of_count_one _ _ i h1 hi, index_of_count_one _ _ j h2 hj]
      exact h4
    · rw [List.getLast?_eq_getElem?] at h5
      have e := index_of_count_one _ _ _ h3 h5
      have e2 := index_of_count_one _ _ _ h3 hj
      have : i < l.length := (List.getElem?_eq_some_iff.mp hi).1
      have hne : i ≠ j := by
        rintro rfl
        rw [hi] at hj
        cases hj
      omega
  · rintro ⟨h1, h2, h3, h4, h5, h6⟩
    exact ⟨⟨⟨⟨h1, h2⟩, h3⟩, h4 _ _ (at_ _ h1) (at_ _ h2)⟩, h6⟩

theorem ready_shut (s : State) : shutCheck s.trav.path = true ↔ ReadyPasses s 7 := by
  unfold shutCheck ReadyPasses
  simp only [decide_eq_true_eq]
  generalize s.trav.path = l
  induction l using List.reverseRecOn with
  | nil => simp
  | append_singleton l p ih =>
    by_cases ho : p.action = .openAt
    · simp only [List.filter_append, List.map_append]
      simp [ho]
      intro i hi
      refine ⟨l.length, by rw [List.getElem?_append_right (by simp)]; simp, ?_⟩
      have := (List.getElem?_eq_some_iff.mp hi).1
      simp at this
      omega
    by_cases hs : p.action = .shutAt
    · simp only [List.filter_append, List.map_append]
      simp [hs]
      refine ⟨l.length, by rw [List.getElem?_append_right (by simp)]; simp, fun j hj => ?_⟩
      have h1 := (List.getElem?_eq_some_iff.mp hj).1
      simp at h1
      by_contra hlt
      have : j = l.length := by omega
      subst this
      rw [List.getElem?_append_right (by simp)] at hj
      simp at hj
    rw [List.filter_append, show ([p].filter fun p => decide (p.action = .openAt ∨ p.action = .shutAt)) = [] by
      simp [ho, hs], List.append_nil, ih, List.map_append]
    have last : ∀ (k : Nat) (x : PathAction), x = .openAt ∨ x = .shutAt →
        (l.map PathPoint.action ++ [p].map PathPoint.action)[k]? = some x → k < (l.map PathPoint.action).length := by
      intro k x hx hk
      by_contra hk'
      rw [List.getElem?_append_right (by omega)] at hk
      cases hkk : k - (l.map PathPoint.action).length with
      | zero =>
        rw [hkk] at hk
        simp at hk
        rcases hx with rfl | rfl <;> contradiction
      | succ n => rw [hkk] at hk; simp at hk
    constructor
    · rintro ⟨i, h1, h2⟩
      refine ⟨i, ?_, fun j hj => h2 j ?_⟩
      · rw [List.getElem?_append_left (List.getElem?_eq_some_iff.mp h1).1]
        exact h1
      · rwa [List.getElem?_append_left (last j _ (Or.inl rfl) hj)] at hj
    · rintro ⟨i, h1, h2⟩
      rw [List.getElem?_append_left (last i _ (Or.inr rfl) h1)] at h1
      refine ⟨i, h1, fun j hj => h2 j ?_⟩
      rw [List.getElem?_append_left (List.getElem?_eq_some_iff.mp hj).1]
      exact hj

theorem ready_zones (s : State) : (s.trav.path.filterMap PathPoint.zone).Nodup ↔ ReadyPasses s 9 := by
  unfold ReadyPasses
  simp only
  generalize s.trav.path = l
  induction l with
  | nil => simp
  | cons p l ih =>
    constructor
    · intro h i j a b ha hb hz he
      have hl : (l.filterMap PathPoint.zone).Nodup := by
        rw [List.filterMap_cons] at h
        split at h
        · exact h
        · exact (List.nodup_cons.mp h).2
      have fresh : ∀ (k : Nat) (c : PathPoint), l[k]? = some c → p.zone.isSome → p.zone = c.zone → False := by
        intro k c hc hpz hpc
        obtain ⟨z, hz⟩ := Option.isSome_iff_exists.mp hpz
        rw [List.filterMap_cons_some hz] at h
        exact (List.nodup_cons.mp h).1 (List.mem_filterMap.mpr ⟨c, List.mem_of_getElem? hc, by rw [← hpc, hz]⟩)
      cases i with
      | zero =>
        cases j with
        | zero => rfl
        | succ j =>
          simp only [List.getElem?_cons_zero, Option.some.injEq, List.getElem?_cons_succ] at ha hb
          subst ha
          exact (fresh j b hb hz he).elim
      | succ i =>
        cases j with
        | zero =>
          simp only [List.getElem?_cons_zero, Option.some.injEq, List.getElem?_cons_succ] at ha hb
          subst hb
          exact (fresh i a ha (he ▸ hz) he.symm).elim
        | succ j =>
          simp only [List.getElem?_cons_succ] at ha hb
          rw [ih.mp hl i j a b ha hb hz he]
    · intro h
      have hl := ih.mpr fun i j a b ha hb hz he => by
        have := h (i + 1) (j + 1) a b (by simpa using ha) (by simpa using hb) hz he
        omega
      cases hz : p.zone with
      | none => rw [List.filterMap_cons_none hz]; exact hl
      | some z =>
        rw [List.filterMap_cons_some hz]
        refine List.nodup_cons.mpr ⟨fun hm => ?_, hl⟩
        obtain ⟨c, hc, hcz⟩ := List.mem_filterMap.mp hm
        obtain ⟨k, hk⟩ := List.getElem?_of_mem hc
        have := h 0 (k + 1) p c (by simp) (by simpa using hk) (by simp [hz]) (by rw [hz, hcz])
        omega

theorem ready_drives (s : State) : s.driveCheck = true ↔ ReadyPasses s 10 := by
  unfold State.driveCheck ReadyPasses
  simp only [List.all_eq_true]
  refine forall_congr' fun p => imp_congr_right fun _ => ?_
  cases ha : p.action <;> cases hn : p.node <;> simp

theorem ready_kinds (s : State) : s.kindCheck = true ↔ ReadyPasses s 11 := by
  unfold State.kindCheck ReadyPasses
  simp only [Bool.and_eq_true, decide_eq_true_eq]
  tauto

theorem ready_towers (s : State) : s.towerCheck = true ↔ ReadyPasses s 12 := by
  unfold State.towerCheck ReadyPasses towerNumbers
  simp only [List.all_eq_true, List.mem_range'_1]
  refine forall_congr' fun k => ?_
  constructor
  · intro h h1 h2
    exact h ⟨h1, by omega⟩
  · rintro h ⟨h1, h2⟩
    exact h h1 (by omega)

/-- Every check passes where the model finds none that fails (R4). -/
theorem ready_all {s : State} (h : s.readyCheck = none) : ∀ n, 1 ≤ n → n ≤ 12 → ReadyPasses s n := by
  unfold State.readyCheck at h
  split at h
  · cases h
  rename_i h1
  split at h
  · cases h
  rename_i hp
  unfold pathChecks at hp
  repeat' split at h
  all_goals try cases h
  repeat' split at hp
  all_goals try cases hp
  rename_i h10 h11 h12 h2 h3 h4 h5 h6 h7 h8 h9
  simp only [not_not, Bool.not_eq_false, decide_eq_false_iff_not] at *
  intro n hn hn'
  interval_cases n
  · exact (ready_site s).mp h1
  · exact h2
  · exact (ready_entry s).mp h3
  · exact (ready_offsets s).mp h4
  · exact (ready_leads s).mp h5
  · exact (ready_order s).mp h6
  · exact (ready_shut s).mp h7
  · exact (ready_windows s).mp h8
  · exact (ready_zones s).mp h9
  · exact (ready_drives s).mp h10
  · exact (ready_kinds s).mp h11
  · exact (ready_towers s).mp h12

end Sys2Proof.Machine
end

