-- ==== Sys2Proof/Tests/Slice0.lean ====
section
/-! SUPPORT. Tests of slice 0: the check on commands, small steps of worked cases, and a witness for the hypotheses of
every statement. -/

set_option Elab.async false

namespace Sys2Proof.Tests

open Sys2Proof Sys2Proof.Machine Host

/-! ### Helpers: frames, turns and small states -/

/-- A whole frame from address a with a good check. -/
def frame (a : Nat) (kind : Byte) (ws : List Word) : RxFrame :=
  let run := [0, word a, (7 : Byte) ++ kind, word ws.length] ++ ws
  { header := 0, source := word a, tag := 7, length := word ws.length, payload := ws, check := checkWord run }

def asking (k : RequestKind) (ws : List Word) : RxFrame := frame 30 k.frameKind ws

/-- The state with an exchange of this kind awaiting a frame of address a. -/
def awaiting (kind : ExchangeKind) (a : Nat) (s : State) : State :=
  s.setExchange (some { kind := kind, address := a, phase := .awaiting, frame := [] })

/-- The state in the turn of address a. -/
def turn (a : Nat) (s : State) : State := awaiting .turn a s

/-- The state in the console's turn. -/
def console (s : State) : State := turn 30 s

/-- The state awaiting the answer to a command. -/
def sent (q : QueuedCommand) (s : State) : State := awaiting (.command q false) q.address s

def lined (l : LineState) (s : State) : State := s.modPerm fun p => { p with line := l }

/-- Every premise of a frame that arrives, as a test. -/
def arrives (s : State) (a : Nat) (kind : Byte) (f : RxFrame) : Bool :=
  decide (s.phase = .live) && f.whole kind && decide (f.destination = 0) && decide (f.sender = a) &&
    decide (1 ≤ a ∧ a ≤ 30) && lengthAllowed kind f.payload

theorem arrives_sound {s : State} {a : Nat} {kind : Byte} {f : RxFrame} (h : arrives s a kind f = true) :
    Arrives s a kind f := by
  simp only [arrives, Bool.and_eq_true, decide_eq_true_eq] at h
  obtain ⟨⟨⟨⟨⟨h1, h2⟩, h3⟩, h4⟩, h5, h6⟩, h7⟩ := h
  exact ⟨h1, h2, h3, h4, h5, h6, h7⟩

theorem inTurn {s : State} {a : Nat} {node : NodeKind} {kind : Byte} {f : RxFrame}
    (h : (arrives (turn a s) a kind f && decide (nth1 s.slc.nodeTable a = some node)) = true) :
    InTurn (turn a s) a node kind f := by
  rw [Bool.and_eq_true, decide_eq_true_eq] at h
  exact ⟨arrives_sound h.1, ⟨[], rfl⟩, h.2⟩

theorem requested {s : State} {k : RequestKind} {f : RxFrame}
    (h : (arrives (console s) 30 k.frameKind f && decide (nth1 s.slc.nodeTable 30 = some .console)) = true) :
    Requested (console s) k f := inTurn h

theorem answers {s : State} {q : QueuedCommand} {kind : Byte} {f : RxFrame}
    (h : arrives (sent q s) q.address kind f = true) : Answers (sent q s) q kind f :=
  ⟨arrives_sound h, ⟨false, [], rfl⟩⟩

/-- The site record of the worked cases. -/
def site : SiteRecord :=
  { towerCount := 1, pollPeriod := 10, crowdHigh := 4, crowdLow := 2, gripMin := 9000, gripMax := 20000,
    closureActLimit := 4000, tagHoldLimit := 400, stopLimit := 40, silenceLimit := 5, summitMissLimit := 4,
    ringLimit := 30, reverseLimit := 50 }

def point (action : PathAction) (offset lead : Nat) (node zone : Option Nat) : PathPoint :=
  { action := action, offset := offset, lead := lead, node := node, zone := zone, tolerance := 40 }

/-- The path of the worked cases: entry, open, shut, grip test, divert, depart. -/
def path : List PathPoint :=
  [point .entry 0 0 none (some 0), point .openAt 600 150 (some 3) (some 1), point .shutAt 3400 200 (some 4) (some 3),
    point .gripTest 4300 300 none (some 4), point .divert 5000 400 none (some 5), point .depart 5600 250 none none]

def tower : TowerEntry :=
  { assemblies := 2, mask := 3, inner := { posLow := -200, posHigh := 200, loadLow := 1500, loadHigh := 3500 },
    outer := { posLow := -400, posHigh := 400, loadLow := 1000, loadHigh := 4500 }, missLimit := 2 }

/-- The 640 in SETUP with its site, path, nodes and tower written. -/
def written : State :=
  let s := State.reset.modMgt fun m => { m with site := some site, siteLock := true }
  let s := s.modTrav fun t => { t with path := path }
  let s := s.modSlc fun c =>
    { c with
      nodeTable := mod1 (mod1 (mod1 (mod1 c.nodeTable 3 fun _ => .closureDrive) 4 fun _ => .closureDrive) 12
        fun _ => .gripUnit) 14 fun _ => .tagReader }
  let s := s.modRsu fun r => { r with towers := mod1 r.towers 1 fun _ => some tower }
  s.modTrn fun t => { t with directory := mod1 t.directory 17 fun _ => { tag := some 5002117, retired := none, force := none } }

def record (entry : BitVec 16) : CabinRecord :=
  { entry := entry, cabin := 0, tagState := .awaited, tag := none, entryCount := 0, lastPoint := 0,
    confirmation := some 1, closure := .unknown, grip := .notTested, gripForce := none, divert := none, restored := false,
    tagTimer := some 400 }

def carrying (rs : List CabinRecord) (s : State) : State := s.modTrn fun t => { t with train := rs }

def cause (k : CauseKind) (x : Subject) (response : Response) (mode : LatchMode) (state : CauseState) : CauseEntry :=
  { kind := k, subject := x, response := response, latch := mode, state := state, raisedTime := 0, raiseCount := 1 }

def holding (es : List CauseEntry) (s : State) : State := s.modPerm fun p => { p with causes := es }.drive

/-- n causes of different subjects. -/
def crowd (n : Nat) : List CauseEntry :=
  (List.range n).map fun i => cause .gripFail (.cabin (BitVec.ofNat 16 i)) .info .self .active

/-! ### The check on commands -/

def tooLong : RxFrame := { frame 30 80 [] with payload := [1] }

def mixed : RxFrame := asking .tableWrite [4, 1]

theorem test_fits_refuses_more_words_than_stated :
    [Instr.statusRead tooLong, .siteWrite tooLong, .setAccept tooLong, .unsolicitedFrame 80 tooLong].all
      (fun c => !c.wellFormed) = true := by decide

theorem test_fits_refuses_words_beyond_sixty :
    (Instr.statusRead { frame 30 80 [1] with length := 61 }).wellFormed = false := by decide

theorem test_tables_refuse_another_table :
    [Instr.tableWritePath mixed, .tableWriteZoneMask mixed, .tableWriteNodes mixed, .tableWriteCauses mixed,
      .tableWriteDirectory mixed, .tableReadPath mixed, .tableReadZoneMask mixed, .tableReadNodes mixed,
      .tableReadCauses mixed, .tableReadDirectory mixed, .tableWriteTowers (asking .tableWrite [5, 1]),
      .tableReadTowers (asking .tableRead [5, 1])].all (fun c => !c.wellFormed) = true := by decide

theorem test_acknowledgement_rows_refuse_each_other :
    (Instr.causeAck (asking .causeAck [32768, 0])).wellFormed = false ∧
      (Instr.causeAckAll (asking .causeAck [1, 0])).wellFormed = false := by decide

theorem test_input_and_address_stay_in_range :
    (Instr.zoneEdge 16).wellFormed = false ∧ (Instr.zoneEdge 15).wellFormed = true ∧
      (Instr.actTimerExpiry 0).wellFormed = false ∧ (Instr.actTimerExpiry 30).wellFormed = false ∧
      (Instr.actTimerExpiry 29).wellFormed = true := by decide

theorem test_no_word_spells_a_command : decodeTableWord 8 1 = none := rfl

/-! ### One step each of the worked cases -/

/-- The state after the command at the front of the queue; the state itself where the step does not go on. -/
def after (c : Instr) (s : State) : State :=
  match step (s.setPending [c]) with
  | .next t => t
  | _ => s

def response (s : State) : Option (ResultCode × List Word) := s.mgt.response.map fun r => (r.result, r.payload)

def ask (k : RequestKind) (ws : List Word) (c : RxFrame → Instr) (s : State) : State :=
  after (c (asking k ws)) (console s)

theorem test_site_write_locks :
    let ws : List Word := [1, 10, 4, 2, 9000, 20000, 4000, 400, 40, 5, 4, 30, 50]
    let t := ask .siteWrite ws .siteWrite State.reset
    t.mgt.site = some site ∧ t.mgt.siteLock = true ∧ response t = some (.done, []) := by decide +kernel

theorem test_ready_sends_the_first_sweep :
    let t := ask .lineReady [] .lineReady written
    t.perm.line = .held ∧ response t = some (.done, []) ∧ t.swp.sent = 1 ∧ t.swp.tlOut.length = 65 ∧
      sumWords t.swp.tlOut = 65535 := by decide +kernel

theorem test_ready_from_reset_lacks_a_site :
    response (ask .lineReady [] .lineReady State.reset) = some (.refusedState, [1]) := by decide +kernel

theorem test_start_runs :
    let t := ask .lineStart [] .lineStart (lined .held written)
    t.perm.line = .running ∧ t.perm.runp = true ∧ t.perm.estop = false := by decide +kernel

theorem test_entry_edge_makes_a_record :
    let t := after (.zoneEdge 0) (lined .running written)
    t.trn.train.map (fun r => (r.confirmation, r.tagState, r.tagTimer)) = [(some 1, .awaited, some 400)] ∧
      t.trav.schedule.map (fun e => (e.kind, e.point, e.due)) = [(.point, 1, 600), (.lead, 1, 450)] := by decide +kernel

theorem test_entry_numbers_step_past_carried_ones :
    let at_ (n : BitVec 16) (rs : List CabinRecord) := ((carrying rs written).modTrn fun t => { t with entryCounter := n }).trn
    (at_ 7 []).nextEntry = 7 ∧ (at_ 7 [record 7, record 9]).nextEntry = 8 ∧
      (at_ 65535 [record 0, record 65535]).nextEntry = 1 := by decide +kernel

theorem test_lead_opens_a_transaction :
    let s := (carrying [record 0] (lined .running written)).modTrav fun t =>
      { t with counter := 449, highWater := 449, schedule := [{ entry := 0, kind := .lead, point := 1, due := 450 }] }
    (after .forwardStep s).slc.urgent = [{ address := 3, command := .set 0 .toOpen, txn := some 0 }] := by
  decide +kernel

theorem test_tag_is_matched :
    let f := frame 14 Kind.tagRead [76, 21381]
    let t := after (.tagRead f) (turn 14 (carrying [record 0] (lined .running written)))
    t.trn.train.map (fun r => (r.cabin, r.tagState, r.tag)) = [(17, .matched, some 5002117)] := by decide +kernel

theorem test_emergency_stops_a_running_line :
    let s := (lined .running written).setPins { lowLevels with dmov := true }
    let t := s.raise .ropeOff (.tower 1)
    t.perm.line = .stopping ∧ t.perm.estop = true ∧ t.smt.autoClaims = 1 := by decide +kernel

theorem test_slot_of_another_tower_is_a_miss :
    ((lined .held written).takeTowerSlot 1 0 [32770]).rsu.runtime[0].missCount = 1 := by decide +kernel

/-! ### Witnesses: the queue, resets, PERM -/

/-- A state in order with a command in front: the reset state with an off-hook edge. -/
theorem inv_lifted : Inv (State.reset.setPending [.offHook]) :=
  reset_inv Perm.fullReset_ok rfl ⟨by decide, by decide⟩ rfl rfl Slc.fullReset_table rfl rfl rfl rfl rfl rfl
    (by decide : ([] : List PathPoint).length ≤ 16)

theorem test_witness_StepRunsTheFrontCommand :
    (State.reset.setPending [.forwardStep]).pending = .forwardStep :: [] ∧
      (State.reset.pending = [] ∧ State.reset.phase = .live) ∧
      (State.reset.setPhase .command).pending = [] ∧ (State.reset.setPhase .command).phase ≠ .live := by decide +kernel

theorem test_witness_EveryStepKeepsTheOrder :
    ∃ t, Inv (State.reset.setPending [.offHook]) ∧ step (State.reset.setPending [.offHook]) = .next t :=
  ⟨_, inv_lifted, rfl⟩

theorem test_witness_NothingActsInsideAReset :
    (State.reset.setPhase .command).phase ≠ .live ∧ (∀ source, Instr.dmovRise ≠ .fullReset source) ∧
      (∀ levels, Instr.dmovRise ≠ .fullResetEnd levels) ∧ ∀ levels, Instr.dmovRise ≠ .commandResetEnd levels :=
  ⟨by decide, nofun, nofun, nofun⟩

theorem test_witness_FullResetHoldsEveryBlock :
    (∀ ns, ResetSource.resetLow 1000 = .resetLow ns → 1000 ≤ ns) ∧ (∀ ns, ResetSource.powerUp = .resetLow ns → 1000 ≤ ns) ∧
      ∃ ns, ResetSource.resetLow 999 = .resetLow ns ∧ ns < 1000 :=
  ⟨fun ns h => by cases h; decide, nofun, 999, rfl, by decide⟩

theorem test_witness_ResetEndLeavesTheLineInSetup :
    ((State.reset.setPhase (.full .pin)).phase = .full .pin ∧ Instr.fullResetEnd lowLevels = .fullResetEnd lowLevels) ∧
      (State.reset.setPhase .command).phase = .command ∧
        Instr.commandResetEnd { lowLevels with dmov := true } = .commandResetEnd { lowLevels with dmov := true } ∧
    PhaseOk (State.reset.setPhase (.full .pin)) ∧ PhaseOk (State.reset.setPhase .command) :=
  ⟨⟨rfl, rfl⟩, rfl, rfl, fun _ => rfl, fun _ => rfl⟩

def sendingResponse (b : Bool) : State :=
  (State.reset.begin .response 30 []).modMgt fun m => { m with resetRequest := b }

theorem test_witness_PartResetFollowsItsResponse :
    (Requested (console written) .partReset (asking .partReset []) ∧ (asking .partReset []).payload = [] ∧
      (console written).perm.line ≠ .running ∧ (console written).perm.line ≠ .stopping) ∧
    (∀ l ∈ [LineState.running, .stopping], Requested (console (lined l written)) .partReset (asking .partReset []) ∧
      ((console (lined l written)).perm.line = .running ∨ (console (lined l written)).perm.line = .stopping)) ∧
    ∀ b, ∃ x, (sendingResponse b).phase = .live ∧ (sendingResponse b).slc.exchange = some x ∧ x.kind = .response ∧
      x.phase = .sending ∧ (sendingResponse b).mgt.resetRequest = b := by
  refine ⟨⟨requested ?_, ?_⟩, ?_, fun b => ⟨_, ?_, rfl, ?_, ?_, rfl⟩⟩
  · decide +kernel
  · decide +kernel
  · intro l hl
    simp only [List.mem_cons, List.not_mem_nil, or_false] at hl
    rcases hl with rfl | rfl <;> exact ⟨requested (by decide +kernel), by decide +kernel⟩
  all_goals rfl

theorem test_witness_DriveLinesFollowLineAndCauses :
    ∃ t, Inv (State.reset.setPending [.offHook]) ∧ exec .dmovRise (State.reset.setPending [.offHook]) = .next t :=
  ⟨_, inv_lifted, rfl⟩

/-- A held cause in each of its states, and one more kind to clear. -/
def held (mode : LatchMode) (state : CauseState) : State :=
  holding [cause .ropeLimit (.tower 1) .stop mode state] (lined .held written)

theorem test_witness_RaiseClaimTakesOneOfThreeWays :
    ((held .latch .latched).perm.find .ropeLimit (.tower 1)).isSome ∧
    (written.perm.find .ropeLimit (.tower 1) = none ∧
      (written.perm.causes.filter fun e => decide (e.kind ≠ .causeOverflow)).length < 47) ∧
    ((holding (crowd 47) written).perm.find .causeOverflow .noSubject = none ∧
      CauseKind.causeOverflow = CauseKind.causeOverflow) ∧
    (holding (crowd 47) written).perm.find .ropeLimit (.tower 1) = none ∧ CauseKind.ropeLimit ≠ .causeOverflow ∧
      47 ≤ ((holding (crowd 47) written).perm.causes.filter fun e => decide (e.kind ≠ .causeOverflow)).length := by
  decide +kernel

def overflowed (n : Nat) (state : CauseState) : State :=
  holding (crowd n ++ [cause .causeOverflow .noSubject .emergency .latch state]) written

theorem test_witness_ClearClaimFollowsLatchAndState :
    written.perm.find .ropeLimit (.tower 1) = none ∧
    ((held .self .active).perm.find .ropeLimit (.tower 1)).map CauseEntry.latch = some .self ∧
    ((held .latch .activeAcked).perm.find .ropeLimit (.tower 1)).map CauseEntry.state = some .activeAcked ∧
    ((held .latch .active).perm.find .ropeLimit (.tower 1)).map CauseEntry.state = some .active ∧
    ((held .latch .latched).perm.find .ropeLimit (.tower 1)).map CauseEntry.state = some .latched ∧
    40 < ((overflowed 41 .active).perm.causes.filter fun e => decide (e.kind ≠ .causeOverflow)).length ∧
    written.perm.find .causeOverflow .noSubject = none ∧
    ((overflowed 40 .latched).perm.find .causeOverflow .noSubject).map CauseEntry.state = some .latched ∧
    ((overflowed 40 .active).perm.find .causeOverflow .noSubject).map CauseEntry.state = some .active ∧
    ((overflowed 40 .active).perm.causes.filter fun e => decide (e.kind ≠ .causeOverflow)).length ≤ 40 := by
  decide +kernel

theorem test_witness_CauseAckActsByState :
    let f := asking .causeAck [258, 1]
    (∀ s ∈ [written, held .self .active, held .latch .activeAcked, held .latch .active, held .latch .latched],
      Requested (console s) .causeAck f) ∧
    parseAck f.payload = some (.one .ropeLimit (.tower 1)) ∧
    ((console written).taken 30).perm.find .ropeLimit (.tower 1) = none ∧
    [held .self .active, held .latch .activeAcked, held .latch .active, held .latch .latched].map (fun s =>
      (((console s).taken 30).perm.find .ropeLimit (.tower 1)).map fun e => (e.latch, e.state)) =
        [some (.self, .active), some (.latch, .activeAcked), some (.latch, .active), some (.latch, .latched)] ∧
    Requested (console written) .causeAck (asking .causeAck [32768, 0]) ∧
      parseAck (asking .causeAck [32768, 0]).payload = some .all ∧
    (∀ ws ∈ ([[256, 1], [283, 1], [514, 1], [258, 0], [258, 25], [523, 31], [32769, 0], [33024, 0], [32768, 1]] :
      List (List Word)), Requested (console written) .causeAck (asking .causeAck ws)) ∧
    CauseKind.ropeLimit.code = (514 : Word).toNat % 32 ∧ CauseKind.ropeLimit.subjectType.code ≠ 2 := by
  refine ⟨fun s hs => ?_, by decide +kernel, by decide +kernel, by decide +kernel, requested (by decide +kernel),
    by decide +kernel, fun ws hw => requested ?_, by decide, by decide⟩
  · simp only [List.mem_cons, List.not_mem_nil, or_false] at hs
    rcases hs with rfl | rfl | rfl | rfl | rfl <;> exact requested (by decide +kernel)
  · revert ws
    decide +kernel

/-! ### Witnesses: line requests -/

theorem test_witness_LineReadyMakesTheTwelveChecks :
    (Requested (console (lined .held written)) .lineReady (asking .lineReady []) ∧
      (console (lined .held written)).perm.line ≠ .setup) ∧
    (Requested (console written) .lineReady (asking .lineReady []) ∧ (console written).perm.line = .setup ∧
      (asking .lineReady []).payload = [] ∧ ∀ n, 1 ≤ n → n ≤ 12 → ReadyPasses (console written) n) ∧
    (Requested (console State.reset) .lineReady (asking .lineReady []) ∧ (console State.reset).perm.line = .setup ∧
      ¬ReadyPasses (console State.reset) 1 ∧ ∀ m, 1 ≤ m → m < 1 → ReadyPasses (console State.reset) m) ∧
    let s := console (written.modRsu fun r => { r with towers := Vector.replicate 24 none })
    Requested s .lineReady (asking .lineReady []) ∧ s.perm.line = .setup ∧ ¬ReadyPasses s 12 ∧ ∀ m, 1 ≤ m → m < 12 → ReadyPasses s m := by
  refine ⟨⟨requested ?_, ?_⟩, ⟨requested ?_, ?_, ?_, ready_all ?_⟩, ⟨requested ?_, ?_, ?_, fun m h1 h2 => by omega⟩,
    requested ?_, ?_, ?_, ?_⟩
  all_goals first | decide +kernel | skip
  · exact fun h => absurd ((ready_site _).mpr h) (by decide +kernel)
  · exact fun h => absurd ((ready_towers _).mpr h) (by decide +kernel)
  · have all : ∀ n, 1 ≤ n → n ≤ 12 → ReadyPasses (console written) n := ready_all (by decide +kernel)
    intro m h1 h2
    have h := all m h1 (by omega)
    interval_cases m <;> exact h

theorem test_witness_LineSetupAndParkNeedAnEmptyTrain :
    let s := console (lined .held written)
    let full := console (carrying [record 0] (lined .held written))
    let stopped := console (held .latch .active)
    (Requested s .lineSetup (asking .lineSetup []) ∧ s.perm.line = .held ∧ s.trn.train = []) ∧
    (Requested full .lineSetup (asking .lineSetup []) ∧ full.perm.line = .held ∧ full.trn.train ≠ []) ∧
    (Requested s .linePark (asking .linePark []) ∧ s.smt.call = .idle ∧
      ((s.taken 30).perm.causes.any fun e => decide (e.response = .stop ∨ e.response = .emergency)) = false) ∧
    Requested full .linePark (asking .linePark []) ∧ Requested stopped .linePark (asking .linePark []) ∧
      stopped.perm.line = .held ∧ stopped.trn.train = [] ∧ stopped.smt.call = .idle ∧
        ((stopped.taken 30).perm.causes.any fun e => decide (e.response = .stop ∨ e.response = .emergency)) = true := by
  refine ⟨⟨requested ?_, ?_⟩, ⟨requested ?_, ?_⟩, ⟨requested ?_, ?_⟩, requested ?_, requested ?_, ?_⟩ <;> decide +kernel

theorem test_witness_LineStartNeedsACalmSet :
    let s := console (lined .held written)
    let moving := console ((lined .held written).setPins { lowLevels with dmov := true })
    let stopped := console (held .latch .active)
    (Requested s .lineStart (asking .lineStart []) ∧ s.perm.line = .held ∧
      ((s.taken 30).perm.causes.any fun e => decide (e.response = .stop ∨ e.response = .emergency)) = false ∧
        s.pins.dmov = false) ∧
    (Requested stopped .lineStart (asking .lineStart []) ∧ stopped.perm.line = .held ∧
      ((stopped.taken 30).perm.causes.any fun e => decide (e.response = .stop ∨ e.response = .emergency)) = true) ∧
    Requested moving .lineStart (asking .lineStart []) ∧ moving.perm.line = .held ∧ moving.pins.dmov = true := by
  refine ⟨⟨requested ?_, ?_⟩, ⟨requested ?_, ?_⟩, requested ?_, ?_⟩ <;> decide +kernel

theorem test_witness_LineHaltStopsAndLineWakeHolds :
    let s := console (lined .running written)
    let parked := console (lined .quiet written)
    (Requested s .lineHalt (asking .lineHalt []) ∧ (asking .lineHalt []).payload = [] ∧ s.perm.line = .running) ∧
    Requested parked .lineWake (asking .lineWake []) ∧ (asking .lineWake []).payload = [] ∧ parked.perm.line = .quiet := by
  refine ⟨⟨requested ?_, ?_⟩, requested ?_, ?_⟩ <;> decide +kernel

theorem test_witness_LineRequestsElsewhereAreRefused :
    ∀ k ∈ [RequestKind.lineSetup, .lineStart, .lineHalt, .linePark, .lineWake],
      Requested (console written) k (asking k []) ∧ (console written).perm.line ≠ .held ∧
        (console written).perm.line ≠ .running ∧ (console written).perm.line ≠ .quiet := by
  intro k hk
  simp only [List.mem_cons, List.not_mem_nil, or_false] at hk
  rcases hk with rfl | rfl | rfl | rfl | rfl <;> exact ⟨requested (by decide +kernel), by decide +kernel⟩

theorem test_witness_RunningIsEnteredByLineStartAlone :
    let s := console (lined .held written)
    s.perm.line ≠ .running ∧ ∃ t, exec (.lineStart (asking .lineStart [])) s = .next t ∧ t.perm.line = .running :=
  ⟨by decide, _, rfl, by decide +kernel⟩

/-! ### Witnesses: reads and writes -/

/-- The requests are asked of the state in the console's turn. -/
theorem asked {s : State} {k : RequestKind} {ws : List Word}
    (h : (arrives (console s) 30 k.frameKind (asking k ws) &&
      decide (nth1 s.slc.nodeTable 30 = some .console)) = true) : Requested (console s) k (asking k ws) :=
  requested h

theorem test_witness_StatusAndSiteReadsGiveTheirItems :
    Requested (console written) .statusRead (asking .statusRead []) ∧
      (Requested (console State.reset) .siteRead (asking .siteRead []) ∧ (console State.reset).mgt.siteLock = false) ∧
      Requested (console written) .siteRead (asking .siteRead []) ∧ (console written).mgt.siteLock = true ∧
        (console written).mgt.site = some site := by
  refine ⟨asked ?_, ⟨asked ?_, ?_⟩, asked ?_, ?_⟩ <;> decide +kernel

theorem test_witness_TableReadsGiveTheEntry :
    (∀ p ∈ ([[1, 15], [2, 0], [2, 15], [3, 1], [3, 30], [4, 1], [4, 24], [5, 1], [5, 26], [6, 1], [6, 255], [1, 16], [2, 16],
        [3, 0], [3, 31], [4, 0], [4, 25], [5, 0], [5, 27], [6, 0], [6, 256]] : List (List Word)),
      Requested (console written) .tableRead (asking .tableRead p) ∧ (asking .tableRead p).payload = p) ∧
    CauseKind.causeOverflow.code = 26 ∧ (nth1 (console written).trn.directory 255).isSome = true ∧
    (∀ a ∈ [1, 30], (nth1 (console written).slc.nodeTable a).isSome = true ∧
      (nth1 ((console written).taken 30).slc.answers a).isSome = true ∧
      (nth1 (console written).slc.service a).isSome = true) ∧
    ((console written).node 1).isSome = true ∧ ((console written).node 29).isSome = true ∧
    ∀ k ∈ [1, 24], (nth1 (console written).rsu.towers k).isSome = true ∧
      (nth1 (console written).rsu.runtime k).isSome = true := by
  refine ⟨fun p hp => ⟨asked ?_, rfl⟩, by decide +kernel⟩
  revert p
  decide +kernel

theorem test_witness_RecordAndCauseReadsGoByPosition :
    let s := console (carrying [record 0] written)
    (∀ p ∈ ([[0], [31], [32]] : List (List Word)), Requested s .recordRead (asking .recordRead p)) ∧
      s.trn.train.length ≤ (31 : Word).toNat ∧ s.trn.train[(0 : Word).toNat]? = some (record 0) ∧
      ∀ p ∈ ([[47], [48]] : List (List Word)), Requested s .causesRead (asking .causesRead p) := by
  refine ⟨fun p hp => asked ?_, by decide +kernel, by decide +kernel, fun p hp => asked ?_⟩
  all_goals
    revert p
    decide +kernel

theorem test_witness_SiteWriteIsTakenOnce :
    (Requested (console written) .siteWrite (asking .siteWrite []) ∧ (console written).mgt.siteLock = true) ∧
    (Requested (console State.reset) .siteWrite
        (asking .siteWrite [24, 100, 32, 31, 60000, 60000, 10000, 2000, 120, 30, 15, 120, 2000]) ∧
      (console State.reset).mgt.siteLock = false) ∧
    Requested (console State.reset) .siteWrite
      (asking .siteWrite [25, 100, 32, 31, 60000, 60000, 10000, 2000, 120, 30, 15, 120, 2000]) := by
  refine ⟨⟨asked ?_, ?_⟩, ⟨asked ?_, ?_⟩, asked ?_⟩ <;> decide +kernel

/-- A state in which each table write is asked. -/
def writing (s : State) (ws : List Word) : Prop :=
  Requested (console s) .tableWrite (asking .tableWrite ws) ∧ (asking .tableWrite ws).payload = ws

theorem writes {s : State} {ws : List Word}
    (h : (arrives (console s) 30 (RequestKind.frameKind .tableWrite) (asking .tableWrite ws) &&
      decide (nth1 s.slc.nodeTable 30 = some .console)) = true) : writing s ws := ⟨asked h, rfl⟩

theorem test_witness_PathWriteActsByIndex :
    let masked := written.modTrav fun t => { t with zoneMask := t.zoneMask.setIfInBounds 7 true }
    writing (lined .held written) [1, 0] ∧ writing (carrying [record 0] written) [1, 0] ∧ writing written [1, 16] ∧
    writing written [1, 7, 0, 0, 0, 0] ∧ writing written [1, 6] ∧
    (writing written [1, 0, 7, 0, 0, 0] ∧ parsePathPoint [7, 0, 0, 0] = none) ∧
    (writing masked [1, 0, 120, 0, 0, 0] ∧ parsePathPoint [120, 0, 0, 0] = some { point .entry 0 0 none (some 7) with tolerance := 0 } ∧
      masked.trav.zoneMask.getD 7 false = true) ∧
    (writing written [1, 5, 6, 0, 0, 0] ∧ (parsePathPoint [6, 0, 0, 0]).isSome ∧ 5 < written.trav.path.length) ∧
    writing written [1, 6, 6, 0, 0, 0] ∧ (console written).perm.line = .setup ∧ (console written).trn.train = [] ∧
      6 = written.trav.path.length := by
  refine ⟨writes ?_, writes ?_, writes ?_, writes ?_, writes ?_, ⟨writes ?_, ?_⟩, ⟨writes ?_, ?_⟩, ⟨writes ?_, ?_⟩,
    writes ?_, ?_⟩ <;> decide +kernel

theorem test_witness_ZoneMaskWriteMasksAnInput :
    let masked := written.modTrav fun t => { t with zoneMask := t.zoneMask.setIfInBounds 15 true }
    writing (lined .running written) [2, 1, 1] ∧ writing written [2, 16, 1] ∧ writing written [2, 1, 2] ∧
    (writing written [2, 0, 1] ∧ ∃ p rest, written.trav.path = p :: rest ∧ p.zone = some 0) ∧
    (writing masked [2, 15, 1] ∧ masked.trav.zoneMask.getD 15 false = true) ∧
    (writing written [2, 1, 1] ∧ written.trav.zoneMask.getD 1 false = false ∧
      ¬∃ p rest, written.trav.path = p :: rest ∧ p.zone = some 1) ∧
    writing written [2, 15, 0] ∧ (console written).perm.line ≠ .running ∧ (console written).perm.line ≠ .stopping := by
  refine ⟨writes ?_, writes ?_, writes ?_, ⟨writes ?_, _, _, rfl, rfl⟩, ⟨writes ?_, ?_⟩, ⟨writes ?_, ?_, ?_⟩, writes ?_, ?_⟩
  all_goals first | decide +kernel | skip
  rintro ⟨p, rest, h, hz⟩
  cases h
  cases hz

theorem test_witness_NodesWriteChangesTheKind :
    writing (lined .held written) [3, 1, 1] ∧
    (∀ ws ∈ ([[3, 0, 0], [3, 31, 0], [3, 1, 5], [3, 30, 0], [3, 29, 4]] : List (List Word)), writing written ws) ∧
    (writing written [3, 30, 4] ∧ nth1 (console written).slc.nodeTable 30 = some .console ∧ NodeKind.ofCode 4 = some .console) ∧
    writing written [3, 29, 1] ∧ nth1 (console written).slc.nodeTable 29 = some .noKind ∧
      NodeKind.ofCode 1 = some .closureDrive ∧ (29 = 30 ↔ NodeKind.closureDrive = .console) := by
  refine ⟨writes ?_, fun ws hw => writes ?_, ⟨writes ?_, ?_⟩, writes ?_, ?_⟩
  all_goals first | decide +kernel | skip
  revert ws
  decide +kernel

theorem test_witness_TowersWriteReplacesTheEntry :
    writing (lined .running written) [4, 1] ∧ writing written [4, 0] ∧ writing written [4, 25] ∧
    (writing written [4, 1, 0] ∧ parseTower [0] = none) ∧
    (writing (lined .held written) [4, 1] ∧ 1 ≤ (console (lined .held written)).site.towerCount) ∧
    (writing (lined .held written) [4, 2] ∧ (console (lined .held written)).site.towerCount < 2) ∧ writing written [4, 1] ∧
    writing written [4, 24, 273, 0, 0, 0, 0, 0, 0, 0, 0] ∧ (parseTower [273, 0, 0, 0, 0, 0, 0, 0, 0]).isSome := by
  refine ⟨writes ?_, writes ?_, writes ?_, ⟨writes ?_, ?_⟩, ⟨writes ?_, ?_⟩, ⟨writes ?_, ?_⟩, writes ?_, writes ?_, ?_⟩ <;>
    decide +kernel

theorem test_witness_CausesWriteKeepsTheFloors :
    writing (lined .running written) [5, 1, 0] ∧ writing written [5, 0, 0] ∧ writing written [5, 27, 0] ∧
    (writing written [5, 26, 3] ∧ CauseKind.causeOverflow.code = 26 ∧ CauseKind.causeOverflow.floor = .emergency) ∧
    (writing written [5, 16, 5] ∧ CauseKind.trainCrowded.code = 16) ∧
    writing written [5, 1, 0] ∧ CauseKind.ropeWarn.code = 1 ∧ CauseKind.ropeWarn.floor = .info ∧
      (console written).perm.line ≠ .running ∧ (console written).perm.line ≠ .stopping := by
  refine ⟨writes ?_, writes ?_, writes ?_, ⟨writes ?_, ?_⟩, ⟨writes ?_, ?_⟩, writes ?_, ?_⟩ <;> decide +kernel

theorem test_witness_DirectoryWriteKeepsTagsApart :
    let riding := carrying [{ record 0 with cabin := 17 }] written
    writing written [6, 0] ∧ writing written [6, 256] ∧ (writing written [6, 1, 1, 0, 0, 0] ∧ parseDirEntry [1, 0, 0, 0] = none) ∧
    (writing riding [6, 17] ∧ ∃ r ∈ (console riding).trn.train, r.cabin.toNat = 17) ∧
    (writing written [6, 255, 1, 76, 21381, 0] ∧ ∃ m d', m ≠ 255 ∧ nth1 (console written).trn.directory m = some d' ∧
      d'.tag = some 5002117) ∧
    (writing written [6, 255] ∧ ¬∃ r ∈ (console written).trn.train, r.cabin.toNat = 255) ∧
    writing written [6, 1, 1, 0, 1, 0] ∧ (parseDirEntry [1, 0, 1, 0]).isSome := by
  refine ⟨writes ?_, writes ?_, ⟨writes ?_, ?_⟩, ⟨writes ?_, _, List.mem_singleton.mpr rfl, ?_⟩,
    ⟨writes ?_, 17, { tag := some 5002117, retired := none, force := none }, ?_⟩, ⟨writes ?_, ?_⟩, writes ?_, ?_⟩ <;> decide +kernel

/-- A record is written behind the entry point: 100 mm on, its tag unknown. -/
def restoring (codes : Word) : List Word := [0, 0, 0, 100, 0, codes, 0]

/-- What these words carry: with codes 1280 the divert flag is set with a reason, with codes 0 it is not. -/
def restored (reason : Option DivertReason) : RestoreFields :=
  { cabin := 0, tag := none, distance := 100, lastPoint := 0, closure := .unknown, grip := .notTested, force := none,
    divertFlag := reason.isSome, reason := reason }

theorem test_witness_RecordWriteRestoresARecord :
    let f := asking .recordWrite (restoring 1280)
    let full := carrying ((List.range 32).map fun i => record (BitVec.ofNat 16 i)) written
    (∀ s ∈ [lined .held written, State.reset, full, written], Requested (console s) .recordWrite f) ∧
    (parseRestore f.payload).isSome ∧ (console written).mgt.site ≠ none ∧ pathChecks (console written).trav.path = none ∧
    full.trn.train.length = 32 ∧
    (∃ reason p q, parseRestore (restoring 1280) = some (restored (some reason)) ∧
      written.trav.path[0]? = some p ∧ written.trav.path[1]? = some q ∧ p.offset ≤ (restored reason).distance.toNat ∧
      (restored reason).distance.toNat < q.offset ∧ written.trn.train.getLast? = none ∧
      (restored (some reason)).force.isSome = false ∧ (restored (some reason)).grip = .notTested ∧
      (restored (some reason)).divertFlag = true) ∧
    Requested (console written) .recordWrite (asking .recordWrite (restoring 0)) ∧
    parseRestore (restoring 0) = some (restored none) ∧ (restored none).cabin = 0 ∧ (restored none).divertFlag = false ∧
    (∀ ws ∈ ([[256, 0, 0, 100, 0, 0, 0], restoring 6, restoring 80, restoring 3072] : List (List Word)),
      Requested (console written) .recordWrite (asking .recordWrite ws)) := by
  refine ⟨fun s hs => asked ?_, ?_, ?_, ?_, ?_, ⟨_, _, _, rfl, rfl, rfl, ?_⟩, asked ?_, ?_, ?_, ?_, fun ws hw => asked ?_⟩
  all_goals first | decide +kernel | skip
  · revert s
    decide +kernel
  · revert ws
    decide +kernel

theorem test_witness_RecordRemoveTakesTheRecordOut :
    let s := carrying [record 7] (lined .quiet written)
    (∀ t ∈ [written, s], ∀ e ∈ ([[7], [8]] : List (List Word)), Requested (console t) .recordRemove (asking .recordRemove e)) ∧
      (console written).perm.line ≠ .held ∧ (console written).perm.line ≠ .quiet ∧ (console s).perm.line = .quiet ∧
      (console s).record 8 = none ∧ (console s).record 7 = some (record 7) := by
  refine ⟨fun t ht e he => asked ?_, by decide +kernel⟩
  revert t e
  decide +kernel

/-- Node 3 has an open transaction of entry 7 in this state. -/
def opened (state : TxnState) (s : State) : State :=
  s.modNode 3 fun n =>
    { n with
      txn := some
        { id := 5, entry := 7, action := .toShut, point := 2, state := state, late := false, retry := false, deadline := none,
          actTimer := some 4000, faultWords := none, detailCause := none, overtaken := false } }

def crammed (s : State) : State :=
  s.modSlc fun c => { c with urgent := List.replicate 64 { address := 4, command := .clear, txn := none } }

theorem test_witness_NodeClearQueuesClear :
    (∀ s ∈ [written, opened .primed written, crammed written], ∀ a ∈ ([[0], [3], [29], [30]] : List (List Word)),
      Requested (console s) .nodeClear (asking .nodeClear a)) ∧
    nth1 (console written).slc.nodeTable 29 ≠ some .closureDrive ∧ nth1 (console written).slc.nodeTable 3 = some .closureDrive ∧
    (console written).node 3 = some NodeRec.ready ∧
    ((console (opened .primed written)).node 3).map (fun n => n.txn.isSome) = some true ∧
    (console written).slc.urgent.length < 64 ∧ 64 ≤ (console (crammed written)).slc.urgent.length ∧
    (console (crammed written)).node 3 = some NodeRec.ready := by
  refine ⟨fun s hs a ha => asked ?_, by decide +kernel⟩
  revert s a
  decide +kernel

theorem test_witness_TableEntriesRoundTrip :
    (path.all PathPoint.inRange) = true ∧ tower.inRange = true ∧ site.inRange = true ∧
      (some 1 : Option (BitVec 32)) ≠ some 0 ∧ (Subject.tower 24).type = CauseKind.ropeOff.subjectType ∧
      (Subject.node 30).type = CauseKind.nodeSilent.subjectType ∧
      (Subject.input 15).type = CauseKind.zoneUnexpected.subjectType ∧
      (∀ a ∈ [1, 30], (nth1 written.slc.nodeTable a).isSome = true) := by decide +kernel

theorem test_witness_WrongLengthsAreRefusedByRange :
    (∀ k ∈ [RequestKind.statusRead, .siteRead, .siteWrite, .recordRead, .recordWrite, .causesRead, .causeAck, .nodeClear,
        .partReset, .lineReady], Requested (console written) k (asking k [9, 9, 9])) ∧
    Requested (console State.reset) .siteWrite (asking .siteWrite [1]) ∧
    (∀ k ∈ [RequestKind.recordRemove, .lineSetup, .lineStart, .linePark],
      Requested (console (lined .held written)) k (asking k [1, 1])) ∧
    Requested (console (lined .running written)) .lineHalt (asking .lineHalt [1]) ∧
    Requested (console (lined .quiet written)) .lineWake (asking .lineWake [1]) ∧
    (∀ ws ∈ ([[], [0, 1], [7, 1], [1]] : List (List Word)), Requested (console written) .tableRead (asking .tableRead ws)) ∧
    (console written).perm.line = .setup ∧ (console written).trn.train = [] ∧
    ∀ ws ∈ ([[], [0, 1], [7, 1], [1], [1, 0, 0], [2], [2, 1], [2, 1, 1, 0], [3], [3, 1], [3, 1, 1, 0], [4], [4, 1, 0], [5],
      [5, 1], [5, 1, 1, 0], [6], [6, 1, 0]] : List (List Word)),
      Requested (console written) .tableWrite (asking .tableWrite ws) := by
  refine ⟨fun k hk => asked ?_, asked (by decide +kernel), fun k hk => asked ?_, asked (by decide +kernel),
    asked (by decide +kernel), fun ws hw => asked ?_, by decide +kernel, by decide +kernel, fun ws hw => asked ?_⟩
  · revert k
    decide +kernel
  · revert k
    decide +kernel
  all_goals
    revert ws
    decide +kernel

/-! ### Witnesses: travel, zone edges, leaving -/

theorem test_witness_EncoderStepsCountTravel : State.reset.phase = .live := rfl

theorem test_witness_ForwardStepLeavesNothingDue :
    (lined .held written).phase = .live ∧ (lined .held written).perm.line ≠ .setup ∧
      (∃ t, exec .forwardStep (lined .held written) = .next t) ∧
    let e (kind : SchedKind) (due : BitVec 24) : SchedEntry := { entry := 0, kind := kind, point := 1, due := due }
    (0 - (8388608 : BitVec 24)).toNat = 8388608 ∧ ((0 : BitVec 24) - 1).toNat = 16777215 ∧ ((0 : BitVec 24) - 0).toNat < 8388608 ∧
    [e .lead 1, e .lead 0, e .point 0] = [e .lead 1] ++ e .lead 0 :: [e .point 0] := by
  refine ⟨rfl, by decide, ⟨_, rfl⟩, ?_⟩
  decide

/-- Where the worked path names an input. -/
def named (s : State) (z : Nat) : Option Nat := s.trav.path.findIdx? fun (p : PathPoint) => decide (p.zone = some z)

/-- The records awaiting point 1 in its window. -/
def awaits (s : State) : List CabinRecord :=
  s.trn.train.filter fun r =>
    decide (r.confirmation = some 1 ∧ (600 : Int) - 40 ≤ r.distance s.trav.counter ∧ r.distance s.trav.counter ≤ 600 + 40)

def at_ (count : BitVec 24) (s : State) : State := s.modTrav fun t => { t with counter := count, highWater := count }

theorem test_witness_ZoneEdgesEnterAndConfirm :
    let s := lined .running written
    let masked := s.modTrav fun t => { t with zoneMask := t.zoneMask.setIfInBounds 1 true }
    s.phase = .live ∧ written.perm.line = .setup ∧ named s 15 = none ∧ named s 0 = some 0 ∧ s.trn.train.length < 32 ∧
    (carrying ((List.range 32).map fun i => record (BitVec.ofNat 16 i)) s).trn.train.length = 32 ∧
    (named s 1 = some 1 ∧ masked.trav.zoneMask.getD 1 false = true ∧ s.trav.zoneMask.getD 1 false = false) ∧
    awaits (at_ 559 (carrying [record 0] s)) = [] ∧ awaits (at_ 560 (carrying [record 0] s)) = [record 0] ∧
      awaits (at_ 640 (carrying [record 0] s)) = [record 0] ∧ awaits (at_ 641 (carrying [record 0] s)) = [] := by
  decide +kernel

theorem test_witness_ScheduleEntriesFireByTheirKind :
    let s := carrying [record 0] written
    s.trav.path[1]? = some (point .openAt 600 150 (some 3) (some 1)) ∧ s.record 0 = some (record 0) ∧
      (record 0).confirmation = some 1 ∧ (record 0).confirmation ≠ some 2 := by decide +kernel

def fitRecord : CabinRecord := { record 0 with closure := .shut, grip := .pass }

def switched (wanted : SwitchPos) (divc0 divc1 : Bool) : State :=
  ((carrying [record 0] (lined .running written)).modGsw fun g => { g with claims := [{ entry := 0, wanted := wanted }] }).setPins
    { lowLevels with divc0 := divc0, divc1 := divc1 }

theorem test_witness_RecordsLeaveAtDivertAndDepart :
    ((carrying [fitRecord] written).record 0 = some fitRecord ∧
      (fitRecord.grip = .pass ∧ fitRecord.divert = none ∧ fitRecord.closure = .shut)) ∧
    ((carrying [record 0] written).record 0 = some (record 0) ∧ (record 0).grip ≠ .pass) ∧
    (written.trn.crowding = .calm ∧ (written.modTrn fun t => { t with crowding := .raised }).trn.crowding = .raised) ∧
    ∀ wanted ∈ [SwitchPos.main, .garage], ∀ divc0 ∈ [true, false], ∀ divc1 ∈ [true, false],
      (switched wanted divc0 divc1).record 0 = some (record 0) ∧
        (switched wanted divc0 divc1).gsw.claims.find? (fun c => decide (c.entry = 0)) =
          some { entry := 0, wanted := wanted } ∧
        (switched wanted divc0 divc1).pins.divc0 = divc0 ∧ (switched wanted divc0 divc1).pins.divc1 = divc1 := by
  decide +kernel

/-! ### Witnesses: drive, switch, telephone -/

theorem test_witness_DriveAndPermTimersAreSupervised :
    let s := (lined .stopping written).modPerm fun p => { p with stopTimer := some 40000, silenceTimer := some 5000 }
    s.phase = .live ∧ s.perm.line = .stopping ∧ s.perm.stopTimer ≠ none ∧ s.perm.silenceTimer ≠ none ∧
      written.phase = .live ∧ written.perm.stopTimer = none ∧ written.perm.silenceTimer = none := by decide +kernel

theorem test_witness_SwitchConfirmationClearsFaults :
    let s := switched .main false false
    let main := s.setPins { s.pins with divc0 := true, divc1 := false }
    let garage := s.setPins { s.pins with divc0 := false, divc1 := true }
    s.phase = .live ∧ (main.divc ≠ s.divc ∧ s.gsw.commanded = .main ∧ main.divc = .main) ∧
      (garage.divc ≠ s.divc ∧ ¬((s.gsw.commanded = .main ∧ garage.divc = .main) ∨
        (s.gsw.commanded = .garage ∧ garage.divc = .garage))) := by decide +kernel

def calling (c : CallState) (s : State) : State := s.modSmt fun m => { m with call := c }

theorem test_witness_CallMachineTakesItsEvents :
    (written.phase = .live ∧ written.perm.line = .setup ∧ written.smt.ringTimer = none ∧ written.smt.autoClaims = 0) ∧
    (∀ c ∈ [CallState.idle, .outgoing, .incoming, .connected, .clearing],
      (calling c (lined .held written)).phase = .live ∧ (calling c (lined .held written)).perm.line ≠ .setup ∧
        (calling c (lined .held written)).smt.call = c) ∧
    (written.modSmt fun m => { m with ringTimer := some 30000 }).smt.ringTimer ≠ none ∧
      0 < (written.modSmt fun m => { m with autoClaims := 1 }).smt.autoClaims := by decide +kernel

def listening (up down : Nat) (p : Playback) : State :=
  (calling .connected (lined .held written)).modSmt fun m =>
    { m with
      uplink := List.replicate up 0
      downlink := List.replicate down { sample := 1, concealed := true }
      playback := p }

theorem test_witness_VoiceFlowsInConnectedAlone :
    written.smt.call ≠ .connected ∧ (listening 255 0 .waiting).smt.call = .connected ∧ (listening 255 0 .waiting).phase = .live ∧
      (listening 255 0 .waiting).smt.uplink.length < 256 ∧ 256 ≤ (listening 256 0 .waiting).smt.uplink.length ∧
      (listening 0 159 .waiting).smt.downlink.length < 160 ∧ (listening 0 0 .playing).smt.downlink = [] ∧
      160 ≤ (listening 0 160 .waiting).smt.downlink.length ∧
      (listening 0 1 .playing).smt.downlink = { sample := 1, concealed := true } :: [] ∧
      (listening 0 1 .playing).smt.playback = .playing := by decide +kernel

/-- Putting the lifted handset down in CONNECTED silences VSO in that event (8.8). -/
theorem test_leaving_connected_silences_vso :
    let s := (listening 3 2 .playing).modSmt fun m => { m with hookMark := true, vso := 5 }
    (after .onHook s).smt.call = .clearing ∧ (after .onHook s).smt.vso = 128 := by decide +kernel

/-! ### Witnesses: tags -/

def waitingTag : PendingTag := { tag := 9, arrival := 1, timer := 400 }

theorem test_witness_TagReadsMatchOrWait :
    let s := lined .running written
    let pending := s.modTrn fun t => { t with slot := some waitingTag }
    (∀ u ∈ [written, s, pending, carrying [record 0] s],
      InTurn (turn 14 u) 14 .tagReader Kind.tagRead (frame 14 Kind.tagRead [76, 21381])) ∧
    InTurn (turn 14 s) 14 .tagReader Kind.tagRead (frame 14 Kind.tagRead [0, 0]) ∧ (0 : Word) ++ (0 : Word) = (0 : BitVec 32) ∧
    (76 : Word) ++ (21381 : Word) ≠ (0 : BitVec 32) ∧ (turn 14 written).perm.line = .setup ∧
    ((carrying [record 0] s).trn.train.find? fun r => decide (r.tagState = .awaited)) = some (record 0) ∧
    (s.trn.train.find? fun r => decide (r.tagState = .awaited)) = none ∧ s.trn.slot = none ∧
      pending.trn.slot = some waitingTag := by
  refine ⟨fun u hu => inTurn ?_, inTurn ?_, ?_⟩
  all_goals first | decide +kernel | skip
  revert u
  decide +kernel

/-- A train of one or two records, of distinct entries, is in order where nothing is scheduled. -/
theorem train_ok {s : State} (h : (decide (s.trn.train.map CabinRecord.entry).Nodup &&
    decide (s.trn.train.length ≤ 32) && s.trn.train.all (fun a => s.trn.train.all fun b =>
      decide (a.cabin = b.cabin → a.cabin ≠ 0 → a.entry = b.entry)) &&
    s.trav.schedule.all (fun e => decide (e.entry ∈ s.trn.train.map CabinRecord.entry))) = true) : TrainOk s := by
  simp only [Bool.and_eq_true, decide_eq_true_eq, List.all_eq_true] at h
  obtain ⟨⟨⟨h1, h2⟩, h3⟩, h4⟩ := h
  exact ⟨h1, h2, h3, h4⟩

/-- No entry of the worked directory holds a tag but 17, which holds 5002117. -/
theorem only_seventeen (n : Nat) (d : DirEntry) (h : nth1 written.trn.directory n = some d) :
    d.tag = none ∨ n = 17 ∧ d.tag = some 5002117 := by
  have all : (written.trn.directory.toList.zipIdx.all fun (d, i) =>
      decide (d.tag = none ∨ i = 16 ∧ d.tag = some 5002117)) = true := by decide +kernel
  unfold nth1 at h
  split at h
  · cases h
  · rename_i hn
    rw [List.all_eq_true] at all
    have hm : (d, n - 1) ∈ written.trn.directory.toList.zipIdx := by
      rw [List.mem_zipIdx_iff_getElem?]
      simpa using h
    have := all _ hm
    simp only [decide_eq_true_eq] at this
    rcases this with h1 | ⟨h1, h2⟩
    · exact Or.inl h1
    · exact Or.inr ⟨by omega, h2⟩

theorem test_witness_MatchingFindsTheCabin :
    let s := carrying [record 0] written
    let twice := carrying [{ record 1 with cabin := 17 }, record 0] written
    (s.phase = .live ∧ TrainOk s ∧ s.record 0 = some (record 0)) ∧
    (∀ n d, nth1 s.trn.directory n = some d → d.tag ≠ some 1) ∧
    ((∃ d, nth1 s.trn.directory 17 = some d ∧ d.tag = some 5002117) ∧
      ∀ m d', nth1 s.trn.directory m = some d' → d'.tag = some 5002117 → m = 17) ∧
    (TrainOk twice ∧ ∃ y ∈ twice.trn.train, y.entry ≠ (record 0).entry ∧ y.cabin.toNat = 17) ∧
    (¬∃ y ∈ s.trn.train, y.entry ≠ (record 0).entry ∧ y.cabin.toNat = 17) ∧
    ((record 0).tagState = .awaited ∧ (record 0).tagTimer ≠ none) ∧ { record 0 with tagState := .absent }.tagState ≠ .awaited ∧
    s.trn.slot = none ∧ (s.modTrn fun t => { t with slot := some waitingTag }).trn.slot = some waitingTag ∧
    (written.phase = .live ∧ written.trn.train = [] ∧ written.trn.slot = none ∧ written.record 0 = none) ∧
    (let held := (lined .running written).modTrn fun t => { t with slot := some waitingTag }
     held.phase = .live ∧ held.trn.train = [] ∧ held.trn.slot = some waitingTag) := by
  refine ⟨⟨rfl, train_ok (by decide +kernel), by decide +kernel⟩, fun n d h => ?_,
    ⟨⟨{ tag := some 5002117, retired := none, force := none }, by decide +kernel⟩, fun m d h ht => ?_⟩,
    ⟨train_ok (by decide +kernel), by decide +kernel⟩, by decide +kernel, by decide +kernel, by decide +kernel,
    by decide +kernel, by decide +kernel⟩
  · rcases only_seventeen n d h with h | ⟨_, h⟩ <;> rw [h]
    · exact nofun
    · decide
  · rcases only_seventeen m d h with h | ⟨h, _⟩
    · rw [h] at ht
      cases ht
    · exact h

/-! ### Witnesses: leads, transactions, grip results -/

def nodeIs (f : NodeRec → NodeRec) (s : State) : State := s.modNode 3 f

/-- The claims of a state whose one changed node is 3. -/
theorem dtx_ok {s : State} {x : NodeRec} (h : s.dtx.nodes = mod1 (Vector.replicate 29 NodeRec.ready) 3 fun _ => x)
    (ok : x.Ok) (once : x.claims.Nodup) (held : ∀ w ∈ x.waiting, w.entry ∈ s.trn.train.map CabinRecord.entry) : DtxOk s := by
  have cases : ∀ a n, s.node a = some n → n = NodeRec.ready ∨ a = 3 ∧ n = x := by
    intro a n hn
    unfold State.node at hn
    rw [h, nth1_mod1] at hn
    split at hn
    · rename_i ha
      obtain ⟨m, _, hm⟩ := Option.map_eq_some_iff.mp hn
      exact Or.inr ⟨ha, hm.symm⟩
    · exact Or.inl (Vector.mem_replicate.1 (nth1_mem hn)).2
  refine ⟨fun a n hn => ?_, fun a n hn => ?_, fun a b m n e hm hn em en => ?_, fun a n hn w hw => ?_⟩
  · rcases cases a n hn with rfl | ⟨_, rfl⟩
    · exact ⟨fun _ => rfl, fun _ => rfl⟩
    · exact ok
  · rcases cases a n hn with rfl | ⟨_, rfl⟩
    · exact List.nodup_nil
    · exact once
  · rcases cases a m hm with rfl | ⟨rfl, _⟩
    · cases em
    · rcases cases b n hn with rfl | ⟨rfl, _⟩
      · cases en
      · rfl
  · rcases cases a n hn with rfl | ⟨_, rfl⟩
    · cases hw
    · exact held w hw

/-- A wait entry of entry 0 at point 2. -/
def waitEntry : WaitEntry := { entry := 0, action := .toShut, point := 2, late := false }

theorem test_witness_LeadsReachTheirOwners :
    let s := carrying [record 0] (lined .running written)
    let busy := opened .acting s
    let queued := nodeIs (fun n => { n with waiting := [waitEntry] }) busy
    let faulted := nodeIs (fun n => { n with faulted := true }) s
    (∀ action ∈ [PathAction.openAt, .shutAt, .gripTest, .divert, .depart, .entry],
      ∃ p ∈ path, p.action = action ∧ (action = .openAt ∨ action = .shutAt → p.node.isSome = true)) ∧
    (TrainOk s ∧ DtxOk s ∧ DtxOk busy ∧ DtxOk queued) ∧ s.record 0 = some (record 0) ∧
      s.slc.urgent.length < 64 ∧ 64 ≤ (crammed s).slc.urgent.length ∧ s.gripAddress = some 12 ∧
      (nth1 s.slc.nodeTable 12 = some .gripUnit ∧ ∀ b < 12, nth1 s.slc.nodeTable b ≠ some .gripUnit) ∧
      (carrying [record 0] State.reset).gripAddress = none ∧
    (busy.txnAt 3).map (fun t => (t.entry, t.overtaken)) = some (7, false) ∧
    (queued.node 3).map NodeRec.waiting = some [waitEntry] ∧
    (∀ u ∈ [s, crammed s], (u.overtake 0).node 3 = some NodeRec.ready) ∧ 64 ≤ ((crammed s).overtake 0).slc.urgent.length ∧
    ((busy.overtake 0).node 3).map (fun n => (n.faulted, n.txn.isSome)) = some (false, true) ∧
    ((faulted.overtake 0).node 3).map NodeRec.faulted = some true := by
  refine ⟨by decide, ⟨train_ok ?_, dtx_ok (x := NodeRec.ready) ?_ ?_ ?_ ?_, dtx_ok rfl ?_ ?_ ?_, dtx_ok rfl ?_ ?_ ?_⟩, ?_⟩
  all_goals first | decide +kernel | skip
  all_goals exact ⟨by decide, by decide⟩

def setQ : QueuedCommand := { address := 3, command := .set 7 .toShut, txn := some 5 }
def goQ : QueuedCommand := { address := 3, command := .go 7, txn := some 5 }
def detailQ : QueuedCommand := { address := 3, command := .detail 7, txn := some 5 }
def cancelQ : QueuedCommand := { address := 3, command := .cancel 7, txn := some 5 }
def clearQ : QueuedCommand := { address := 3, command := .clear, txn := none }
def expectQ : QueuedCommand := { address := 12, command := .gripExpect 7 0, txn := none }

theorem test_witness_AnswersMoveTheirTransactions :
    (Answers (sent setQ (opened .setting written)) setQ Kind.setAccept (frame 3 Kind.setAccept [7]) ∧
      Answers (sent setQ (opened .setting written)) setQ Kind.setRefuse (frame 3 Kind.setRefuse [7, 0]) ∧
      Answers (sent setQ (opened .setting written)) setQ Kind.setRefuse (frame 3 Kind.setRefuse [7, 1]) ∧
      ((sent setQ (opened .setting written)).txnAt 3).map (fun t => (some t.id, t.state)) = some (setQ.txn, .setting)) ∧
    (Answers (sent setQ written) setQ Kind.setAccept (frame 3 Kind.setAccept [7]) ∧
      Answers (sent setQ written) setQ Kind.setRefuse (frame 3 Kind.setRefuse [7, 1]) ∧ (sent setQ written).txnAt 3 = none) ∧
    (Answers (sent goQ (opened .going written)) goQ Kind.goAccept (frame 3 Kind.goAccept [7]) ∧
      Answers (sent goQ (opened .going written)) goQ Kind.goRefuse (frame 3 Kind.goRefuse [7, 2]) ∧
      ((sent goQ (opened .going written)).txnAt 3).map (fun t => (some t.id, t.state)) = some (goQ.txn, .going)) ∧
    (Answers (sent goQ written) goQ Kind.goAccept (frame 3 Kind.goAccept [7]) ∧ (sent goQ written).txnAt 3 = none ∧
      Answers (sent goQ written) goQ Kind.goRefuse (frame 3 Kind.goRefuse [7, 2])) ∧
    (Answers (sent detailQ (opened .detailing written)) detailQ Kind.detailAnswer (frame 3 Kind.detailAnswer [7, 1, 2]) ∧
      ((sent detailQ (opened .detailing written)).txnAt 3).map (fun t => (some t.id, t.state)) =
        some (detailQ.txn, .detailing)) ∧
    (Answers (sent detailQ written) detailQ Kind.detailAnswer (frame 3 Kind.detailAnswer [7, 1, 2]) ∧
      (sent detailQ written).txnAt 3 = none) ∧
    Answers (sent cancelQ written) cancelQ Kind.cancelAccept (frame 3 Kind.cancelAccept [7]) ∧
    Answers (sent clearQ written) clearQ Kind.clearAccept (frame 3 Kind.clearAccept []) ∧
    Answers (sent expectQ written) expectQ Kind.expectAccept (frame 12 Kind.expectAccept [7]) ∧
    Answers (sent setQ written) setQ Kind.goAccept (frame 3 Kind.goAccept [7]) ∧
    (¬(Kind.goAccept = Kind.setAccept ∧ [(7 : Word)] = [7]) ∧ ¬(Kind.goAccept = Kind.cancelAccept ∧ [(7 : Word)] = [7]) ∧
      ¬(Kind.goAccept = Kind.clearAccept ∧ [(7 : Word)] = [])) ∧
    ([(setQ, TxnState.setting), (goQ, .going), (detailQ, .detailing)].all fun (q, st) =>
      decide (((opened st written).txnAt q.address).map (fun t => (some t.id, t.state)) = some (q.txn, st)) &&
        decide (written.txnAt q.address = none)) = true ∧
    (∀ mark ∈ [true, false], ((nodeIs (fun n => { n with changeMark := mark }) written).node 3).map NodeRec.changeMark = some mark) := by
  refine ⟨⟨answers ?_, answers ?_, answers ?_, ?_⟩, ⟨answers ?_, answers ?_, ?_⟩, ⟨answers ?_, answers ?_, ?_⟩,
    ⟨answers ?_, ?_, answers ?_⟩, ⟨answers ?_, ?_⟩, ⟨answers ?_, ?_⟩, answers ?_, answers ?_, answers ?_, answers ?_, ?_⟩ <;>
    decide +kernel

theorem test_witness_ClosureEndsByDoneOrActTimer :
    let s := opened .acting written
    (∀ ws ∈ ([[7, 0], [7, 1, 8, 9], [8, 0], [7, 2]] : List (List Word)),
      InTurn (turn 3 s) 3 .closureDrive Kind.closureDone (frame 3 Kind.closureDone ws)) ∧
    ((turn 3 s).txnAt 3).map (fun t => (t.entry, t.state, t.actTimer)) = some (7, .acting, some 4000) ∧
    (turn 3 s).slc.urgent.length < 64 ∧
    (InTurn (turn 3 written) 3 .closureDrive Kind.closureDone (frame 3 Kind.closureDone [7, 0]) ∧
      (turn 3 written).txnAt 3 = none) ∧
    InTurn (turn 3 (opened .primed written)) 3 .closureDrive Kind.closureDone (frame 3 Kind.closureDone [7, 0]) ∧
    ((opened .primed written).txnAt 3).map OpenTxn.state = some .primed ∧
    (InTurn (turn 3 (crammed s)) 3 .closureDrive Kind.closureDone (frame 3 Kind.closureDone [7, 1, 8, 9]) ∧
      64 ≤ (turn 3 (crammed s)).slc.urgent.length) ∧
    (∀ st ∈ [TxnState.primed, .setting, .acting], ((opened st written).txnAt 3).map
      (fun t => (t.entry, t.point, t.state, t.overtaken)) = some (7, 2, st, false)) ∧
    (written.node 3).isSome = true ∧
    ((nodeIs (fun n => { n with waiting := [waitEntry] }) s).node 3).map NodeRec.waiting = some [waitEntry] ∧
    ((nodeIs (fun n => { n with faulted := true }) written).node 3).map NodeRec.faulted = some true := by
  refine ⟨fun ws hw => inTurn ?_, ?_, ?_, ⟨inTurn ?_, ?_⟩, inTurn ?_, ?_, ⟨inTurn ?_, ?_⟩, ?_⟩
  all_goals first | decide +kernel | skip
  revert ws
  decide +kernel

theorem test_witness_GripResultIsJudged :
    let s := (carrying [record 7] (lined .running written)).modGsw fun g => { g with expectations := [7] }
    TrainOk (turn 12 s) ∧
    (∀ ws ∈ ([[7, 9000], [7, 20000], [7, 8999], [7, 20001], [8, 9000]] : List (List Word)),
      InTurn (turn 12 s) 12 .gripUnit Kind.gripResult (frame 12 Kind.gripResult ws)) ∧
    (turn 12 s).site = site ∧ 7 ∈ (turn 12 s).gsw.expectations ∧ (turn 12 s).record 7 = some (record 7) ∧
      8 ∉ (turn 12 s).gsw.expectations := by
  refine ⟨train_ok ?_, fun ws hw => inTurn ?_, ?_⟩
  all_goals first | decide +kernel | skip
  revert ws
  decide +kernel

/-! ### Witnesses: the station line -/

theorem test_witness_FramesNobodyTakesAreRefused :
    let ok := frame 3 48 [7, 0]
    ({ ok with check := 0 }.whole 48 = false ∧ { ok with header := 1 }.destination ≠ 0 ∧ written.phase = .live) ∧
    (∀ a ∈ [0, 31], (frame a 48 [7, 0]).whole 48 = true ∧ (frame a 48 [7, 0]).destination = 0 ∧
      (frame a 48 [7, 0]).sender = a) ∧
    (∀ a ∈ [1, 30], (frame a 48 [7, 0]).whole 48 = true ∧ (frame a 48 [7, 0]).sender = a) ∧
    written.slc.exchange = none ∧ (turn 4 written).slc.exchange.map Exchange.address = some 4 ∧
    InTurn (turn 3 written) 3 .closureDrive Kind.decline (frame 3 Kind.decline []) ∧
    InTurn (turn 5 written) 5 .noKind 48 (frame 5 48 [7, 0]) ∧
    InTurn (turn 3 written) 3 .closureDrive Kind.tagRead (frame 3 Kind.tagRead [1, 1]) ∧
    InTurn (turn 30 written) 30 .console 98 (frame 30 98 []) ∧
    ((frame 3 48 [7]).whole 48 = true ∧ (frame 3 48 [7]).destination = 0 ∧ (frame 3 48 [7]).sender = 3) ∧
    ((turn 3 written).slc.exchange = some { kind := .turn, address := 3, phase := .awaiting, frame := [] } ∧
      (sent setQ written).slc.exchange =
        some { kind := .command setQ false, address := 3, phase := .awaiting, frame := [] }) ∧
    ([(Kind.decline, 1), (Kind.clearAccept, 1), (Kind.setAccept, 2), (Kind.goAccept, 0), (Kind.cancelAccept, 2),
      (Kind.expectAccept, 0), (Kind.setRefuse, 1), (Kind.goRefuse, 3), (Kind.gripResult, 1), (Kind.tagRead, 3),
      (Kind.detailAnswer, 2), (Kind.closureDone, 1), (Kind.closureDone, 3), (80, 14), (97, 14)].all
        fun (k, n) => !lengthAllowed k (List.replicate n 0)) = true ∧
    lengthAllowed Kind.closureDone [7, 1] = false ∧ lengthAllowed Kind.closureDone [7, 0, 0, 0] = false := by
  refine ⟨?_, ?_, ?_, ?_, ?_, inTurn ?_, inTurn ?_, inTurn ?_, inTurn ?_, ?_⟩ <;> decide +kernel

def ready (f : Slc → Slc) : State := written.modSlc fun c => f { c with clearPending := false }

def due : State := ready fun c => { c with service := mod1 (mod1 c.service 3 fun _ => true) 30 fun _ => true }

theorem test_witness_ArbiterTakesTheFirstReadyUse :
    (turn 3 written).slc.exchange ≠ none ∧ written.slc.exchange = none ∧ written.slc.clearPending = true ∧
    (ready fun c => { c with urgent := [clearQ] }).slc.urgent = clearQ :: [] ∧
    (ready fun c => { c with pollDue := true }).slc.pollDue = true ∧
    (due.slc.pollDue = false ∧ due.slc.urgent = [] ∧ nth1 due.slc.service 3 = some true ∧
      nth1 due.slc.service 30 = some true ∧ due.slc.turnPointer = none ∧ due.mgt.response = none) ∧
    (∀ k, ¬(1 ≤ k ∧ k ≤ 30 ∧ nth1 (ready id).slc.service k = some true ∧ (k = 30 → (ready id).mgt.response = none))) ∧
    (ready id).mgt.response = none ∧ (ready id).mgt.reports ≠ [] := by
  refine ⟨by decide +kernel, by decide +kernel, by decide +kernel, by decide +kernel, by decide +kernel, by decide +kernel,
    fun k h => ?_, by decide +kernel, by decide +kernel⟩
  obtain ⟨h1, h2, h3, _⟩ := h
  revert h3
  interval_cases k <;> decide

theorem test_witness_ExchangesEndByTheirOwnEvents :
    (∀ k ∈ [ExchangeKind.command clearQ false, .command clearQ true, .poll 1, .turn, .report, .broadcastClear],
      (written.begin k 3 []).slc.exchange = some { kind := k, address := 3, phase := .sending, frame := [] }) ∧
    (∀ k ∈ [ExchangeKind.command clearQ false, .command clearQ true, .turn],
      (awaiting k 3 written).slc.exchange = some { kind := k, address := 3, phase := .awaiting, frame := [] }) ∧
    written.phase = .live ∧ written.slc.exchange = none ∧ written.slc.pollTimer = none ∧
    (ready fun c => { c with pollTimer := some 10 }).slc.pollTimer ≠ none := by decide +kernel

theorem test_witness_PollSlotsFillTheServiceSet :
    (∀ k ∈ [1, 3, 30], (awaiting (.poll k) 31 written).slc.exchange =
        some { kind := .poll k, address := 31, phase := .awaiting, frame := [] } ∧
      (nth1 written.slc.nodeTable k).isSome ∧ (nth1 written.slc.answers k).isSome) ∧
    nth1 written.slc.nodeTable 1 = some .noKind ∧ nth1 written.slc.nodeTable 3 = some .closureDrive ∧
    (∀ retry ∈ [true, false],
      (((opened .setting written).modTxn 3 fun t => { t with retry := retry }).txnAt 3).map OpenTxn.retry = some retry) ∧
    (written.slc.urgent.length < 64 ∧ 64 ≤ (crammed written).slc.urgent.length) ∧
    (3 : Word).toNat % 32 = 3 ∧ (∃ w : Word, SlotHeard.heard true false 3 = .heard true false w ∧ w.toNat % 32 = 3) ∧
    ¬∃ w : Word, SlotHeard.heard true true 3 = .heard true false w ∧ w.toNat % 32 = 3 := by
  refine ⟨by decide +kernel, by decide +kernel, by decide +kernel, by decide +kernel, by decide +kernel, by decide,
    ⟨3, rfl, by decide⟩, ?_⟩
  rintro ⟨w, h, _⟩
  cases h

def reported (n : Nat) (r : Report) : State :=
  written.modMgt fun m => { m with reports := List.replicate n { report := r, time := 0 } }

theorem test_witness_ReportsJoinByTheirClass :
    (reported 63 (.strayNode 1)).mgt.reports.length < 64 ∧ 64 ≤ (reported 64 (.strayNode 1)).mgt.reports.length ∧
    (Report.strayNode 1).cls = .info ∧ (Report.resetDone .pin).cls = .alarm ∧
    (reported 64 (.strayNode 1)).mgt.reports =
      [] ++ { report := .strayNode 1, time := 0 } :: (reported 63 (.strayNode 1)).mgt.reports ∧
    ∀ y ∈ (reported 64 (.resetDone .pin)).mgt.reports, y.report.cls = .alarm := by decide +kernel

/-! ### Witnesses: the tower line -/

def sweeping (s : State) : State :=
  s.modSwp fun w =>
    { w with intervalTimer := some 10, deadlineTimer := some 8, outstanding := some { number := 4, sendTime := 0 } }

theorem test_witness_IntervalExpirySendsASweep :
    written.phase = .live ∧ written.swp.intervalTimer = none ∧ (sweeping written).swp.intervalTimer ≠ none := by
  decide +kernel

/-- A returned frame of one tower with empty slots and its check. -/
def returnRun (n : Word) : List Word :=
  let run := [n, 1] ++ List.replicate 62 0
  run ++ [checkWord run]

theorem test_witness_SweepsEndByReturnOrDeadline :
    (sumWords (returnRun 4) = 65535 ∧ (1 : Word).toNat % 32 = site.towerCount ∧ (returnRun 4).length = 3 + 0 + 19 * 1 + 42 + 1) ∧
    sumWords [4, 1] ≠ 65535 ∧ ([] : List Word).length < 2 ∧
    (sweeping written).swp.outstanding.map Outstanding.number = some 4 ∧
    (sweeping written).swp.outstanding.map Outstanding.number ≠ some 5 ∧ (sweeping written).swp.deadlineTimer ≠ none ∧
    (sweeping written).swp.outstanding ≠ none ∧ written.swp.outstanding = none := by decide +kernel

/-- A tower slot whose check is made good. -/
def slot (w : Word) (readings : List Word) : List Word :=
  let run := w :: (readings ++ List.replicate (17 - readings.length) 0)
  run ++ [checkWord run]

theorem test_witness_TowerSlotsAreJudged :
    written.towerAt 1 = some tower ∧ nth1 written.rsu.runtime 1 = some TowerRuntime.fresh ∧
    (slot 33281 [0, 2000, 0, 2000]).length = 19 ∧
    ((33281 : Word).getLsbD 15 = true ∧ sumWords (slot 33281 [0, 2000, 0, 2000]) = 65535 ∧ (33281 : Word).toNat % 32 = 1) ∧
    (33281 : Word).toNat / 256 % 16 = tower.assemblies ∧
    (sumWords (slot 33537 []) = 65535 ∧ (33537 : Word).toNat / 256 % 16 ≠ tower.assemblies) ∧
    ¬((513 : Word).getLsbD 15 = true) := by decide +kernel

theorem test_witness_SummitSlotsHoldTheirCodes :
    let run : List Word := 32769 :: List.replicate 40 0
    (((run ++ [checkWord run]).headD 0).getLsbD 15 = true ∧ sumWords (run ++ [checkWord run]) = 65535 ∧
      (parseSummit (run ++ [checkWord run])).isSome ∧ parseSummit [32772] = none) ∧
    (written.smt.held.code < SafetyCode.slow.code ∧ SafetyCode.clear = written.smt.held) ∧
    (SafetyCode.clear.code < (written.modSmt fun m => { m with held := .slow }).smt.held.code) ∧
    (written.modSmt fun m => { m with releaseRun := some (.clear, 65535) }).smt.releaseRun = some (.clear, 0 - 1) ∧
    written.smt.releaseRun ≠ some (.clear, 0 - 1) ∧ CallCode.nothing = written.smt.heldCall ∧
    CallCode.call ≠ written.smt.heldCall ∧
    (written.modSmt fun m => { m with callRun := some (.call, 65535) }).smt.callRun = some (.call, 0 - 1) ∧
    written.smt.callRun ≠ some (.call, 0 - 1) ∧
    (written.smt.missCount + 1 < written.site.summitMissLimit ∧
      (written.modSmt fun m => { m with missCount := 3 }).smt.missCount + 1 = written.site.summitMissLimit ∧
      written.site.summitMissLimit ≤ (written.modSmt fun m => { m with missCount := 4 }).smt.missCount) ∧
    (∀ c ∈ [CallState.idle, .outgoing, .incoming, .connected, .clearing], (calling c written).smt.call = c) := by decide +kernel

/-- A slot with no voice field whose own ANSWER connects the call conceals nothing; the next one does (R137). -/
theorem test_connecting_slot_conceals_nothing :
    let slotOf (w : Word) : List Word := (w :: List.replicate 40 0) ++ [checkWord (w :: List.replicate 40 0)]
    let s := (calling .outgoing (lined .held written)).modSmt fun m => { m with callRun := some (.answer, 4) }
    let t := s.takeSummitSlot 5 (slotOf (32768 + 16 * word CallCode.answer.code))
    let u := t.takeSummitSlot 6 (slotOf (32768 + 16 * word CallCode.answer.code))
    t.smt.call = .connected ∧ t.smt.downlink = [] ∧ u.smt.downlink.length = 80 := by decide +kernel

end Sys2Proof.Tests
end

section
/-! What every command leaves in order, the drive lines that follow from it, and the two reads by position. -/

namespace Sys2Proof.Machine

open Host

/-! ### What every command leaves in order -/

theorem live_keep {f : State → State} (h : ∀ s, Keep s (f s)) {s t : State} (e : live f s = .next t) : Resets s t :=
  live_resets (fun s hp => (h s).sound.resets hp) e

theorem live_receive {kind : Byte} {f : RxFrame} {s t : State} (e : live (fun s => s.receive kind f) s = .next t) :
    Resets s t :=
  live_resets (fun s hp => (s.receive_sound kind f).resets hp) e

theorem execFullReset_resets {source : ResetSource} {s t : State} (e : execFullReset source s = .next t) :
    Resets s t := by
  unfold execFullReset at e
  split at e <;> cases e
  · exact ⟨rfl, id⟩
  · exact s.beginFullReset_resets _

theorem execFullResetEnd_resets {levels : InputLevels} {s t : State} (e : execFullResetEnd levels s = .next t) :
    Resets s t := by
  unfold execFullResetEnd at e
  split at e <;> cases e
  · exact s.endReset_resets _ levels
  all_goals exact ⟨rfl, id⟩

theorem execCommandResetEnd_resets {levels : InputLevels} {s t : State}
    (e : execCommandResetEnd levels s = .next t) : Resets s t := by
  unfold execCommandResetEnd at e
  split at e <;> cases e
  · exact s.endReset_resets _ levels
  all_goals exact ⟨rfl, id⟩

/-- Every command leaves the queue and keeps the 640 in order. The commands that are frames come last: one lemma, of a
frame of any kind received, serves them all. -/
theorem exec_resets {c : Instr} {s t : State} (e : exec c s = .next t) : Resets s t := by
  cases c
  case forwardStep => exact live_keep State.stepForward_keep e
  case reverseStep => exact live_keep State.stepReverse_keep e
  case encoderSkip => exact live_keep State.skipStep_keep e
  case zoneEdge input => exact live_keep (State.zoneRise_keep · input) e
  case dmovRise => exact live_keep State.dmovRises_keep e
  case dmovFall => exact live_keep State.dmovFalls_keep e
  case divcChange divc0 divc1 => exact live_keep (State.divcChanged_keep · divc0 divc1) e
  case offHook => exact live_keep (State.hookEdge_keep · true) e
  case onHook => exact live_keep (State.hookEdge_keep · false) e
  case vsiSample sample => exact live_keep (State.sampleIn_keep · sample) e
  case vsoSampleTime => exact live_keep State.sampleOut_keep e
  case fullReset => exact execFullReset_resets e
  case fullResetEnd => exact execFullResetEnd_resets e
  case commandResetEnd => exact execCommandResetEnd_resets e
  case stopTimerExpiry => exact live_keep State.stopExpired_keep e
  case consoleSilenceExpiry => exact live_keep State.silenceExpired_keep e
  case tagTimerExpiry entry => exact live_keep (State.tagExpired_keep · entry) e
  case pendingSlotExpiry => exact live_keep State.slotExpired_keep e
  case actTimerExpiry address => exact live_keep (State.actExpiry_keep · address) e
  case ringTimerExpiry => exact live_keep State.ringExpired_keep e
  case pollTimerExpiry => exact live_keep State.pollExpired_keep e
  case intervalExpiry => exact live_resets (fun s hp => s.intervalExpired_sound.resets hp) e
  case returnDeadlineExpiry => exact live_keep State.deadlineExpired_keep e
  case sweepReturn words => exact live_resets (fun s hp => (s.returned_sound words).resets hp) e
  case automaticCallClaim => exact live_keep State.takeAutoClaim_keep e
  case arbiterChoice => exact live_keep State.arbiter_keep e
  case responseSent => exact live_resets State.responseIsSent_resets e
  case broadcastClearSent => exact live_keep State.clearIsSent_keep e
  case reportFrameSent => exact live_keep State.reportIsSent_keep e
  case answerWindowClose => exact live_keep State.answerWindowCloses_keep e
  case turnWindowClose => exact live_keep State.turnWindowCloses_keep e
  case pollSlotClose answer => exact live_keep (State.pollSlotCloses_keep · answer) e
  case answerWindowOpens => exact live_keep State.windowOpens_keep e
  all_goals exact live_receive e

/-! ### The drive lines and the calm states (R2, R3, R7, R10) -/

theorem Response.stops_eq_false_iff (r : Response) : r.stops = false ↔ r = .info ∨ r = .slow := by
  cases r <;> simp [Response.stops]

theorem Perm.stopping_eq_false_iff (p : Perm) :
    p.stopping = false ↔ ∀ e ∈ p.causes, e.response = .info ∨ e.response = .slow := by
  simp only [Perm.stopping, List.any_eq_false, Bool.not_eq_true, Response.stops_eq_false_iff]

theorem PermOk.linesOk {p : Perm} (h : PermOk p) : p.LinesOk := p.linesOk_iff.1 h.lines

/-- Settles O10: every command keeps the order of PERM, in which the drive lines are those that line state and cause set
give, and no stopping entry stands in RUNNING or QUIET. -/
theorem driveLinesFollowLineAndCauses : Obligations.DriveLinesFollowLineAndCauses := by
  intro c s t hs e
  have perm : PermOk t.perm := ((exec_resets e).inv hs).perm
  obtain ⟨runp, slowq, estop⟩ := perm.linesOk
  exact ⟨runp, slowq, estop, fun hl => t.perm.stopping_eq_false_iff.1 (perm.calm hl)⟩

/-! ### Reads by position (R19, R58) -/

theorem State.done_respond (s : State) (f : RxFrame) (k : RequestKind) (ws : List Word) :
    (s.done ws).respond f.tag k = s.answered f k .done ws := rfl

theorem State.refuse_respond (s : State) (f : RxFrame) (k : RequestKind) (r : ResultCode) (ws : List Word) :
    (s.refuse r ws).respond f.tag k = s.answered f k r ws := rfl

theorem exec_recordRead {s : State} {f : RxFrame} (h : Requested s .recordRead f) :
    exec (.recordRead f) s = .next (((s.taken 30).reqRecordRead f.payload).respond f.tag .recordRead) :=
  live_requested h

theorem exec_causesRead {s : State} {f : RxFrame} (h : Requested s .causesRead f) :
    exec (.causesRead f) s = .next (((s.taken 30).reqCausesRead f.payload).respond f.tag .causesRead) :=
  live_requested h

theorem State.reqRecordRead_within (s : State) {position : Word} (h : position.toNat ≤ 31) :
    s.reqRecordRead [position] = s.done (s.recordWords position.toNat) := if_pos h

theorem State.reqRecordRead_beyond (s : State) {position : Word} (h : 31 < position.toNat) :
    s.reqRecordRead [position] = s.refuse .refusedRange := if_neg (Nat.not_le.2 h)

theorem State.reqCausesRead_within (s : State) {start : Word} (h : start.toNat ≤ 47) :
    s.reqCausesRead [start] = s.done (s.causeWords start.toNat) := if_pos h

theorem State.reqCausesRead_beyond (s : State) {start : Word} (h : 47 < start.toNat) :
    s.reqCausesRead [start] = s.refuse .refusedRange := if_neg (Nat.not_le.2 h)

/-- At or beyond the number of records held the read gives the count alone. -/
theorem State.recordWords_beyond {s : State} {k : Nat} (h : s.trn.train.length ≤ k) :
    s.recordWords k = [word s.trn.train.length] := by
  unfold State.recordWords
  rw [List.getElem?_eq_none h]

theorem State.recordWords_held {s : State} {k : Nat} {r : CabinRecord} (h : s.trn.train[k]? = some r) :
    s.recordWords k = word s.trn.train.length :: r.words s.trav.counter := by
  unfold State.recordWords
  rw [h]

/-- What a frame leaves before its owner holds the same records as the frame found. -/
theorem State.taken_recordWords (s : State) (a k : Nat) : (s.taken a).recordWords k = s.recordWords k := by
  unfold State.recordWords
  rw [State.taken_trn, State.taken_trav]

/-- Settles O23: each read is answered by its range test, and what it gives is the list of words its owner reads off the
train or the cause set; the frame that asks leaves the train as it was. -/
theorem recordAndCauseReadsGoByPosition : Obligations.RecordAndCauseReadsGoByPosition := by
  intro s f position hf
  refine ⟨fun h => ?_, fun h => ?_⟩
  · rw [exec_recordRead h, hf]
    refine ⟨fun beyond => ?_, fun within past => ?_, fun r within held => ?_⟩
    · rw [State.reqRecordRead_beyond _ beyond, State.refuse_respond]
    · rw [State.reqRecordRead_within _ within, State.done_respond, State.taken_recordWords,
        State.recordWords_beyond past]
    · rw [State.reqRecordRead_within _ within, State.done_respond, State.taken_recordWords,
        State.recordWords_held held]
      rfl
  · rw [exec_causesRead h, hf]
    refine ⟨fun within => ?_, fun beyond => ?_⟩
    · rw [State.reqCausesRead_within _ within, State.done_respond]
      rfl
    · rw [State.reqCausesRead_beyond _ beyond, State.refuse_respond]

end Sys2Proof.Machine
end

section
/-! The encoder: what a forward step, a reverse step and a step of both channels make of travel. -/

namespace Sys2Proof.Machine

open Host

/-! ### Quadrature (R23) -/

theorem quadratureStep_forward (p : InputLevels) :
    quadratureStep p true = if p.cea = p.ceb then { p with cea := !p.cea } else { p with ceb := !p.ceb } := by
  simp only [quadratureStep, beq_true, beq_iff_eq]

theorem quadratureStep_reverse (p : InputLevels) :
    quadratureStep p false = if p.cea = p.ceb then { p with ceb := !p.ceb } else { p with cea := !p.cea } := by
  unfold quadratureStep
  by_cases h : p.cea = p.ceb <;> simp [h]

/-! ### The shortfall (R24, R25) -/

@[simp] theorem atOrAhead_iff (a b : BitVec 24) : atOrAhead a b = true ↔ (a - b).toNat < 8388608 :=
  decide_eq_true_iff

theorem atOrAhead_self (a : BitVec 24) : atOrAhead a a = true := by simp

theorem Trav.shortfall_of_ahead {t : Trav} (h : atOrAhead t.counter t.highWater = true) : t.shortfall = 0 := if_pos h

theorem Trav.shortfall_of_behind {t : Trav} (h : ¬atOrAhead t.counter t.highWater = true) :
    t.shortfall = (t.highWater - t.counter).toNat := if_neg h

/-- A counter that is not at or ahead of the high-water count differs from it, so it falls short by some count. -/
theorem Trav.shortfall_eq_zero_iff (t : Trav) : t.shortfall = 0 ↔ atOrAhead t.counter t.highWater = true := by
  refine ⟨fun zero => ?_, Trav.shortfall_of_ahead⟩
  by_contra behind
  rw [Trav.shortfall_of_behind behind] at zero
  have same : t.highWater = t.counter := by bv_omega
  exact behind (same ▸ atOrAhead_self _)

theorem Trav.lt_shortfall_iff (t : Trav) (n : Nat) :
    n < t.shortfall ↔ ¬atOrAhead t.counter t.highWater = true ∧ n < (t.highWater - t.counter).toNat := by
  by_cases h : atOrAhead t.counter t.highWater = true
  · simp [Trav.shortfall_of_ahead h, h]
  · rw [Trav.shortfall_of_behind h, and_iff_right h]

/-- A forward step that reaches the high-water count takes it along, and so leaves no shortfall; any other leaves the
high-water count, and the counter behind it. -/
theorem Trav.forward_shortfall_eq_zero_iff (t : Trav) :
    t.forward.shortfall = 0 ↔ atOrAhead (t.counter + 1) t.highWater = true := by
  rw [Trav.shortfall_eq_zero_iff, Trav.forward]
  by_cases h : atOrAhead (t.counter + 1) t.highWater = true
  · simp only [if_pos h, iff_true_right h, atOrAhead_self]
  · simp only [if_neg h]

/-! ### The steps (R23, R24, R25, R31) -/

@[simp] theorem State.regain_line (s : State) : s.regain.perm.line = s.perm.line := by
  unfold State.regain
  split <;> simp

theorem exec_forwardStep {s : State} (h : s.phase = .live) : exec .forwardStep s = .next s.stepForward := live_of h

theorem exec_reverseStep {s : State} (h : s.phase = .live) : exec .reverseStep s = .next s.stepReverse := live_of h

theorem exec_encoderSkip {s : State} (h : s.phase = .live) : exec .encoderSkip s = .next s.skipStep := live_of h

/-- The count of a forward step, written with the counter it finds. -/
theorem State.modTrav_forward (s : State) :
    s.modTrav Trav.forward =
      s.modTrav fun t =>
        { t with
          counter := s.trav.counter + 1
          highWater :=
            if (s.trav.counter + 1 - t.highWater).toNat < 8388608 then s.trav.counter + 1 else t.highWater } := by
  simp only [State.modTrav, Trav.forward, atOrAhead_iff]

/-- After the count of a forward step, travel has regained the high-water count where the new counter is at or ahead of
the high-water count before the step. -/
theorem State.regain_forward (s : State) :
    (s.modTrav Trav.forward).regain =
      if s.trav.reverseFlag = true ∧ (s.trav.counter + 1 - s.trav.highWater).toNat < 8388608 then
        ((s.modTrav Trav.forward).clear .conveyorReverse .noSubject).modTrav fun t => { t with reverseFlag := false }
      else s.modTrav Trav.forward := by
  unfold State.regain
  simp only [State.modTrav_trav, Trav.forward_shortfall_eq_zero_iff, atOrAhead_iff]
  rfl

/-- Settles O36: the pins move by quadrature; the forward step is its count, the regaining of the high-water count and
the pass, the reverse step its count and the supervision by the shortfall. -/
theorem encoderStepsCountTravel : Obligations.EncoderStepsCountTravel := by
  intro s hp
  refine ⟨?forward, ?reverse, exec_encoderSkip hp⟩
  case forward =>
    rw [exec_forwardStep hp]
    simp only [State.stepForward, State.regain_line, State.modTrav_perm, State.setPins_perm]
    rw [State.regain_forward, State.modTrav_forward, quadratureStep_forward]
    rfl
  case reverse =>
    rw [exec_reverseStep hp]
    simp only [State.stepReverse, State.modTrav_perm, State.setPins_perm, State.modTrav_trav, State.setPins_trav,
      quadratureStep_reverse, Trav.lt_shortfall_iff, atOrAhead_iff, and_assoc]
    rfl

end Sys2Proof.Machine
end

section
/-! Chapter 5: the garage switch's return to order, and a grip result judged or found stray. -/

namespace Sys2Proof.Machine

open Host

/-! ### The switch confirms its position (R94) -/

theorem SwitchPos.shownBy_iff (p : SwitchPos) (d : DivcPos) :
    p.shownBy d = true ↔ p = .main ∧ d = .main ∨ p = .garage ∧ d = .garage := by
  cases p <;> cases d <;> simp [SwitchPos.shownBy]

theorem State.clearFaults_eq_foldl (l : List (BitVec 16)) :
    ∀ s : State, s.clearFaults l = l.foldl (fun v e => v.clear .divertFault (.cabin e)) s := by
  induction l with
  | nil => exact fun _ => rfl
  | cons e l ih => exact fun s => ih (s.clear .divertFault (.cabin e))

theorem exec_divcChange {s : State} (divc0 divc1 : Bool) (h : s.phase = .live) :
    exec (.divcChange divc0 divc1) s = .next (s.divcChanged divc0 divc1) :=
  live_of (f := fun s => s.divcChanged divc0 divc1) h

/-- Settles O42: DIVC shows the commanded position by the two cases of `SwitchPos.shownBy_iff`, and the clear claims
are a fold over the fault list. -/
theorem switchConfirmationClearsFaults : Obligations.SwitchConfirmationClearsFaults := by
  intro s divc0 divc1 hp u confirmed
  have shown : s.gsw.commanded.shownBy u.divc = true ↔ confirmed := SwitchPos.shownBy_iff _ _
  rw [exec_divcChange divc0 divc1 hp]
  refine ⟨fun moved returned => ?returned, fun other => ?other⟩
  case returned =>
    have changed : s.divcChanged divc0 divc1 = (u.clearFaults s.gsw.faults).modGsw fun g => { g with faults := [] } :=
      if_pos ⟨moved, shown.2 returned⟩
    rw [changed, State.clearFaults_eq_foldl]
  case other =>
    have unchanged : s.divcChanged divc0 divc1 = u := if_neg fun ⟨moved, shows⟩ =>
      other.elim moved fun no => no (shown.1 shows)
    rw [unchanged]

/-! ### Claims on the one record of an entry number (R43) -/

/-- No two records of a train in order carry one entry number. -/
theorem State.eq_of_record {s : State} {entry : BitVec 16} {r x : CabinRecord}
    (distinct : (s.trn.train.map CabinRecord.entry).Nodup) (held : s.record entry = some r) (hx : x ∈ s.trn.train)
    (named : x.entry = entry) : x = r := by
  obtain ⟨hr, he⟩ := State.record_mem held
  exact List.inj_on_of_nodup_map distinct hx hr (named.trans he.symm)

/-- Only what a claim makes of the record it names matters. -/
theorem State.claimRecord_congr {s : State} {entry : BitVec 16} {r : CabinRecord} {f g : CabinRecord → CabinRecord}
    (distinct : (s.trn.train.map CabinRecord.entry).Nodup) (held : s.record entry = some r) (same : f r = g r) :
    s.claimRecord entry f = s.claimRecord entry g := by
  have trains : (s.trn.train.map fun x => if x.entry = entry then f x else x) =
      s.trn.train.map fun x => if x.entry = entry then g x else x := by
    refine List.map_congr_left fun x hx => ?_
    by_cases named : x.entry = entry
    · rw [State.eq_of_record distinct held hx named, same]
    · rw [if_neg named, if_neg named]
  simp only [State.claimRecord, State.modTrn, trains]

theorem State.report_claimRecord (s : State) (p : Report) (entry : BitVec 16) (f : CabinRecord → CabinRecord) :
    (s.report p).claimRecord entry f = (s.claimRecord entry f).report p := rfl

/-! ### A result is judged (R53, R88, R89) -/

theorem State.taken_siteRecord (s : State) (a : Nat) : (s.taken a).site = s.site := by
  rw [State.site, State.taken_site, State.site]

theorem State.taken_record (s : State) (a : Nat) (entry : BitVec 16) : (s.taken a).record entry = s.record entry := by
  rw [State.record, State.taken_trn, State.record]

/-- What every verdict does: the expectation goes, the record takes verdict, force and divert flag, and the report is
made (R88). -/
def State.graded (s : State) (entry : BitVec 16) (cabin : BitVec 8) (force : Word) (v : GripResult)
    (divert : Option DivertReason) : State :=
  ((s.dropExpectation entry).claimRecord entry fun r =>
    { r with grip := v, gripForce := some force, divert := divert }).report (.gripResult entry v cabin force)

theorem State.verdict_pass {s : State} {force : Word}
    (passes : s.site.gripMin ≤ force.toNat ∧ force.toNat ≤ s.site.gripMax) : s.verdict force = .pass := if_pos passes

theorem State.verdict_fail {s : State} {force : Word}
    (fails : ¬(s.site.gripMin ≤ force.toNat ∧ force.toNat ≤ s.site.gripMax)) : s.verdict force = .fail := if_neg fails

section
variable {s : State} {entry force : Word} {r : CabinRecord}

/-- The verdict is claimed and reported with the cabin number of the record held, and a FAIL goes on to R89. -/
theorem State.judgeGrip_of_record (held : s.record entry = some r) :
    s.judgeGrip entry force =
      let v := s.verdict force
      let t := ((s.dropExpectation entry).claimRecord entry fun r =>
        { r with grip := v, gripForce := some force }).report (.gripResult entry v r.cabin force)
      if v = .fail then t.failGrip entry r.cabin force else t := by
  have claimed := State.record_claimRecord (s := s.dropExpectation entry) held
    (fun r => { r with grip := s.verdict force, gripForce := some force }) fun _ => rfl
  unfold State.judgeGrip
  simp only [claimed]

theorem State.judgeGrip_pass (distinct : (s.trn.train.map CabinRecord.entry).Nodup) (held : s.record entry = some r)
    (passes : s.site.gripMin ≤ force.toNat ∧ force.toNat ≤ s.site.gripMax) :
    s.judgeGrip entry force = s.graded entry r.cabin force .pass r.divert := by
  rw [State.judgeGrip_of_record held, State.verdict_pass passes, State.graded]
  exact congrArg (State.report · _) (State.claimRecord_congr (s := s.dropExpectation entry) distinct held rfl)

/-- The claim of verdict and force and that of the divert flag, made around the report, come to one claim. -/
theorem State.judgeGrip_fail (distinct : (s.trn.train.map CabinRecord.entry).Nodup) (held : s.record entry = some r)
    (fails : ¬(s.site.gripMin ≤ force.toNat ∧ force.toNat ≤ s.site.gripMax)) :
    s.judgeGrip entry force =
      let t := s.graded entry r.cabin force .fail (r.flagged .grip).divert
      (if r.cabin = 0 then t else t.retire r.cabin force).raise .gripFail (.cabin entry) := by
  have claims : ((s.dropExpectation entry).claimRecord entry fun r =>
        { r with grip := .fail, gripForce := some force }).claimRecord entry (fun r => r.flagged .grip) =
      (s.dropExpectation entry).claimRecord entry fun x =>
        { x with grip := .fail, gripForce := some force, divert := (r.flagged .grip).divert } := by
    refine (State.claimRecord_claimRecord _ _ _ _ ?entries).trans
      (State.claimRecord_congr (s := s.dropExpectation entry) distinct held rfl)
    case entries => exact fun _ => rfl
  rw [State.judgeGrip_of_record held, State.verdict_fail fails]
  simp only [if_true, State.failGrip, State.report_claimRecord, claims, State.graded]

end

/-! ### A stray result (R90) -/

theorem State.strayReason_eq (s : State) (entry : BitVec 16) :
    s.strayReason entry =
      match (s.record entry).map CabinRecord.grip with
      | some .noResult => .late
      | some .pass => .duplicate
      | some .fail => .duplicate
      | _ => .unknown := by
  unfold State.strayReason
  cases s.record entry with
  | none => rfl
  | some r =>
    simp only [Option.map_some]
    cases r.grip <;> rfl

theorem State.taken_strayReason (s : State) (a : Nat) (entry : BitVec 16) :
    (s.taken a).strayReason entry = s.strayReason entry := by
  rw [State.strayReason, State.taken_record, State.strayReason]

/-! ### A GRIP_RESULT in the grip test unit's turn (R88, R90) -/

theorem State.gripResult_expected {s : State} {entry force : Word} (h : entry ∈ s.gsw.expectations) :
    s.gripResult [entry, force] = s.judgeGrip entry force := if_pos h

theorem State.gripResult_unexpected {s : State} {entry force : Word} (h : entry ∉ s.gsw.expectations) :
    s.gripResult [entry, force] = s.report (.gripStray entry (s.strayReason entry) force) := if_neg h

/-- The grip test unit's GRIP_RESULT is handed to GSW (R150). -/
theorem State.turnFrame_gripResult {s : State} {a : Nat} (node : nth1 s.slc.nodeTable a = some .gripUnit) (tag : Byte)
    (payload : List Word) : s.turnFrame a Kind.gripResult tag payload = some (s.gripResult payload) := by
  unfold State.turnFrame
  rw [node]
  rfl

theorem exec_gripResult {s : State} {a : Nat} {f : RxFrame} (h : InTurn s a .gripUnit Kind.gripResult f) :
    exec (.gripResult f) s = .next ((s.taken a).gripResult f.payload) := by
  have node : nth1 (s.taken a).slc.nodeTable a = some .gripUnit := by rw [State.taken_nodeTable, h.node]
  refine (live_inTurn h).trans ?_
  rw [State.turnFrame_gripResult node, Option.getD_some]

/-- Settles O51: what the frame leaves holds the expectations, the train and the limits that it found; an expected
result is judged by `State.judgeGrip_pass` and `State.judgeGrip_fail`, any other is a stray. -/
theorem gripResultIsJudged : Obligations.GripResultIsJudged := by
  intro s a f entry force train turn payload u
  have expectations : u.gsw.expectations = s.gsw.expectations := by rw [State.taken_gsw]
  have distinct : (u.trn.train.map CabinRecord.entry).Nodup := by rw [State.taken_trn]; exact train.distinct
  rw [exec_gripResult turn, payload]
  refine ⟨fun r expected found => ?judged, fun unexpected => ?stray⟩
  case judged =>
    have held : u.record entry = some r := (s.taken_record a entry).trans found
    rw [State.gripResult_expected (expectations ▸ expected), ← s.taken_siteRecord a]
    exact ⟨fun passes => congrArg Outcome.next (State.judgeGrip_pass distinct held passes),
      fun fails => congrArg Outcome.next (State.judgeGrip_fail distinct held fails)⟩
  case stray =>
    rw [State.gripResult_unexpected (expectations ▸ unexpected), State.taken_strayReason]
    exact congrArg (fun reason => Outcome.next (u.report (.gripStray entry reason force))) (s.strayReason_eq entry)

end Sys2Proof.Machine
end

section
/-! Chapter 7: a tower's slot is judged, a valid one claims its rope conditions, and a miss is counted. -/

namespace Sys2Proof.Machine

/-! ### Runtime records and the tower table -/

theorem State.runtimeAt_of_nth1 {s : State} {k : Nat} {v : TowerRuntime} (h : nth1 s.rsu.runtime k = some v) :
    s.runtimeAt k = v := by
  rw [State.runtimeAt, h, Option.getD_some]

theorem State.modRuntime_runtimeAt {s : State} {k : Nat} {v : TowerRuntime} (h : nth1 s.rsu.runtime k = some v)
    (f : TowerRuntime → TowerRuntime) : (s.modRuntime k f).runtimeAt k = f v := by
  refine State.runtimeAt_of_nth1 ?_
  rw [State.modRuntime, State.modRsu_rsu, nth1_mod1, if_pos rfl, h, Option.map_some]

/-- What a change of tower k's runtime record leaves of it. -/
theorem State.modRuntime_kept {α : Type} {f : TowerRuntime → TowerRuntime} {part : TowerRuntime → α}
    (kept : ∀ u, part (f u) = part u) (s : State) (k : Nat) :
    part ((s.modRuntime k f).runtimeAt k) = part (s.runtimeAt k) := by
  cases h : nth1 s.rsu.runtime k with
  | some v => rw [State.modRuntime_runtimeAt h, State.runtimeAt_of_nth1 h, kept]
  | none =>
    have absent : nth1 (s.modRuntime k f).rsu.runtime k = none := by
      rw [State.modRuntime, State.modRsu_rsu, nth1_mod1, if_pos rfl, h, Option.map_none]
    rw [State.runtimeAt, absent, State.runtimeAt, h]

theorem State.clear_runtimeAt (s : State) (c : CauseKind) (x : Subject) (k : Nat) :
    (s.clear c x).runtimeAt k = s.runtimeAt k := by
  rw [State.runtimeAt, State.clear_rsu, State.runtimeAt]

theorem State.raise_runtimeAt (s : State) (c : CauseKind) (x : Subject) (k : Nat) :
    (s.raise c x).runtimeAt k = s.runtimeAt k := by
  rw [State.runtimeAt, State.raise_rsu, State.runtimeAt]

theorem State.modRuntime_towerAt (s : State) (k j : Nat) (f : TowerRuntime → TowerRuntime) :
    (s.modRuntime k f).towerAt j = s.towerAt j := rfl

theorem State.modRuntime_time (s : State) (k : Nat) (f : TowerRuntime → TowerRuntime) :
    (s.modRuntime k f).mgt.lineTime = s.mgt.lineTime := rfl

theorem State.clear_towerAt (s : State) (c : CauseKind) (x : Subject) (k : Nat) :
    (s.clear c x).towerAt k = s.towerAt k := by
  rw [State.towerAt, State.clear_rsu, State.towerAt]

theorem State.assembliesAt_of_towerAt {s : State} {k : Nat} {t : TowerEntry} (h : s.towerAt k = some t) :
    s.assembliesAt k = t.assemblies := by
  rw [State.assembliesAt, h]

/-! ### The judgement of a slot (R105) -/

theorem bit_eq (w : Word) (k : Nat) : bit w k = w.getLsbD k := rfl

theorem slotCheckGood_eq_false_iff (slot : List Word) : slotCheckGood slot = false ↔ sumWords slot ≠ 65535 :=
  decide_eq_false_iff_not

/-- The three tests that do not look at the tower table come first, the assembly count last. -/
theorem judgeSlot_cons (k inTable : Nat) (w : Word) (rest : List Word) :
    judgeSlot k inTable (w :: rest) =
      if w.getLsbD 15 = true ∧ sumWords (w :: rest) = 65535 ∧ w.toNat % 32 = k then
        if w.toNat / 256 % 16 = inTable then .valid (parseReadings (rest.getD 16 0) inTable 0 rest)
        else .mismatch (w.toNat / 256 % 16) inTable
      else .bad := by
  have number : field w 0 5 = w.toNat % 32 := by simp [field]
  have count : field w 8 4 = w.toNat / 256 % 16 := rfl
  simp only [judgeSlot, bit_eq, slotCheckGood_eq_false_iff, number, count]
  by_cases filled : w.getLsbD 15 = true
  · by_cases check : sumWords (w :: rest) = 65535
    · simp only [filled, check, Bool.true_eq_false, ne_eq, not_true_eq_false, if_false, true_and, ite_not]
    · simp only [filled, check, Bool.true_eq_false, ne_eq, not_false_eq_true, if_false, if_true, false_and, and_false]
  · rw [if_pos (Bool.eq_false_of_not_eq_true filled), if_neg fun good => filled good.1]

/-! ### The rope conditions of a slot (R116, R117) -/

theorem Reading.inside_eq (r : Reading) (win : Window) :
    r.inside win =
      decide (win.posLow ≤ r.position.toInt ∧ r.position.toInt ≤ win.posHigh ∧ win.loadLow ≤ r.load.toNat ∧
        r.load.toNat ≤ win.loadHigh) := by
  simp only [Reading.inside, ← Bool.decide_and, and_assoc]

/-- A condition is shown by a supervised assembly: one whose bit of the mask is set. -/
theorem TowerEntry.supervised_any (t : TowerEntry) (rs : List Reading) (test : Reading → Bool) :
    (t.supervised rs).any test = rs.zipIdx.any fun (r, i) => t.mask.getLsbD i && test r := by
  rw [TowerEntry.supervised, List.any_map, List.any_filter]
  rfl

theorem TowerEntry.showsOff_eq (t : TowerEntry) (rs : List Reading) :
    t.showsOff rs = rs.zipIdx.any fun (r, i) => t.mask.getLsbD i && r.ropeOff :=
  t.supervised_any rs Reading.ropeOff

theorem TowerEntry.showsLimit_eq (t : TowerEntry) (rs : List Reading) :
    t.showsLimit rs = rs.zipIdx.any fun (r, i) => t.mask.getLsbD i && !r.inside t.outer :=
  t.supervised_any rs _

theorem TowerEntry.showsWarn_eq (t : TowerEntry) (rs : List Reading) :
    t.showsWarn rs = rs.zipIdx.any fun (r, i) => t.mask.getLsbD i && !r.inside t.inner :=
  t.supervised_any rs _

/-! ### The rope claims of a slot (R118) -/

/-- A rope claim leaves what its own flag's setting leaves of the runtime record. -/
theorem State.ropeClaim_kept {α : Type} {set : TowerRuntime → Bool → TowerRuntime} {part : TowerRuntime → α}
    (kept : ∀ u b, part (set u b) = part u) (s : State) (k : Nat) (kind : CauseKind) (shown held : Bool) :
    part ((s.ropeClaim k kind shown held set).runtimeAt k) = part (s.runtimeAt k) := by
  unfold State.ropeClaim
  split_ifs
  · rw [State.modRuntime_kept (kept · true), State.raise_runtimeAt]
  · rw [State.modRuntime_kept (kept · false), State.clear_runtimeAt]
  · rfl

/-- Each of the three claims finds its flag as the slot found it. -/
theorem State.ropeClaims_eq (s : State) (k : Nat) (t : TowerEntry) (rs : List Reading) :
    s.ropeClaims k t rs =
      (((s.ropeClaim k .ropeOff (t.showsOff rs) (s.runtimeAt k).off fun u b => { u with off := b }).ropeClaim k
        .ropeLimit (t.showsLimit rs) (s.runtimeAt k).limit fun u b => { u with limit := b }).ropeClaim k
          .ropeWarn (t.showsWarn rs) (s.runtimeAt k).warn fun u b => { u with warn := b }) := by
  unfold State.ropeClaims
  simp only
  rw [State.ropeClaim_kept (part := TowerRuntime.limit), State.ropeClaim_kept (part := TowerRuntime.warn),
    State.ropeClaim_kept (part := TowerRuntime.warn)]
  all_goals exact fun _ _ => rfl

/-! ### A valid slot (R115) -/

/-- A valid slot before its rope claims (R115, steps 1 to 3): the count is 0, TOWER_SILENT clears, readings are held. -/
def State.slotHeard (s : State) (k : Nat) (sweep : BitVec 16) (rs : List Reading) : State :=
  let fresh := s.modRuntime k fun u => { u with missCount := 0 }
  let heard :=
    if (s.runtimeAt k).silent then
      (fresh.clear .towerSilent (.tower k)).modRuntime k fun u => { u with silent := false }
    else fresh
  heard.modRuntime k fun u => { u with last := some { sweep := sweep, time := s.mgt.lineTime, readings := rs } }

/-- The flags of the three rope kinds, in the order of the claims. -/
def TowerRuntime.ropeFlags (u : TowerRuntime) : Bool × Bool × Bool := (u.off, u.limit, u.warn)

theorem TowerRuntime.ropeFlags_eq_iff (u v : TowerRuntime) :
    u.ropeFlags = v.ropeFlags ↔ u.off = v.off ∧ u.limit = v.limit ∧ u.warn = v.warn := by
  simp only [TowerRuntime.ropeFlags, Prod.mk.injEq]

theorem State.slotHeard_ropeFlags (s : State) (k : Nat) (sweep : BitVec 16) (rs : List Reading) :
    ((s.slotHeard k sweep rs).runtimeAt k).ropeFlags = (s.runtimeAt k).ropeFlags := by
  unfold State.slotHeard
  simp only
  rw [State.modRuntime_kept (part := TowerRuntime.ropeFlags)]
  case kept => exact fun _ => rfl
  by_cases silent : (s.runtimeAt k).silent = true
  · rw [if_pos silent, State.modRuntime_kept (part := TowerRuntime.ropeFlags), State.clear_runtimeAt,
      State.modRuntime_kept (part := TowerRuntime.ropeFlags)]
    all_goals exact fun _ => rfl
  · rw [if_neg silent, State.modRuntime_kept (part := TowerRuntime.ropeFlags)]
    exact fun _ => rfl

/-- RSU holds the slot, then makes its rope claims (R115, steps 4 and 5). -/
theorem State.towerSlot_eq {s : State} {k : Nat} {t : TowerEntry} (entry : s.towerAt k = some t) (sweep : BitVec 16)
    (rs : List Reading) : s.towerSlot k sweep rs = (s.slotHeard k sweep rs).ropeClaims k t rs := by
  have still : ((s.modRuntime k fun u => { u with missCount := 0 }).runtimeAt k).silent = (s.runtimeAt k).silent :=
    State.modRuntime_kept (part := TowerRuntime.silent) (fun _ => by rfl) s k
  unfold State.towerSlot State.slotHeard
  simp only [still]
  by_cases silent : (s.runtimeAt k).silent = true
  · simp only [if_pos silent, State.modRuntime_towerAt, State.clear_towerAt, entry, State.modRuntime_time,
      State.clear_time]
  · simp only [if_neg silent, State.modRuntime_towerAt, entry, State.modRuntime_time]

/-! ### A miss (R119) -/

theorem State.towerMiss_below {s : State} {k : Nat} {t : TowerEntry} {v : TowerRuntime} (entry : s.towerAt k = some t)
    (record : nth1 s.rsu.runtime k = some v) (below : v.missCount < t.missLimit) :
    s.towerMiss k =
      let stepped := s.modRuntime k fun u => { u with missCount := u.missCount + 1 }
      if v.missCount + 1 = t.missLimit then
        (stepped.raise .towerSilent (.tower k)).modRuntime k fun u => { u with silent := true }
      else stepped := by
  rw [State.towerMiss, entry]
  simp only [State.runtimeAt_of_nth1 record, State.modRuntime_runtimeAt record, if_pos below]

theorem State.towerMiss_at {s : State} {k : Nat} {t : TowerEntry} {v : TowerRuntime} (entry : s.towerAt k = some t)
    (record : nth1 s.rsu.runtime k = some v) (reached : ¬v.missCount < t.missLimit) :
    s.towerMiss k = s.raise .towerSilent (.tower k) := by
  rw [State.towerMiss, entry]
  simp only [State.runtimeAt_of_nth1 record, if_neg reached]

/-! ### A slot is judged, and handed to RSU (R105, R106) -/

theorem State.takeTowerSlot_bad {s : State} {k : Nat} {t : TowerEntry} {slot : List Word}
    (entry : s.towerAt k = some t) (verdict : judgeSlot k t.assemblies slot = .bad) (sweep : BitVec 16) :
    s.takeTowerSlot k sweep slot = s.towerMiss k := by
  rw [State.takeTowerSlot, State.assembliesAt_of_towerAt entry, verdict]

theorem State.takeTowerSlot_mismatch {s : State} {k inSlot inTable : Nat} {t : TowerEntry} {slot : List Word}
    (entry : s.towerAt k = some t) (verdict : judgeSlot k t.assemblies slot = .mismatch inSlot inTable)
    (sweep : BitVec 16) :
    s.takeTowerSlot k sweep slot =
      (if nth1 s.swp.mismatch k = some true then s
        else
          (s.report (.towerMismatch k inSlot inTable sweep)).modSwp fun w =>
            { w with mismatch := mod1 w.mismatch k fun _ => true }).towerMiss k := by
  rw [State.takeTowerSlot, State.assembliesAt_of_towerAt entry, verdict]
  cases nth1 s.swp.mismatch k with
  | none => rfl
  | some marked => cases marked <;> rfl

theorem State.takeTowerSlot_valid {s : State} {k : Nat} {t : TowerEntry} {slot : List Word} {rs : List Reading}
    (entry : s.towerAt k = some t) (verdict : judgeSlot k t.assemblies slot = .valid rs) (sweep : BitVec 16) :
    s.takeTowerSlot k sweep slot =
      (s.modSwp fun w => { w with mismatch := mod1 w.mismatch k fun _ => false }).towerSlot k sweep rs := by
  rw [State.takeTowerSlot, State.assembliesAt_of_towerAt entry, verdict]

/-- Settles O59: the slot is judged by `judgeSlot_cons`; a valid one is held and claims by `State.towerSlot_eq` and
`State.ropeClaims_eq`, a miss counts by `State.towerMiss_below` and `State.towerMiss_at`. -/
theorem towerSlotsAreJudged : Obligations.TowerSlotsAreJudged := by
  intro s k n w rest t v entry record good count rs set mark inside shows claim miss
  have verdict := judgeSlot_cons k t.assemblies w rest
  refine ⟨fun bad => ?bad, fun filled other => ?mismatch, fun filled same => ?valid, ?miss⟩
  case bad =>
    rw [if_neg bad] at verdict
    exact State.takeTowerSlot_bad entry verdict n
  case mismatch =>
    rw [if_pos filled, if_neg other] at verdict
    exact State.takeTowerSlot_mismatch entry verdict n
  case valid =>
    rw [if_pos filled, if_pos same] at verdict
    have found : (mark s false).runtimeAt k = v := State.runtimeAt_of_nth1 record
    have flags := (mark s false).slotHeard_ropeFlags k n rs
    rw [found] at flags
    obtain ⟨off, limit, warn⟩ := (TowerRuntime.ropeFlags_eq_iff _ v).1 flags
    refine (State.takeTowerSlot_valid entry verdict n).trans ?_
    refine (State.towerSlot_eq (s := mark s false) entry n rs).trans ?_
    rw [State.ropeClaims_eq, off, limit, warn, t.showsOff_eq, t.showsLimit_eq, t.showsWarn_eq, State.slotHeard, found]
    simp only [Reading.inside_eq]
    rfl
  case miss =>
    by_cases below : v.missCount < t.missLimit
    · exact (State.towerMiss_below entry record below).trans (if_pos below).symm
    · exact (State.towerMiss_at entry record below).trans (if_neg below).symm

end Sys2Proof.Machine
end

section
/-! Chapter 10: what the report queue makes of a report, by the report's class and the room left (R167, R168). -/

namespace Sys2Proof.Machine

/-! ### The class of an entry -/

theorem ReportEntry.isInfo_iff (e : ReportEntry) : e.isInfo = true ↔ e.report.cls = .info := decide_eq_true_iff

theorem ReportEntry.not_isInfo_iff (e : ReportEntry) : ¬e.isInfo = true ↔ e.report.cls = .alarm := by
  rw [e.isInfo_iff]
  cases e.report.cls <;> decide

/-- Only CABIN_DIVERTED's class depends on what it carries: its outcome. -/
theorem Report.cls_cabinDiverted (entry : BitVec 16) (outcome : DivertOutcome) (wanted : SwitchPos) (divc : DivcPos)
    (divert : Option DivertReason) (cabin : BitVec 8) :
    (Report.cabinDiverted entry outcome wanted divc divert cabin).cls =
      if outcome = .astray then .alarm else .info := by
  cases outcome <;> rfl

/-! ### Adding a report, case by case -/

section
variable {m : Mgt} {r : Report}

theorem Mgt.addReport_of_room (room : m.reports.length < 64) :
    m.addReport r = { m with reports := m.reports ++ [{ report := r, time := m.lineTime }] } :=
  if_pos room

theorem Mgt.addReport_info_of_full (full : 64 ≤ m.reports.length) (info : r.cls = .info) : m.addReport r = m :=
  (if_neg (Nat.not_lt.2 full)).trans (if_pos ((ReportEntry.isInfo_iff _).2 info))

/-- Past the room and class tests, an ALARM's outcome rests on whether an INFO entry is held. -/
theorem Mgt.addReport_alarm_of_full (full : 64 ≤ m.reports.length) (alarm : r.cls = .alarm) :
    m.addReport r =
      if m.reports.any ReportEntry.isInfo then
        { m with reports := m.reports.eraseP ReportEntry.isInfo ++ [{ report := r, time := m.lineTime }] }
      else { m with overflowMark := true } :=
  (if_neg (Nat.not_lt.2 full)).trans (if_neg ((ReportEntry.not_isInfo_iff _).2 alarm))

theorem Mgt.addReport_displaces_oldest_info {before after : List ReportEntry} {old : ReportEntry}
    (full : 64 ≤ m.reports.length) (alarm : r.cls = .alarm) (held : m.reports = before ++ old :: after)
    (info : old.report.cls = .info) (older : ∀ y ∈ before, y.report.cls = .alarm) :
    m.addReport r = { m with reports := before ++ after ++ [{ report := r, time := m.lineTime }] } := by
  have found : old.isInfo = true := old.isInfo_iff.2 info
  have some_info : m.reports.any ReportEntry.isInfo = true :=
    List.any_eq_true.2 ⟨old, by simp [held], found⟩
  have erased : m.reports.eraseP ReportEntry.isInfo = before ++ after := by
    rw [held, List.eraseP_append_right _ fun y hy => y.not_isInfo_iff.2 (older y hy), List.eraseP_cons_of_pos found]
  rw [Mgt.addReport_alarm_of_full full alarm, if_pos some_info, erased]

theorem Mgt.addReport_alarm_of_all_alarm (full : 64 ≤ m.reports.length) (alarm : r.cls = .alarm)
    (all : ∀ y ∈ m.reports, y.report.cls = .alarm) : m.addReport r = { m with overflowMark := true } := by
  have no_info : ¬m.reports.any ReportEntry.isInfo = true := fun h => by
    obtain ⟨y, hy, info⟩ := List.any_eq_true.1 h
    exact y.not_isInfo_iff.2 (all y hy) info
  rw [Mgt.addReport_alarm_of_full full alarm, if_neg no_info]

end

/-- A report touches MGT alone, so what `Mgt.addReport` makes of the queue is all that it does to the state. -/
theorem State.report_eq_modMgt {s : State} {r : Report} {f : Mgt → Mgt} (h : s.mgt.addReport r = f s.mgt) :
    s.report r = s.modMgt f :=
  congrArg (fun m => { s with mgt := m }) h

/-- Settles O56: the class by the report's kind, the queue by room, class and the oldest INFO entry, one
`Mgt.addReport` lemma for each. -/
theorem reportsJoinByTheirClass : Obligations.ReportsJoinByTheirClass := by
  refine ⟨fun r => ?cls, fun s r => ?queue⟩
  case cls =>
    cases r with
    | cabinDiverted => exact Report.cls_cabinDiverted ..
    | _ => rfl
  case queue =>
    refine ⟨fun room => ?joins, fun full => ⟨fun info => ?discarded, fun alarm =>
      ⟨fun before old after held info older => ?displaces, fun all => ?overflows⟩⟩⟩
    case joins => exact State.report_eq_modMgt (Mgt.addReport_of_room room)
    case discarded => exact State.report_eq_modMgt (f := id) (Mgt.addReport_info_of_full full info)
    case displaces => exact State.report_eq_modMgt (Mgt.addReport_displaces_oldest_info full alarm held info older)
    case overflows => exact State.report_eq_modMgt (Mgt.addReport_alarm_of_all_alarm full alarm all)

end Sys2Proof.Machine
end

section
/-! The queue and the resets: what one step runs, what a reset holds from its beginning and what it leaves as it ends. -/

namespace Sys2Proof.Machine

open Host

/-! ### Every command answers a next state -/

/-- The two ends of a reset choose their answer by the reset phase; every other command wraps one state in `.next`. -/
theorem exec_next (c : Instr) (s : State) : ∃ t, exec c s = .next t := by
  cases c
  case fullResetEnd levels =>
    show ∃ t, execFullResetEnd levels s = .next t
    unfold execFullResetEnd
    split <;> exact ⟨_, rfl⟩
  case commandResetEnd levels =>
    show ∃ t, execCommandResetEnd levels s = .next t
    unfold execCommandResetEnd
    split <;> exact ⟨_, rfl⟩
  all_goals exact ⟨_, rfl⟩

/-- Settles O2: the answer is a next state, and what every command leaves of the queue is said by `exec_resets`. -/
theorem everyCommandAnswersNext : Obligations.EveryCommandAnswersNext := by
  intro c s
  obtain ⟨t, e⟩ := exec_next c s
  exact ⟨t, e, (exec_resets e).pending⟩

/-! ### One step -/

theorem step_of_pending {s : State} {c : Instr} {rest : List Instr} (h : s.pending = c :: rest) :
    step s = exec c (s.setPending rest) := by
  unfold step
  rw [h]

theorem step_of_idle {s : State} (h : s.pending = []) : step s = .next s.tick := by
  unfold step
  rw [h]

theorem State.tick_live {s : State} (h : s.phase = .live) :
    s.tick = s.modMgt fun m => { m with lineTime := m.lineTime + 1 } := if_pos h

theorem State.tick_reset {s : State} (h : s.phase ≠ .live) : s.tick = s := if_neg h

/-- Settles O1, by the two cases of the queue. -/
theorem stepRunsTheFrontCommand : Obligations.StepRunsTheFrontCommand := by
  refine ⟨fun c rest s h => step_of_pending h, fun s idle => ⟨fun live => ?_, fun reset => ?_⟩⟩
  · rw [step_of_idle idle, State.tick_live live]
  · rw [step_of_idle idle, State.tick_reset reset]

/-! ### The order every step keeps -/

/-- The queue of waiting commands is no part of the order. -/
theorem Inv.setPending {s : State} (h : Inv s) (q : List Instr) : Inv (s.setPending q) :=
  ⟨h.perm, h.reports, h.voice, h.urgent, h.table, h.park, h.setup,
    ⟨h.train.distinct, h.train.room, h.train.cabins, h.train.named⟩,
    ⟨h.dtx.nodes, h.dtx.once, h.dtx.apart, h.dtx.held⟩,
    ⟨h.gsw.expectations, h.gsw.expected, h.gsw.claims, h.gsw.claimed⟩, h.rsu, h.path, h.phase⟩

theorem Inv.tick {s : State} (h : Inv s) : Inv s.tick := by
  by_cases live : s.phase = .live
  · rw [State.tick_live live]
    exact (s.modMgt_keep _ fun r => ⟨r.room, r.full⟩).sound.inv live h
  · rwa [State.tick_reset live]

theorem step_inv {s t : State} (h : Inv s) (e : step s = .next t) : Inv t := by
  cases q : s.pending with
  | nil =>
    rw [step_of_idle q] at e
    cases e
    exact h.tick
  | cons c rest =>
    rw [step_of_pending q] at e
    exact (exec_resets e).inv (h.setPending rest)

/-- Settles O4: a step is a command, each of which keeps the order, or a millisecond of line time; the three bounds follow
from the order, since the lists name records of the train and none twice. -/
theorem everyStepKeepsTheOrder : Obligations.EveryStepKeepsTheOrder := by
  intro s t h e
  have inv : Inv t := step_inv h e
  obtain ⟨expectations, claims⟩ := inv.gsw.bound inv.train
  exact ⟨inv, inv.dtx.bound inv.train, expectations, claims⟩

/-- Settles O3: the blocks stand at their reset values, and the one report is RESET_DONE. -/
theorem resetStateIsInOrder : Obligations.ResetStateIsInOrder :=
  reset_inv Perm.fullReset_ok rfl ⟨by decide, by decide⟩ rfl rfl Slc.fullReset_table rfl rfl rfl rfl rfl rfl
    (Nat.zero_le 16)

/-! ### Inside a reset -/

/-- Settles O5: every command but the three of a reset runs its event outside a reset alone. -/
theorem nothingActsInsideAReset : Obligations.NothingActsInsideAReset := by
  intro c s reset notBegin notFullEnd notCommandEnd
  cases c
  case fullReset source => exact absurd rfl (notBegin source)
  case fullResetEnd levels => exact absurd rfl (notFullEnd levels)
  case commandResetEnd levels => exact absurd rfl (notCommandEnd levels)
  all_goals exact congrArg Outcome.next (if_neg reset)

/-! ### A full reset begins (R173) -/

theorem filtered_eq_false {source : ResetSource} (h : ∀ ns, source = .resetLow ns → 1000 ≤ ns) :
    filtered source = false := by
  cases source with
  | resetLow ns => exact decide_eq_false (Nat.not_lt.2 (h ns rfl))
  | powerUp => rfl
  | supplyLow => rfl

theorem execFullReset_long {source : ResetSource} (s : State) (h : filtered source = false) :
    exec (.fullReset source) s = .next (s.beginFullReset (s.phase.fullCause source)) := by
  show Outcome.next (if filtered source then s else s.beginFullReset (s.phase.fullCause source)) = _
  rw [h]
  rfl

theorem execFullReset_short {ns : Nat} (s : State) (h : ns < 1000) : exec (.fullReset (.resetLow ns)) s = .next s := by
  show Outcome.next (if filtered (.resetLow ns) then s else s.beginFullReset (s.phase.fullCause (.resetLow ns))) = _
  rw [show filtered (.resetLow ns) = true from decide_eq_true h]
  rfl

theorem CauseSetting.defaults_index (k : CauseKind) : CauseSetting.defaults[k.index] = k.defaultSetting := by
  cases k <;> rfl

theorem Slc.freshTable_get (a : Fin 30) : Slc.freshTable[a] = if a.val = 29 then .console else .noKind := by
  unfold Slc.freshTable
  rw [Fin.getElem_fin, Vector.getElem_set]
  by_cases h : a.val = 29
  · rw [if_pos h.symm, if_pos h]
  · rw [if_neg (Ne.symm h), if_neg h, Vector.getElem_replicate]

/-- Settles O6: a pulse that the filter passes begins the reset whose values the blocks' reset constants are, and those
constants are read off field by field. -/
theorem fullResetHoldsEveryBlock : Obligations.FullResetHoldsEveryBlock := by
  refine ⟨fun source s => ⟨fun h => execFullReset_long s (filtered_eq_false h), ?_⟩, ?perm, ?trav, ?trn, ?dtx, ?gsw, ?swp,
    ?rsu, ?smt, ?slc⟩
  · rintro ns rfl h
    exact execFullReset_short s h
  case perm => exact ⟨rfl, rfl, rfl, rfl, rfl, rfl, rfl, CauseSetting.defaults_index⟩
  case trav => exact ⟨rfl, rfl, rfl, rfl, rfl, fun z => Vector.getElem_replicate z.isLt⟩
  case trn => exact ⟨rfl, rfl, rfl, rfl, rfl, fun n => Vector.getElem_replicate n.isLt⟩
  case dtx => exact fun a => Vector.getElem_replicate a.isLt
  case gsw => exact ⟨rfl, rfl, rfl, rfl⟩
  case swp => exact ⟨rfl, rfl, rfl, rfl, rfl, rfl, rfl, rfl, rfl, fun k => Vector.getElem_replicate k.isLt⟩
  case rsu => exact fun k => ⟨Vector.getElem_replicate k.isLt, Vector.getElem_replicate k.isLt⟩
  case smt => exact ⟨rfl, rfl, rfl, rfl, rfl, rfl, rfl, rfl, rfl, rfl, rfl, rfl, rfl, rfl, rfl, rfl, rfl, rfl⟩
  case slc =>
    refine ⟨?_, rfl, rfl, rfl, rfl, rfl, fun a => ⟨Slc.freshTable_get a, Vector.getElem_replicate a.isLt⟩⟩
    rw [List.all_eq_true]
    intro b hb
    rw [(Vector.mem_replicate.1 (Vector.mem_toList_iff.1 hb)).2]
    rfl

/-! ### A reset ends (R9, R155, R164, R174) -/

theorem execFullResetEnd_full {s : State} {cause : ResetCause} (levels : InputLevels) (h : s.phase = .full cause) :
    exec (.fullResetEnd levels) s = .next (s.endReset cause levels) := by
  show execFullResetEnd levels s = _
  unfold execFullResetEnd
  rw [h]

theorem execCommandResetEnd_command {s : State} (levels : InputLevels) (h : s.phase = .command) :
    exec (.commandResetEnd levels) s = .next (s.endReset .command levels) := by
  show execCommandResetEnd levels s = _
  unfold execCommandResetEnd
  rw [h]

theorem execResetEnd {s : State} {levels : InputLevels} {cause : ResetCause} {c : Instr}
    (h : s.phase = .full cause ∧ c = .fullResetEnd levels ∨
      s.phase = .command ∧ cause = .command ∧ c = .commandResetEnd levels) :
    exec c s = .next (s.endReset cause levels) ∧ s.phase ≠ .live := by
  rcases h with ⟨phase, rfl⟩ | ⟨phase, rfl, rfl⟩
  · exact ⟨execFullResetEnd_full levels phase, by simp [phase]⟩
  · exact ⟨execCommandResetEnd_command levels phase, by simp [phase]⟩

/-- A raise claim in SETUP leaves the line there: only RUNNING and QUIET are left for a stopping entry. -/
theorem State.raise_line_setup {s : State} (h : s.perm.line = .setup) (k : CauseKind) (x : Subject) :
    (s.raise k x).perm.line = .setup := by
  have here : ∀ (k : CauseKind) (x : Subject), (s.raiseHere k x).perm.line = .setup := by
    intro k x
    unfold State.raiseHere State.addCause State.claimCall State.stopFor
    simp only
    repeat' split
    all_goals simp_all [Perm.drive, Perm.replace]
  unfold State.raise
  split <;> exact here _ _

theorem State.endReset_line {s : State} (h : s.perm.line = .setup) (cause : ResetCause) (levels : InputLevels) :
    (s.endReset cause levels).perm.line = .setup := by
  unfold State.endReset
  simp only
  split
  · exact State.raise_line_setup (by exact h) _ _
  · exact h

/-- Settles O7. -/
theorem resetEndLeavesTheLineInSetup : Obligations.ResetEndLeavesTheLineInSetup := by
  intro s levels cause c h
  obtain ⟨runs, reset⟩ := execResetEnd h
  exact ⟨runs, fun phase => State.endReset_line (phase reset) cause levels⟩

/-! ### The command reset (R165, R166) -/

theorem exec_partReset {s : State} {f : RxFrame} (h : Requested s .partReset f) :
    exec (.partReset f) s = .next (((s.taken 30).reqPartReset f.payload).respond f.tag .partReset) :=
  live_requested h

theorem State.underway_eq_true_iff (s : State) :
    s.underway = true ↔ s.perm.line = .running ∨ s.perm.line = .stopping := by
  unfold State.underway
  rw [decide_eq_true_iff]

theorem State.underway_eq_false_iff (s : State) :
    s.underway = false ↔ s.perm.line ≠ .running ∧ s.perm.line ≠ .stopping := by
  unfold State.underway
  rw [decide_eq_false_iff_not, not_or]

@[simp] theorem State.taken_underway (s : State) (a : Nat) : (s.taken a).underway = s.underway := by
  unfold State.underway
  rw [State.taken_line]

theorem State.reqPartReset_underway {s : State} (h : s.underway = true) (ws : List Word) :
    s.reqPartReset ws = s.refuse .refusedState := if_pos h

theorem State.reqPartReset_accepted {s : State} (h : s.underway = false) :
    s.reqPartReset [] = (s.modMgt fun m => { m with resetRequest := true }).done := by
  unfold State.reqPartReset
  rw [h]
  rfl

theorem State.sending_of {s : State} {x : Exchange} (h : s.slc.exchange = some x) (p : x.phase = .sending) :
    s.sending x.kind = true := by
  unfold State.sending
  rw [h]
  exact decide_eq_true ⟨rfl, p⟩

/-- The RESPONSE has left the line: the exchange and the pending response are gone, and a reset asked begins. -/
theorem State.responseIsSent_sending {s : State} (h : s.sending .response = true) :
    s.responseIsSent =
      let t := (s.setExchange none).modMgt fun m => { m with response := none }
      if s.mgt.resetRequest then t.beginCommandReset else t := if_pos h

/-- Settles O8: the request asks for a reset by the line state, and the RESPONSE that has left the line begins it. -/
theorem partResetFollowsItsResponse : Obligations.PartResetFollowsItsResponse := by
  refine ⟨fun s f h empty => ?_, fun s x phase ex kind sending => ?_⟩
  · rw [exec_partReset h, empty]
    refine ⟨fun calm => ?_, fun underway => ?_⟩
    · rw [State.reqPartReset_accepted (by rw [State.taken_underway, State.underway_eq_false_iff]; exact calm),
        State.done_respond]
    · rw [State.reqPartReset_underway (by rw [State.taken_underway, State.underway_eq_true_iff]; exact underway),
        State.refuse_respond]
  · have runs : exec .responseSent s = .next s.responseIsSent := live_of phase
    rw [runs, State.responseIsSent_sending (kind ▸ State.sending_of ex sending)]
    exact ⟨fun r => by rw [r]; rfl, fun r => by rw [r]; rfl⟩

/-! ### The line state changes (R1, R2, R3) -/

/-- Settles O9: the equation is the definition of a line change, written out. -/
theorem lineStateChangeSetsDriveLines : Obligations.LineStateChangeSetsDriveLines :=
  fun _ _ _ => ⟨rfl, rfl⟩

end Sys2Proof.Machine
end

section
/-! PERM's claims: a raise claim, a clear claim, an acknowledgement and the notice of a frame, case by case (1.7, 1.8). -/

namespace Sys2Proof.Machine

open Host

/-! ### The cause set -/

theorem CauseEntry.ite_names {α : Type} (e : CauseEntry) (k : CauseKind) (x : Subject) (a b : α) :
    (if e.names k x then a else b) = if e.kind = k ∧ e.subject = x then a else b := by
  simp only [CauseEntry.names_iff]

/-- The replacement of an entry, in the words of chapter 1. -/
theorem Perm.replace_eq (p : Perm) (k : CauseKind) (x : Subject) (new : CauseEntry) :
    p.replace k x new =
      { p with causes := p.causes.map fun y => if y.kind = k ∧ y.subject = x then new else y } := by
  unfold Perm.replace
  simp only [CauseEntry.ite_names]

theorem Perm.replace_length (p : Perm) (k : CauseKind) (x : Subject) (new : CauseEntry) :
    (p.replace k x new).causes.length = p.causes.length := List.length_map _

theorem CauseEntry.names_eq_decide (e : CauseEntry) (k : CauseKind) (x : Subject) :
    e.names k x = decide (e.kind = k ∧ e.subject = x) := by
  rw [Bool.eq_iff_iff, e.names_iff, decide_eq_true_iff]

@[simp] theorem State.report_site (s : State) (r : Report) : (s.report r).site = s.site := by
  unfold State.site State.report
  rw [State.modMgt_mgt, Mgt.addReport_site]

/-! ### A raise claim (R14) -/

theorem State.raise_held {s : State} {k : CauseKind} {x : Subject} {e : CauseEntry} (h : s.perm.find k x = some e) :
    s.raise k x =
      let held := s.modPerm fun p => p.replace k x e.raisedAgain
      if e.state = .latched then held.report (.causeRaised e.raisedAgain) else held := by
  unfold State.raise State.raiseHere
  simp only [h, reduceCtorEq, false_and, if_false]

theorem State.raise_new {s : State} {k : CauseKind} {x : Subject} (h : s.perm.find k x = none)
    (room : k = .causeOverflow ∨ s.perm.others < 47) : s.raise k x = s.addCause k x := by
  have kept : ¬(s.perm.find k x = none ∧ k ≠ .causeOverflow ∧ 47 ≤ s.perm.others) := by
    rintro ⟨_, other, full⟩
    exact room.elim other (Nat.not_lt.2 full)
  unfold State.raise State.raiseHere
  rw [if_neg kept, h]

theorem State.raise_lost {s : State} {k : CauseKind} {x : Subject} (h : s.perm.find k x = none)
    (other : k ≠ .causeOverflow) (full : 47 ≤ s.perm.others) : s.raise k x = s.raise .causeOverflow .noSubject := by
  unfold State.raise
  rw [if_pos ⟨h, other, full⟩, if_neg (fun lost => lost.2.1 rfl)]

theorem Response.stops_iff (r : Response) : r.stops = true ↔ r = .stop ∨ r = .emergency := by
  cases r <;> simp [Response.stops]

/-- What a new entry makes of the line: a stopping one is followed in RUNNING and QUIET alone (R7, R10). -/
theorem State.stopFor_eq (s : State) (e : CauseEntry) :
    s.stopFor e =
      let stops := e.response = .stop ∨ e.response = .emergency
      if stops ∧ s.perm.line = .running then s.enterStopping (.cause e.kind e.subject)
      else if stops ∧ s.perm.line = .quiet then s.setLine .held (.cause e.kind e.subject)
      else s := by
  unfold State.stopFor
  simp only [← Response.stops_iff]
  cases e.response.stops <;> cases s.perm.line <;> rfl

/-- The entry leaves a line in SETUP there and takes no line into it. -/
theorem State.stopFor_line_setup_iff (s : State) (e : CauseEntry) :
    (s.stopFor e).perm.line = .setup ↔ s.perm.line = .setup := by
  rw [State.stopFor_eq]
  simp only
  split
  · next running =>
    unfold State.enterStopping
    simp only
    split <;> simp [running]
  · split
    · next quiet => simp [quiet]
    · rfl

theorem State.claimCall_stopFor (s : State) (e : CauseEntry) :
    (s.stopFor e).claimCall e =
      if e.response = .emergency ∧ s.perm.line ≠ .setup then
        (s.stopFor e).modSmt fun m => { m with autoClaims := m.autoClaims + 1 }
      else s.stopFor e := by
  unfold State.claimCall
  simp only [ne_eq, State.stopFor_line_setup_iff]

/-- Settles O11: the three ways of a raise claim are told apart by whether the entry is held and by the room, and a new
entry's effects are those of `stopFor` and `claimCall`. -/
theorem raiseClaimTakesOneOfThreeWays : Obligations.RaiseClaimTakesOneOfThreeWays := by
  intro s k x
  refine ⟨fun e held => ?_, fun absent room => ?_, fun absent other full => State.raise_lost absent other full,
    fun _ => rfl⟩
  · rw [State.raise_held held]
    simp only [Perm.replace_eq]
    rfl
  · rw [State.raise_new absent room]
    unfold State.addCause
    simp only
    rw [State.claimCall_stopFor, State.stopFor_eq]
    unfold State.enterStopping
    simp only [State.report_site]
    rfl

/-! ### A clear claim and the overflow test (R15, R16) -/

theorem State.afterRemoval_self (s : State) : s.afterRemoval s = s := if_neg (Nat.lt_irrefl _)

/-- An entry replaced in its place is no removal. -/
theorem State.afterRemoval_replace (s : State) (k : CauseKind) (x : Subject) (new : CauseEntry) :
    (s.modPerm fun p => p.replace k x new).afterRemoval s = s.modPerm fun p => p.replace k x new := by
  refine if_neg ?_
  rw [State.modPerm_perm, Perm.replace_length]
  exact Nat.lt_irrefl _

theorem State.removeCause_causes (s : State) (e : CauseEntry) (w : GoneWay) :
    (s.removeCause e w).perm.causes = s.perm.causes.filter fun x => !x.names e.kind e.subject := rfl

/-- The removal of an entry held is followed by the overflow test. -/
theorem State.afterRemoval_removeCause {s : State} {e : CauseEntry} (h : e ∈ s.perm.causes) (w : GoneWay) :
    (s.removeCause e w).afterRemoval s = (s.removeCause e w).overflowTest := by
  refine if_pos ?_
  rw [State.removeCause_causes]
  exact List.length_filter_lt_length_iff_exists.2 ⟨e, h, by simp [CauseEntry.names]⟩

theorem State.clear_absent {s : State} {k : CauseKind} {x : Subject} (h : s.perm.find k x = none) :
    s.clear k x = s := by
  unfold State.clear State.clearHere
  rw [h]
  exact s.afterRemoval_self

theorem State.clearHere_removes {s : State} {k : CauseKind} {x : Subject} {e : CauseEntry}
    (h : s.perm.find k x = some e) (leaves : e.latch = .self ∨ e.state = .activeAcked) :
    s.clearHere k x = s.removeCause e .cleared := by
  unfold State.clearHere
  simp only [h]
  rcases leaves with self | acked
  · rw [if_pos self]
  · rw [acked]
    exact ite_self _

theorem State.clear_removes {s : State} {k : CauseKind} {x : Subject} {e : CauseEntry} (h : s.perm.find k x = some e)
    (leaves : e.latch = .self ∨ e.state = .activeAcked) :
    s.clear k x = (s.removeCause e .cleared).overflowTest := by
  unfold State.clear
  rw [State.clearHere_removes h leaves, State.afterRemoval_removeCause (Perm.find_some h).1]

theorem State.clearHere_latches {s : State} {k : CauseKind} {x : Subject} {e : CauseEntry}
    (h : s.perm.find k x = some e) (latch : e.latch = .latch) (active : e.state = .active) :
    s.clearHere k x = s.modPerm fun p => p.replace k x { e with state := .latched } := by
  unfold State.clearHere
  simp only [h, latch, active, reduceCtorEq, if_false]

theorem State.clear_latches {s : State} {k : CauseKind} {x : Subject} {e : CauseEntry}
    (h : s.perm.find k x = some e) (latch : e.latch = .latch) (active : e.state = .active) :
    s.clear k x = s.modPerm fun p => p.replace k x { e with state := .latched } := by
  unfold State.clear
  rw [State.clearHere_latches h latch active, State.afterRemoval_replace]

theorem State.clear_latched {s : State} {k : CauseKind} {x : Subject} {e : CauseEntry}
    (h : s.perm.find k x = some e) (latch : e.latch = .latch) (latched : e.state = .latched) : s.clear k x = s := by
  unfold State.clear State.clearHere
  simp only [h, latch, latched, reduceCtorEq, if_false]
  exact s.afterRemoval_self

theorem State.overflowTest_crowded {s : State} (h : 40 < s.perm.others) : s.overflowTest = s :=
  if_neg (Nat.not_le.2 h)

theorem State.overflowTest_absent {s : State} (h : s.perm.find .causeOverflow .noSubject = none) :
    s.overflowTest = s := by
  unfold State.overflowTest
  rw [h]
  exact ite_self _

theorem State.overflowTest_latched {s : State} {e : CauseEntry} (h : s.perm.find .causeOverflow .noSubject = some e)
    (latched : e.state = .latched) : s.overflowTest = s := by
  unfold State.overflowTest
  simp only [h, latched, if_true]
  exact ite_self _

theorem State.overflowTest_calm {s : State} {e : CauseEntry} (h : s.perm.find .causeOverflow .noSubject = some e)
    (free : e.state ≠ .latched) (room : s.perm.others ≤ 40) :
    s.overflowTest = s.clearHere .causeOverflow .noSubject := by
  unfold State.overflowTest
  simp only [h, if_pos room, if_neg free]

/-- An entry taken out is found no more. -/
theorem State.removeCause_find {s : State} {e : CauseEntry} (w : GoneWay) :
    (s.removeCause e w).perm.find e.kind e.subject = none := by
  refine List.find?_eq_none.2 fun y hy named => ?_
  have := (List.mem_filter.1 (show y ∈ s.perm.causes.filter fun x => !x.names e.kind e.subject from hy)).2
  simp_all

/-- CAUSE_OVERFLOW's own clear claim makes the overflow test in vain: it holds no CAUSE_OVERFLOW to clear again. -/
theorem State.clear_causeOverflow {s : State} {e : CauseEntry} (h : s.perm.find .causeOverflow .noSubject = some e) :
    s.clear .causeOverflow .noSubject = s.clearHere .causeOverflow .noSubject := by
  obtain ⟨_, kind, subject⟩ := Perm.find_some h
  by_cases leaves : e.latch = .self ∨ e.state = .activeAcked
  · rw [State.clear_removes h leaves, State.clearHere_removes h leaves]
    refine State.overflowTest_absent ?_
    have gone := State.removeCause_find (s := s) (e := e) .cleared
    rwa [kind, subject] at gone
  · obtain ⟨notSelf, notAcked⟩ := not_or.1 leaves
    have latch : e.latch = .latch := by
      cases l : e.latch
      · exact absurd l notSelf
      · rfl
    cases state : e.state with
    | active => rw [State.clear_latches h latch state, State.clearHere_latches h latch state]
    | activeAcked => exact absurd state notAcked
    | latched =>
      rw [State.clear_latched h latch state]
      unfold State.clearHere
      simp only [h, latch, state, reduceCtorEq, if_false]

/-- Settles O12: a clear claim by the entry it finds, then the overflow test by the room and the entry it finds. -/
theorem clearClaimFollowsLatchAndState : Obligations.ClearClaimFollowsLatchAndState := by
  intro s k x
  refine ⟨State.clear_absent, fun e held => ⟨fun leaves => ?_, fun latch active => ?_, State.clear_latched held⟩,
    State.overflowTest_crowded, State.overflowTest_absent,
    fun e held => ⟨State.overflowTest_latched held, fun free room => ?_⟩⟩
  · obtain ⟨_, kind, subject⟩ := Perm.find_some held
    rw [State.clear_removes held leaves]
    unfold State.removeCause
    simp only [CauseEntry.names_eq_decide, kind, subject]
  · rw [State.clear_latches held latch active]
    simp only [Perm.replace_eq]
  · rw [State.overflowTest_calm held free room, State.clear_causeOverflow held]

/-! ### CAUSE_ACK (R18) -/

theorem exec_causeAck {s : State} {f : RxFrame} (h : Requested s .causeAck f) :
    exec (.causeAck f) s = .next (((s.taken 30).reqCauseAck f.payload).respond f.tag .causeAck) :=
  live_requested h

theorem exec_causeAckAll {s : State} {f : RxFrame} (h : Requested s .causeAck f) :
    exec (.causeAckAll f) s = .next (((s.taken 30).reqCauseAck f.payload).respond f.tag .causeAck) :=
  live_requested h

theorem State.reqCauseAck_misnamed {s : State} {ws : List Word} (h : parseAck ws = none) :
    s.reqCauseAck ws = s.refuse .refusedRange := by
  unfold State.reqCauseAck
  rw [h]

theorem State.reqCauseAck_unknown {s : State} {ws : List Word} {k : CauseKind} {x : Subject}
    (h : parseAck ws = some (.one k x)) (absent : s.perm.find k x = none) :
    s.reqCauseAck ws = s.refuse .refusedUnknown := by
  unfold State.reqCauseAck
  simp only [h]
  rw [if_pos absent]

theorem State.reqCauseAck_one {s : State} {ws : List Word} {k : CauseKind} {x : Subject} {e : CauseEntry}
    (h : parseAck ws = some (.one k x)) (held : s.perm.find k x = some e) :
    s.reqCauseAck ws = ((s.ackHere k x).afterRemoval s).done := by
  unfold State.reqCauseAck
  simp only [h]
  rw [if_neg (by simp [held])]

theorem State.reqCauseAck_all {s : State} {ws : List Word} (h : parseAck ws = some .all) :
    s.reqCauseAck ws = ((s.ackEach s.perm.causes).afterRemoval s).done := by
  unfold State.reqCauseAck
  simp only [h]

theorem State.ackHere_unchanged {s : State} {k : CauseKind} {x : Subject} {e : CauseEntry}
    (held : s.perm.find k x = some e) (stays : e.latch = .self ∨ e.state = .activeAcked) : s.ackHere k x = s := by
  unfold State.ackHere
  simp only [held]
  rcases stays with self | acked
  · rw [if_pos self]
  · rw [acked]
    exact ite_self _

theorem State.ackHere_active {s : State} {k : CauseKind} {x : Subject} {e : CauseEntry}
    (held : s.perm.find k x = some e) (latch : e.latch = .latch) (active : e.state = .active) :
    s.ackHere k x = s.modPerm fun p => p.replace k x { e with state := .activeAcked } := by
  unfold State.ackHere
  simp only [held, latch, active, reduceCtorEq, if_false]

theorem State.ackHere_latched {s : State} {k : CauseKind} {x : Subject} {e : CauseEntry}
    (held : s.perm.find k x = some e) (latch : e.latch = .latch) (latched : e.state = .latched) :
    s.ackHere k x = s.removeCause e .acked := by
  unfold State.ackHere
  simp only [held, latch, latched, reduceCtorEq, if_false]

theorem State.ackEach_eq_foldl (es : List CauseEntry) :
    ∀ s : State, s.ackEach es = es.foldl (fun s e => s.ackHere e.kind e.subject) s := by
  induction es with
  | nil => exact fun _ => rfl
  | cons e es ih => exact fun s => ih (s.ackHere e.kind e.subject)

/-! ### The names CAUSE_ACK gives -/

theorem CauseKind.ofCode_code (k : CauseKind) : CauseKind.ofCode k.code = some k := by
  cases k <;> rfl

theorem CauseKind.code_of_ofCode {n : Nat} {k : CauseKind} (h : CauseKind.ofCode n = some k) : k.code = n := by
  have small : ∀ n : Fin 27, ∀ k, CauseKind.ofCode n = some k → k.code = n := by
    intro n
    fin_cases n <;> intro k h <;> cases h <;> rfl
  by_cases inside : n < 27
  · exact small ⟨n, inside⟩ k h
  · unfold CauseKind.ofCode at h
    rw [if_neg (by omega), Vector.getElem?_eq_none (by omega)] at h
    cases h

theorem CauseKind.code_pos (k : CauseKind) : 1 ≤ k.code := Nat.succ_le_succ (Nat.zero_le _)

theorem CauseKind.code_le (k : CauseKind) : k.code ≤ 26 := k.index.isLt

/-- A subject read has the type of its code, and its value lies in the type's range (R13). -/
theorem parseSubject_some {type : Nat} {v : Word} {x : Subject} (h : parseSubject type v = some x) :
    x.type.code = type ∧ ¬((type = 0 ∨ type = 5) ∧ v ≠ 0) ∧ ¬(type = 1 ∧ (v = 0 ∨ 24 < v.toNat)) ∧
      ¬(type = 2 ∧ (v = 0 ∨ 30 < v.toNat)) ∧ ¬(type = 4 ∧ 15 < v.toNat) := by
  have positive : 1 ≤ v.toNat → v ≠ 0 := by
    rintro low rfl
    exact absurd low (by decide)
  unfold parseSubject at h
  split at h
  case h_4 => cases h; simp [Subject.type, SubjectType.code]
  case h_7 => cases h
  all_goals
    split at h
    · next range =>
      cases h
      simp_all [Subject.type, SubjectType.code]
    · cases h

theorem field_low (w : Word) (len : Nat) : field w 0 len = w.toNat % 2 ^ len := by
  unfold field
  rw [Nat.pow_zero, Nat.div_one]

/-- A single name that R18 answers REFUSED_RANGE: no kind, another type than the kind's, or a value out of range. -/
theorem parseAck_misnamed {w v : Word} (one : w.getLsbD 15 = false)
    (h : w.toNat % 32 = 0 ∨ 26 < w.toNat % 32 ∨
      (∃ k : CauseKind, k.code = w.toNat % 32 ∧ k.subjectType.code ≠ w.toNat / 256 % 8) ∨
      ((w.toNat / 256 % 8 = 0 ∨ w.toNat / 256 % 8 = 5) ∧ v ≠ 0) ∨
      (w.toNat / 256 % 8 = 1 ∧ (v = 0 ∨ 24 < v.toNat)) ∨ (w.toNat / 256 % 8 = 2 ∧ (v = 0 ∨ 30 < v.toNat)) ∨
      (w.toNat / 256 % 8 = 4 ∧ 15 < v.toNat)) : parseAck [w, v] = none := by
  show (if bit w 15 then _ else _) = none
  rw [if_neg (show ¬bit w 15 = true from Bool.eq_false_iff.1 one), show field w 0 5 = w.toNat % 32 from field_low w 5]
  split
  · next k x kind subject =>
    refine if_neg fun typed => ?_
    obtain ⟨type, zero, tower, node, input⟩ := parseSubject_some subject
    have code := CauseKind.code_of_ofCode kind
    have low := k.code_pos
    have high := k.code_le
    rcases h with h | h | ⟨k', code', other⟩ | h | h | h | h
    · omega
    · omega
    · have same : k' = k := by
        have found := CauseKind.ofCode_code k'
        rw [code', kind] at found
        exact (Option.some.inj found).symm
      rw [same, ← typed] at other
      exact other type
    · exact zero h
    · exact tower h
    · exact node h
    · exact input h
  · rfl

/-- A name of all entries with a field that is not 0 (log 17). -/
theorem parseAck_all_misnamed {w v : Word} (all : w.getLsbD 15 = true)
    (h : w.toNat % 32 ≠ 0 ∨ w.toNat / 256 % 8 ≠ 0 ∨ v ≠ 0) : parseAck [w, v] = none := by
  show (if bit w 15 then _ else _) = none
  rw [if_pos (by unfold bit; exact all), show field w 0 5 = w.toNat % 32 from field_low w 5]
  refine if_neg ?_
  rintro ⟨kind, type, value⟩
  exact h.elim (absurd kind) fun h => h.elim (absurd type) (absurd value)

/-- Settles O13: an acknowledgement by what its two words name, and of one entry by the entry it finds. -/
theorem causeAckActsByState : Obligations.CauseAckActsByState := by
  refine ⟨fun s f k x h named => ⟨fun absent => ?_, fun e held =>
    ⟨fun stays => ?_, fun latch active => ?_, fun latch latched => ?_⟩⟩, fun s f w v h words misnamed => ?_,
    fun s f h named => ?_⟩
  · rw [exec_causeAck h, State.reqCauseAck_unknown named absent, State.refuse_respond]
  · rw [exec_causeAck h, State.reqCauseAck_one named held, State.ackHere_unchanged held stays,
      State.afterRemoval_self, State.done_respond]
  · rw [exec_causeAck h, State.reqCauseAck_one named held, State.ackHere_active held latch active,
      State.afterRemoval_replace, State.done_respond]
    simp only [Perm.replace_eq]
  · rw [exec_causeAck h, State.reqCauseAck_one named held, State.ackHere_latched held latch latched,
      State.afterRemoval_removeCause (Perm.find_some held).1, State.done_respond]
  · have refused : parseAck f.payload = none := by
      rw [words]
      rcases misnamed with ⟨one, bad⟩ | ⟨all, bad⟩
      · exact parseAck_misnamed one bad
      · exact parseAck_all_misnamed all bad
    rw [exec_causeAck h, exec_causeAckAll h, State.reqCauseAck_misnamed refused, State.refuse_respond]
    exact ⟨rfl, rfl⟩
  · rw [exec_causeAckAll h, State.reqCauseAck_all named, State.done_respond, State.ackEach_eq_foldl]
    rfl

/-! ### The notice of a frame (R12, R141, R151) -/

theorem State.taken_node {a : Nat} (h : a ≠ 30) (s : State) : s.taken a = (s.heardFrom a).setExchange none := by
  unfold State.taken
  rw [if_neg h]

theorem State.taken_console (s : State) : s.taken 30 = (s.heardFrom 30).consoleNotice.setExchange none := rfl

/-- Settles O14: a frame of a node is heard, that of the console noticed too, and the exchange ends. -/
theorem frameTakenNoticesItsNode : Obligations.FrameTakenNoticesItsNode := by
  intro s a
  refine ⟨fun node => ?_, fun console => ?_⟩
  · rw [State.taken_node node]
    rfl
  · subst console
    rw [State.taken_console]
    rfl

end Sys2Proof.Machine
end

section
/-! The line requests, the READY checks they make, and the drive's edges and timers (chapter 1). -/

namespace Sys2Proof.Machine

open Host

/-! ### The READY checks, first failure first (R4) -/

theorem pathChecks_first {s : State} {n : Nat} (h : pathChecks s.trav.path = some n) :
    2 ≤ n ∧ n ≤ 9 ∧ ¬ReadyPasses s n ∧ ∀ m, 2 ≤ m → m < n → ReadyPasses s m := by
  unfold pathChecks at h
  repeat' split at h
  all_goals cases h
  all_goals
    simp only [← Bool.not_eq_true, ready_length, ready_entry, ready_offsets, ready_leads, ready_order, ready_shut,
      ready_windows, decide_eq_true_iff, ready_zones, not_not] at *
    refine ⟨by omega, by omega, by assumption, fun m low high => ?_⟩
    interval_cases m <;> assumption

theorem pathChecks_all {s : State} (h : pathChecks s.trav.path = none) : ∀ m, 2 ≤ m → m ≤ 9 → ReadyPasses s m := by
  unfold pathChecks at h
  repeat' split at h
  all_goals cases h
  simp only [← Bool.not_eq_true, ready_length, ready_entry, ready_offsets, ready_leads, ready_order, ready_shut,
    ready_windows, decide_eq_true_iff, ready_zones, not_not] at *
  intro m low high
  interval_cases m <;> assumption

/-- The check named in a refusal fails, and every check before it passes. -/
theorem readyCheck_first {s : State} {n : Nat} (h : s.readyCheck = some n) :
    1 ≤ n ∧ n ≤ 12 ∧ ¬ReadyPasses s n ∧ ∀ m, 1 ≤ m → m < n → ReadyPasses s m := by
  unfold State.readyCheck at h
  split at h
  · next unwritten =>
    cases h
    exact ⟨Nat.le_refl 1, by omega, fun passes => (ready_site s).2 passes unwritten, fun m low high => by omega⟩
  · next written =>
    have site := (ready_site s).1 written
    split at h
    · next path =>
      cases h
      obtain ⟨low, high, fails, before⟩ := pathChecks_first path
      refine ⟨by omega, by omega, fails, fun m one below => ?_⟩
      rcases Nat.lt_or_eq_of_le one with two | rfl
      · exact before m two below
      · exact site
    · next path =>
      have passed := pathChecks_all path
      repeat' split at h
      all_goals cases h
      all_goals
        simp only [← Bool.not_eq_true, ready_drives, ready_kinds, ready_towers, not_not] at *
        refine ⟨by omega, by omega, by assumption, fun m one below => ?_⟩
        rcases Nat.lt_or_eq_of_le one with two | rfl
        · by_cases inPath : m ≤ 9
          · exact passed m two inPath
          · interval_cases m <;> assumption
        · exact site

theorem readyCheck_none_of_all {s : State} (h : ∀ n, 1 ≤ n → n ≤ 12 → ReadyPasses s n) : s.readyCheck = none := by
  cases found : s.readyCheck with
  | none => rfl
  | some n =>
    obtain ⟨low, high, fails, _⟩ := readyCheck_first found
    exact absurd (h n low high) fails

/-- The first check that fails is the one named. -/
theorem readyCheck_of_first {s : State} {n : Nat} (low : 1 ≤ n) (high : n ≤ 12) (fails : ¬ReadyPasses s n)
    (before : ∀ m, 1 ≤ m → m < n → ReadyPasses s m) : s.readyCheck = some n := by
  cases found : s.readyCheck with
  | none => exact absurd (ready_all found n low high) fails
  | some k =>
    obtain ⟨low', _, fails', before'⟩ := readyCheck_first found
    rcases Nat.lt_trichotomy k n with below | same | above
    · exact absurd (before k low' below) fails'
    · rw [same]
    · exact absurd (before' n low above) fails

/-- A frame taken leaves all that the READY checks read. -/
theorem readyPasses_taken (s : State) (a n : Nat) : ReadyPasses (s.taken a) n ↔ ReadyPasses s n := by
  unfold ReadyPasses State.towerAt
  simp only [State.taken_trav, State.taken_nodeTable, State.taken_site, State.taken_siteRecord, State.taken_rsu]

/-! ### The line requests at PERM -/

theorem exec_lineReady {s : State} {f : RxFrame} (h : Requested s .lineReady f) :
    exec (.lineReady f) s = .next (((s.taken 30).reqLineReady f.payload).respond f.tag .lineReady) := live_requested h

theorem exec_lineSetup {s : State} {f : RxFrame} (h : Requested s .lineSetup f) :
    exec (.lineSetup f) s = .next (((s.taken 30).reqLineSetup f.payload).respond f.tag .lineSetup) := live_requested h

theorem exec_lineStart {s : State} {f : RxFrame} (h : Requested s .lineStart f) :
    exec (.lineStart f) s = .next (((s.taken 30).reqLineStart f.payload).respond f.tag .lineStart) := live_requested h

theorem exec_lineHalt {s : State} {f : RxFrame} (h : Requested s .lineHalt f) :
    exec (.lineHalt f) s = .next (((s.taken 30).reqLineHalt f.payload).respond f.tag .lineHalt) := live_requested h

theorem exec_linePark {s : State} {f : RxFrame} (h : Requested s .linePark f) :
    exec (.linePark f) s = .next (((s.taken 30).reqLinePark f.payload).respond f.tag .linePark) := live_requested h

theorem exec_lineWake {s : State} {f : RxFrame} (h : Requested s .lineWake f) :
    exec (.lineWake f) s = .next (((s.taken 30).reqLineWake f.payload).respond f.tag .lineWake) := live_requested h

theorem State.reqLineReady_elsewhere {s : State} (h : s.perm.line ≠ .setup) (ws : List Word) :
    s.reqLineReady ws = s.refuse .refusedState [0] := if_pos h

theorem State.reqLineSetup_elsewhere {s : State} (h : s.perm.line ≠ .held) (ws : List Word) :
    s.reqLineSetup ws = s.refuse .refusedState := if_pos h

theorem State.reqLineStart_elsewhere {s : State} (h : s.perm.line ≠ .held) (ws : List Word) :
    s.reqLineStart ws = s.refuse .refusedState := if_pos h

theorem State.reqLineHalt_elsewhere {s : State} (h : s.perm.line ≠ .running) (ws : List Word) :
    s.reqLineHalt ws = s.refuse .refusedState := if_pos h

theorem State.reqLinePark_elsewhere {s : State} (h : s.perm.line ≠ .held) (ws : List Word) :
    s.reqLinePark ws = s.refuse .refusedState := if_pos h

theorem State.reqLineWake_elsewhere {s : State} (h : s.perm.line ≠ .quiet) (ws : List Word) :
    s.reqLineWake ws = s.refuse .refusedState := if_pos h

theorem State.reqLineReady_fails {s : State} {n : Nat} (h : s.perm.line = .setup) (fails : s.readyCheck = some n) :
    s.reqLineReady [] = s.refuse .refusedState [word n] := by
  unfold State.reqLineReady
  simp only [h, fails, ne_eq, not_true_eq_false, if_false]

theorem State.reqLineReady_passes {s : State} (h : s.perm.line = .setup) (passes : s.readyCheck = none) :
    s.reqLineReady [] = s.lineReadied.done := by
  unfold State.reqLineReady
  simp only [h, passes, ne_eq, not_true_eq_false, if_false]

theorem State.reqLineSetup_held {s : State} (h : s.perm.line = .held) :
    s.reqLineSetup [] = if s.trn.train ≠ [] then s.refuse .refusedInUse else s.lineToSetup.done := by
  unfold State.reqLineSetup
  simp only [h, ne_eq, not_true_eq_false, if_false]

theorem State.reqLineStart_held {s : State} (h : s.perm.line = .held) :
    s.reqLineStart [] =
      if s.perm.stopping = true ∨ s.pins.dmov = true then s.refuse .refusedState else s.lineStarted.done := by
  unfold State.reqLineStart
  simp only [h, ne_eq, not_true_eq_false, if_false]

theorem State.reqLineHalt_running {s : State} (h : s.perm.line = .running) :
    s.reqLineHalt [] = (s.enterStopping (.request .lineHalt)).done := by
  unfold State.reqLineHalt
  simp only [h, ne_eq, not_true_eq_false, if_false]

theorem State.reqLinePark_held {s : State} (h : s.perm.line = .held) :
    s.reqLinePark [] =
      if s.trn.train ≠ [] ∨ s.smt.call ≠ .idle then s.refuse .refusedInUse
      else if s.perm.stopping then s.refuse .refusedState
      else (s.setLine .quiet (.request .linePark)).done := by
  unfold State.reqLinePark
  simp only [h, ne_eq, not_true_eq_false, if_false]

theorem State.reqLineWake_quiet {s : State} (h : s.perm.line = .quiet) :
    s.reqLineWake [] = (s.setLine .held (.request .lineWake)).done := by
  unfold State.reqLineWake
  simp only [h, ne_eq, not_true_eq_false, if_false]

theorem Perm.stopping_eq_any (p : Perm) :
    p.stopping = p.causes.any fun e => decide (e.response = .stop ∨ e.response = .emergency) := by
  unfold Perm.stopping
  congr 1
  funext e
  cases e.response <;> rfl

/-- The line into RUNNING, with TRAV's part (R6, R24). -/
theorem State.lineStarted_eq (s : State) :
    s.lineStarted =
      let v := ((s.setLine .running (.request .lineStart)).modPerm fun p =>
        { p with silenceTimer := some (s.site.silenceLimit * 1000) }).modTrav fun t => { t with highWater := t.counter }
      if s.trav.reverseFlag then
        (v.modTrav fun t => { t with reverseFlag := false }).clear .conveyorReverse .noSubject
      else v := by
  have site : (s.setLine .running (.request .lineStart)).site = s.site := State.report_site _ _
  unfold State.lineStarted State.travRunning
  simp only [site, State.modTrav_trav, State.modPerm_trav, State.setLine_trav]

/-! ### The requests settled -/

/-- Settles O15: outside SETUP check 0 is named; in SETUP the checks are made on a state that the frame left as it was for
them, and the first failure answers. -/
theorem lineReadyMakesTheTwelveChecks : Obligations.LineReadyMakesTheTwelveChecks := by
  intro s f h
  refine ⟨fun elsewhere => ?_, fun setup empty => ⟨fun passes => ?_, fun n low high fails before => ?_⟩⟩
  · rw [exec_lineReady h, State.reqLineReady_elsewhere (by rwa [State.taken_line]), State.refuse_respond]
  · have none := readyCheck_none_of_all fun n low high => (readyPasses_taken s 30 n).2 (passes n low high)
    rw [exec_lineReady h, empty, State.reqLineReady_passes (by rwa [State.taken_line]) none, State.done_respond]
    rfl
  · have first := readyCheck_of_first low high (mt (readyPasses_taken s 30 n).1 fails)
      fun m one below => (readyPasses_taken s 30 m).2 (before m one below)
    rw [exec_lineReady h, empty, State.reqLineReady_fails (by rwa [State.taken_line]) first, State.refuse_respond]

/-- Settles O16: both requests by the train, and LINE_PARK by the call and the cause set after it. -/
theorem lineSetupAndParkNeedAnEmptyTrain : Obligations.LineSetupAndParkNeedAnEmptyTrain := by
  refine ⟨fun s f h empty held => ⟨fun noTrain => ?_, fun train => ?_⟩,
    fun s f h empty held => ⟨fun noTrain idle calm => ?_, fun inUse => ?_, fun noTrain idle stopping => ?_⟩⟩
  · rw [exec_lineSetup h, empty, State.reqLineSetup_held (by rwa [State.taken_line]), State.taken_trn,
      if_neg (not_not.2 noTrain), State.done_respond]
    unfold State.lineToSetup State.summitSetup
    simp only [State.sweepSetup, State.modSmt_smt, State.modSwp_smt, State.setLine_smt, State.taken_smt]
  · rw [exec_lineSetup h, empty, State.reqLineSetup_held (by rwa [State.taken_line]), State.taken_trn, if_pos train,
      State.refuse_respond]
  · rw [exec_linePark h, empty, State.reqLinePark_held (by rwa [State.taken_line]), State.taken_trn, State.taken_smt,
      if_neg (by simp [noTrain, idle]), Perm.stopping_eq_any, calm, if_neg Bool.false_ne_true, State.done_respond]
  · rw [exec_linePark h, empty, State.reqLinePark_held (by rwa [State.taken_line]), State.taken_trn, State.taken_smt,
      if_pos inUse, State.refuse_respond]
  · rw [exec_linePark h, empty, State.reqLinePark_held (by rwa [State.taken_line]), State.taken_trn, State.taken_smt,
      if_neg (by simp [noTrain, idle]), Perm.stopping_eq_any, stopping, if_pos rfl, State.refuse_respond]

/-- Settles O17: LINE_START by the cause set and DMOV. -/
theorem lineStartNeedsACalmSet : Obligations.LineStartNeedsACalmSet := by
  intro s f h empty held
  refine ⟨fun calm still => ?_, fun unfit => ?_⟩
  · have fit : ¬((s.taken 30).perm.stopping = true ∨ s.pins.dmov = true) := by
      rw [Perm.stopping_eq_any, calm, still]
      simp
    rw [exec_lineStart h, empty, State.reqLineStart_held (by rwa [State.taken_line]), State.taken_pins, if_neg fit,
      State.done_respond, State.lineStarted_eq]
    simp only [State.taken_trav]
  · rw [exec_lineStart h, empty, State.reqLineStart_held (by rwa [State.taken_line]), State.taken_pins,
      Perm.stopping_eq_any, if_pos unfit, State.refuse_respond]

/-- Settles O18: LINE_HALT and LINE_WAKE, each in the state that takes it. -/
theorem lineHaltStopsAndLineWakeHolds : Obligations.LineHaltStopsAndLineWakeHolds := by
  intro s f empty
  refine ⟨fun h running => ?_, fun h quiet => ?_⟩
  · rw [exec_lineHalt h, empty, State.reqLineHalt_running (by rwa [State.taken_line]), State.done_respond]
    unfold State.enterStopping
    simp only [State.setLine_pins, State.modPerm_pins, State.taken_pins]
  · rw [exec_lineWake h, empty, State.reqLineWake_quiet (by rwa [State.taken_line]), State.done_respond]

/-- Settles O19: each request's first test is the line state. -/
theorem lineRequestsElsewhereAreRefused : Obligations.LineRequestsElsewhereAreRefused := by
  intro s f
  refine ⟨fun h line => ?_, fun h line => ?_, fun h line => ?_, fun h line => ?_, fun h line => ?_⟩
  · rw [exec_lineSetup h, State.reqLineSetup_elsewhere (by rwa [State.taken_line]), State.refuse_respond]
  · rw [exec_lineStart h, State.reqLineStart_elsewhere (by rwa [State.taken_line]), State.refuse_respond]
  · rw [exec_lineHalt h, State.reqLineHalt_elsewhere (by rwa [State.taken_line]), State.refuse_respond]
  · rw [exec_linePark h, State.reqLinePark_elsewhere (by rwa [State.taken_line]), State.refuse_respond]
  · rw [exec_lineWake h, State.reqLineWake_elsewhere (by rwa [State.taken_line]), State.refuse_respond]

/-! ### RUNNING is entered by LINE_START alone (R1, R6) -/

/-- From s to t the line has not entered RUNNING. -/
def NotStarted (s t : State) : Prop := t.perm.line = .running → s.perm.line = .running

theorem NotStarted.of_line {s t : State} (h : t.perm.line = s.perm.line) : NotStarted s t := fun r => h ▸ r

theorem NotStarted.of_ne {s t : State} (h : t.perm.line ≠ .running) : NotStarted s t := fun r => absurd r h

theorem NotStarted.trans {s t u : State} (a : NotStarted s t) (b : NotStarted t u) : NotStarted s u := fun r => a (b r)

/-- An event that keeps the 640 in order takes the line to HELD or STOPPING at most. -/
theorem Keep.notStarted {s t : State} (h : Keep s t) : NotStarted s t := by
  intro running
  rcases h.line with same | held | stopping
  · exact same ▸ running
  · rw [held] at running
    cases running
  · rw [stopping] at running
    cases running

theorem live_notStarted {f : State → State} {s t : State} (h : NotStarted s (f s)) (e : live f s = .next t) :
    NotStarted s t := by
  unfold live at e
  split at e <;> cases e
  · exact h
  · exact id

theorem State.lineToSetup_notStarted (s : State) : NotStarted s s.lineToSetup := by
  have setup : NotStarted s (s.setLine .setup (.request .lineSetup)).sweepSetup :=
    NotStarted.of_ne (by simp [State.sweepSetup])
  exact setup.trans (State.summitSetup_keep _).notStarted

theorem State.serveRequest_notStarted (s : State) {k : RequestKind} (other : k ≠ .lineStart) (ws : List Word) :
    NotStarted s (s.serveRequest k ws).state := by
  cases k
  case lineStart => exact absurd rfl other
  case lineSetup =>
    show NotStarted s (s.reqLineSetup ws).state
    unfold State.reqLineSetup
    repeat' split
    all_goals first | exact id | exact s.lineToSetup_notStarted
  case linePark =>
    show NotStarted s (s.reqLinePark ws).state
    unfold State.reqLinePark
    repeat' split
    all_goals first | exact id | exact NotStarted.of_ne (by simp)
  case tableRead => exact NotStarted.of_line (by rw [show s.serveRequest .tableRead ws = s.reqTableRead ws from rfl,
      s.reqTableRead_state])
  case tableWrite => exact (s.reqTableWrite_keep ws).notStarted
  case siteWrite => exact (s.reqSiteWrite_keep ws).notStarted
  case recordWrite => exact (s.reqRecordWrite_keep ws).notStarted
  case recordRemove => exact (s.reqRecordRemove_keep ws).notStarted
  case causeAck => exact (s.reqCauseAck_keep ws).notStarted
  case lineReady => exact (s.reqLineReady_keep ws).notStarted
  case lineHalt => exact (s.reqLineHalt_keep ws).notStarted
  case lineWake => exact (s.reqLineWake_keep ws).notStarted
  case nodeClear => exact (s.reqNodeClear_keep ws).notStarted
  case partReset => exact (s.reqPartReset_keep ws).notStarted
  case statusRead => unfold State.serveRequest State.reqStatusRead; simp only; split <;> exact id
  case siteRead => unfold State.serveRequest State.reqSiteRead; simp only; split <;> exact id
  case recordRead => unfold State.serveRequest State.reqRecordRead; simp only; (repeat' split) <;> exact id
  case causesRead => unfold State.serveRequest State.reqCausesRead; simp only; (repeat' split) <;> exact id

/-- LINE_START is the request of frame kind 92. -/
theorem RequestKind.ofFrameKind_lineStart {k : Byte} (h : RequestKind.ofFrameKind k = some .lineStart) : k = 92 := by
  unfold RequestKind.ofFrameKind at h
  split at h <;> cases h
  next code => exact BitVec.eq_of_toNat_eq code

theorem State.turnFrame_notStarted {s t : State} {a : Nat} {kind tag : Byte} {ws : List Word} (other : kind ≠ 92)
    (h : s.turnFrame a kind tag ws = some t) : NotStarted s t := by
  unfold State.turnFrame at h
  repeat' split at h
  all_goals first | cases h | skip
  · exact id
  · exact (s.closureDone_keep a ws).notStarted
  · exact id
  · exact (s.gripResult_keep ws).notStarted
  · exact id
  · exact ((s.wake_keep .tag).trans (State.tagRead_keep _ a ws)).notStarted
  · exact id
  · obtain ⟨r, request, rfl⟩ := Option.map_eq_some_iff.1 h
    refine (s.serveRequest_notStarted ?_ ws).trans (NotStarted.of_line rfl)
    rintro rfl
    exact other (RequestKind.ofFrameKind_lineStart request)

theorem State.takeFrame_notStarted (s : State) (x : Exchange) {kind : Byte} (other : kind ≠ 92) (tag : Byte)
    (ws : List Word) : NotStarted s (s.takeFrame x kind tag ws) := by
  unfold State.takeFrame
  simp only
  have first : NotStarted s (if lengthAllowed kind ws = true then s.setExchange none
      else (s.setExchange none).refuseFrame x.address kind .slc) := by
    split <;> exact NotStarted.of_line rfl
  generalize (if lengthAllowed kind ws = true then s.setExchange none
      else (s.setExchange none).refuseFrame x.address kind .slc) = u at first
  split
  · exact first.trans (u.complete_keep _ _).notStarted
  · split
    · cases handed : u.turnFrame x.address kind tag ws with
      | none => exact first.trans (u.refuseFrame_keep _ _ _).notStarted
      | some t => exact first.trans (State.turnFrame_notStarted other handed)
    · exact first
  all_goals exact first

theorem State.receive_notStarted (s : State) {kind : Byte} (other : kind ≠ 92) (f : RxFrame) :
    NotStarted s (s.receive kind f) := by
  unfold State.receive State.judgeFrame
  simp only
  have first : NotStarted s (if f.sender = 30 then (s.heardFrom f.sender).consoleNotice else s.heardFrom f.sender) := by
    split
    · exact ((s.heardFrom_keep _).trans (State.consoleNotice_keep _)).notStarted
    · exact (s.heardFrom_keep _).notStarted
  generalize (if f.sender = 30 then (s.heardFrom f.sender).consoleNotice else s.heardFrom f.sender) = u at first
  repeat' split
  · exact id
  · exact id
  · exact (s.refuseFrame_keep _ _ _).notStarted
  · exact first.trans (u.refuseFrame_keep _ _ _).notStarted
  · exact first.trans (u.takeFrame_notStarted _ other _ _)
  · exact first.trans (u.refuseFrame_keep _ _ _).notStarted

theorem State.setCall_notStarted (s : State) (c : CallState) (e : CallEvent) : NotStarted s (s.setCall c e) := by
  unfold State.setCall
  simp only
  split
  · exact (s.wake_keep .call).notStarted.trans (NotStarted.of_line rfl)
  · exact NotStarted.of_line rfl

theorem State.connectOut_notStarted (s : State) (e : CallEvent) : NotStarted s (s.connectOut e) := by
  unfold State.connectOut
  simp only
  split <;> exact (s.setCall_notStarted .connected e).trans (NotStarted.of_line rfl)

theorem State.callCodeTaken_notStarted (s : State) (c : CallCode) : NotStarted s (s.callCodeTaken c) := by
  unfold State.callCodeTaken
  split
  all_goals
    first
    | exact id
    | exact s.connectOut_notStarted _
    | exact (s.endCall_keep _ _).notStarted
    | exact (s.setCall_notStarted .incoming .summitCall).trans (NotStarted.of_line rfl)

theorem State.judgeCall_notStarted (s : State) (c : CallCode) (n : BitVec 16) : NotStarted s (s.judgeCall c n) := by
  unfold State.judgeCall
  repeat' split
  · exact NotStarted.of_line rfl
  · exact (NotStarted.of_line (t := s.modSmt _) rfl).trans (State.callCodeTaken_notStarted _ c)
  · exact NotStarted.of_line rfl

theorem State.takeSummitSlot_notStarted (s : State) (n : BitVec 16) (slot : List Word) :
    NotStarted s (s.takeSummitSlot n slot) := by
  unfold State.takeSummitSlot State.summitSlot
  split
  · split
    · exact s.summitMiss_keep.notStarted
    · refine NotStarted.trans (NotStarted.trans (NotStarted.trans ?_ (State.judgeSafety_keep _ _ _).notStarted)
        (State.judgeCall_notStarted _ _ _)) (State.appendDown_keep _ _).notStarted
      split
      · exact NotStarted.of_line (by simp)
      · exact NotStarted.of_line rfl
  · exact s.summitMiss_keep.notStarted

theorem State.returned_notStarted (s : State) (ws : List Word) : NotStarted s (s.returned ws) := by
  unfold State.returned State.validReturn
  simp only
  repeat' split
  all_goals first | exact NotStarted.of_line rfl | skip
  refine NotStarted.trans ?_ (State.takeSummitSlot_notStarted _ _ _)
  exact (NotStarted.of_line (t := s.modSwp _) rfl).trans
    (Keep.foldl _ (fun s k => s.takeTowerSlot_keep k _ _) _ _).notStarted

theorem State.intervalExpired_notStarted (s : State) : NotStarted s s.intervalExpired := by
  unfold State.intervalExpired State.sendAndRestart State.sendSweep
  split
  · exact id
  · exact (s.takeUplink_keep.trans (State.countSweep_keep _)).notStarted.trans (NotStarted.of_line rfl)

theorem State.responseIsSent_notStarted (s : State) : NotStarted s s.responseIsSent := by
  unfold State.responseIsSent
  simp only
  repeat' split
  · exact NotStarted.of_ne (by simp [State.beginCommandReset, Perm.commandReset, Perm.fullReset])
  all_goals exact NotStarted.of_line rfl

theorem State.endReset_notStarted (s : State) (c : ResetCause) (p : InputLevels) : NotStarted s (s.endReset c p) := by
  unfold State.endReset
  simp only
  split
  · exact (NotStarted.of_line (by rfl)).trans (State.raise_keep _ .driveUncommanded .noSubject rfl).notStarted
  · exact NotStarted.of_line rfl

/-- A frame of a kind other than LINE_START's. -/
theorem live_receive_notStarted {kind : Byte} {f : RxFrame} {s t : State} (other : kind ≠ 92)
    (e : live (fun s => s.receive kind f) s = .next t) : NotStarted s t :=
  live_notStarted (s.receive_notStarted other f) e

/-- A command that is no LINE_START frame does not start the line. -/
theorem exec_notStarted {c : Instr} {s t : State} (start : ∀ f, c ≠ .lineStart f)
    (frame : ∀ kind f, c = .unsolicitedFrame kind f → kind ≠ 92) (e : exec c s = .next t) : NotStarted s t := by
  cases c
  case lineStart f => exact absurd rfl (start f)
  case unsolicitedFrame kind f => exact live_receive_notStarted (frame kind f rfl) e
  case forwardStep => exact live_notStarted s.stepForward_keep.notStarted e
  case reverseStep => exact live_notStarted s.stepReverse_keep.notStarted e
  case encoderSkip => exact live_notStarted s.skipStep_keep.notStarted e
  case zoneEdge input => exact live_notStarted (f := fun s => s.zoneRise input) (s.zoneRise_keep input).notStarted e
  case dmovRise => exact live_notStarted s.dmovRises_keep.notStarted e
  case dmovFall => exact live_notStarted s.dmovFalls_keep.notStarted e
  case divcChange divc0 divc1 => exact live_notStarted (f := fun s => s.divcChanged divc0 divc1) (s.divcChanged_keep divc0 divc1).notStarted e
  case offHook => exact live_notStarted (f := fun s => s.hookEdge true) (s.hookEdge_keep true).notStarted e
  case onHook => exact live_notStarted (f := fun s => s.hookEdge false) (s.hookEdge_keep false).notStarted e
  case vsiSample sample => exact live_notStarted (f := fun s => s.sampleIn sample) (s.sampleIn_keep sample).notStarted e
  case vsoSampleTime => exact live_notStarted s.sampleOut_keep.notStarted e
  case fullReset source =>
    cases e
    split
    · exact id
    · exact NotStarted.of_ne (by simp [State.beginFullReset, Perm.fullReset])
  case fullResetEnd levels =>
    have e : execFullResetEnd levels s = .next t := e
    unfold execFullResetEnd at e
    split at e <;> cases e
    · exact s.endReset_notStarted _ levels
    all_goals exact id
  case commandResetEnd levels =>
    have e : execCommandResetEnd levels s = .next t := e
    unfold execCommandResetEnd at e
    split at e <;> cases e
    · exact s.endReset_notStarted _ levels
    all_goals exact id
  case stopTimerExpiry => exact live_notStarted s.stopExpired_keep.notStarted e
  case consoleSilenceExpiry => exact live_notStarted s.silenceExpired_keep.notStarted e
  case tagTimerExpiry entry => exact live_notStarted (f := fun s => s.tagExpired entry) (s.tagExpired_keep entry).notStarted e
  case pendingSlotExpiry => exact live_notStarted s.slotExpired_keep.notStarted e
  case actTimerExpiry address => exact live_notStarted (f := fun s => s.actExpiry address) (s.actExpiry_keep address).notStarted e
  case ringTimerExpiry => exact live_notStarted s.ringExpired_keep.notStarted e
  case pollTimerExpiry => exact live_notStarted s.pollExpired_keep.notStarted e
  case intervalExpiry => exact live_notStarted s.intervalExpired_notStarted e
  case returnDeadlineExpiry => exact live_notStarted s.deadlineExpired_keep.notStarted e
  case sweepReturn words => exact live_notStarted (f := fun s => s.returned words) (s.returned_notStarted words) e
  case automaticCallClaim => exact live_notStarted s.takeAutoClaim_keep.notStarted e
  case arbiterChoice => exact live_notStarted s.arbiter_keep.notStarted e
  case responseSent => exact live_notStarted s.responseIsSent_notStarted e
  case broadcastClearSent => exact live_notStarted s.clearIsSent_keep.notStarted e
  case reportFrameSent => exact live_notStarted s.reportIsSent_keep.notStarted e
  case answerWindowClose => exact live_notStarted s.answerWindowCloses_keep.notStarted e
  case turnWindowClose => exact live_notStarted s.turnWindowCloses_keep.notStarted e
  case pollSlotClose answer => exact live_notStarted (f := fun s => s.pollSlotCloses answer) (s.pollSlotCloses_keep answer).notStarted e
  case answerWindowOpens => exact live_notStarted s.windowOpens_keep.notStarted e
  all_goals exact live_receive_notStarted (by decide) e

/-- Settles O20: were the command no LINE_START frame, the line would not have entered RUNNING. -/
theorem runningIsEnteredByLineStartAlone : Obligations.RunningIsEnteredByLineStartAlone := by
  intro c s t e before after
  by_contra none
  obtain ⟨start, frame⟩ := not_or.1 none
  refine before (exec_notStarted (fun f h => start ⟨f, h⟩) (fun kind f h k => frame ⟨kind, f, h, k⟩) e after)

/-! ### DMOV and PERM's two timers (R8, R9, R12) -/

theorem State.dmovRises_eq (s : State) :
    s.dmovRises =
      let high := s.setPins { s.pins with dmov := true }
      if s.perm.line = .held ∨ s.perm.line = .quiet ∨ s.perm.line = .setup then high.raise .driveUncommanded .noSubject
      else high := by
  unfold State.dmovRises State.setDmov
  simp only [State.setPins_perm]
  cases s.perm.line <;> rfl

/-- Settles O41: the two edges, then each timer by whether it runs. -/
theorem driveAndPermTimersAreSupervised : Obligations.DriveAndPermTimersAreSupervised := by
  intro s phase
  refine ⟨?_, ?_, fun stopping runs => ?_, fun idle => ?_, fun runs => ?_, fun idle => ?_⟩
  · have rises : exec .dmovRise s = .next s.dmovRises := live_of phase
    rw [rises, State.dmovRises_eq]
  · have falls : exec .dmovFall s = .next s.dmovFalls := live_of phase
    exact falls
  · have expires : exec .stopTimerExpiry s = .next s.stopExpired := live_of phase
    rw [expires, State.stopExpired, if_pos ⟨stopping, runs⟩]
  · have expires : exec .stopTimerExpiry s = .next s.stopExpired := live_of phase
    rw [expires, State.stopExpired, if_neg fun both => idle.elim (absurd both.1) both.2]
  · have expires : exec .consoleSilenceExpiry s = .next s.silenceExpired := live_of phase
    rw [expires, State.silenceExpired, if_pos runs]
  · have expires : exec .consoleSilenceExpiry s = .next s.silenceExpired := live_of phase
    rw [expires, State.silenceExpired, if_neg (not_not.2 idle)]

end Sys2Proof.Machine
end

section
/-! The reads of MGT and of the table owners: what each answers, at an index in range and outside it (10.4, 11.2). -/

namespace Sys2Proof.Machine

open Host

/-! ### Marks as numbers -/

theorem mul_flag (n : Nat) (b : Bool) : n * flag b = if b then n else 0 := by
  cases b <;> simp [flag]

theorem flag_eq (b : Bool) : flag b = if b then 1 else 0 := rfl

theorem word_flag (b : Bool) : word (flag b) = if b then 1 else 0 := by
  cases b <;> rfl

theorem flag_isSome {α : Type} [DecidableEq α] (o : Option α) : flag o.isSome = if o = none then 0 else 1 := by
  cases o <;> rfl

/-! ### STATUS_READ and SITE_READ (R162, R163) -/

theorem exec_statusRead {s : State} {f : RxFrame} (h : Requested s .statusRead f) :
    exec (.statusRead f) s = .next (((s.taken 30).reqStatusRead f.payload).respond f.tag .statusRead) :=
  live_requested h

theorem exec_siteRead {s : State} {f : RxFrame} (h : Requested s .siteRead f) :
    exec (.siteRead f) s = .next (((s.taken 30).reqSiteRead f.payload).respond f.tag .siteRead) := live_requested h

theorem State.reqStatusRead_empty (s : State) : s.reqStatusRead [] = s.done s.statusWords := if_pos rfl

theorem State.reqSiteRead_empty (s : State) : s.reqSiteRead [] = s.done s.siteWords := if_pos rfl

theorem State.siteWords_unlocked {s : State} (h : s.mgt.siteLock = false) : s.siteWords = [0] := by
  unfold State.siteWords
  rw [h]

theorem State.siteWords_locked {s : State} {r : SiteRecord} (h : s.mgt.siteLock = true) (written : s.mgt.site = some r) :
    s.siteWords = 1 :: r.words := by
  unfold State.siteWords
  rw [h, written]

/-- Settles O21: each read gives its block's words, which are those the state held as the frame came, but for PERM's and
MGT's own queue. -/
theorem statusAndSiteReadsGiveTheirItems : Obligations.StatusAndSiteReadsGiveTheirItems := by
  intro s f empty
  refine ⟨fun h => ?_, fun h => ⟨fun unlocked => ?_, fun r locked written => ?_⟩⟩
  · rw [exec_statusRead h, empty, State.reqStatusRead_empty, State.done_respond]
    unfold State.statusWords
    simp only [flag_isSome, State.taken_smt, State.taken_swp, State.taken_trn, State.taken_resetCause,
      State.taken_time] <;> rfl
  · rw [exec_siteRead h, empty, State.reqSiteRead_empty, State.siteWords_unlocked (by rwa [State.taken_lock]),
      State.done_respond]
  · rw [exec_siteRead h, empty, State.reqSiteRead_empty,
      State.siteWords_locked (by rwa [State.taken_lock]) (by rwa [State.taken_site]), State.done_respond]
    rfl

/-! ### TABLE_READ (R157) -/

/-- The words a NODES read gives of an address's answer record and marks (R143). -/
theorem State.nodeWords_eq {s : State} {a : Nat} {kind : NodeKind} {r : AnswerRec} {member : Bool}
    (hk : nth1 s.slc.nodeTable a = some kind) (hr : nth1 s.slc.answers a = some r)
    (hm : nth1 s.slc.service a = some member) :
    s.nodeWords a =
      [word (kind.code + (if r.silent then 8 else 0) + (if r.stray then 16 else 0) + if member then 32 else 0),
        word r.silence] ++
      (match s.node a with
        | some n => n.words
        | none => []) := by
  unfold State.nodeWords
  simp only [hk, hr, hm, Option.getD_some, mul_flag] <;> rfl

/-- DTX's words of a node with no open transaction (R83). -/
theorem NodeRec.words_idle {n : NodeRec} (h : n.txn = none) :
    n.words =
      [word ((if n.faulted then 1 else 0) + if n.clearMark then 2 else 0), 0, 0, 0] ++ [word n.waiting.length] := by
  unfold NodeRec.words NodeRec.txnWord NodeRec.deadline
  simp only [h, mul_flag] <;> rfl

/-- DTX's words of a node with an open transaction (R83). -/
theorem NodeRec.words_open {n : NodeRec} {t : OpenTxn} (h : n.txn = some t) :
    n.words =
      ([word (((if n.faulted then 1 else 0) + if n.clearMark then 2 else 0) +
          (4 + 8 * t.action.code + (if t.late then 16 else 0) + 32 * t.state.code + 256 * t.point)), t.entry] ++
        twoWords (if t.state = .acting then t.deadline.getD 0 else 0)) ++ [word n.waiting.length] := by
  unfold NodeRec.words NodeRec.txnWord NodeRec.deadline
  simp only [h, mul_flag] <;> rfl

theorem State.node_thirty (s : State) : s.node 30 = none := by
  unfold State.node nth1
  rw [if_neg (by decide)]
  exact Vector.getElem?_eq_none (by decide)

/-- The rope-off flags word is the sum of its bits, from any bit on. -/
theorem ropeOffWord_zipIdx (rs : List Reading) :
    ∀ k, ((rs.zipIdx k).map fun (r, i) => if r.ropeOff then 2 ^ i else 0).sum = 2 ^ k * ropeOffWord rs := by
  induction rs with
  | nil => exact fun k => rfl
  | cons r rs ih =>
    intro k
    rw [List.zipIdx_cons, List.map_cons, List.sum_cons, ih (k + 1), ropeOffWord, flag_eq, Nat.pow_succ]
    show (if r.ropeOff then 2 ^ k else 0) + _ = _
    cases r.ropeOff <;> simp <;> ring

theorem ropeOffWord_eq (rs : List Reading) :
    ropeOffWord rs = (rs.zipIdx.map fun (r, i) => if r.ropeOff then 2 ^ i else 0).sum := by
  rw [ropeOffWord_zipIdx rs 0, Nat.pow_zero, Nat.one_mul]

/-- The words a TOWERS read gives of the table's entry: its mark, then its fields (R114). -/
def towerHeldWords : Option TowerEntry → List Word
  | none => List.replicate 10 0
  | some t => 1 :: t.words

/-- The marks of a runtime record as a TOWERS read gives them, that of the last readings aside (R114). -/
def TowerRuntime.marks (v : TowerRuntime) : Nat :=
  v.missCount + (if v.silent then 16 else 0) + (if v.warn then 32 else 0) + (if v.limit then 64 else 0) +
    if v.off then 128 else 0

/-- The words a TOWERS read gives of a runtime record: its marks, then the last readings (R114). -/
def TowerRuntime.words (v : TowerRuntime) : List Word :=
  match v.last with
  | none => [word v.marks]
  | some l => word (v.marks + 256 + 4096 * l.readings.length) :: l.words

theorem State.towerWords_eq {s : State} {k : Nat} {entry : Option TowerEntry} {v : TowerRuntime}
    (he : nth1 s.rsu.towers k = some entry) (hv : nth1 s.rsu.runtime k = some v) :
    s.towerWords k = towerHeldWords entry ++ v.words := by
  unfold State.towerWords TowerRuntime.words TowerRuntime.marks
  rw [State.runtimeAt_of_nth1 hv, show s.towerAt k = entry by unfold State.towerAt; rw [he]; rfl]
  cases entry <;> cases last : v.last <;> simp only [mul_flag, last, TowerRuntime.assemblies] <;> rfl

section

variable {s : State} {f : RxFrame} (h : Requested s .tableRead f)

include h

theorem exec_tableReadPath {index : Word} (e : f.payload = [1, index]) :
    exec (.tableReadPath f) s = .next (((s.taken 30).readPath index.toNat).respond f.tag .tableRead) := by
  rw [show exec (.tableReadPath f) s = _ from live_requested h, e]
  rfl

theorem exec_tableReadZoneMask {index : Word} (e : f.payload = [2, index]) :
    exec (.tableReadZoneMask f) s = .next (((s.taken 30).readZoneMask index.toNat).respond f.tag .tableRead) := by
  rw [show exec (.tableReadZoneMask f) s = _ from live_requested h, e]
  rfl

theorem exec_tableReadNodes {index : Word} (e : f.payload = [3, index]) :
    exec (.tableReadNodes f) s = .next (((s.taken 30).readNodes index.toNat).respond f.tag .tableRead) := by
  rw [show exec (.tableReadNodes f) s = _ from live_requested h, e]
  rfl

theorem exec_tableReadTowers {index : Word} (e : f.payload = [4, index]) :
    exec (.tableReadTowers f) s = .next (((s.taken 30).readTowers index.toNat).respond f.tag .tableRead) := by
  rw [show exec (.tableReadTowers f) s = _ from live_requested h, e]
  rfl

theorem exec_tableReadCauses {index : Word} (e : f.payload = [5, index]) :
    exec (.tableReadCauses f) s = .next (((s.taken 30).readCauses index.toNat).respond f.tag .tableRead) := by
  rw [show exec (.tableReadCauses f) s = _ from live_requested h, e]
  rfl

theorem exec_tableReadDirectory {index : Word} (e : f.payload = [6, index]) :
    exec (.tableReadDirectory f) s = .next (((s.taken 30).readDirectory index.toNat).respond f.tag .tableRead) := by
  rw [show exec (.tableReadDirectory f) s = _ from live_requested h, e]
  rfl

end

theorem State.readPath_within {s : State} {k : Nat} (h : k ≤ 15) : s.readPath k = s.done (s.pathWords k) :=
  if_neg (Nat.not_lt.2 h)

/-- A frame taken leaves the path. -/
theorem State.taken_pathWords (s : State) (a k : Nat) : (s.taken a).pathWords k = s.pathWords k := by
  unfold State.pathWords
  rw [State.taken_trav]

theorem State.readPath_outside {s : State} {k : Nat} (h : 15 < k) : s.readPath k = s.refuse .refusedRange := if_pos h

theorem State.readZoneMask_within {s : State} {z : Nat} (h : z ≤ 15) :
    s.readZoneMask z = s.done [if s.trav.zoneMask.getD z false then 1 else 0] := by
  unfold State.readZoneMask
  rw [if_neg (Nat.not_lt.2 h), word_flag]
  rfl

theorem State.readZoneMask_outside {s : State} {z : Nat} (h : 15 < z) :
    s.readZoneMask z = s.refuse .refusedRange := if_pos h

theorem State.readNodes_within {s : State} {a : Nat} (h : 1 ≤ a ∧ a ≤ 30) : s.readNodes a = s.done (s.nodeWords a) :=
  if_pos h

theorem State.readNodes_outside {s : State} {a : Nat} (h : a < 1 ∨ 30 < a) :
    s.readNodes a = s.refuse .refusedRange := if_neg (by omega)

theorem State.readTowers_within {s : State} {k : Nat} (h : 1 ≤ k ∧ k ≤ 24) :
    s.readTowers k = s.done (s.towerWords k) := if_pos h

theorem State.readTowers_outside {s : State} {k : Nat} (h : k < 1 ∨ 24 < k) :
    s.readTowers k = s.refuse .refusedRange := if_neg (by omega)

theorem State.readCauses_code (s : State) (k : CauseKind) : s.readCauses k.code = s.done [s.causeTableWord k] := by
  unfold State.readCauses
  rw [CauseKind.ofCode_code]

theorem CauseKind.ofCode_outside {n : Nat} (h : n < 1 ∨ 26 < n) : CauseKind.ofCode n = none := by
  cases found : CauseKind.ofCode n with
  | none => rfl
  | some k =>
    have code := CauseKind.code_of_ofCode found
    have low := k.code_pos
    have high := k.code_le
    omega

theorem State.readCauses_outside {s : State} {n : Nat} (h : n < 1 ∨ 26 < n) :
    s.readCauses n = s.refuse .refusedRange := by
  unfold State.readCauses
  rw [CauseKind.ofCode_outside h]

theorem nth1_outside {α : Type} {n : Nat} {v : Vector α n} {k : Nat} (h : k < 1 ∨ n < k) : nth1 v k = none := by
  cases found : nth1 v k with
  | none => rfl
  | some a =>
    have low := nth1_some_pos found
    have high := nth1_some_le found
    omega

theorem State.readDirectory_within {s : State} {k : Nat} {d : DirEntry} (h : nth1 s.trn.directory k = some d) :
    s.readDirectory k = s.done d.words := by
  unfold State.readDirectory
  rw [h]

theorem State.readDirectory_outside {s : State} {k : Nat} (h : k < 1 ∨ 255 < k) :
    s.readDirectory k = s.refuse .refusedRange := by
  unfold State.readDirectory
  rw [nth1_outside h]

theorem State.taken_nodeRec (s : State) (a b : Nat) : (s.taken a).node b = s.node b := by
  unfold State.node
  rw [State.taken_dtx]

/-- Settles O22: each table by its index's range, NODES and TOWERS by the records they read. -/
theorem tableReadsGiveTheEntry : Obligations.TableReadsGiveTheEntry := by
  intro s f index h
  refine ⟨fun e low => ?path, fun e low => ?mask, fun e kind r member hk hr hm => ⟨fun console => ?own, fun n hn => ?node⟩,
    fun e entry v he hv => ?towers, fun k e code => ?causes, fun d e hd => ?directory, fun e out => ?_, fun e out => ?_,
    fun e out => ?_, fun e out => ?_, fun e out => ?_, fun e out => ?_⟩
  case path =>
    rw [exec_tableReadPath h e, State.readPath_within low, State.done_respond, State.taken_pathWords]
    rfl
  case mask =>
    rw [exec_tableReadZoneMask h e, State.readZoneMask_within low, State.done_respond, State.taken_trav]
  case own =>
    rw [exec_tableReadNodes h e, State.readNodes_within ⟨nth1_some_pos hk, nth1_some_le hk⟩, State.done_respond,
      State.nodeWords_eq (by rwa [State.taken_nodeTable]) hr (by rwa [State.taken_service]), console, State.node_thirty]
    rfl
  case node =>
    rw [exec_tableReadNodes h e, State.readNodes_within ⟨nth1_some_pos hk, nth1_some_le hk⟩, State.done_respond,
      State.nodeWords_eq (by rwa [State.taken_nodeTable]) hr (by rwa [State.taken_service]), State.taken_nodeRec, hn]
    cases txn : n.txn with
    | none => simp only [n.words_idle txn]
    | some t => simp only [n.words_open txn]
  case towers =>
    rw [exec_tableReadTowers h e, State.readTowers_within ⟨nth1_some_pos he, nth1_some_le he⟩, State.done_respond,
      State.towerWords_eq (by rwa [State.taken_rsu]) (by rwa [State.taken_rsu])]
    unfold TowerRuntime.words
    cases entry <;> cases last : v.last <;> simp only [LastReadings.words, ropeOffWord_eq] <;> rfl
  case causes =>
    rw [exec_tableReadCauses h e, code, State.readCauses_code, State.done_respond]
    unfold State.causeTableWord
    rw [State.taken_causeTable]
    rfl
  case directory =>
    rw [exec_tableReadDirectory h e, State.readDirectory_within (by rwa [State.taken_trn]), State.done_respond]
  · rw [exec_tableReadPath h e, State.readPath_outside out, State.refuse_respond]
  · rw [exec_tableReadZoneMask h e, State.readZoneMask_outside out, State.refuse_respond]
  · rw [exec_tableReadNodes h e, State.readNodes_outside out, State.refuse_respond]
  · rw [exec_tableReadTowers h e, State.readTowers_outside out, State.refuse_respond]
  · rw [exec_tableReadCauses h e, State.readCauses_outside out, State.refuse_respond]
  · rw [exec_tableReadDirectory h e, State.readDirectory_outside out, State.refuse_respond]

end Sys2Proof.Machine
end

section
/-! The writes of the site record and of the six tables: by index, by range, and by what hangs on the entry (10.3, 11.2). -/

namespace Sys2Proof.Machine

open Host

/-! ### SITE_WRITE (R160, R161) -/

theorem exec_siteWrite {s : State} {f : RxFrame} (h : Requested s .siteWrite f) :
    exec (.siteWrite f) s = .next (((s.taken 30).reqSiteWrite f.payload).respond f.tag .siteWrite) := live_requested h

theorem State.reqSiteWrite_locked {s : State} (h : s.mgt.siteLock = true) (ws : List Word) :
    s.reqSiteWrite ws = s.refuse .refusedOnce := if_pos h

theorem State.reqSiteWrite_unlocked {s : State} {ws : List Word} {r : SiteRecord} (h : s.mgt.siteLock = false)
    (parsed : parseSite ws = some r) :
    s.reqSiteWrite ws =
      if r.inRange then (s.modMgt fun m => { m with site := some r, siteLock := true }).done
      else s.refuse .refusedRange := by
  unfold State.reqSiteWrite
  simp only [h, parsed, Bool.false_eq_true, if_false]

/-- The ranges of R160; that of the lower grip bound follows from the upper one's. -/
theorem SiteRecord.inRange_iff (r : SiteRecord) :
    r.inRange = true ↔
      (1 ≤ r.towerCount ∧ r.towerCount ≤ 24) ∧ (10 ≤ r.pollPeriod ∧ r.pollPeriod ≤ 100) ∧
        (2 ≤ r.crowdHigh ∧ r.crowdHigh ≤ 32) ∧ r.crowdLow < r.crowdHigh ∧ r.gripMin ≤ r.gripMax ∧ r.gripMax ≤ 60000 ∧
        (500 ≤ r.closureActLimit ∧ r.closureActLimit ≤ 10000) ∧ (50 ≤ r.tagHoldLimit ∧ r.tagHoldLimit ≤ 2000) ∧
        (5 ≤ r.stopLimit ∧ r.stopLimit ≤ 120) ∧ (1 ≤ r.silenceLimit ∧ r.silenceLimit ≤ 30) ∧
        (1 ≤ r.summitMissLimit ∧ r.summitMissLimit ≤ 15) ∧ (10 ≤ r.ringLimit ∧ r.ringLimit ≤ 120) ∧
        r.reverseLimit ≤ 2000 := by
  unfold SiteRecord.inRange
  simp only [Bool.and_eq_true, decide_eq_true_iff]
  omega

/-- Settles O24: the lock, then the ranges. -/
theorem siteWriteIsTakenOnce : Obligations.SiteWriteIsTakenOnce := by
  intro s f h
  refine ⟨fun locked => ?_, fun a b c d e g h' i j k l m n unlocked words => ⟨fun ok => ?_, fun bad => ?_⟩⟩
  · rw [exec_siteWrite h, State.reqSiteWrite_locked (by rwa [State.taken_lock]), State.refuse_respond]
  · rw [exec_siteWrite h, words, State.reqSiteWrite_unlocked (by rwa [State.taken_lock]) rfl,
      if_pos ((SiteRecord.inRange_iff _).2 ok), State.done_respond]
  · rw [exec_siteWrite h, words, State.reqSiteWrite_unlocked (by rwa [State.taken_lock]) rfl,
      if_neg (mt (SiteRecord.inRange_iff _).1 bad), State.refuse_respond]

/-! ### TABLE_WRITE (R157) -/

section

variable {s : State} {f : RxFrame} (h : Requested s .tableWrite f)

include h

theorem exec_tableWritePath {index : Word} {entry : List Word} (e : f.payload = 1 :: index :: entry) :
    exec (.tableWritePath f) s = .next (((s.taken 30).writePath index.toNat entry).respond f.tag .tableWrite) := by
  rw [show exec (.tableWritePath f) s = _ from live_requested h, e]
  rfl

theorem exec_tableWriteZoneMask {index : Word} {entry : List Word} (e : f.payload = 2 :: index :: entry) :
    exec (.tableWriteZoneMask f) s =
      .next (((s.taken 30).writeZoneMask index.toNat entry).respond f.tag .tableWrite) := by
  rw [show exec (.tableWriteZoneMask f) s = _ from live_requested h, e]
  rfl

theorem exec_tableWriteNodes {index : Word} {entry : List Word} (e : f.payload = 3 :: index :: entry) :
    exec (.tableWriteNodes f) s = .next (((s.taken 30).writeNodes index.toNat entry).respond f.tag .tableWrite) := by
  rw [show exec (.tableWriteNodes f) s = _ from live_requested h, e]
  rfl

theorem exec_tableWriteTowers {index : Word} {entry : List Word} (e : f.payload = 4 :: index :: entry) :
    exec (.tableWriteTowers f) s =
      .next (((s.taken 30).writeTowers index.toNat entry).respond f.tag .tableWrite) := by
  rw [show exec (.tableWriteTowers f) s = _ from live_requested h, e]
  rfl

theorem exec_tableWriteCauses {index : Word} {entry : List Word} (e : f.payload = 5 :: index :: entry) :
    exec (.tableWriteCauses f) s =
      .next (((s.taken 30).writeCauses index.toNat entry).respond f.tag .tableWrite) := by
  rw [show exec (.tableWriteCauses f) s = _ from live_requested h, e]
  rfl

theorem exec_tableWriteDirectory {index : Word} {entry : List Word} (e : f.payload = 6 :: index :: entry) :
    exec (.tableWriteDirectory f) s =
      .next (((s.taken 30).writeDirectory index.toNat entry).respond f.tag .tableWrite) := by
  rw [show exec (.tableWriteDirectory f) s = _ from live_requested h, e]
  rfl

end

/-! ### TABLE_WRITE PATH (R26, R27) -/

theorem State.writePath_elsewhere {s : State} (h : s.perm.line ≠ .setup) (k : Nat) (entry : List Word) :
    s.writePath k entry = s.refuse .refusedState := if_pos h

theorem State.writePath_train {s : State} (h : s.perm.line = .setup) (train : s.trn.train ≠ []) (k : Nat)
    (entry : List Word) : s.writePath k entry = s.refuse .refusedInUse := by
  unfold State.writePath
  rw [if_neg (not_not.2 h), if_pos train]

section

variable {s : State} (h : s.perm.line = .setup) (train : s.trn.train = []) {k : Nat}

include h train

theorem State.writePath_outside (out : 15 < k ∨ s.trav.path.length < k) (entry : List Word) :
    s.writePath k entry = s.refuse .refusedRange := by
  unfold State.writePath
  rw [if_neg (not_not.2 h), if_neg (not_not.2 train), if_pos out]

variable (within : ¬(15 < k ∨ s.trav.path.length < k))

include within

theorem State.writePath_empty : s.writePath k [] = (s.modTrav fun t => { t with path := t.path.take k }).done := by
  unfold State.writePath
  rw [if_neg (not_not.2 h), if_neg (not_not.2 train), if_neg within, if_pos rfl]

theorem State.writePath_misread {entry : List Word} (some : entry ≠ []) (misread : parsePathPoint entry = none) :
    s.writePath k entry = s.refuse .refusedRange := by
  unfold State.writePath
  rw [if_neg (not_not.2 h), if_neg (not_not.2 train), if_neg within, if_neg some, misread]

theorem State.writePath_point {entry : List Word} {p : PathPoint} (read : parsePathPoint entry = some p) :
    s.writePath k entry =
      if k = 0 ∧ p.maskedIn s.trav = true then s.refuse .refusedInUse
      else (s.modTrav fun t => { t with path := writePoint t.path k p }).done := by
  have words : entry ≠ [] := by
    rintro rfl
    cases read
  unfold State.writePath
  rw [if_neg (not_not.2 h), if_neg (not_not.2 train), if_neg within, if_neg words, read]

end

theorem PathPoint.maskedIn_iff (p : PathPoint) (t : Trav) :
    p.maskedIn t = true ↔ ∃ z, p.zone = some z ∧ t.zoneMask.getD z false = true := by
  unfold PathPoint.maskedIn Trav.masked
  cases p.zone <;> simp

theorem writePoint_within {path : List PathPoint} {k : Nat} (h : k < path.length) (p : PathPoint) :
    writePoint path k p = path.set k p := if_pos h

theorem writePoint_end (path : List PathPoint) (p : PathPoint) : writePoint path path.length p = path ++ [p] :=
  if_neg (Nat.lt_irrefl _)

/-- A write to one block where the block's new value is known. -/
theorem State.modTrav_congr {s : State} {f g : Trav → Trav} (h : f s.trav = g s.trav) : s.modTrav f = s.modTrav g := by
  unfold State.modTrav
  rw [h]

/-- Settles O25: the line state, the train and the index, then the entry. -/
theorem pathWriteActsByIndex : Obligations.PathWriteActsByIndex := by
  intro s f index entry h e
  refine ⟨fun elsewhere => ?_, fun setup train => ?_, fun setup train => ⟨fun out => ?_, fun low held => ?_⟩⟩
  · rw [exec_tableWritePath h e, State.writePath_elsewhere (by rwa [State.taken_line]), State.refuse_respond]
  · rw [exec_tableWritePath h e, State.writePath_train (by rwa [State.taken_line]) (by rwa [State.taken_trn]),
      State.refuse_respond]
  all_goals
    have line : (s.taken 30).perm.line = .setup := by rwa [State.taken_line]
    have empty : (s.taken 30).trn.train = [] := by rwa [State.taken_trn]
  · rw [exec_tableWritePath h e, State.writePath_outside line empty (by rwa [State.taken_trav]), State.refuse_respond]
  · have within : ¬(15 < index.toNat ∨ (s.taken 30).trav.path.length < index.toNat) := by
      rw [State.taken_trav]
      omega
    refine ⟨fun none => ?_, fun some misread => ?_, fun p read =>
      ⟨fun masked => ?_, fun unmasked => ⟨fun inside => ?_, fun atEnd => ?_⟩⟩⟩
    · rw [exec_tableWritePath h e, none, State.writePath_empty line empty within, State.done_respond]
    · rw [exec_tableWritePath h e, State.writePath_misread line empty within some misread, State.refuse_respond]
    all_goals
      have names : (index.toNat = 0 ∧ p.maskedIn (s.taken 30).trav = true) ↔
          index.toNat = 0 ∧ ∃ z, p.zone = some z ∧ s.trav.zoneMask.getD z false = true := by
        rw [State.taken_trav, p.maskedIn_iff]
      rw [exec_tableWritePath h e, State.writePath_point line empty within read]
    · rw [if_pos (names.2 masked), State.refuse_respond]
    · rw [if_neg (mt names.1 unmasked), State.done_respond,
        State.modTrav_congr (g := fun t => { t with path := t.path.set index.toNat p })]
      rw [writePoint_within (by rwa [State.taken_trav])]
    · rw [if_neg (mt names.1 unmasked), State.done_respond,
        State.modTrav_congr (g := fun t => { t with path := t.path ++ [p] })]
      rw [atEnd, ← State.taken_trav s 30, writePoint_end]

/-! ### TABLE_WRITE ZONE_MASK (R29) -/

theorem State.writeZoneMask_underway {s : State} (h : s.underway = true) (z : Nat) (entry : List Word) :
    s.writeZoneMask z entry = s.refuse .refusedState := if_pos h

/-- A write of one word outside RUNNING and STOPPING, at an input in range. -/
theorem State.writeZoneMask_word {s : State} (h : s.underway = false) {z : Nat} (low : z ≤ 15) (w : Word) :
    s.writeZoneMask z [w] =
      if w = 1 then
        if s.trav.isEntryInput z then s.refuse .refusedInUse
        else if s.trav.masked z then s.done
        else (s.maskInput z).done
      else if w = 0 then (s.modTrav fun t => { t with zoneMask := t.zoneMask.setIfInBounds z false }).done
      else s.refuse .refusedRange := by
  unfold State.writeZoneMask
  simp only [h, Bool.false_eq_true, if_false, if_neg (Nat.not_lt.2 low), List.cons.injEq, and_true]

theorem State.writeZoneMask_outside {s : State} (h : s.underway = false) {z : Nat} (out : 15 < z) (entry : List Word) :
    s.writeZoneMask z entry = s.refuse .refusedRange := by
  unfold State.writeZoneMask
  simp only [h, Bool.false_eq_true, if_false, if_pos out]

theorem Trav.isEntryInput_iff (t : Trav) (z : Nat) :
    t.isEntryInput z = true ↔ ∃ p rest, t.path = p :: rest ∧ p.zone = some z := by
  unfold Trav.isEntryInput
  cases t.path <;> simp

/-- Settles O26: the line state, the input's number, then the entry's word. -/
theorem zoneMaskWriteMasksAnInput : Obligations.ZoneMaskWriteMasksAnInput := by
  intro s f index entry h e
  refine ⟨fun underway => ?_, fun notRunning notStopping => ?_⟩
  · rw [exec_tableWriteZoneMask h e,
      State.writeZoneMask_underway (by rw [State.taken_underway, State.underway_eq_true_iff]; exact underway),
      State.refuse_respond]
  · have calm : (s.taken 30).underway = false := by
      rw [State.taken_underway, State.underway_eq_false_iff]
      exact ⟨notRunning, notStopping⟩
    have named : (s.taken 30).trav.isEntryInput index.toNat = true ↔
        ∃ p rest, s.trav.path = p :: rest ∧ p.zone = some index.toNat := by
      rw [State.taken_trav, Trav.isEntryInput_iff]
    refine ⟨fun bad => ?_, fun low one isEntry => ?_, fun low one other masked => ?_, fun low one other unmasked => ?_,
      fun low zero => ?_⟩
    · by_cases out : 15 < index.toNat
      · rw [exec_tableWriteZoneMask h e, State.writeZoneMask_outside calm out, State.refuse_respond]
      · obtain ⟨notZero, notOne⟩ := bad.resolve_left out
        rw [exec_tableWriteZoneMask h e, State.writeZoneMask_word calm (Nat.not_lt.1 out), if_neg notOne,
          if_neg notZero, State.refuse_respond]
    · rw [exec_tableWriteZoneMask h e, State.writeZoneMask_word calm low, if_pos one, if_pos (named.2 isEntry),
        State.refuse_respond]
    · rw [exec_tableWriteZoneMask h e, State.writeZoneMask_word calm low, if_pos one, if_neg (mt named.1 other),
        if_pos (by rw [State.taken_trav]; exact masked), State.done_respond]
    · rw [exec_tableWriteZoneMask h e, State.writeZoneMask_word calm low, if_pos one, if_neg (mt named.1 other),
        if_neg (by rw [State.taken_trav]; exact Bool.eq_false_iff.1 unmasked), State.done_respond]
      unfold State.maskInput Trav.pointOf State.unsupervise
      simp only [State.clear_trav, State.modTrav_trav, State.taken_trav] <;> rfl
    · rw [exec_tableWriteZoneMask h e, State.writeZoneMask_word calm low, if_neg (by rw [zero]; decide), if_pos zero,
        State.done_respond]

/-! ### TABLE_WRITE NODES (R142) -/

theorem State.writeNodes_elsewhere {s : State} (h : s.perm.line ≠ .setup) (a : Nat) (entry : List Word) :
    s.writeNodes a entry = s.refuse .refusedState := if_pos h

theorem State.writeNodes_outside {s : State} (h : s.perm.line = .setup) {a : Nat}
    (out : nth1 s.slc.nodeTable a = none) (w : Word) : s.writeNodes a [w] = s.refuse .refusedRange := by
  unfold State.writeNodes
  rw [if_neg (not_not.2 h), out]

theorem State.writeNodes_noKind {s : State} (h : s.perm.line = .setup) {a : Nat} {old : NodeKind} {w : Word}
    (held : nth1 s.slc.nodeTable a = some old) (none : NodeKind.ofCode w.toNat = none) :
    s.writeNodes a [w] = s.refuse .refusedRange := by
  unfold State.writeNodes
  rw [if_neg (not_not.2 h), held]
  simp only [none]

theorem State.writeNodes_kind {s : State} (h : s.perm.line = .setup) {a : Nat} {old kind : NodeKind} {w : Word}
    (held : nth1 s.slc.nodeTable a = some old) (code : NodeKind.ofCode w.toNat = some kind) :
    s.writeNodes a [w] =
      if ¬(a = 30 ↔ kind = .console) then s.refuse .refusedRange
      else if kind = old then s.done
      else (s.changeKind a kind).done := by
  unfold State.writeNodes
  rw [if_neg (not_not.2 h), held]
  simp only [code, ne_eq, decide_eq_decide]

theorem NodeKind.code_of_ofCode {n : Nat} {kind : NodeKind} (h : NodeKind.ofCode n = some kind) : kind.code = n := by
  unfold NodeKind.ofCode at h
  split at h <;> cases h <;> rfl

theorem NodeKind.ofCode_code (kind : NodeKind) : NodeKind.ofCode kind.code = some kind := by
  cases kind <;> rfl

theorem NodeKind.ofCode_outside {n : Nat} (h : 4 < n) : NodeKind.ofCode n = none := by
  cases found : NodeKind.ofCode n with
  | none => rfl
  | some kind =>
    have code := NodeKind.code_of_ofCode found
    cases kind <;> simp only [NodeKind.code] at code <;> omega

theorem NodeKind.eq_console_iff {w : Word} {kind : NodeKind} (h : NodeKind.ofCode w.toNat = some kind) :
    kind = .console ↔ w = 4 := by
  have code := NodeKind.code_of_ofCode h
  constructor
  · rintro rfl
    exact BitVec.eq_of_toNat_eq code.symm
  · rintro rfl
    cases kind <;> first | rfl | cases code

theorem nth1_isSome {α : Type} {n : Nat} (v : Vector α n) {k : Nat} (low : 1 ≤ k) (high : k ≤ n) :
    ∃ a, nth1 v k = some a := by
  unfold nth1
  rw [if_neg (by omega)]
  exact ⟨v[k - 1]'(by omega), Vector.getElem?_eq_getElem (by omega)⟩

theorem getD_silent (o : Option AnswerRec) :
    (o.getD AnswerRec.cleared).silent = true ↔ o.map AnswerRec.silent = some true := by
  cases o <;> simp [AnswerRec.cleared]

/-- What DTX makes of a new kind: it waits for an open transaction, or is applied (R82). -/
theorem State.kindChanged_eq (s : State) (a : Nat) :
    s.kindChanged a =
      if (s.txnAt a).isSome then s.modNode a fun n => { n with changeMark := true } else s.applyKindChange a := by
  unfold State.kindChanged
  cases s.txnAt a <;> rfl

theorem State.txnAt_congr {s t : State} (h : t.dtx = s.dtx) (a : Nat) : t.txnAt a = s.txnAt a := by
  unfold State.txnAt State.node
  rw [h]

/-- Settles O27: the line state, the address and the code, then whether the kind is a new one. -/
theorem nodesWriteChangesTheKind : Obligations.NodesWriteChangesTheKind := by
  intro s f index code h e
  refine ⟨fun elsewhere => ?_, fun setup => ⟨fun bad => ?_, fun kind old low high ofCode console held =>
    ⟨fun same => ?_, fun new => ?_⟩⟩⟩
  · rw [exec_tableWriteNodes h e, State.writeNodes_elsewhere (by rwa [State.taken_line]), State.refuse_respond]
  all_goals have line : (s.taken 30).perm.line = .setup := by rwa [State.taken_line]
  · rw [exec_tableWriteNodes h e]
    by_cases inside : 1 ≤ index.toNat ∧ index.toNat ≤ 30
    · obtain ⟨old, held⟩ := nth1_isSome (s.taken 30).slc.nodeTable inside.1 inside.2
      cases ofCode : NodeKind.ofCode code.toNat with
      | none => rw [State.writeNodes_noKind line held ofCode, State.refuse_respond]
      | some kind =>
        have console := NodeKind.eq_console_iff ofCode
        have four : code.toNat ≤ 4 := by
          rw [← NodeKind.code_of_ofCode ofCode]
          cases kind <;> decide
        have misplaced : ¬(index.toNat = 30 ↔ kind = .console) := by
          rw [console]
          rcases bad with b | b | b | b | b
          · omega
          · omega
          · omega
          · exact fun iff => b.2 (iff.1 b.1)
          · exact fun iff => absurd (iff.2 b.2) (by omega)
        rw [State.writeNodes_kind line held ofCode, if_pos misplaced, State.refuse_respond]
    · rw [State.writeNodes_outside line (nth1_outside (by omega)), State.refuse_respond]
  · rw [exec_tableWriteNodes h e, State.writeNodes_kind line (by rwa [State.taken_nodeTable]) ofCode,
      if_neg (not_not.2 console), if_pos same, State.done_respond]
  · rw [exec_tableWriteNodes h e, State.writeNodes_kind line (by rwa [State.taken_nodeTable]) ofCode,
      if_neg (not_not.2 console), if_neg new, State.done_respond]
    unfold State.changeKind
    simp only [getD_silent, State.kindChanged_eq]
    rw [State.txnAt_congr (s := s)]
    · rfl
    · split <;> simp

/-! ### TABLE_WRITE TOWERS (R112, R113) -/

theorem State.writeTowers_underway {s : State} (h : s.underway = true) (k : Nat) (entry : List Word) :
    s.writeTowers k entry = s.refuse .refusedState := if_pos h

theorem State.writeTowers_outside {s : State} (h : s.underway = false) {k : Nat} (out : k < 1 ∨ 24 < k)
    (entry : List Word) : s.writeTowers k entry = s.refuse .refusedRange := by
  unfold State.writeTowers
  rw [h, if_neg Bool.false_ne_true, if_pos out]

theorem State.writeTowers_empty {s : State} (h : s.underway = false) {k : Nat} (low : 1 ≤ k) (high : k ≤ 24) :
    s.writeTowers k [] =
      if s.perm.line ≠ .setup ∧ k ≤ s.site.towerCount then s.refuse .refusedInUse else (s.writeTower k none).done := by
  unfold State.writeTowers
  rw [h, if_neg Bool.false_ne_true, if_neg (by omega), if_pos rfl]

theorem State.writeTowers_misread {s : State} (h : s.underway = false) {k : Nat} (low : 1 ≤ k) (high : k ≤ 24)
    {entry : List Word} (some : entry ≠ []) (misread : parseTower entry = none) :
    s.writeTowers k entry = s.refuse .refusedRange := by
  unfold State.writeTowers
  rw [h, if_neg Bool.false_ne_true, if_neg (by omega), if_neg some, misread]

theorem State.writeTowers_tower {s : State} (h : s.underway = false) {k : Nat} (low : 1 ≤ k) (high : k ≤ 24)
    {entry : List Word} {t : TowerEntry} (read : parseTower entry = some t) :
    s.writeTowers k entry = (s.writeTower k (some t)).done := by
  have words : entry ≠ [] := by
    rintro rfl
    cases read
  unfold State.writeTowers
  rw [h, if_neg Bool.false_ne_true, if_neg (by omega), if_neg words, read]

/-- What a TOWERS write leaves: the entry, a miss count of 0, and the last readings of an unchanged assembly count. -/
theorem State.writeTower_eq (s : State) (k : Nat) (entry : Option TowerEntry) :
    s.writeTower k entry =
      (s.modRsu fun r => { r with towers := mod1 r.towers k fun _ => entry }).modRsu fun r =>
        { r with runtime := mod1 r.runtime k fun t =>
            { t with
              missCount := 0
              last :=
                if (s.towerAt k).map TowerEntry.assemblies = entry.map TowerEntry.assemblies then t.last else none } } := by
  unfold State.writeTower State.modRuntime
  simp only [decide_eq_true_iff, ne_eq, ite_not]

theorem State.taken_towerAt (s : State) (a k : Nat) : (s.taken a).towerAt k = s.towerAt k := by
  unfold State.towerAt
  rw [State.taken_rsu]

/-- Settles O28: the line state and the tower number, then the entry. -/
theorem towersWriteReplacesTheEntry : Obligations.TowersWriteReplacesTheEntry := by
  intro s f index words h e
  refine ⟨fun underway => ?_, fun notRunning notStopping => ?_⟩
  · rw [exec_tableWriteTowers h e,
      State.writeTowers_underway (by rw [State.taken_underway, State.underway_eq_true_iff]; exact underway),
      State.refuse_respond]
  · have calm : (s.taken 30).underway = false := by
      rw [State.taken_underway, State.underway_eq_false_iff]
      exact ⟨notRunning, notStopping⟩
    refine ⟨fun bad => ?_, fun low high none notSetup swept => ?_, fun low high none free => ?_,
      fun t low high read => ?_⟩
    · by_cases out : index.toNat < 1 ∨ 24 < index.toNat
      · rw [exec_tableWriteTowers h e, State.writeTowers_outside calm out, State.refuse_respond]
      · obtain ⟨some, misread⟩ : words ≠ [] ∧ parseTower words = none := by tauto
        rw [exec_tableWriteTowers h e, State.writeTowers_misread calm (by omega) (by omega) some misread,
          State.refuse_respond]
    · rw [exec_tableWriteTowers h e, none, State.writeTowers_empty calm low high,
        if_pos (by rw [State.taken_line, State.taken_siteRecord]; exact ⟨notSetup, swept⟩), State.refuse_respond]
    · have removed : ¬(s.perm.line ≠ .setup ∧ index.toNat ≤ s.site.towerCount) := by
        rintro ⟨notSetup, swept⟩
        exact free.elim notSetup (Nat.not_lt.2 swept)
      rw [exec_tableWriteTowers h e, none, State.writeTowers_empty calm low high,
        if_neg (by rw [State.taken_line, State.taken_siteRecord]; exact removed), State.done_respond,
        State.writeTower_eq, State.taken_towerAt]
    · rw [exec_tableWriteTowers h e, State.writeTowers_tower calm low high read, State.done_respond,
        State.writeTower_eq, State.taken_towerAt]

/-! ### TABLE_WRITE CAUSES (R21) -/

theorem State.writeCauses_underway {s : State} (h : s.underway = true) (n : Nat) (entry : List Word) :
    s.writeCauses n entry = s.refuse .refusedState := if_pos h

theorem State.writeCauses_outside {s : State} (h : s.underway = false) {n : Nat} (out : n < 1 ∨ 26 < n)
    (entry : List Word) : s.writeCauses n entry = s.refuse .refusedRange := by
  unfold State.writeCauses
  rw [h, if_neg Bool.false_ne_true, CauseKind.ofCode_outside out]

theorem State.writeCauses_kind {s : State} (h : s.underway = false) (k : CauseKind) {entry : List Word}
    {c : CauseSetting} (read : parseCauseSetting entry = some c) :
    s.writeCauses k.code entry =
      if c.allowed k then (s.modPerm fun p => { p with causeTable := p.causeTable.set k.index c }).done
      else s.refuse .refusedRange := by
  unfold State.writeCauses
  rw [h, if_neg Bool.false_ne_true, CauseKind.ofCode_code, read]

/-- What R21 refuses of a setting. -/
theorem CauseSetting.allowed_iff (c : CauseSetting) (k : CauseKind) :
    c.allowed k = true ↔
      ¬(c.response.code < k.floor.code ∨ (k.floor = .emergency ∧ c.latch = .self) ∨
        (k = .trainCrowded ∧ ¬(c.response = .slow ∧ c.latch = .self))) := by
  unfold CauseSetting.allowed
  cases c with
  | mk response mode =>
    simp only [Bool.and_eq_true, Bool.or_eq_true, Bool.not_eq_true', decide_eq_true_iff, decide_eq_false_iff_not,
      CauseSetting.mk.injEq]
    rw [← Nat.not_lt]
    tauto

/-- Settles O29: the line state and the kind, then the floors. -/
theorem causesWriteKeepsTheFloors : Obligations.CausesWriteKeepsTheFloors := by
  intro s f index w h e
  refine ⟨fun underway => ?_, fun notRunning notStopping => ?_⟩
  · rw [exec_tableWriteCauses h e,
      State.writeCauses_underway (by rw [State.taken_underway, State.underway_eq_true_iff]; exact underway),
      State.refuse_respond]
  · have calm : (s.taken 30).underway = false := by
      rw [State.taken_underway, State.underway_eq_false_iff]
      exact ⟨notRunning, notStopping⟩
    refine ⟨fun out => ?_, fun k code => ?_⟩
    · rw [exec_tableWriteCauses h e, State.writeCauses_outside calm out, State.refuse_respond]
    · have read : parseCauseSetting [w] =
          some { response := Response.ofCode (w.toNat % 4), latch := if w.getLsbD 2 then .latch else .self } := by
        rw [← show field w 0 2 = w.toNat % 4 from field_low w 2]
        rfl
      refine ⟨fun refused => ?_, fun accepted => ?_⟩
      · rw [exec_tableWriteCauses h e, code, State.writeCauses_kind calm k read,
          if_neg (fun ok => (CauseSetting.allowed_iff _ k).1 ok refused), State.refuse_respond]
      · rw [exec_tableWriteCauses h e, code, State.writeCauses_kind calm k read,
          if_pos ((CauseSetting.allowed_iff _ k).2 accepted), State.done_respond]

/-! ### TABLE_WRITE DIRECTORY (R52) -/

theorem State.writeDirectory_outside {s : State} {n : Nat} (out : n < 1 ∨ 255 < n) (entry : List Word) :
    s.writeDirectory n entry = s.refuse .refusedRange := if_pos out

theorem State.writeDirectory_misread {s : State} {n : Nat} (low : 1 ≤ n) (high : n ≤ 255) {entry : List Word}
    (misread : parseDirectory entry = none) : s.writeDirectory n entry = s.refuse .refusedRange := by
  unfold State.writeDirectory
  rw [if_neg (by omega), misread]

theorem State.writeDirectory_entry {s : State} {n : Nat} (low : 1 ≤ n) (high : n ≤ 255) {entry : List Word}
    {d : DirEntry} (read : parseDirectory entry = some d) :
    s.writeDirectory n entry =
      if s.carried n then s.refuse .refusedInUse
      else if s.trn.tagElsewhere n d.tag then s.refuse .refusedRange
      else (s.modTrn fun t => { t with directory := mod1 t.directory n fun _ => d }).done := by
  unfold State.writeDirectory
  rw [if_neg (by omega), read]

theorem parseDirectory_none {entry : List Word} (some : entry ≠ []) (misread : parseDirEntry entry = none) :
    parseDirectory entry = none := by
  unfold parseDirectory
  rw [if_neg some, misread]

theorem parseDirectory_some {entry : List Word} {d : DirEntry}
    (h : entry = [] ∧ d = DirEntry.unused ∨ entry ≠ [] ∧ parseDirEntry entry = some d) :
    parseDirectory entry = some d := by
  unfold parseDirectory
  rcases h with ⟨rfl, rfl⟩ | ⟨some, read⟩
  · exact if_pos rfl
  · rw [if_neg some, read]

theorem State.carried_iff (s : State) (n : Nat) : s.carried n = true ↔ ∃ r ∈ s.trn.train, r.cabin.toNat = n := by
  unfold State.carried
  simp only [List.any_eq_true, decide_eq_true_iff]

theorem Trn.tagElsewhere_iff (t : Trn) (n : Nat) (tag : Option (BitVec 32)) :
    t.tagElsewhere n tag = true ↔ ∃ m d, m ≠ n ∧ nth1 t.directory m = some d ∧ d.tag = tag ∧ tag.isSome := by
  unfold Trn.tagElsewhere
  simp only [Bool.and_eq_true, List.any_eq_true, Prod.exists, decide_eq_true_iff, List.mk_mem_zipIdx_iff_getElem?,
    Vector.getElem?_toList]
  constructor
  · rintro ⟨some, d, i, held, apart, same⟩
    exact ⟨i + 1, d, apart, by simpa [nth1] using held, same, some⟩
  · rintro ⟨m, d, apart, held, same, some⟩
    have low := nth1_some_pos held
    unfold nth1 at held
    rw [if_neg (by omega)] at held
    exact ⟨some, d, m - 1, held, by omega, same⟩

/-- Settles O30: the cabin number, the entry, the records that carry the number, then the other entries' tag codes. -/
theorem directoryWriteKeepsTagsApart : Obligations.DirectoryWriteKeepsTagsApart := by
  intro s f index entry h e
  refine ⟨fun out => ?_, fun low high => ⟨fun some misread => ?_, fun d read =>
    ⟨fun carried => ?_, fun free elsewhere => ?_, fun free apart => ?_⟩⟩⟩
  · rw [exec_tableWriteDirectory h e, State.writeDirectory_outside out, State.refuse_respond]
  · rw [exec_tableWriteDirectory h e, State.writeDirectory_misread low high (parseDirectory_none some misread),
      State.refuse_respond]
  all_goals
    have carries : (s.taken 30).carried index.toNat = true ↔ ∃ r ∈ s.trn.train, r.cabin.toNat = index.toNat := by
      rw [State.carried_iff, State.taken_trn]
    have holds := Trn.tagElsewhere_iff s.trn index.toNat d.tag
    rw [exec_tableWriteDirectory h e, State.writeDirectory_entry low high (parseDirectory_some read), State.taken_trn]
  · rw [if_pos (carries.2 carried), State.refuse_respond]
  · rw [if_neg (mt carries.1 free), if_pos (holds.2 elsewhere), State.refuse_respond]
  · rw [if_neg (mt carries.1 free), if_neg (mt holds.1 apart), State.done_respond]

end Sys2Proof.Machine
end

section
/-! Records and nodes by request: a record restored, a record taken out, and a node told to clear (3.7, 4.5). -/

namespace Sys2Proof.Machine

open Host

/-! ### RECORD_WRITE (R60, R61) -/

theorem exec_recordWrite {s : State} {f : RxFrame} (h : Requested s .recordWrite f) :
    exec (.recordWrite f) s = .next (((s.taken 30).reqRecordWrite f.payload).respond f.tag .recordWrite) :=
  live_requested h

theorem State.reqRecordWrite_elsewhere {s : State} (h : s.perm.line ≠ .setup) (ws : List Word) :
    s.reqRecordWrite ws = s.refuse .refusedState := if_pos h

section

variable {s : State} (h : s.perm.line = .setup)

include h

theorem State.reqRecordWrite_unready (unready : s.mgt.site = none ∨ pathChecks s.trav.path ≠ none) (ws : List Word) :
    s.reqRecordWrite ws = s.refuse .refusedState := by
  unfold State.reqRecordWrite
  rw [if_neg (not_not.2 h), if_pos unready]

variable (ready : ¬(s.mgt.site = none ∨ pathChecks s.trav.path ≠ none))

include ready

theorem State.reqRecordWrite_full (full : 32 ≤ s.trn.train.length) (ws : List Word) :
    s.reqRecordWrite ws = s.refuse .refusedInUse := by
  unfold State.reqRecordWrite
  rw [if_neg (not_not.2 h), if_neg ready, if_pos full]

variable (room : s.trn.train.length < 32)

include room

theorem State.reqRecordWrite_misread {ws : List Word} (misread : parseRestore ws = none) :
    s.reqRecordWrite ws = s.refuse .refusedRange := by
  unfold State.reqRecordWrite
  rw [if_neg (not_not.2 h), if_neg ready, if_neg (Nat.not_le.2 room), misread]

theorem State.reqRecordWrite_fields {ws : List Word} {g : RestoreFields} (read : parseRestore ws = some g) :
    s.reqRecordWrite ws =
      if s.placeOk g && s.behindTail g && g.consistent && s.identityOk g then (s.restore g).done [s.trn.nextEntry]
      else s.refuse .refusedRange := by
  unfold State.reqRecordWrite
  rw [if_neg (not_not.2 h), if_neg ready, if_neg (Nat.not_le.2 room), read]

end

theorem State.placeOk_iff (s : State) (g : RestoreFields) :
    s.placeOk g = true ↔
      ∃ p q : PathPoint, s.trav.path[g.lastPoint]? = some p ∧ s.trav.path[g.lastPoint + 1]? = some q ∧
        p.offset ≤ g.distance.toNat ∧ g.distance.toNat < q.offset := by
  unfold State.placeOk
  rw [Bool.and_eq_true, decide_eq_true_iff]
  constructor
  · rintro ⟨_, fits⟩
    split at fits
    · next p q hp hq =>
      rw [Bool.and_eq_true, decide_eq_true_iff, decide_eq_true_iff] at fits
      exact ⟨p, q, hp, hq, fits.1, fits.2⟩
    · cases fits
  · rintro ⟨p, q, hp, hq, low, high⟩
    obtain ⟨next, _⟩ := List.getElem?_eq_some_iff.1 hq
    rw [hp, hq]
    exact ⟨next, by simp [low, high]⟩

theorem State.behindTail_iff (s : State) (g : RestoreFields) :
    s.behindTail g = true ↔
      ∀ r, s.trn.train.getLast? = some r → (g.distance.toNat : Int) < r.distance s.trav.counter := by
  unfold State.behindTail
  cases s.trn.train.getLast? <;> simp

theorem RestoreFields.consistent_iff (g : RestoreFields) :
    g.consistent = true ↔
      g.closure ≠ .opening ∧ g.closure ≠ .shutting ∧ g.grip ≠ .awaited ∧
        (g.force.isSome = true ↔ g.grip = .pass ∨ g.grip = .fail) ∧ g.divertFlag = g.reason.isSome := by
  unfold RestoreFields.consistent
  simp only [Bool.and_eq_true, Bool.not_eq_true', decide_eq_false_iff_not, not_or, beq_iff_eq, and_assoc]
  rw [Bool.eq_iff_iff, decide_eq_true_iff]

theorem State.identityOk_unnamed (s : State) {g : RestoreFields} (h : g.cabin = 0) :
    s.identityOk g = g.divertFlag := if_pos h

theorem State.identityOk_named (s : State) {g : RestoreFields} (h : g.cabin ≠ 0) :
    s.identityOk g = true ↔
      ∃ d, nth1 s.trn.directory g.cabin = some d ∧ g.tag.isSome = true ∧ d.tag = g.tag ∧
        (∀ x ∈ s.trn.train, x.cabin.toNat ≠ g.cabin) ∧ (d.retired.isSome = true → g.divertFlag = true) := by
  unfold State.identityOk
  rw [if_neg h]
  cases held : nth1 s.trn.directory g.cabin with
  | none => simp
  | some d =>
    have free : s.carried g.cabin = false ↔ ∀ x ∈ s.trn.train, x.cabin.toNat ≠ g.cabin := by
      rw [← Bool.not_eq_true, State.carried_iff]
      simp
    have diverted : (d.retired.isNone || g.divertFlag) = true ↔ (d.retired.isSome = true → g.divertFlag = true) := by
      cases d.retired <;> simp
    simp only [Bool.and_eq_true, Bool.not_eq_true', decide_eq_true_iff, free, diverted, and_assoc, Option.some.injEq,
      exists_eq_left']

/-- The five tests of R60 in the rule's own words. -/
def RestoreFits (s : State) (g : RestoreFields) : Prop :=
  (∃ p q : PathPoint, s.trav.path[g.lastPoint]? = some p ∧ s.trav.path[g.lastPoint + 1]? = some q ∧
      p.offset ≤ g.distance.toNat ∧ g.distance.toNat < q.offset) ∧
    (∀ r, s.trn.train.getLast? = some r → (g.distance.toNat : Int) < r.distance s.trav.counter) ∧
    (g.closure ≠ .opening ∧ g.closure ≠ .shutting ∧ g.grip ≠ .awaited ∧
      (g.force.isSome = true ↔ g.grip = .pass ∨ g.grip = .fail) ∧ g.divertFlag = g.reason.isSome) ∧
    (g.cabin ≠ 0 → ∃ d, nth1 s.trn.directory g.cabin = some d ∧ g.tag.isSome = true ∧ d.tag = g.tag ∧
      (∀ x ∈ s.trn.train, x.cabin.toNat ≠ g.cabin) ∧ (d.retired.isSome = true → g.divertFlag = true)) ∧
    (g.cabin = 0 → g.divertFlag = true)

theorem State.restoreTests_iff (s : State) (g : RestoreFields) :
    (s.placeOk g && s.behindTail g && g.consistent && s.identityOk g) = true ↔ RestoreFits s g := by
  unfold RestoreFits
  simp only [Bool.and_eq_true, State.placeOk_iff, State.behindTail_iff, RestoreFields.consistent_iff]
  by_cases unnamed : g.cabin = 0
  · rw [State.identityOk_unnamed s unnamed]
    simp only [unnamed, ne_eq, not_true_eq_false, false_imp_iff, true_imp_iff, true_and, and_assoc]
  · rw [State.identityOk_named s unnamed]
    simp only [unnamed, ne_eq, not_false_eq_true, false_imp_iff, true_imp_iff, and_true, and_assoc]

/-- An accepted RECORD_WRITE, step by step (R61). -/
theorem State.restore_eq (s : State) (g : RestoreFields) :
    s.restore g =
      let entry := s.trn.nextEntry
      let r := restoredRecord entry s.trav.counter g
      (((((s.modTrn fun t => { t with train := t.train ++ [r], entryCounter := entry + 1 }).schedulePoint
        entry r.entryCount (g.lastPoint + 1)).endSupervision entry g.lastPoint).crowdingTest).report
        (.cabinRestored entry r.cabin g.distance)) := rfl

/-- A code of RECORD_WRITE or a cabin number out of range fails the reading or the tests of R60. -/
theorem State.reqRecordWrite_outside {s : State} (h : s.perm.line = .setup)
    (ready : ¬(s.mgt.site = none ∨ pathChecks s.trav.path ≠ none)) (room : s.trn.train.length < 32)
    (cabin high low distance lastPoint codes force : Word)
    (bad : 255 < cabin.toNat ∨ 5 < codes.toNat % 8 ∨ 4 < codes.toNat / 16 % 8 ∨ 5 < codes.toNat / 512 % 8) :
    s.reqRecordWrite [cabin, high, low, distance, lastPoint, codes, force] = s.refuse .refusedRange := by
  have closureRange : ∀ {n c}, ClosureState.ofCode n = some c → n ≤ 5 := by
    intro n c e
    unfold ClosureState.ofCode at e
    split at e <;> first | omega | cases e
  have gripRange : ∀ {n c}, GripResult.ofCode n = some c → n ≤ 4 := by
    intro n c e
    unfold GripResult.ofCode at e
    split at e <;> first | omega | cases e
  have reasonRange : ∀ {n c}, DivertReason.ofCode n = some c → n ≤ 5 := by
    intro n c e
    unfold DivertReason.ofCode at e
    split at e <;> first | omega | cases e
  cases read : parseRestore [cabin, high, low, distance, lastPoint, codes, force] with
  | none => exact State.reqRecordWrite_misread h ready room read
  | some g =>
    rw [State.reqRecordWrite_fields h ready room read]
    refine if_neg fun ok => ?_
    simp only [parseRestore] at read
    split at read
    · next closure grip reason c1 c2 c3 =>
      have e1 : codes.toNat % 8 ≤ 5 := by
        have := closureRange c1
        rwa [field_low] at this
      have e2 : codes.toNat / 16 % 8 ≤ 4 := gripRange c2
      have e3 : codes.toNat / 512 % 8 ≤ 5 := reasonRange c3
      have number : g.cabin = cabin.toNat := by cases read; rfl
      obtain ⟨_, _, _, known, _⟩ := (s.restoreTests_iff g).1 ok
      obtain ⟨d, held, _⟩ := known (by omega)
      have inDirectory := nth1_some_le held
      omega
    · cases read

/-- Settles O31: the refusals in their order, then the tests of R60, then the steps of R61. -/
theorem recordWriteRestoresARecord : Obligations.RecordWriteRestoresARecord := by
  refine ⟨fun s f cabin high low distance lastPoint codes force h words setup site path room bad => ?_,
    fun s f g h read => ⟨fun elsewhere => ?_, fun setup unready => ?_, fun setup site path =>
      ⟨fun full => ?_, fun room => ⟨fun misfit => ?_, fun fits => ⟨?_, ?_⟩⟩⟩⟩⟩
  · rw [exec_recordWrite h, words, State.reqRecordWrite_outside (by rwa [State.taken_line])
      (by rw [State.taken_site, State.taken_trav]; exact fun unready => unready.elim site (absurd path))
      (by rwa [State.taken_trn]) _ _ _ _ _ _ _ bad, State.refuse_respond]
  · rw [exec_recordWrite h, State.reqRecordWrite_elsewhere (by rwa [State.taken_line]), State.refuse_respond]
  · rw [exec_recordWrite h, State.reqRecordWrite_unready (by rwa [State.taken_line])
      (by rwa [State.taken_site, State.taken_trav]), State.refuse_respond]
  all_goals
    have line : (s.taken 30).perm.line = .setup := by rwa [State.taken_line]
    have ready : ¬((s.taken 30).mgt.site = none ∨ pathChecks (s.taken 30).trav.path ≠ none) := by
      rw [State.taken_site, State.taken_trav]
      exact fun unready => unready.elim site (absurd path)
  · rw [exec_recordWrite h, State.reqRecordWrite_full line ready (by rwa [State.taken_trn]), State.refuse_respond]
  all_goals
    have tests := (s.taken 30).restoreTests_iff g
    unfold RestoreFits at tests
    rw [State.taken_trav, State.taken_trn] at tests
  · rw [exec_recordWrite h, State.reqRecordWrite_fields line ready (by rwa [State.taken_trn]) read,
      if_neg (mt tests.1 misfit), State.refuse_respond]
  · exact s.trn.nextEntry_spec (by omega)
  · rw [exec_recordWrite h, State.reqRecordWrite_fields line ready (by rwa [State.taken_trn]) read,
      if_pos (tests.2 fits), State.done_respond, State.restore_eq, State.taken_trn, State.taken_trav]
    simp only [restoredRecord, BitVec.ofNat_toNat]

/-! ### RECORD_REMOVE (R59) -/

theorem exec_recordRemove {s : State} {f : RxFrame} (h : Requested s .recordRemove f) :
    exec (.recordRemove f) s = .next (((s.taken 30).reqRecordRemove f.payload).respond f.tag .recordRemove) :=
  live_requested h

theorem State.reqRecordRemove_elsewhere {s : State} (h : s.perm.line ≠ .held ∧ s.perm.line ≠ .quiet)
    (ws : List Word) : s.reqRecordRemove ws = s.refuse .refusedState := if_pos h

theorem State.reqRecordRemove_unknown {s : State} (h : ¬(s.perm.line ≠ .held ∧ s.perm.line ≠ .quiet)) {entry : Word}
    (absent : s.record entry = none) : s.reqRecordRemove [entry] = s.refuse .refusedUnknown := by
  unfold State.reqRecordRemove
  rw [if_neg h]
  simp only [absent]

theorem State.reqRecordRemove_known {s : State} (h : ¬(s.perm.line ≠ .held ∧ s.perm.line ≠ .quiet)) {entry : Word}
    {r : CabinRecord} (held : s.record entry = some r) : s.reqRecordRemove [entry] = (s.removeRecord r).done := by
  unfold State.reqRecordRemove
  rw [if_neg h]
  simp only [held]

/-- Settles O32: the line state, then whether a record carries the number. -/
theorem recordRemoveTakesTheRecordOut : Obligations.RecordRemoveTakesTheRecordOut := by
  intro s f entry h words
  refine ⟨fun notHeld notQuiet => ?_, fun calm => ⟨fun absent => ?_, fun r held => ?_⟩⟩
  · rw [exec_recordRemove h, State.reqRecordRemove_elsewhere (by rw [State.taken_line]; exact ⟨notHeld, notQuiet⟩),
      State.refuse_respond]
  all_goals
    have stands : ¬((s.taken 30).perm.line ≠ .held ∧ (s.taken 30).perm.line ≠ .quiet) := by
      rw [State.taken_line]
      rintro ⟨notHeld, notQuiet⟩
      exact calm.elim notHeld notQuiet
  · rw [exec_recordRemove h, words, State.reqRecordRemove_unknown stands (by rwa [State.taken_record]),
      State.refuse_respond]
  · obtain ⟨_, number⟩ := State.record_mem held
    rw [exec_recordRemove h, words, State.reqRecordRemove_known stands (by rwa [State.taken_record]),
      State.done_respond]
    unfold State.removeRecord
    rw [number]

/-! ### NODE_CLEAR (R79) -/

theorem exec_nodeClear {s : State} {f : RxFrame} (h : Requested s .nodeClear f) :
    exec (.nodeClear f) s = .next (((s.taken 30).reqNodeClear f.payload).respond f.tag .nodeClear) := live_requested h

theorem State.reqNodeClear_outside {s : State} {w : Word}
    (h : s.node w.toNat = none ∨ nth1 s.slc.nodeTable w.toNat ≠ some .closureDrive) :
    s.reqNodeClear [w] = s.refuse .refusedRange := by
  unfold State.reqNodeClear
  cases held : s.node w.toNat with
  | none => simp only [held]
  | some n =>
    simp only [held]
    exact if_pos (h.resolve_left (by simp [held]))

section

variable {s : State} {w : Word} {n : NodeRec} (held : s.node w.toNat = some n)
  (drive : nth1 s.slc.nodeTable w.toNat = some .closureDrive)

include held drive

theorem State.reqNodeClear_inUse (busy : n.txn.isSome = true ∨ n.clearMark = true) :
    s.reqNodeClear [w] = s.refuse .refusedInUse := by
  unfold State.reqNodeClear
  simp only [held, drive, ne_eq, not_true_eq_false, if_false, if_pos busy]

theorem State.reqNodeClear_free (free : ¬(n.txn.isSome = true ∨ n.clearMark = true)) :
    s.reqNodeClear [w] =
      let marked := s.modNode w.toNat fun n => { n with clearMark := true }
      if s.urgentFull then ((marked.clearCompletion w.toNat .silent).silentExchange w.toNat).done
      else (marked.pushCommand { address := w.toNat, command := .clear, txn := none }).done := by
  unfold State.reqNodeClear
  simp only [held, drive, ne_eq, not_true_eq_false, if_false, if_neg free]
  rfl

end

theorem State.modNode_modNode (s : State) (a : Nat) (f g : NodeRec → NodeRec) :
    (s.modNode a f).modNode a g = s.modNode a fun n => g (f n) := by
  unfold State.modNode State.modDtx
  simp only [mod1_mod1]

/-- Settles O33: the address, the node's transaction and mark, then the room of the urgent queue. -/
theorem nodeClearQueuesClear : Obligations.NodeClearQueuesClear := by
  intro s f w h words
  refine ⟨fun out => ?_, fun n held drive => ⟨fun busy => ?_, fun idle unmarked => ⟨fun room => ?_, fun full => ?_⟩⟩⟩
  · have none : (s.taken 30).node w.toNat = none ∨ nth1 (s.taken 30).slc.nodeTable w.toNat ≠ some .closureDrive := by
      rw [State.taken_nodeTable]
      rcases out with low | high | other
      · exact Or.inl (nth1_outside (Or.inl low))
      · exact Or.inl (nth1_outside (Or.inr high))
      · exact Or.inr other
    rw [exec_nodeClear h, words, State.reqNodeClear_outside none, State.refuse_respond]
  all_goals
    have node : (s.taken 30).node w.toNat = some n := by rwa [State.taken_nodeRec]
    have kind : nth1 (s.taken 30).slc.nodeTable w.toNat = some .closureDrive := by rwa [State.taken_nodeTable]
  · rw [exec_nodeClear h, words, State.reqNodeClear_inUse node kind busy, State.refuse_respond]
  all_goals have free : ¬(n.txn.isSome = true ∨ n.clearMark = true) := by simp [idle, unmarked]
  · have notFull : (s.taken 30).urgentFull = false := by
      unfold State.urgentFull
      rw [State.taken_urgent]
      exact decide_eq_false (Nat.not_le.2 room)
    rw [exec_nodeClear h, words, State.reqNodeClear_free node kind free]
    simp only [notFull, Bool.false_eq_true, if_false, State.done_respond]
    rfl
  · have isFull : (s.taken 30).urgentFull = true := by
      unfold State.urgentFull
      rw [State.taken_urgent]
      exact decide_eq_true full
    rw [exec_nodeClear h, words, State.reqNodeClear_free node kind free]
    simp only [isFull, if_true, State.done_respond]
    unfold State.clearCompletion
    simp only [State.modNode_modNode]

end Sys2Proof.Machine
end

section
/-! What the 640 sends in a read it takes back in a write, and what it makes of words of a wrong length (10.1, 11.2). -/

namespace Sys2Proof.Machine

open Host

/-! ### Words and their fields -/

theorem word_toNat {n : Nat} (h : n < 65536) : (word n).toNat = n := by
  unfold word
  rw [BitVec.toNat_ofNat, Nat.mod_eq_of_lt h]

theorem field_word {n : Nat} (h : n < 65536) (lo len : Nat) : field (word n) lo len = n / 2 ^ lo % 2 ^ len := by
  unfold field
  rw [word_toNat h]

theorem bit_word {n : Nat} (h : n < 65536) (k : Nat) : bit (word n) k = decide (n / 2 ^ k % 2 = 1) := by
  unfold bit
  rw [BitVec.getLsbD, word_toNat h, Nat.testBit_eq_decide_div_mod_eq]

theorem bit_word_mark {n : Nat} {b : Bool} (h : n < 65536) (k : Nat) (e : n / 2 ^ k % 2 = flag b) :
    bit (word n) k = b := by
  rw [bit_word h, e]
  cases b <;> rfl

theorem wide_twoWords (x : BitVec 32) : wide (x.extractLsb' 16 16) (x.extractLsb' 0 16) = x := by
  unfold wide
  refine BitVec.eq_of_getLsbD_eq fun i hi => ?_
  simp only [BitVec.getLsbD_append, BitVec.getLsbD_extractLsb']
  split
  · simp [*]
  · next low =>
    have : 16 + (i - 16) = i := by omega
    simp only [this]
    simp
    omega

theorem flag_le (b : Bool) : flag b ≤ 1 := by
  cases b <;> decide

/-! ### Path points -/

theorem PathAction.ofCode_code (a : PathAction) : PathAction.ofCode a.code = some a := by
  cases a <;> rfl

theorem PathAction.code_le (a : PathAction) : a.code ≤ 6 := by
  cases a <;> decide

/-- The ranges of R26 as they bear on the words of a point. -/
theorem PathPoint.bounds {p : PathPoint} (h : p.inRange = true) :
    p.offset ≤ 65535 ∧ p.lead ≤ 4000 ∧ p.tolerance ≤ 1000 ∧ p.zone.getD 0 ≤ 15 ∧ p.node.getD 0 ≤ 29 ∧
      (p.node.getD 0 = 0 → p.node = none) := by
  unfold PathPoint.inRange at h
  simp only [Bool.and_eq_true, decide_eq_true_iff] at h
  obtain ⟨⟨⟨⟨offset, lead⟩, tolerance⟩, zone⟩, node⟩ := h
  refine ⟨offset, lead, tolerance, ?_, ?_⟩
  · cases z : p.zone with
    | none => exact Nat.zero_le _
    | some z => simpa [z] using zone
  · cases held : p.node with
    | none => exact ⟨Nat.zero_le _, fun _ => rfl⟩
    | some a =>
      have named : 1 ≤ a ∧ a ≤ 29 := by
        cases action : p.action <;> simp_all
      exact ⟨named.2, fun zero => absurd named.1 (by rw [show a = 0 from zero]; decide)⟩

theorem parsePathPoint_words {p : PathPoint} (h : p.inRange = true) : parsePathPoint p.words = some p := by
  obtain ⟨offset, lead, tolerance, zone, node, named⟩ := PathPoint.bounds h
  have code := p.action.code_le
  have mark := flag_le p.zone.isSome
  have small : p.action.code + 8 * flag p.zone.isSome + 16 * p.zone.getD 0 + 256 * p.node.getD 0 < 65536 := by omega
  have action : PathAction.ofCode (field (word (p.action.code + 8 * flag p.zone.isSome + 16 * p.zone.getD 0 +
      256 * p.node.getD 0)) 0 3) = some p.action := by
    rw [field_word small, ← PathAction.ofCode_code p.action]
    congr 1
    omega
  have zoneMark : bit (word (p.action.code + 8 * flag p.zone.isSome + 16 * p.zone.getD 0 + 256 * p.node.getD 0)) 3 =
      p.zone.isSome := bit_word_mark small 3 (by omega)
  have zoneField : field (word (p.action.code + 8 * flag p.zone.isSome + 16 * p.zone.getD 0 + 256 * p.node.getD 0)) 4 4 =
      p.zone.getD 0 := by
    rw [field_word small]
    omega
  have nodeField : field (word (p.action.code + 8 * flag p.zone.isSome + 16 * p.zone.getD 0 + 256 * p.node.getD 0)) 8 5 =
      p.node.getD 0 := by
    rw [field_word small]
    omega
  have zoneRead : (if p.zone.isSome then some (p.zone.getD 0) else none) = p.zone := by
    cases p.zone <;> rfl
  have nodeRead : (if p.node.getD 0 = 0 then none else some (p.node.getD 0)) = p.node := by
    cases held : p.node with
    | none => rfl
    | some a =>
      rw [held] at named
      exact if_neg fun zero => by cases named zero
  unfold PathPoint.words parsePathPoint
  simp only [action, zoneMark, zoneField, nodeField, zoneRead, nodeRead, word_toNat (show p.offset < 65536 by omega),
    word_toNat (show p.lead < 65536 by omega), word_toNat (show p.tolerance < 65536 by omega)]
  exact if_pos h

/-! ### Towers -/

/-- The ranges of R111 as they bear on the words of a window. -/
theorem Window.bounds {w : Window} (h : w.inRange = true) :
    (-1000 ≤ w.posLow ∧ w.posLow ≤ 1000) ∧ (-1000 ≤ w.posHigh ∧ w.posHigh ≤ 1000) ∧ w.loadLow ≤ 6000 ∧
      w.loadHigh ≤ 6000 := by
  unfold Window.inRange at h
  simp only [Bool.and_eq_true, decide_eq_true_iff] at h
  omega

theorem position_toInt {x : Int} (low : -1000 ≤ x) (high : x ≤ 1000) : (BitVec.ofInt 16 x).toInt = x := by
  rw [BitVec.toInt_ofInt, Int.bmod_eq_of_le] <;> omega

/-- A window is read back from its four words. -/
theorem Window.read_words {w : Window} (h : w.inRange = true) :
    ({ posLow := (BitVec.ofInt 16 w.posLow).toInt, posHigh := (BitVec.ofInt 16 w.posHigh).toInt,
       loadLow := (word w.loadLow).toNat, loadHigh := (word w.loadHigh).toNat } : Window) = w := by
  obtain ⟨low, high, loadLow, loadHigh⟩ := Window.bounds h
  rw [position_toInt low.1 low.2, position_toInt high.1 high.2, word_toNat (by omega), word_toNat (by omega)]

theorem parseTower_words {t : TowerEntry} (h : t.inRange = true) : parseTower t.words = some t := by
  have ranges := h
  unfold TowerEntry.inRange at ranges
  simp only [Bool.and_eq_true, decide_eq_true_iff] at ranges
  obtain ⟨⟨⟨⟨⟨assemblies, limit⟩, _⟩, inner⟩, outer⟩, _⟩ := ranges
  have mask := t.mask.isLt
  have small : t.assemblies + 16 * t.missLimit + 256 * t.mask.toNat < 65536 := by omega
  have countField : field (word (t.assemblies + 16 * t.missLimit + 256 * t.mask.toNat)) 0 4 = t.assemblies := by
    rw [field_word small]
    omega
  have limitField : field (word (t.assemblies + 16 * t.missLimit + 256 * t.mask.toNat)) 4 4 = t.missLimit := by
    rw [field_word small]
    omega
  have maskField : BitVec.ofNat 8 (field (word (t.assemblies + 16 * t.missLimit + 256 * t.mask.toNat)) 8 8) = t.mask := by
    rw [field_word small, show (t.assemblies + 16 * t.missLimit + 256 * t.mask.toNat) / 2 ^ 8 % 2 ^ 8 = t.mask.toNat by
      omega, BitVec.ofNat_toNat, BitVec.setWidth_eq]
  unfold TowerEntry.words Window.words parseTower
  simp only [List.cons_append, List.nil_append, countField, limitField, maskField, Window.read_words inner,
    Window.read_words outer]
  exact if_pos h

/-! ### Directory entries, cause settings and the site record -/

theorem parseDirEntry_words {d : DirEntry} (tag : d.tag ≠ some 0)
    (empty : d.tag = none → d.retired = none ∧ d.force = none) : parseDirEntry d.words = some d := by
  obtain ⟨dTag, dRetired, dForce⟩ := d
  cases dTag with
  | none =>
    obtain ⟨rfl, rfl⟩ := empty rfl
    rfl
  | some x =>
    have held : wide (x.extractLsb' 16 16) (x.extractLsb' 0 16) = x := wide_twoWords x
    have nonzero : ¬x = 0#32 := fun zero => tag (congrArg some zero)
    unfold DirEntry.words twoWords
    rcases dRetired with _ | _ | _ <;> cases dForce <;>
      simp [parseDirEntry, flag, retireCode, word, bit, field, held, nonzero]

theorem parseCauseSetting_code (c : CauseSetting) : parseCauseSetting [word c.code] = some c := by
  obtain ⟨response, mode⟩ := c
  cases response <;> cases mode <;> rfl

theorem parseSite_words {r : SiteRecord} (h : r.inRange = true) : parseSite r.words = some r := by
  have ranges := (SiteRecord.inRange_iff r).1 h
  unfold SiteRecord.words parseSite
  simp only [word_toNat (show r.towerCount < 65536 by omega), word_toNat (show r.pollPeriod < 65536 by omega),
    word_toNat (show r.crowdHigh < 65536 by omega), word_toNat (show r.crowdLow < 65536 by omega),
    word_toNat (show r.gripMin < 65536 by omega), word_toNat (show r.gripMax < 65536 by omega),
    word_toNat (show r.closureActLimit < 65536 by omega), word_toNat (show r.tagHoldLimit < 65536 by omega),
    word_toNat (show r.stopLimit < 65536 by omega), word_toNat (show r.silenceLimit < 65536 by omega),
    word_toNat (show r.summitMissLimit < 65536 by omega), word_toNat (show r.ringLimit < 65536 by omega),
    word_toNat (show r.reverseLimit < 65536 by omega)]

/-! ### ZONE_MASK and NODES entries written back -/

/-- A zone mask entry set to the value it has. -/
theorem State.maskAgain (s : State) {z : Nat} (h : s.trav.masked z = false) :
    (s.modTrav fun t => { t with zoneMask := t.zoneMask.setIfInBounds z false }) = s := by
  have same : s.trav.zoneMask.setIfInBounds z false = s.trav.zoneMask := by
    unfold Trav.masked at h
    refine Vector.ext fun i hi => ?_
    rw [Vector.getElem_setIfInBounds]
    split
    · next e =>
      subst e
      rw [← h, Vector.getD]
      simp [hi]
    · rfl
  exact congrArg (fun mask => { s with trav := { s.trav with zoneMask := mask } }) same

theorem State.readZoneMask_flag {s : State} {z : Nat} (h : z ≤ 15) :
    s.readZoneMask z = s.done [word (flag (s.trav.masked z))] := if_neg (Nat.not_lt.2 h)

/-- A ZONE_MASK entry written back: a masked input is masked already, and an unmasked one stays so. -/
theorem State.writeZoneMask_back (s : State) {z : Nat} (low : z ≤ 15) :
    (s.writeZoneMask z [word (flag (s.trav.masked z))]).state = s := by
  by_cases underway : s.underway = true
  · rw [State.writeZoneMask_underway underway, State.refuse_state]
  · rw [State.writeZoneMask_word (Bool.eq_false_iff.2 underway) low]
    cases masked : s.trav.masked z with
    | true =>
      rw [if_pos (by rfl)]
      split
      · rfl
      · rfl
    | false =>
      rw [if_neg (by decide), if_pos (by rfl)]
      exact s.maskAgain masked

theorem NodeKind.code_le (kind : NodeKind) : kind.code ≤ 4 := by
  cases kind <;> decide

/-- The kind stands in the three low bits of a NODES read's first word (R143). -/
theorem State.readNodes_kind {s : State} {a : Nat} {kind : NodeKind} (h : nth1 s.slc.nodeTable a = some kind) :
    ((s.readNodes a).payload.headD 0).toNat % 8 = kind.code := by
  have code := kind.code_le
  rw [State.readNodes_within ⟨nth1_some_pos h, nth1_some_le h⟩]
  unfold State.nodeWords
  rw [h]
  show (word (kind.code + 8 * flag _ + 16 * flag _ + 32 * flag _)).toNat % 8 = kind.code
  generalize ((nth1 s.slc.answers a).getD AnswerRec.cleared).silent = silent
  generalize ((nth1 s.slc.answers a).getD AnswerRec.cleared).stray = stray
  generalize (nth1 s.slc.service a).getD false = member
  have := flag_le silent
  have := flag_le stray
  have := flag_le member
  rw [word_toNat (by omega)]
  omega

/-- The kind an address has, written back. -/
theorem State.writeNodes_back (s : State) {a : Nat} {kind : NodeKind} (h : nth1 s.slc.nodeTable a = some kind) :
    (s.writeNodes a [word kind.code]).state = s := by
  have code := kind.code_le
  by_cases setup : s.perm.line = .setup
  · rw [State.writeNodes_kind setup h (by rw [word_toNat (by omega), NodeKind.ofCode_code])]
    split
    · rfl
    · rw [if_pos rfl]
      rfl
  · rw [State.writeNodes_elsewhere setup, State.refuse_state]

/-! ### The names of CAUSE_ACK -/

theorem parseSubject_value {x : Subject} (tower : ∀ n, x = .tower n → 1 ≤ n ∧ n ≤ 24)
    (node : ∀ a, x = .node a → 1 ≤ a ∧ a ≤ 30) (input : ∀ z, x = .input z → z ≤ 15) :
    parseSubject x.type.code x.value = some x := by
  cases x with
  | noSubject => rfl
  | tower n =>
    have range := tower n rfl
    have value : (BitVec.ofNat 16 n).toNat = n := word_toNat (by omega)
    show (if 1 ≤ (BitVec.ofNat 16 n).toNat ∧ (BitVec.ofNat 16 n).toNat ≤ 24 then
      some (Subject.tower (BitVec.ofNat 16 n).toNat) else none) = _
    rw [value, if_pos range]
  | node a =>
    have range := node a rfl
    have value : (BitVec.ofNat 16 a).toNat = a := word_toNat (by omega)
    show (if 1 ≤ (BitVec.ofNat 16 a).toNat ∧ (BitVec.ofNat 16 a).toNat ≤ 30 then
      some (Subject.node (BitVec.ofNat 16 a).toNat) else none) = _
    rw [value, if_pos range]
  | cabin e => rfl
  | input z =>
    have range := input z rfl
    have value : (BitVec.ofNat 16 z).toNat = z := word_toNat (by omega)
    show (if (BitVec.ofNat 16 z).toNat ≤ 15 then some (Subject.input (BitVec.ofNat 16 z).toNat) else none) = _
    rw [value, if_pos range]
  | summit => rfl

theorem parseAck_names {k : CauseKind} {x : Subject} (typed : x.type = k.subjectType)
    (subject : parseSubject x.type.code x.value = some x) :
    parseAck [word (k.code + 256 * x.type.code), x.value] = some (.one k x) := by
  have code := k.code_le
  have type : x.type.code ≤ 5 := by cases x <;> simp [Subject.type, SubjectType.code]
  have small : k.code + 256 * x.type.code < 65536 := by omega
  have one : bit (word (k.code + 256 * x.type.code)) 15 = false := bit_word_mark small 15 (b := false) (by
    show _ = 0
    omega)
  have kindField : field (word (k.code + 256 * x.type.code)) 0 5 = k.code := by
    rw [field_word small]
    omega
  have typeField : field (word (k.code + 256 * x.type.code)) 8 3 = x.type.code := by
    rw [field_word small]
    omega
  unfold parseAck
  simp only [one, kindField, typeField, CauseKind.ofCode_code, subject, Bool.false_eq_true, if_false]
  exact if_pos typed

/-- Settles O34: each kind of entry by its own round trip. -/
theorem tableEntriesRoundTrip : Obligations.TableEntriesRoundTrip := by
  refine ⟨fun p h => parsePathPoint_words h, fun t h => parseTower_words h, fun d tag empty => parseDirEntry_words tag empty,
    parseCauseSetting_code, fun r h => parseSite_words h, fun s z low => ?_, fun s a kind h => ?_,
    fun k x typed range => parseAck_names typed (parseSubject_value ?_ ?_ ?_)⟩
  · rw [State.readZoneMask_flag low]
    exact ⟨rfl, rfl, s.writeZoneMask_back low⟩
  · have code := State.readNodes_kind h
    refine ⟨?_, ?_, ?_⟩
    · rw [State.readNodes_within ⟨nth1_some_pos h, nth1_some_le h⟩]
      rfl
    · simp only [code, NodeKind.ofCode_code]
    · simp only [code]
      exact s.writeNodes_back h
  all_goals
    rintro n rfl
    exact range

/-! ### Words of a wrong length (R157, R172) -/

theorem ne_nil_of_length {ws : List Word} (h : ws.length ≠ 0) : ws ≠ [] := by
  rintro rfl
  exact h rfl

theorem State.reqStatusRead_long (s : State) {ws : List Word} (h : ws.length ≠ 0) :
    s.reqStatusRead ws = s.refuse .refusedRange := if_neg (ne_nil_of_length h)

theorem State.reqSiteRead_long (s : State) {ws : List Word} (h : ws.length ≠ 0) :
    s.reqSiteRead ws = s.refuse .refusedRange := if_neg (ne_nil_of_length h)

theorem parseSite_length {ws : List Word} (h : ws.length ≠ 13) : parseSite ws = none := by
  unfold parseSite
  split
  · exact absurd rfl h
  · rfl

theorem parseRestore_length {ws : List Word} (h : ws.length ≠ 7) : parseRestore ws = none := by
  unfold parseRestore
  split
  · exact absurd rfl h
  · rfl

theorem parseAck_length {ws : List Word} (h : ws.length ≠ 2) : parseAck ws = none := by
  unfold parseAck
  split
  · exact absurd rfl h
  · rfl

theorem parsePathPoint_length {ws : List Word} (h : ws.length ≠ 4) : parsePathPoint ws = none := by
  unfold parsePathPoint
  split
  · exact absurd rfl h
  · rfl

theorem parseTower_length {ws : List Word} (h : ws.length ≠ 9) : parseTower ws = none := by
  unfold parseTower
  split
  · exact absurd rfl h
  · rfl

theorem parseCauseSetting_length {ws : List Word} (h : ws.length ≠ 1) : parseCauseSetting ws = none := by
  unfold parseCauseSetting
  split
  · exact absurd rfl h
  · rfl

theorem parseDirEntry_length {ws : List Word} (h : ws.length ≠ 4) : parseDirEntry ws = none := by
  unfold parseDirEntry
  split
  · exact absurd rfl h
  · rfl

theorem State.reqSiteWrite_length {s : State} (unlocked : s.mgt.siteLock = false) {ws : List Word}
    (h : ws.length ≠ 13) : s.reqSiteWrite ws = s.refuse .refusedRange := by
  unfold State.reqSiteWrite
  rw [unlocked, if_neg Bool.false_ne_true, parseSite_length h]

theorem State.reqRecordRead_length (s : State) {ws : List Word} (h : ws.length ≠ 1) :
    s.reqRecordRead ws = s.refuse .refusedRange := by
  unfold State.reqRecordRead
  split
  · exact absurd rfl h
  · rfl

theorem State.reqCausesRead_length (s : State) {ws : List Word} (h : ws.length ≠ 1) :
    s.reqCausesRead ws = s.refuse .refusedRange := by
  unfold State.reqCausesRead
  split
  · exact absurd rfl h
  · rfl

theorem State.reqNodeClear_length (s : State) {ws : List Word} (h : ws.length ≠ 1) :
    s.reqNodeClear ws = s.refuse .refusedRange := by
  unfold State.reqNodeClear
  split
  · exact absurd rfl h
  · rfl

theorem State.reqRecordRemove_length {s : State} (calm : ¬(s.perm.line ≠ .held ∧ s.perm.line ≠ .quiet))
    {ws : List Word} (h : ws.length ≠ 1) : s.reqRecordRemove ws = s.refuse .refusedRange := by
  unfold State.reqRecordRemove
  rw [if_neg calm]
  split
  · exact absurd rfl h
  · rfl

theorem State.reqPartReset_length {s : State} (calm : s.underway = false) {ws : List Word} (h : ws.length ≠ 0) :
    s.reqPartReset ws = s.refuse .refusedRange := by
  unfold State.reqPartReset
  rw [calm, if_neg Bool.false_ne_true, if_pos (ne_nil_of_length h)]

theorem State.reqLineReady_length {s : State} (line : s.perm.line = .setup) {ws : List Word} (h : ws.length ≠ 0) :
    s.reqLineReady ws = s.refuse .refusedRange := by
  unfold State.reqLineReady
  rw [if_neg (not_not.2 line), if_pos (ne_nil_of_length h)]

theorem State.reqLineSetup_length {s : State} (line : s.perm.line = .held) {ws : List Word} (h : ws.length ≠ 0) :
    s.reqLineSetup ws = s.refuse .refusedRange := by
  unfold State.reqLineSetup
  rw [if_neg (not_not.2 line), if_pos (ne_nil_of_length h)]

theorem State.reqLineStart_length {s : State} (line : s.perm.line = .held) {ws : List Word} (h : ws.length ≠ 0) :
    s.reqLineStart ws = s.refuse .refusedRange := by
  unfold State.reqLineStart
  rw [if_neg (not_not.2 line), if_pos (ne_nil_of_length h)]

theorem State.reqLineHalt_length {s : State} (line : s.perm.line = .running) {ws : List Word} (h : ws.length ≠ 0) :
    s.reqLineHalt ws = s.refuse .refusedRange := by
  unfold State.reqLineHalt
  rw [if_neg (not_not.2 line), if_pos (ne_nil_of_length h)]

theorem State.reqLinePark_length {s : State} (line : s.perm.line = .held) {ws : List Word} (h : ws.length ≠ 0) :
    s.reqLinePark ws = s.refuse .refusedRange := by
  unfold State.reqLinePark
  rw [if_neg (not_not.2 line), if_pos (ne_nil_of_length h)]

theorem State.reqLineWake_length {s : State} (line : s.perm.line = .quiet) {ws : List Word} (h : ws.length ≠ 0) :
    s.reqLineWake ws = s.refuse .refusedRange := by
  unfold State.reqLineWake
  rw [if_neg (not_not.2 line), if_pos (ne_nil_of_length h)]

theorem Table.ofCode_outside {w : Word} (h : w.toNat = 0 ∨ 6 < w.toNat) : Table.ofCode w = none := by
  unfold Table.ofCode
  split
  all_goals first | rfl | omega

theorem State.reqTableRead_misnamed (s : State) {ws : List Word}
    (h : ws.length ≠ 2 ∨ (ws.headD 0).toNat = 0 ∨ 6 < (ws.headD 0).toNat) :
    s.reqTableRead ws = s.refuse .refusedRange := by
  unfold State.reqTableRead
  split
  · next w index =>
    have code : Table.ofCode w = none := Table.ofCode_outside (h.resolve_left (fun length => length rfl))
    rw [code]
  · rfl

theorem State.reqTableWrite_misnamed (s : State) {ws : List Word}
    (h : (ws.headD 0).toNat = 0 ∨ 6 < (ws.headD 0).toNat) : s.reqTableWrite ws = s.refuse .refusedRange := by
  unfold State.reqTableWrite
  split
  · rfl
  · next w rest =>
    have code : Table.ofCode w = none := Table.ofCode_outside h
    rw [code]

/-! ### Table entries of a wrong length -/

theorem State.writePath_length {s : State} (line : s.perm.line = .setup) (train : s.trn.train = []) (k : Nat)
    {entry : List Word} (empty : entry.length ≠ 0) (h : entry.length ≠ 4) :
    s.writePath k entry = s.refuse .refusedRange := by
  by_cases within : 15 < k ∨ s.trav.path.length < k
  · exact State.writePath_outside line train within entry
  · exact State.writePath_misread line train within (ne_nil_of_length empty) (parsePathPoint_length h)

theorem State.writeZoneMask_length {s : State} (calm : s.underway = false) (z : Nat) {entry : List Word}
    (h : entry.length ≠ 1) : s.writeZoneMask z entry = s.refuse .refusedRange := by
  have other : ∀ w : Word, entry ≠ [w] := by
    rintro w rfl
    exact h rfl
  unfold State.writeZoneMask
  rw [calm, if_neg Bool.false_ne_true]
  split
  · rfl
  · rw [if_neg (other 1), if_neg (other 0)]

theorem State.writeNodes_length {s : State} (line : s.perm.line = .setup) (a : Nat) {entry : List Word}
    (h : entry.length ≠ 1) : s.writeNodes a entry = s.refuse .refusedRange := by
  unfold State.writeNodes
  rw [if_neg (not_not.2 line)]
  split
  · exact absurd rfl h
  · rfl

theorem State.writeTowers_length {s : State} (calm : s.underway = false) (k : Nat) {entry : List Word}
    (empty : entry.length ≠ 0) (h : entry.length ≠ 9) : s.writeTowers k entry = s.refuse .refusedRange := by
  by_cases out : k < 1 ∨ 24 < k
  · exact State.writeTowers_outside calm out entry
  · exact State.writeTowers_misread calm (by omega) (by omega) (ne_nil_of_length empty) (parseTower_length h)

theorem State.writeCauses_length {s : State} (calm : s.underway = false) (n : Nat) {entry : List Word}
    (h : entry.length ≠ 1) : s.writeCauses n entry = s.refuse .refusedRange := by
  unfold State.writeCauses
  rw [calm, if_neg Bool.false_ne_true, parseCauseSetting_length h]
  cases CauseKind.ofCode n <;> rfl

theorem State.writeDirectory_length (s : State) (n : Nat) {entry : List Word} (empty : entry.length ≠ 0)
    (h : entry.length ≠ 4) : s.writeDirectory n entry = s.refuse .refusedRange := by
  by_cases out : n < 1 ∨ 255 < n
  · exact State.writeDirectory_outside out entry
  · exact State.writeDirectory_misread (by omega) (by omega)
      (parseDirectory_none (ne_nil_of_length empty) (parseDirEntry_length h))

theorem exec_tableWrite {s : State} {f : RxFrame} (h : Requested s .tableWrite f) {c : Instr}
    (hc : c ∈ [Instr.tableWritePath f, .tableWriteZoneMask f, .tableWriteNodes f, .tableWriteTowers f,
      .tableWriteCauses f, .tableWriteDirectory f]) :
    exec c s = .next (((s.taken 30).reqTableWrite f.payload).respond f.tag .tableWrite) := by
  simp only [List.mem_cons, List.not_mem_nil, or_false] at hc
  rcases hc with rfl | rfl | rfl | rfl | rfl | rfl <;> exact live_requested h

theorem exec_tableRead {s : State} {f : RxFrame} (h : Requested s .tableRead f) {c : Instr}
    (hc : c ∈ [Instr.tableReadPath f, .tableReadZoneMask f, .tableReadNodes f, .tableReadTowers f,
      .tableReadCauses f, .tableReadDirectory f]) :
    exec c s = .next (((s.taken 30).reqTableRead f.payload).respond f.tag .tableRead) := by
  simp only [List.mem_cons, List.not_mem_nil, or_false] at hc
  rcases hc with rfl | rfl | rfl | rfl | rfl | rfl <;> exact live_requested h

/-- A TABLE_WRITE of a table at its owner: without an index word the owner judges an index out of every range and no entry
(R157). -/
theorem State.reqTableWrite_owner (s : State) {ws : List Word} {t : Table} {w : Word} (code : Table.ofCode w = some t)
    (head : ws.headD 0 = w) (some : w ≠ 0) :
    (∃ index entry, ws = w :: index :: entry ∧ s.reqTableWrite ws = s.writeTable t index.toNat entry) ∨
      ws = [w] ∧ s.reqTableWrite ws = s.writeTable t 65536 [] := by
  match ws with
  | [] => exact absurd head.symm some
  | [x] =>
    obtain rfl : x = w := head
    refine Or.inr ⟨rfl, ?_⟩
    unfold State.reqTableWrite
    simp only [code]
  | x :: index :: entry =>
    obtain rfl : x = w := head
    refine Or.inl ⟨index, entry, rfl, ?_⟩
    unfold State.reqTableWrite
    simp only [code]

section

variable {s : State} {ws : List Word}

theorem State.reqTableWrite_path_length (table : ws.headD 0 = 1) (two : ws.length ≠ 2) (six : ws.length ≠ 6)
    (line : s.perm.line = .setup) (train : s.trn.train = []) : s.reqTableWrite ws = s.refuse .refusedRange := by
  rcases s.reqTableWrite_owner (t := .path) rfl table (by decide) with ⟨index, entry, rfl, e⟩ | ⟨_, e⟩
  · rw [e]
    exact State.writePath_length line train _ (fun h => two (by simp [h])) (fun h => six (by simp [h]))
  · rw [e]
    exact State.writePath_outside line train (Or.inl (by decide)) []

theorem State.reqTableWrite_zoneMask_length (table : ws.headD 0 = 2) (three : ws.length ≠ 3)
    (calm : s.underway = false) : s.reqTableWrite ws = s.refuse .refusedRange := by
  rcases s.reqTableWrite_owner (t := .zoneMask) rfl table (by decide) with ⟨index, entry, rfl, e⟩ | ⟨_, e⟩
  · rw [e]
    exact State.writeZoneMask_length calm _ (fun h => three (by simp [h]))
  · rw [e]
    exact State.writeZoneMask_outside calm (by decide) []

theorem State.reqTableWrite_nodes_length (table : ws.headD 0 = 3) (three : ws.length ≠ 3)
    (line : s.perm.line = .setup) : s.reqTableWrite ws = s.refuse .refusedRange := by
  rcases s.reqTableWrite_owner (t := .nodes) rfl table (by decide) with ⟨index, entry, rfl, e⟩ | ⟨_, e⟩
  · rw [e]
    exact State.writeNodes_length line _ (fun h => three (by simp [h]))
  · rw [e]
    exact State.writeNodes_length (entry := []) line 65536 (by decide)

theorem State.reqTableWrite_towers_length (table : ws.headD 0 = 4) (two : ws.length ≠ 2) (eleven : ws.length ≠ 11)
    (calm : s.underway = false) : s.reqTableWrite ws = s.refuse .refusedRange := by
  rcases s.reqTableWrite_owner (t := .towers) rfl table (by decide) with ⟨index, entry, rfl, e⟩ | ⟨_, e⟩
  · rw [e]
    exact State.writeTowers_length calm _ (fun h => two (by simp [h])) (fun h => eleven (by simp [h]))
  · rw [e]
    exact State.writeTowers_outside calm (by decide) []

theorem State.reqTableWrite_causes_length (table : ws.headD 0 = 5) (three : ws.length ≠ 3)
    (calm : s.underway = false) : s.reqTableWrite ws = s.refuse .refusedRange := by
  rcases s.reqTableWrite_owner (t := .causes) rfl table (by decide) with ⟨index, entry, rfl, e⟩ | ⟨_, e⟩
  · rw [e]
    exact State.writeCauses_length calm _ (fun h => three (by simp [h]))
  · rw [e]
    exact State.writeCauses_length (entry := []) calm 65536 (by decide)

theorem State.reqTableWrite_directory_length (table : ws.headD 0 = 6) (two : ws.length ≠ 2) (six : ws.length ≠ 6) :
    s.reqTableWrite ws = s.refuse .refusedRange := by
  rcases s.reqTableWrite_owner (t := .directory) rfl table (by decide) with ⟨index, entry, rfl, e⟩ | ⟨_, e⟩
  · rw [e]
    exact State.writeDirectory_length s _ (fun h => two (by simp [h])) (fun h => six (by simp [h]))
  · rw [e]
    exact State.writeDirectory_outside (by decide) []

end

/-- Settles O35: each request's own test of its words, after the line state where that is judged first (log 16). -/
theorem wrongLengthsAreRefusedByRange : Obligations.WrongLengthsAreRefusedByRange := by
  intro s f
  have calm : ∀ {s : State}, s.perm.line ≠ .running → s.perm.line ≠ .stopping → (s.taken 30).underway = false := by
    intro s notRunning notStopping
    rw [State.taken_underway, State.underway_eq_false_iff]
    exact ⟨notRunning, notStopping⟩
  refine ⟨fun h n => ?_, fun h n => ?_, fun h n unlocked => ?_, fun h n => ?_, fun h n stands => ?_,
    fun h n line site path room => ?_, fun h n => ?_, fun h n => ?_, fun h n => ?_, fun h n notRunning notStopping => ?_,
    fun h n line => ?_, fun h n line => ?_, fun h n line => ?_, fun h n line => ?_, fun h n line => ?_,
    fun h n line => ?_, fun h n c hc => ?_, fun h code c hc => ?_,
    fun h => ⟨fun table two six line train => ?_, fun table n still => ?_, fun table n line => ?_,
      fun table two eleven still => ?_, fun table n still => ?_, fun table two six => ?_⟩⟩
  · rw [exec_statusRead h, State.reqStatusRead_long _ n, State.refuse_respond]
  · rw [exec_siteRead h, State.reqSiteRead_long _ n, State.refuse_respond]
  · rw [exec_siteWrite h, State.reqSiteWrite_length (by rwa [State.taken_lock]) n, State.refuse_respond]
  · rw [exec_recordRead h, State.reqRecordRead_length _ n, State.refuse_respond]
  · rw [exec_recordRemove h, State.reqRecordRemove_length _ n, State.refuse_respond]
    rw [State.taken_line]
    rintro ⟨notHeld, notQuiet⟩
    exact stands.elim notHeld notQuiet
  · rw [exec_recordWrite h, State.reqRecordWrite_misread (by rwa [State.taken_line]) _ (by rwa [State.taken_trn])
      (parseRestore_length n), State.refuse_respond]
    rw [State.taken_site, State.taken_trav]
    exact fun unready => unready.elim site (absurd path)
  · rw [exec_causesRead h, State.reqCausesRead_length _ n, State.refuse_respond]
  · rw [exec_causeAck h, exec_causeAckAll h, State.reqCauseAck_misnamed (parseAck_length n), State.refuse_respond]
    exact ⟨rfl, rfl⟩
  · rw [exec_nodeClear h, State.reqNodeClear_length _ n, State.refuse_respond]
  · rw [exec_partReset h, State.reqPartReset_length (calm notRunning notStopping) n, State.refuse_respond]
  · rw [exec_lineReady h, State.reqLineReady_length (by rwa [State.taken_line]) n, State.refuse_respond]
  · rw [exec_lineSetup h, State.reqLineSetup_length (by rwa [State.taken_line]) n, State.refuse_respond]
  · rw [exec_lineStart h, State.reqLineStart_length (by rwa [State.taken_line]) n, State.refuse_respond]
  · rw [exec_lineHalt h, State.reqLineHalt_length (by rwa [State.taken_line]) n, State.refuse_respond]
  · rw [exec_linePark h, State.reqLinePark_length (by rwa [State.taken_line]) n, State.refuse_respond]
  · rw [exec_lineWake h, State.reqLineWake_length (by rwa [State.taken_line]) n, State.refuse_respond]
  · rw [exec_tableRead h hc, State.reqTableRead_misnamed _ n, State.refuse_respond]
  · rw [exec_tableWrite h hc, State.reqTableWrite_misnamed _ code, State.refuse_respond]
  · rw [exec_tableWrite h (by simp), State.reqTableWrite_path_length table two six (by rwa [State.taken_line])
      (by rwa [State.taken_trn]), State.refuse_respond]
  · rw [exec_tableWrite h (by simp), State.reqTableWrite_zoneMask_length table n (calm still.1 still.2),
      State.refuse_respond]
  · rw [exec_tableWrite h (by simp), State.reqTableWrite_nodes_length table n (by rwa [State.taken_line]),
      State.refuse_respond]
  · rw [exec_tableWrite h (by simp), State.reqTableWrite_towers_length table two eleven (calm still.1 still.2),
      State.refuse_respond]
  · rw [exec_tableWrite h (by simp), State.reqTableWrite_causes_length table n (calm still.1 still.2),
      State.refuse_respond]
  · rw [exec_tableWrite h (by simp), State.reqTableWrite_directory_length table two six, State.refuse_respond]

end Sys2Proof.Machine
end

section
/-! Travel: what a firing leaves of the schedule, the firing pass, zone edges, and the entries by their kind (chapter 2). -/

namespace Sys2Proof.Machine

open Host

/-! ### Operations that leave travel as it is -/

@[simp] theorem State.claimRecord_trav (s : State) (entry : BitVec 16) (f : CabinRecord → CabinRecord) :
    (s.claimRecord entry f).trav = s.trav := rfl

@[simp] theorem State.modNode_trav (s : State) (a : Nat) (f : NodeRec → NodeRec) : (s.modNode a f).trav = s.trav := rfl

@[simp] theorem State.silentExchange_trav (s : State) (a : Nat) : (s.silentExchange a).trav = s.trav := by
  unfold State.silentExchange
  simp

@[simp] theorem State.failClaim_trav (s : State) (a : Nat) (w : WaitEntry) (c : ClosureEnding) :
    (s.failClaim a w c).trav = s.trav := rfl

@[simp] theorem State.failAtFaulted_trav (s : State) (a : Nat) (w : WaitEntry) : (s.failAtFaulted a w).trav = s.trav := by
  unfold State.failAtFaulted State.claimClosure
  simp

@[simp] theorem State.serve_trav (a : Nat) (ws : List WaitEntry) : ∀ s : State, (s.serve a ws).trav = s.trav := by
  induction ws with
  | nil => exact fun s => rfl
  | cons w ws ih =>
    intro s
    unfold State.serve
    simp only
    split
    · simp [ih]
    · rfl

@[simp] theorem State.drain_trav (a : Nat) (ws : List WaitEntry) : ∀ s : State, (s.drain a ws).trav = s.trav := by
  induction ws with
  | nil => exact fun s => rfl
  | cons w ws ih =>
    intro s
    unfold State.drain
    simp [ih]

@[simp] theorem State.closeTxn_trav (s : State) (a : Nat) : (s.closeTxn a).trav = s.trav := by
  unfold State.closeTxn
  simp only
  repeat' split
  all_goals simp

@[simp] theorem State.failTxn_trav (s : State) (a : Nat) (t : OpenTxn) (c : ClosureEnding) :
    (s.failTxn a t c).trav = s.trav := by
  unfold State.failTxn
  simp

@[simp] theorem State.cancelTxn_trav (s : State) (a : Nat) (t : OpenTxn) : (s.cancelTxn a t).trav = s.trav := by
  unfold State.cancelTxn
  simp only [State.closeTxn_trav]
  split
  · simp
  · rfl

@[simp] theorem State.sendGo_trav (s : State) (a : Nat) (t : OpenTxn) : (s.sendGo a t).trav = s.trav := by
  unfold State.sendGo State.modTxn
  simp only
  split
  · simp
  · rfl

@[simp] theorem State.overtake_trav (s : State) (entry : BitVec 16) : (s.overtake entry).trav = s.trav := by
  unfold State.overtake State.reportOvertaken State.modTxn State.unlist
  repeat' split
  all_goals simp

@[simp] theorem State.closureLead_trav (s : State) (entry : BitVec 16) (c : ClosureAction) (k a : Nat) :
    (s.closureLead entry c k a).trav = s.trav := by
  unfold State.closureLead
  simp only
  repeat' split
  all_goals simp

@[simp] theorem State.closurePoint_trav (s : State) (entry : BitVec 16) (k a : Nat) :
    (s.closurePoint entry k a).trav = s.trav := by
  unfold State.closurePoint State.raiseLate State.modTxn
  repeat' split
  all_goals simp

@[simp] theorem State.endExpectation_trav (s : State) (entry : BitVec 16) : (s.endExpectation entry).trav = s.trav := by
  unfold State.endExpectation
  split <;> rfl

@[simp] theorem State.gripLead_trav (s : State) (entry : BitVec 16) : (s.gripLead entry).trav = s.trav := by
  unfold State.gripLead
  simp only
  repeat' split
  all_goals first | rfl | simp

@[simp] theorem State.divertLead_trav (s : State) (entry : BitVec 16) : (s.divertLead entry).trav = s.trav := by
  unfold State.divertLead
  simp only
  split <;> simp

@[simp] theorem State.departLead_trav (s : State) (entry : BitVec 16) : (s.departLead entry).trav = s.trav := by
  unfold State.departLead
  repeat' split
  all_goals simp

@[simp] theorem State.handLead_trav (s : State) (entry : BitVec 16) (k : Nat) (p : PathPoint) :
    (s.handLead entry k p).trav = s.trav := by
  unfold State.handLead
  split <;> simp

@[simp] theorem State.closureLeave_trav (s : State) (entry : BitVec 16) : (s.closureLeave entry).trav = s.trav := by
  have node : ∀ (s : State) (a : Nat), (State.nodeLeave entry s a).trav = s.trav := by
    intro s a
    unfold State.nodeLeave State.unlist
    simp only
    repeat' split
    all_goals simp
  have all : ∀ (l : List Nat) (s : State), (l.foldl (State.nodeLeave entry) s).trav = s.trav := by
    intro l
    induction l with
    | nil => exact fun s => rfl
    | cons a l ih => exact fun s => (ih _).trans (node s a)
  unfold State.closureLeave
  rw [State.clear_trav, all]

@[simp] theorem State.roomTest_trav (s : State) : s.roomTest.trav = s.trav := by
  unfold State.roomTest
  split <;> simp

@[simp] theorem State.crowdingTest_trav (s : State) : s.crowdingTest.trav = s.trav := by
  unfold State.crowdingTest
  repeat' split
  all_goals simp

/-- A record that leaves takes its schedule entries along, and nothing else of travel. -/
theorem State.leave_trav (s : State) (entry : BitVec 16) (unsafely : Bool) :
    (s.leave entry unsafely).trav =
      { s.trav with schedule := s.trav.schedule.filter fun e => decide (e.entry ≠ entry) } := by
  unfold State.leave State.travLeave
  simp only [State.crowdingTest_trav, State.roomTest_trav]
  split <;> simp

@[simp] theorem State.dropClaim_trav (s : State) (entry : BitVec 16) : (s.dropClaim entry).trav = s.trav := rfl

/-! ### What a firing spends of the schedule's weight (R31; log 24) -/

/-- From s to t the counter and the path stand, and the schedule has gained at most this weight. -/
structure Spends (n : Nat) (s t : State) : Prop where
  counter : t.trav.counter = s.trav.counter
  path : t.trav.path = s.trav.path
  weight : t.trav.weight ≤ s.trav.weight + n

theorem Spends.of_trav {s t : State} (h : t.trav = s.trav) : Spends 0 s t := ⟨by rw [h], by rw [h], by rw [h]; omega⟩

theorem Spends.same (s : State) : Spends 0 s s := Spends.of_trav rfl

theorem Spends.trans {n m : Nat} {s t u : State} (a : Spends n s t) (b : Spends m t u) : Spends (n + m) s u :=
  ⟨b.counter.trans a.counter, b.path.trans a.path, by have := a.weight; have := b.weight; omega⟩

theorem Spends.mono {n m : Nat} {s t : State} (a : Spends n s t) (h : n ≤ m) : Spends m s t :=
  ⟨a.counter, a.path, a.weight.trans (by omega)⟩

theorem State.addSched_spends (s : State) (e : SchedEntry) :
    Spends (e.weight s.trav.path.length) s (s.addSched e) := by
  refine ⟨rfl, rfl, ?_⟩
  unfold State.addSched Trav.weight
  simp

theorem State.leave_spends (s : State) (entry : BitVec 16) (unsafely : Bool) : Spends 0 s (s.leave entry unsafely) := by
  have trav := s.leave_trav entry unsafely
  refine ⟨by rw [trav], by rw [trav], ?_⟩
  rw [trav]
  unfold Trav.weight
  exact (List.Sublist.sum_le_sum (List.filter_sublist.map _) (fun _ _ => Nat.zero_le _)).trans (Nat.le_add_right _ _)

theorem State.departPoint_spends (s : State) (entry : BitVec 16) : Spends 0 s (s.departPoint entry) := by
  unfold State.departPoint
  split
  · exact Spends.same s
  · split
    · exact (s.leave_spends entry false).trans (Spends.of_trav (State.report_trav _ _))
    · exact ((Spends.of_trav (State.raise_trav _ _ _)).trans (State.leave_spends _ entry true)).trans
        (Spends.of_trav (State.report_trav _ _))

theorem State.divertPoint_spends (s : State) (entry : BitVec 16) : Spends 0 s (s.divertPoint entry) := by
  have fault : Spends 0 s ((s.divertFault entry).dropClaim entry) := by
    refine Spends.of_trav ?_
    unfold State.divertFault State.dropClaim
    simp
  have out : ∀ {t : State} (r : CabinRecord) (o : DivertOutcome) (w : SwitchPos) (d : DivcPos), Spends 0 s t →
      Spends 0 s (t.diverted r o w d) :=
    fun r _ _ _ h => (h.trans (State.leave_spends _ r.entry false)).trans (Spends.of_trav (State.report_trav _ _))
  unfold State.divertPoint
  split
  · split
    · exact out _ _ _ _ (Spends.of_trav (s.dropClaim_trav entry))
    · exact fault
    · exact fault
    · exact Spends.of_trav (s.dropClaim_trav entry)
    · exact fault
    · exact out _ _ _ _ fault
  · exact Spends.same s

theorem State.handPoint_spends (s : State) (entry : BitVec 16) (k : Nat) (p : PathPoint) :
    Spends 0 s (s.handPoint entry k p) := by
  unfold State.handPoint
  split
  case h_2 => exact Spends.of_trav (s.closurePoint_trav _ _ _)
  case h_4 => exact Spends.of_trav (s.closurePoint_trav _ _ _)
  case h_7 => exact s.divertPoint_spends entry
  case h_8 => exact s.departPoint_spends entry
  all_goals exact Spends.of_trav (by simp)

/-- A point scheduled weighs what its later points may lead to, and a lead one more. -/
theorem State.schedulePoint_spends (s : State) (entry : BitVec 16) (c : BitVec 24) (k : Nat) :
    Spends (if k < s.trav.path.length then 3 * (s.trav.path.length - k) + 2 else 0) s (s.schedulePoint entry c k) := by
  unfold State.schedulePoint
  cases held : s.trav.path[k]? with
  | none =>
    simp only
    exact (Spends.of_trav rfl).mono (Nat.zero_le _)
  | some p =>
    obtain ⟨within, _⟩ := List.getElem?_eq_some_iff.1 held
    simp only [if_pos within]
    have point := s.addSched_spends { entry := entry, kind := .point, point := k, due := c + BitVec.ofNat 24 p.offset }
    split
    · exact (point.trans (State.addSched_spends _ _)).mono (Nat.le_refl _)
    · exact point.mono (Nat.le_succ _)

theorem State.superviseAt_spends (s : State) (r : CabinRecord) (k : Nat) (p : PathPoint) :
    Spends 1 s (s.superviseAt r k p) := by
  unfold State.superviseAt
  repeat' split
  · exact (Spends.of_trav (s.claimRecord_trav r.entry _)).mono (Nat.zero_le 1)
  · exact (s.addSched_spends _).mono (Nat.le_refl 1)
  · exact (Spends.same s).mono (Nat.zero_le 1)

/-- A POINT entry's effects weigh less than the entry. -/
theorem State.firePoint_spends (s : State) (entry : BitVec 16) (k : Nat) :
    Spends (3 * (s.trav.path.length - k)) s (s.firePoint entry k) := by
  unfold State.firePoint
  split
  · next r p _ held =>
    obtain ⟨within, _⟩ := List.getElem?_eq_some_iff.1 held
    simp only
    have supervised : Spends 1 s ((s.claimRecord entry fun r => { r with lastPoint := k }).superviseAt r k p) :=
      ((Spends.of_trav (State.claimRecord_trav s entry _)).trans (State.superviseAt_spends _ r k p)).mono (Nat.le_refl 1)
    generalize (s.claimRecord entry fun r => { r with lastPoint := k }).superviseAt r k p = u at supervised
    have scheduled : Spends (3 * (s.trav.path.length - k)) s
        (if p.action = .depart then u else u.schedulePoint entry r.entryCount (k + 1)) := by
      split
      · exact supervised.mono (by omega)
      · refine (supervised.trans (u.schedulePoint_spends entry r.entryCount (k + 1))).mono ?_
        rw [supervised.path]
        split <;> omega
    generalize (if p.action = .depart then u else u.schedulePoint entry r.entryCount (k + 1)) = v at scheduled
    refine Spends.trans (m := 0) ?_ (State.handPoint_spends _ entry k p)
    split
    · exact scheduled.trans (Spends.of_trav (v.handLead_trav _ _ _))
    · exact scheduled
  · exact (Spends.of_trav rfl).mono (Nat.zero_le _)

theorem State.fireLead_trav (s : State) (entry : BitVec 16) (k : Nat) : (s.fireLead entry k).trav = s.trav := by
  unfold State.fireLead
  split <;> simp

theorem State.fireWindowEnd_trav (s : State) (entry : BitVec 16) (k : Nat) :
    (s.fireWindowEnd entry k).trav = s.trav := by
  unfold State.fireWindowEnd State.endSupervision
  repeat' split
  all_goals simp

theorem SchedEntry.weight_pos (n : Nat) (e : SchedEntry) : 1 ≤ e.weight n := by
  unfold SchedEntry.weight
  split <;> omega

/-- An entry of the schedule that leaves it takes its weight along. -/
theorem Trav.weight_erase {t : Trav} {e : SchedEntry} (h : e ∈ t.schedule) :
    Trav.weight { t with schedule := t.schedule.erase e } + e.weight t.path.length = t.weight := by
  unfold Trav.weight
  rw [((List.perm_cons_erase h).map _).sum_eq]
  simp only [List.map_cons, List.sum_cons]
  omega

/-- A firing leaves the counter and the path, and a schedule of less weight. -/
theorem State.fire_spends {s : State} {e : SchedEntry} (h : e ∈ s.trav.schedule) :
    (s.fire e).trav.counter = s.trav.counter ∧ (s.fire e).trav.path = s.trav.path ∧
      (s.fire e).trav.weight < s.trav.weight := by
  have erased := Trav.weight_erase h
  have gains : ∀ {n : Nat} {t : State}, Spends n (s.modTrav fun t => { t with schedule := t.schedule.erase e }) t →
      n < e.weight s.trav.path.length →
      t.trav.counter = s.trav.counter ∧ t.trav.path = s.trav.path ∧ t.trav.weight < s.trav.weight := by
    intro n t spends less
    exact ⟨spends.counter, spends.path, by have := spends.weight; simp only [State.modTrav_trav] at this; omega⟩
  unfold State.fire
  simp only
  split
  · exact gains (Spends.of_trav (State.fireLead_trav _ _ _)) (e.weight_pos _)
  · next point =>
    refine gains (State.firePoint_spends _ _ _) ?_
    simp [SchedEntry.weight, point]
  · exact gains (Spends.of_trav (State.fireWindowEnd_trav _ _ _)) (e.weight_pos _)

/-! ### The firing pass (R30, R31) -/

theorem firstInOrder_isSome {c : BitVec 24} {e : SchedEntry} {l : List SchedEntry} (h : e ∈ l) :
    firstInOrder c l ≠ none := by
  cases l with
  | nil => cases h
  | cons x xs =>
    unfold firstInOrder
    split
    · simp
    · split <;> simp

theorem Trav.nextDue_none_iff (t : Trav) : t.nextDue = none ↔ ∀ e ∈ t.schedule, e.isDue t.counter = false := by
  unfold Trav.nextDue
  constructor
  · intro none e he
    by_contra due
    exact firstInOrder_isSome (List.mem_filter.2 ⟨he, by simpa using due⟩) none
  · intro still
    rw [List.filter_eq_nil_iff.2 fun e he => by simp [still e he]]
    rfl

/-- The entry that stands before every later one at equal due counts, and behind none that is nearer, is the first. -/
theorem firstInOrder_of_first {c : BitVec 24} {e : SchedEntry} {after : List SchedEntry}
    (ha : ∀ x ∈ after, e.ahead c ≤ x.ahead c) :
    ∀ before : List SchedEntry, (∀ x ∈ before, e.ahead c < x.ahead c) →
      firstInOrder c (before ++ e :: after) = some e
  | [], _ => by
    show firstInOrder c (e :: after) = some e
    unfold firstInOrder
    split
    · rfl
    · next x hx => rw [if_neg (not_lt.2 (ha x (firstInOrder_mem hx)))]
  | y :: before, hb => by
    show firstInOrder c (y :: (before ++ e :: after)) = some e
    unfold firstInOrder
    rw [firstInOrder_of_first ha before fun x hx => hb x (List.mem_cons_of_mem _ hx)]
    exact if_pos (hb y List.mem_cons_self)

theorem SchedEntry.isDue_iff (e : SchedEntry) (c : BitVec 24) : e.isDue c = true ↔ (c - e.due).toNat < 8388608 :=
  atOrAhead_iff c e.due

/-- A due entry lies as far ahead of the counter as the counter is past it, with the sign reversed. -/
theorem SchedEntry.ahead_of_due {e : SchedEntry} {c : BitVec 24} (h : e.isDue c = true) :
    e.ahead c = -((c - e.due).toNat : Int) := if_pos h

/-- The pass runs until nothing is due, whatever the fuel beyond the schedule's weight. -/
theorem State.fireUpTo_spec : ∀ (n : Nat) (s : State), s.trav.weight ≤ n →
    (s.fireUpTo n).trav.counter = s.trav.counter ∧ (s.fireUpTo n).trav.nextDue = none ∧ s.fireUpTo n = s.firePass
  | 0, s, h => by
    have empty : s.trav.schedule = [] := by
      cases held : s.trav.schedule with
      | nil => rfl
      | cons e es =>
        have := e.weight_pos s.trav.path.length
        unfold Trav.weight at h
        rw [held, List.map_cons, List.sum_cons] at h
        omega
    have zero : s.trav.weight = 0 := by omega
    refine ⟨rfl, (Trav.nextDue_none_iff _).2 fun e he => ?_, ?_⟩
    · rw [show (s.fireUpTo 0).trav.schedule = [] from empty] at he
      cases he
    · unfold State.firePass
      rw [zero]
  | n + 1, s, h => by
    cases due : s.trav.nextDue with
    | none =>
      have ends : ∀ m, s.fireUpTo m = s := by
        intro m
        cases m with
        | zero => rfl
        | succ m =>
          unfold State.fireUpTo
          rw [due]
      rw [State.firePass, ends, ends]
      exact ⟨rfl, due, rfl⟩
    | some e =>
      obtain ⟨counter, _, weight⟩ := State.fire_spends (Trav.nextDue_mem due)
      have runs : ∀ m, s.fireUpTo (m + 1) = (s.fire e).fireUpTo m := by
        intro m
        show (match s.trav.nextDue with
          | none => s
          | some e => (s.fire e).fireUpTo m) = _
        rw [due]
      obtain ⟨k, hk⟩ : ∃ k, s.trav.weight = k + 1 := ⟨s.trav.weight - 1, by omega⟩
      obtain ⟨same, done, pass⟩ := State.fireUpTo_spec n (s.fire e) (by omega)
      obtain ⟨_, _, pass'⟩ := State.fireUpTo_spec k (s.fire e) (by omega)
      refine ⟨?_, ?_, ?_⟩
      · rw [runs, same, counter]
      · rw [runs]
        exact done
      · rw [State.firePass, hk, runs, runs, pass, pass']
  termination_by n => n
  decreasing_by all_goals omega

/-- A pass with an entry to fire fires it and goes on. -/
theorem State.firePass_fire {s : State} {e : SchedEntry} (due : s.trav.nextDue = some e) :
    s.firePass = (s.fire e).firePass := by
  obtain ⟨_, _, weight⟩ := State.fire_spends (Trav.nextDue_mem due)
  obtain ⟨k, hk⟩ : ∃ k, s.trav.weight = k + 1 := ⟨s.trav.weight - 1, by omega⟩
  rw [State.firePass, hk, State.fireUpTo, due]
  exact (State.fireUpTo_spec k (s.fire e) (by omega)).2.2

theorem State.firePass_idle {s : State} (none : s.trav.nextDue = none) : s.firePass = s := by
  unfold State.firePass
  cases s.trav.weight with
  | zero => rfl
  | succ n =>
    unfold State.fireUpTo
    rw [none]

theorem State.regain_counter (s : State) : s.regain.trav.counter = s.trav.counter := by
  unfold State.regain
  split <;> simp

/-- Settles O37: the pass after a forward step leaves nothing due, since every firing lowers the schedule's weight; and it
fires the first due entry in R30's order. -/
theorem forwardStepLeavesNothingDue : Obligations.ForwardStepLeavesNothingDue := by
  refine ⟨fun s t live line e => ?_, fun s => ⟨fun still => ?_, fun before e after held due first last => ?_⟩⟩
  · rw [exec_forwardStep live] at e
    cases e
    unfold State.stepForward
    simp only [State.regain_line, State.modTrav_perm, State.setPins_perm, if_neg line]
    obtain ⟨counter, done, _⟩ := State.fireUpTo_spec _ (((s.setPins (quadratureStep s.pins true)).modTrav
      Trav.forward).regain) (Nat.le_refl _)
    refine ⟨counter.trans (State.regain_counter _), fun e he => ?_⟩
    have notDue := (Trav.nextDue_none_iff _).1 done e he
    exact Nat.le_of_not_lt fun due => Bool.false_ne_true (notDue.symm.trans ((e.isDue_iff _).2 due))
  · refine State.firePass_idle ((Trav.nextDue_none_iff _).2 fun e he => ?_)
    rw [← Bool.not_eq_true, e.isDue_iff]
    exact Nat.not_lt.2 (still e he)
  · refine State.firePass_fire ?_
    have eDue := (e.isDue_iff s.trav.counter).2 due
    unfold Trav.nextDue
    rw [held, List.filter_append, List.filter_cons_of_pos (by exact eDue)]
    refine firstInOrder_of_first (fun x hx => ?_) _ fun x hx => ?_
    all_goals
      obtain ⟨hx, xDue⟩ := List.mem_filter.1 hx
      have near := (x.isDue_iff _).1 xDue
      rw [SchedEntry.ahead_of_due eDue, SchedEntry.ahead_of_due xDue]
    · have := last x hx
      simp only at this
      omega
    · have := first x hx
      simp only at this
      omega

/-! ### Points scheduled, supervisions ended (R32, R34, R37) -/

/-- The entries that schedule point p, of number k (R32, R34). -/
def pointEntries (entry : BitVec 16) (count : BitVec 24) (k : Nat) (p : PathPoint) : List SchedEntry :=
  { entry := entry, kind := .point, point := k, due := count + BitVec.ofNat 24 p.offset } ::
    if 0 < p.lead ∧ p.action.hasOwner = true then
      [{ entry := entry, kind := .lead, point := k, due := count + BitVec.ofNat 24 p.offset - BitVec.ofNat 24 p.lead }]
    else []

theorem State.schedulePoint_held {s : State} {k : Nat} {p : PathPoint} (h : s.trav.path[k]? = some p)
    (entry : BitVec 16) (count : BitVec 24) :
    s.schedulePoint entry count k =
      s.modTrav fun t => { t with schedule := t.schedule ++ pointEntries entry count k p } := by
  unfold State.schedulePoint pointEntries State.addSched State.modTrav
  rw [h]
  simp only
  split <;> simp

theorem State.schedulePoint_none {s : State} {k : Nat} (h : s.trav.path[k]? = none) (entry : BitVec 16)
    (count : BitVec 24) : s.schedulePoint entry count k = s := by
  unfold State.schedulePoint
  rw [h]

/-- A point scheduled changes the schedule alone. -/
theorem State.schedulePoint_rest (s : State) (entry : BitVec 16) (count : BitVec 24) (k : Nat) :
    ∃ l, s.schedulePoint entry count k = s.modTrav fun t => { t with schedule := l } := by
  cases h : s.trav.path[k]? with
  | none => exact ⟨s.trav.schedule, State.schedulePoint_none h entry count⟩
  | some p => exact ⟨_, State.schedulePoint_held h entry count⟩

theorem PathAction.hasOwner_iff (a : PathAction) : a.hasOwner = true ↔ a ≠ .entry ∧ a ≠ .mark := by
  cases a <;> simp [PathAction.hasOwner]

/-- The point awaited after point k: the next, where it has an unmasked zone input (R37). -/
theorem Trav.nextConfirmation_eq (t : Trav) (k : Nat) :
    t.nextConfirmation k =
      match (t.path[k + 1]?).bind PathPoint.zone with
      | some z => if t.zoneMask.getD z false then none else some (k + 1)
      | none => none := by
  unfold Trav.nextConfirmation Trav.masked
  cases t.path[k + 1]? with
  | none => rfl
  | some p => cases held : p.zone <;> simp only [Option.bind_some, held]

/-! ### Entries fire by their kind (R33, R34, R39) -/

theorem State.fire_lead {s : State} {e : SchedEntry} {p : PathPoint} (kind : e.kind = .lead)
    (held : s.trav.path[e.point]? = some p) :
    s.fire e = (s.modTrav fun t => { t with schedule := t.schedule.erase e }).handLead e.entry e.point p := by
  unfold State.fire State.fireLead
  simp only [kind, State.modTrav_trav, held]

theorem State.fire_windowEnd {s : State} {e : SchedEntry} {r : CabinRecord} (kind : e.kind = .windowEnd)
    (held : s.record e.entry = some r) :
    s.fire e =
      let u := s.modTrav fun t => { t with schedule := t.schedule.erase e }
      if r.confirmation = some e.point then
        (u.raise .cabinSlip (.cabin e.entry)).endSupervision e.entry e.point
      else u := by
  have same : (s.modTrav fun t => { t with schedule := t.schedule.erase e }).record e.entry = some r := held
  unfold State.fire State.fireWindowEnd
  simp only [kind, same]

theorem State.fire_point {s : State} {e : SchedEntry} {r : CabinRecord} {p : PathPoint} (kind : e.kind = .point)
    (held : s.record e.entry = some r) (point : s.trav.path[e.point]? = some p) :
    s.fire e =
      let u := s.modTrav fun t => { t with schedule := t.schedule.erase e }
      let marked := u.claimRecord e.entry fun r => { r with lastPoint := e.point }
      let watched := marked.superviseAt r e.point p
      let next := if p.action = .depart then watched else watched.schedulePoint e.entry r.entryCount (e.point + 1)
      let warned := if p.lead = 0 ∧ p.action.hasOwner = true then next.handLead e.entry e.point p else next
      warned.handPoint e.entry e.point p := by
  have same : (s.modTrav fun t => { t with schedule := t.schedule.erase e }).record e.entry = some r := held
  have there : (s.modTrav fun t => { t with schedule := t.schedule.erase e }).trav.path[e.point]? = some p := point
  unfold State.fire State.firePoint
  simp only [kind, same, there]

/-- The supervision at a point by what the record awaits (R34). -/
theorem State.superviseAt_eq (s : State) (r : CabinRecord) (k : Nat) (p : PathPoint) :
    s.superviseAt r k p =
      if r.confirmation = some k then
        s.addSched
          { entry := r.entry, kind := .windowEnd, point := k,
            due := r.entryCount + BitVec.ofNat 24 p.offset + BitVec.ofNat 24 p.tolerance }
      else if r.confirmation = none then s.endSupervision r.entry k
      else s := by
  unfold State.superviseAt
  cases held : r.confirmation with
  | none => simp
  | some c => simp

/-- Settles O39: the two parts of a schedule's upkeep, then each kind of entry. -/
theorem scheduleEntriesFireByTheirKind : Obligations.ScheduleEntriesFireByTheirKind := by
  refine ⟨fun s entry count k => ⟨fun p held => ?_, ?_⟩, fun s e => ⟨fun p kind held => State.fire_lead kind held,
    fun r kind held => ⟨fun awaits => ?_, fun other => ?_⟩, fun r p kind held point => ?_⟩⟩
  · rw [State.schedulePoint_held held]
    unfold pointEntries
    simp only [PathAction.hasOwner_iff]
  · unfold State.endSupervision
    simp only [Trav.nextConfirmation_eq] <;> rfl
  · rw [State.fire_windowEnd kind held]
    exact if_pos awaits
  · rw [State.fire_windowEnd kind held]
    exact if_neg other
  · obtain ⟨_, number⟩ := State.record_mem held
    rw [State.fire_point kind held point]
    simp only [State.superviseAt_eq, number]
    rfl

/-! ### Zone edges (R11, R28, R38, R45) -/

theorem exec_zoneEdge {s : State} (h : s.phase = .live) (z : Nat) :
    exec (.zoneEdge z) s = .next (s.zoneRise z) := live_of (f := fun s => s.zoneRise z) h

/-- The state with input z's level high. -/
def State.zoneHigh (s : State) (z : Nat) : State := s.setPins { s.pins with zin := s.pins.zin.setIfInBounds z true }

theorem State.zoneRise_setup {s : State} (h : s.perm.line = .setup) (z : Nat) : s.zoneRise z = s.zoneHigh z := if_pos h

section

variable {s : State} (h : s.perm.line ≠ .setup) {z : Nat}

include h

theorem State.zoneRise_unnamed (none : s.trav.pointOf z = none) : s.zoneRise z = s.zoneHigh z := by
  have unnamed : (s.zoneHigh z).trav.pointOf z = Option.none := none
  show (if s.perm.line = .setup then s.zoneHigh z else (s.zoneHigh z).zoneTaken z) = _
  rw [if_neg h, State.zoneTaken, unnamed]

theorem State.zoneRise_entry (first : s.trav.pointOf z = some 0) :
    s.zoneRise z = (s.zoneHigh z).entryEdge s.trav.counter := by
  have entry : (s.zoneHigh z).trav.pointOf z = some 0 := first
  show (if s.perm.line = .setup then s.zoneHigh z else (s.zoneHigh z).zoneTaken z) = _
  rw [if_neg h, State.zoneTaken, entry]
  rfl

theorem State.zoneRise_point {k : Nat} (named : s.trav.pointOf z = some (k + 1)) :
    s.zoneRise z = if s.trav.masked z then s.zoneHigh z else (s.zoneHigh z).confirm z (k + 1) := by
  have point : (s.zoneHigh z).trav.pointOf z = some (k + 1) := named
  show (if s.perm.line = .setup then s.zoneHigh z else (s.zoneHigh z).zoneTaken z) = _
  rw [if_neg h, State.zoneTaken, point]
  rfl

end

/-- The records a confirmation edge at point k may be of (R38). -/
theorem State.candidate_eq {s : State} {k : Nat} {p : PathPoint} (h : s.trav.path[k]? = some p) :
    s.candidate k =
      s.trn.train.find? fun r =>
        decide (r.confirmation = some k ∧ (p.offset : Int) - p.tolerance ≤ r.distance s.trav.counter ∧
          r.distance s.trav.counter ≤ (p.offset : Int) + p.tolerance) := by
  unfold State.candidate CabinRecord.inWindow
  rw [h]
  simp only [Bool.decide_and]

theorem State.confirm_none {s : State} {z k : Nat} (h : s.candidate k = none) :
    s.confirm z k = s.raise .zoneUnexpected (.input z) := by
  unfold State.confirm
  rw [h]

theorem State.confirm_some {s : State} {z k : Nat} {r : CabinRecord} (h : s.candidate k = some r) :
    s.confirm z k =
      ((s.dropWindowEnd r.entry k).endSupervision r.entry k).clear .zoneUnexpected (.input z) := by
  unfold State.confirm
  rw [h]

@[simp] theorem State.wake_site (s : State) (w : WakeSource) : (s.wake w).site = s.site := by
  unfold State.wake
  split
  · exact State.report_site _ _
  · rfl

theorem State.entryEdge_full {s : State} (full : 32 ≤ s.trn.train.length) (count : BitVec 24) :
    s.entryEdge count =
      ((s.wake .entryEdge).raise .trainOverflow .noSubject).modTrn fun t => { t with overflowFlag := true } :=
  if_pos (by rwa [State.wake_trn])

theorem State.entryEdge_room {s : State} (room : s.trn.train.length < 32) (count : BitVec 24) :
    s.entryEdge count =
      ((((s.wake .entryEdge).joinTrain (newRecord s.trn.nextEntry count)).scheduleRecord s.trn.nextEntry count 0).meetTag
        s.trn.nextEntry).crowdingTest := by
  unfold State.entryEdge
  simp only [State.wake_trn]
  exact if_neg (Nat.not_le.2 room)

/-- A record scheduled leaves the pending slot and the site record. -/
theorem State.scheduleRecord_slot (s : State) (entry : BitVec 16) (count : BitVec 24) (k : Nat) :
    (s.scheduleRecord entry count k).trn.slot = s.trn.slot ∧ (s.scheduleRecord entry count k).site = s.site := by
  obtain ⟨l, rest⟩ := s.schedulePoint_rest entry count (k + 1)
  unfold State.scheduleRecord State.endSupervision State.claimRecord State.site
  rw [rest]
  exact ⟨rfl, rfl⟩

theorem State.meetTag_slot {s : State} {p : PendingTag} (h : s.trn.slot = some p) (entry : BitVec 16) :
    s.meetTag entry = (s.modTrn fun t => { t with slot := none }).matchTag entry p.tag := by
  unfold State.meetTag
  rw [h]

theorem State.meetTag_none {s : State} (h : s.trn.slot = none) (entry : BitVec 16) :
    s.meetTag entry = s.claimRecord entry fun r => { r with tagTimer := some s.site.tagHoldLimit } := by
  unfold State.meetTag
  rw [h]

/-- Settles O38: the edge by the point its input names, the entry by the train's room and the pending slot, the
confirmation by the candidate. -/
theorem zoneEdgesEnterAndConfirm : Obligations.ZoneEdgesEnterAndConfirm := by
  intro s z live _
  refine ⟨fun ignored => ?_, fun line first => ⟨fun full => ?_, fun room => ⟨s.trn.nextEntry_spec (by omega), ?_⟩⟩,
    fun k p line named held => ⟨fun masked => ?_, fun unmasked => ⟨fun none => ?_, fun r found => ?_⟩⟩⟩
  · by_cases line : s.perm.line = .setup
    · rw [exec_zoneEdge live, State.zoneRise_setup line]
      rfl
    · rw [exec_zoneEdge live, State.zoneRise_unnamed line (ignored.resolve_left line)]
      rfl
  · rw [exec_zoneEdge live, State.zoneRise_entry line first,
      State.entryEdge_full (s := s.zoneHigh z) full]
    rfl
  · obtain ⟨slot, site⟩ := (((s.zoneHigh z).wake .entryEdge).joinTrain
      (newRecord s.trn.nextEntry s.trav.counter)).scheduleRecord_slot s.trn.nextEntry s.trav.counter 0
    rw [exec_zoneEdge live, State.zoneRise_entry line first, State.entryEdge_room (s := s.zoneHigh z) room]
    have joined : (((s.zoneHigh z).wake .entryEdge).joinTrain (newRecord s.trn.nextEntry s.trav.counter)).trn.slot =
        s.trn.slot := by
      show ((s.zoneHigh z).wake .entryEdge).trn.slot = _
      rw [State.wake_trn]
      rfl
    have limits : (((s.zoneHigh z).wake .entryEdge).joinTrain (newRecord s.trn.nextEntry s.trav.counter)).site =
        s.site := State.wake_site _ _
    cases tag : s.trn.slot with
    | some t =>
      have there := slot.trans (joined.trans tag)
      exact congrArg (fun u : State => Outcome.next u.crowdingTest) (State.meetTag_slot there _)
    | none =>
      have there := slot.trans (joined.trans tag)
      have meets := State.meetTag_none there s.trn.nextEntry
      rw [site, limits] at meets
      exact congrArg (fun u : State => Outcome.next u.crowdingTest) meets
  · rw [exec_zoneEdge live, State.zoneRise_point line named,
      if_pos (show s.trav.masked z = true from masked)]
    rfl
  all_goals
    have candidate := State.candidate_eq (s := s.zoneHigh z) (k := k + 1) held
    rw [exec_zoneEdge live, State.zoneRise_point line named,
      if_neg (show ¬s.trav.masked z = true from Bool.eq_false_iff.1 unmasked)]
  · rw [State.confirm_none (candidate.trans none)]
    rfl
  · rw [State.confirm_some (candidate.trans found)]
    rfl

end Sys2Proof.Machine
end

section
/-! Leaving the train: the DEPART and DIVERT points and what a leave ends (chapters 3 and 5). -/

namespace Sys2Proof.Machine

open Host

/-! ### The DEPART lead and point (R56, R57) -/

theorem CabinRecord.fit_iff (r : CabinRecord) : r.fit = true ↔ r.grip = .pass ∧ r.divert = none ∧ r.closure = .shut := by
  simp [CabinRecord.fit, and_assoc]

section

variable {s : State} {entry : BitVec 16} {r : CabinRecord} (held : s.record entry = some r)

include held

theorem State.departLead_held :
    s.departLead entry = if r.fit then s else s.raise .departBlocked (.cabin entry) := by
  unfold State.departLead
  rw [held]

theorem State.departPoint_held :
    s.departPoint entry =
      if r.fit then (s.leave entry false).report (.cabinDeparted entry .departed r.grip r.closure r.divert r.cabin)
      else
        ((s.raise .departUnsafe (.cabin entry)).leave entry true).report
          (.cabinDeparted entry .unsafely r.grip r.closure r.divert r.cabin) := by
  unfold State.departPoint
  rw [held]

theorem State.departLead_fit (fit : r.fit = true) : s.departLead entry = s :=
  (State.departLead_held held).trans (if_pos fit)

theorem State.departLead_unfit (unfit : ¬r.fit = true) :
    s.departLead entry = s.raise .departBlocked (.cabin entry) :=
  (State.departLead_held held).trans (if_neg unfit)

theorem State.departPoint_fit (fit : r.fit = true) :
    s.departPoint entry =
      (s.leave entry false).report (.cabinDeparted entry .departed r.grip r.closure r.divert r.cabin) :=
  (State.departPoint_held held).trans (if_pos fit)

theorem State.departPoint_unfit (unfit : ¬r.fit = true) :
    s.departPoint entry =
      ((s.raise .departUnsafe (.cabin entry)).leave entry true).report
        (.cabinDeparted entry .unsafely r.grip r.closure r.divert r.cabin) :=
  (State.departPoint_held held).trans (if_neg unfit)

end

/-! ### What a leave ends (R46, R54, R55, R78, R92, R95) -/

/-- A transaction cancelled queues CANCEL where the urgent queue has room, and is silence where it has none; then it
closes (R69, R146). -/
theorem State.cancelTxn_eq (s : State) (a : Nat) (t : OpenTxn) :
    s.cancelTxn a t =
      (if s.slc.urgent.length < 64 then s.pushCommand { address := a, command := .cancel t.entry, txn := some t.id }
      else s.silentExchange a).closeTxn a := by
  unfold State.cancelTxn State.urgentFull
  by_cases room : s.slc.urgent.length < 64
  · simp [room, Nat.not_le.2 room]
  · simp [room, Nat.not_lt.1 room]

theorem State.gripLeave_eq (s : State) (entry : BitVec 16) :
    s.gripLeave entry =
      ((s.modGsw fun g =>
        { expectations := g.expectations.filter fun e => decide (e ≠ entry)
          claims := g.claims.filter fun c => decide (c.entry ≠ entry)
          commanded :=
            ((g.claims.filter fun c => decide (c.entry ≠ entry)).head?.map SwitchClaim.wanted).getD g.commanded
          faults := g.faults.filter fun e => decide (e ≠ entry) }).clear .gripFail (.cabin entry)).clear
            .divertFault (.cabin entry) := by
  unfold State.gripLeave State.dropClaim
  simp only [Gsw.driveHead_eq]
  rfl

theorem State.crowdingTest_calm {s : State} (calm : s.trn.crowding = .calm) :
    s.crowdingTest =
      if s.site.crowdHigh ≤ s.trn.train.length then
        (s.raise .trainCrowded .noSubject).modTrn fun t => { t with crowding := .raised }
      else s := by
  unfold State.crowdingTest
  rw [calm]

theorem State.crowdingTest_raised {s : State} (raised : s.trn.crowding = .raised) :
    s.crowdingTest =
      if s.trn.train.length ≤ s.site.crowdLow then
        (s.clear .trainCrowded .noSubject).modTrn fun t => { t with crowding := .calm }
      else s := by
  unfold State.crowdingTest
  rw [raised]

/-! ### The DIVERT point (R93) -/

/-- The point compares the claim's wanted position with what DIVC shows. -/
theorem State.divertPoint_held {s : State} {entry : BitVec 16} {r : CabinRecord} {c : SwitchClaim} {w : SwitchPos}
    {d : DivcPos} (held : s.record entry = some r)
    (claimed : (s.gsw.claims.find? fun c => decide (c.entry = entry)) = some c) (wanted : c.wanted = w)
    (shown : s.divc = d) :
    s.divertPoint entry =
      if w.shownBy d = true then
        if w = .main then s.dropClaim entry else (s.dropClaim entry).diverted r .garage .garage .garage
      else if d = .garage then ((s.divertFault entry).dropClaim entry).diverted r .astray .main .garage
      else (s.divertFault entry).dropClaim entry := by
  unfold State.divertPoint
  rw [held, claimed]
  simp only [wanted, shown]
  cases w <;> cases d <;> rfl

theorem State.divc_of {s : State} {divc0 divc1 : Bool} (h0 : s.pins.divc0 = divc0) (h1 : s.pins.divc1 = divc1) :
    s.divc = decodeDivc divc0 divc1 := by rw [← h0, ← h1]; rfl

/-- Settles O40: the DEPART lead and point by the three checks, what a leave ends, the DIVERT point by claim and DIVC. -/
theorem recordsLeaveAtDivertAndDepart : Obligations.RecordsLeaveAtDivertAndDepart := by
  refine ⟨fun s entry r held => ⟨fun fit => ?_, fun unfit => ?_, fun unsafely => rfl⟩,
    fun s entry => ⟨rfl, rfl, fun a t => s.cancelTxn_eq a t, s.gripLeave_eq entry, rfl, State.crowdingTest_calm,
      State.crowdingTest_raised⟩, fun s entry r c held claimed => ?_⟩
  · exact ⟨State.departLead_fit held (r.fit_iff.2 fit), State.departPoint_fit held (r.fit_iff.2 fit)⟩
  · have unfit' := mt r.fit_iff.1 unfit
    exact ⟨State.departLead_unfit held unfit', State.departPoint_unfit held unfit'⟩
  · obtain ⟨_, number⟩ := State.record_mem held
    have point := fun {w d} => State.divertPoint_held (w := w) (d := d) held claimed
    subst number
    refine ⟨fun wanted h0 h1 => ?_, fun wanted h0 h1 => ?_, fun wanted h0 h1 => ?_, fun wanted other => ?_,
      fun wanted same => ?_⟩
    · rw [point wanted (State.divc_of h0 h1), wanted]
      rfl
    · exact point wanted (State.divc_of h0 h1)
    · rw [point wanted (State.divc_of h0 h1), wanted]
      rfl
    · rw [point wanted rfl]
      cases h0 : s.pins.divc0 with
      | true => cases h1 : s.pins.divc1 <;> rw [State.divc_of h0 h1] <;> rfl
      | false => rw [State.divc_of h0 (other.resolve_left (by simp [h0]) : s.pins.divc1 = false)]; rfl
    · rw [point wanted rfl, State.divc_of same rfl]
      cases s.pins.divc1 <;> rfl

end Sys2Proof.Machine
end

section
/-! The telephone: the change of the call state, the call machine's events, and the voice (chapter 8). -/

namespace Sys2Proof.Machine

open Host

/-! ### A change of the call state (R131) -/

theorem State.modSmt_congr {s : State} {f g : Smt → Smt} (h : f s.smt = g s.smt) : s.modSmt f = s.modSmt g := by
  unfold State.modSmt
  rw [h]

@[simp] theorem State.wake_time (s : State) (w : WakeSource) : (s.wake w).mgt.lineTime = s.mgt.lineTime := by
  unfold State.wake
  split
  · exact Mgt.addReport_time _ _
  · rfl

/-- The line as a change of the call state finds it: woken, where the call leaves IDLE (R11). -/
def State.callWoken (s : State) : State := if s.smt.call = .idle then s.wake .call else s

theorem State.callWoken_eq (s : State) :
    s.callWoken = if s.smt.call = .idle ∧ s.perm.line = .quiet then s.setLine .held (.wake .call) else s := by
  unfold State.callWoken State.wake
  by_cases idle : s.smt.call = .idle
  · simp only [idle, true_and, if_true]
  · rw [if_neg idle, if_neg fun h => idle h.1]

/-- The line woken leaves what the change reads. -/
theorem State.callWoken_rest (s : State) :
    s.callWoken.smt = s.smt ∧ s.callWoken.site = s.site ∧ s.callWoken.mgt.lineTime = s.mgt.lineTime ∧
      s.callWoken.pins = s.pins := by
  unfold State.callWoken
  split
  · exact ⟨State.wake_smt _ _, State.wake_site _ _, State.wake_time _ _, State.wake_pins _ _⟩
  · exact ⟨rfl, rfl, rfl, rfl⟩

/-- The telephone's own part of the change (R131). -/
def Smt.toCall (m : Smt) (new : CallState) (limit : Nat) : Smt :=
  { m with
    call := new
    ringTimer := if new = .outgoing ∨ new = .incoming then some limit else none
    ring := if new = .idle ∨ new = .clearing then false else m.ring
    uplink := if m.call = .connected then [] else m.uplink
    downlink := if m.call = .connected then [] else m.downlink
    playback := if m.call = .connected then .waiting else m.playback
    vso := if m.call = .connected then 128 else m.vso }

theorem and_not_decide (b : Bool) (p : Prop) [Decidable p] : (b && !decide p) = if p then false else b := by
  by_cases h : p <;> simp [h]

theorem State.setCall_eq (s : State) (new : CallState) (event : CallEvent) :
    s.setCall new event =
      (s.callWoken.modSmt fun m => m.toCall new (s.site.ringLimit * 1000)).report (.callState s.smt.call new event) := by
  obtain ⟨smt, site, _, _⟩ := s.callWoken_rest
  unfold State.setCall
  simp only [and_not_decide, decide_eq_true_eq]
  show ((s.callWoken.modSmt _).report _) = _
  refine congrArg (fun t : State => t.report (.callState s.smt.call new event)) (State.modSmt_congr ?_)
  rw [Smt.toCall, smt, ← site]
  rfl

/-- A change of the call state leaves the marks of the call, the summit's held code, the line time and the pins. -/
theorem State.setCall_rest (s : State) (new : CallState) (event : CallEvent) :
    (s.setCall new event).smt = s.smt.toCall new (s.site.ringLimit * 1000) ∧
      (s.setCall new event).mgt.lineTime = s.mgt.lineTime ∧ (s.setCall new event).pins = s.pins := by
  obtain ⟨smt, _, time, pins⟩ := s.callWoken_rest
  rw [State.setCall_eq]
  refine ⟨?_, (Mgt.addReport_time _ _).trans time, pins⟩
  show s.callWoken.smt.toCall new _ = _
  rw [smt]

theorem State.endCall_eq (s : State) (outcome : CallOutcome) (event : CallEvent) :
    s.endCall outcome event =
      (s.setCall .idle event).report (.callEnded outcome s.smt.autoMark s.smt.startTime s.smt.concealed) := by
  obtain ⟨smt, _, _⟩ := s.setCall_rest .idle event
  unfold State.endCall
  simp only [smt]
  rfl

/-- Settles O43: the woken line, then the telephone's own part. -/
theorem callStateChangesHaveCommonEffects : Obligations.CallStateChangesHaveCommonEffects := by
  intro s new event outcome
  refine ⟨?_, s.endCall_eq outcome event⟩
  rw [State.setCall_eq, State.callWoken_eq]
  refine congrArg (fun t : State => t.report (.callState s.smt.call new event)) (State.modSmt_congr ?_)
  rw [← State.callWoken_eq, s.callWoken_rest.1]
  rfl

/-! ### The call machine (R132 to R135) -/

theorem exec_offHook {s : State} (h : s.phase = .live) : exec .offHook s = .next (s.hookEdge true) :=
  live_of (f := fun s => s.hookEdge true) h

theorem exec_onHook {s : State} (h : s.phase = .live) : exec .onHook s = .next (s.hookEdge false) :=
  live_of (f := fun s => s.hookEdge false) h

theorem exec_ringTimerExpiry {s : State} (h : s.phase = .live) : exec .ringTimerExpiry s = .next s.ringExpired :=
  live_of (f := fun s => s.ringExpired) h

theorem exec_automaticCallClaim {s : State} (h : s.phase = .live) :
    exec .automaticCallClaim s = .next s.takeAutoClaim := live_of (f := fun s => s.takeAutoClaim) h

theorem State.hookEdge_setup {s : State} (setup : s.perm.line = .setup) (offHook : Bool) :
    s.hookEdge offHook = s.setPins { s.pins with hook := offHook } := if_pos setup

/-- The state with the handset lifted or hung up. -/
def State.withHook (s : State) (offHook : Bool) : State := s.setPins { s.pins with hook := offHook }

theorem State.hookEdge_lifted {s : State} (h : s.perm.line ≠ .setup) : s.hookEdge true = (s.withHook true).callOffHook :=
  if_neg h

theorem State.hookEdge_hung {s : State} (h : s.perm.line ≠ .setup) : s.hookEdge false = (s.withHook false).callOnHook :=
  if_neg h

/-- Both edges of the handset outside SETUP, by the call state s is in. -/
theorem hookEdges_of {s t u : State} {c : CallState} (live : s.phase = .live) (line : s.perm.line ≠ .setup)
    (call : s.smt.call = c)
    (lifted : (s.withHook true).smt.call = c → (s.withHook true).callOffHook = t)
    (hung : (s.withHook false).smt.call = c → (s.withHook false).callOnHook = u) :
    exec .offHook s = .next t ∧ exec .onHook s = .next u := by
  rw [exec_offHook live, exec_onHook live, State.hookEdge_lifted line, State.hookEdge_hung line, lifted call, hung call]
  exact ⟨rfl, rfl⟩

/-- OUTGOING goes to CONNECTED, with the marks as the call began. -/
theorem State.connectOut_eq (s : State) (event : CallEvent) :
    s.connectOut event =
      if s.smt.autoMark = true ∧ s.pins.hook = false then
        (s.setCall .connected event).modSmt fun m => { m with ring := true }
      else s.setCall .connected event := by
  obtain ⟨smt, _, pins⟩ := s.setCall_rest .connected event
  unfold State.connectOut
  simp only [smt, pins]
  rfl

/-- The call record begun afresh. -/
def State.begun (s : State) (new : CallState) (auto hook : Bool) (event : CallEvent) : State :=
  (s.setCall new event).modSmt fun m =>
    { m with autoMark := auto, hookMark := hook, startTime := s.mgt.lineTime, clearingCount := 0, concealed := 0 }

theorem State.beginCall_eq (s : State) (new : CallState) (auto hook : Bool) (event : CallEvent) :
    s.beginCall new auto hook event = s.begun new auto hook event := by
  obtain ⟨_, time, _⟩ := s.setCall_rest new event
  unfold State.beginCall State.begun
  simp only [time]

theorem State.begun_rest (s : State) (new : CallState) (auto hook : Bool) (event : CallEvent) :
    (s.begun new auto hook event).smt.autoMark = auto ∧ (s.begun new auto hook event).pins = s.pins ∧
      (s.begun new auto hook event).smt.heldCall = s.smt.heldCall := by
  obtain ⟨smt, _, pins⟩ := s.setCall_rest new event
  refine ⟨rfl, pins, ?_⟩
  show (s.setCall new event).smt.heldCall = _
  rw [smt]
  rfl

theorem State.takeAutoClaim_sent {s : State} (sent : 0 < s.smt.autoClaims) :
    s.takeAutoClaim =
      let taken := s.modSmt fun m => { m with autoClaims := m.autoClaims - 1 }
      if s.smt.call = .idle ∧ s.perm.line ≠ .setup then taken.placeCall true s.pins.hook .autoCall else taken :=
  if_neg (Nat.ne_of_gt sent)

theorem State.ringExpired_running {s : State} (runs : s.smt.ringTimer ≠ none) :
    (s.smt.call = .outgoing → s.ringExpired = s.endCall .unanswered .ringLimit) ∧
      (s.smt.call = .incoming → s.ringExpired = s.endCall .missed .ringLimit) ∧
      (s.smt.call ≠ .outgoing → s.smt.call ≠ .incoming → s.ringExpired = s) := by
  unfold State.ringExpired
  rw [if_neg runs]
  refine ⟨fun call => by rw [call], fun call => by rw [call], fun out into => ?_⟩
  cases call : s.smt.call with
  | idle => rfl
  | outgoing => exact absurd call out
  | incoming => exact absurd call into
  | connected => rfl
  | clearing => rfl

/-- Settles O44: the edges by the call state, then the ring timer, the automatic call and the call placed. -/
theorem callMachineTakesItsEvents : Obligations.CallMachineTakesItsEvents := by
  intro s live
  refine ⟨fun setup => ?_, fun line => ⟨fun call => ?idle, fun call => ?outgoing, fun call => ?incoming,
    fun call => ?connected, fun call => ?clearing⟩, fun runs => ?_, fun stands => ?_, fun sent => ?_, fun none => ?_,
    fun auto hook event => ?_⟩
  case idle | outgoing | incoming | connected | clearing =>
    exact hookEdges_of live line call (fun h => by rw [State.callOffHook, h]; rfl) fun h => by
      rw [State.callOnHook, h]; rfl
  · rw [exec_offHook live, exec_onHook live, State.hookEdge_setup setup, State.hookEdge_setup setup]
    exact ⟨rfl, rfl⟩
  · obtain ⟨out, into, other⟩ := State.ringExpired_running runs
    rw [exec_ringTimerExpiry live]
    exact ⟨fun h => congrArg _ (out h), fun h => congrArg _ (into h), fun h h' => congrArg _ (other h h')⟩
  · rw [exec_ringTimerExpiry live, State.ringExpired, if_pos stands]
  · rw [exec_automaticCallClaim live, State.takeAutoClaim_sent sent]
  · rw [exec_automaticCallClaim live, State.takeAutoClaim, if_pos none]
  · obtain ⟨mark, pins, code⟩ := s.begun_rest .outgoing auto hook event
    rw [State.placeCall, State.beginCall_eq]
    simp only [State.connectOut_eq, mark, pins, code]
    rfl

/-! ### Voice (R136, R138) -/

theorem exec_vsiSample {s : State} (h : s.phase = .live) (b : Byte) : exec (.vsiSample b) s = .next (s.sampleIn b) :=
  live_of (f := fun s => s.sampleIn b) h

theorem exec_vsoSampleTime {s : State} (h : s.phase = .live) : exec .vsoSampleTime s = .next s.sampleOut :=
  live_of (f := fun s => s.sampleOut) h

theorem State.sampleOut_silent {s : State} (h : s.smt.call ≠ .connected) :
    s.sampleOut = s.modSmt fun m => { m with vso := 128 } := State.modSmt_congr (if_neg h)

theorem State.sampleOut_waits {s : State} (h : s.smt.call = .connected) (waits : s.smt.playback = .waiting)
    (short : s.smt.downlink.length < 160) : s.sampleOut = s.modSmt fun m => { m with vso := 128 } := by
  refine State.modSmt_congr ?_
  simp only [if_pos h, waits, if_pos short]
  rfl

theorem State.sampleOut_plays {s : State} (h : s.smt.call = .connected)
    (plays : s.smt.playback = .playing ∨ 160 ≤ s.smt.downlink.length) : s.sampleOut = s.modSmt Smt.play := by
  refine State.modSmt_congr ?_
  simp only [if_pos h]
  cases playback : s.smt.playback with
  | waiting => exact if_neg (Nat.not_lt.2 (plays.resolve_left (by rw [playback]; nofun)))
  | playing => rfl

theorem Smt.play_nil {m : Smt} (h : m.downlink = []) : m.play = { m with vso := 128, playback := .waiting } := by
  unfold Smt.play
  rw [h]
  rfl

theorem Smt.play_cons {m : Smt} {e : DownEntry} {rest : List DownEntry} (h : m.downlink = e :: rest) :
    m.play =
      { m with
        vso := e.sample, downlink := rest, playback := .playing
        concealed := if e.concealed then min 65535 (m.concealed + 1) else m.concealed } := by
  unfold Smt.play
  rw [h]

/-- Settles O45: what a sample and a sample time do by the call state, the queues and the playback. -/
theorem voiceFlowsInConnectedAlone : Obligations.VoiceFlowsInConnectedAlone := by
  intro s b live
  rw [exec_vsiSample live, exec_vsoSampleTime live]
  refine ⟨fun off => ⟨congrArg _ (if_neg off), congrArg _ (State.sampleOut_silent off)⟩, fun on =>
    ⟨fun room => ?_, fun full => ?_, fun waits short => congrArg _ (State.sampleOut_waits on waits short),
      fun none => congrArg _ ?_, fun e rest held plays => congrArg _ ?_⟩⟩
  · rw [State.sampleIn, if_pos on]
    exact congrArg _ (State.modSmt_congr (by simp only [joinCapped, if_pos room]))
  · rw [State.sampleIn, if_pos on]
    exact congrArg _ (State.modSmt_congr (by simp only [joinCapped, if_neg (Nat.not_lt.2 full)]))
  · cases playback : s.smt.playback with
    | waiting =>
      rw [State.sampleOut_waits on playback (by rw [none]; exact Nat.zero_lt_succ _)]
      exact State.modSmt_congr (by simp only [← playback])
    | playing => rw [State.sampleOut_plays on (.inl playback)]; exact State.modSmt_congr (Smt.play_nil none)
  · rw [State.sampleOut_plays on plays]
    exact State.modSmt_congr (Smt.play_cons held)

end Sys2Proof.Machine
end

section
/-! Tags: what a TAG_READ meets, the matching of a tag, and the two tag timers (chapter 3). -/

namespace Sys2Proof.Machine

open Host

/-! ### A TAG_READ in the tag reader's turn (R48) -/

/-- The tag reader's TAG_READ wakes the line and is handed to TRN (R11, R150). -/
theorem State.turnFrame_tagRead {s : State} {a : Nat} (node : nth1 s.slc.nodeTable a = some .tagReader) (tag : Byte)
    (payload : List Word) : s.turnFrame a Kind.tagRead tag payload = some ((s.wake .tag).tagRead a payload) := by
  unfold State.turnFrame
  rw [node]
  rfl

theorem exec_tagRead {s : State} {a : Nat} {f : RxFrame} (h : InTurn s a .tagReader Kind.tagRead f) :
    exec (.tagRead f) s = .next (((s.taken a).wake .tag).tagRead a f.payload) := by
  have node : nth1 (s.taken a).slc.nodeTable a = some .tagReader := by rw [State.taken_nodeTable, h.node]
  refine (live_inTurn h).trans ?_
  rw [State.turnFrame_tagRead node, Option.getD_some]

theorem State.wake_setup_iff (s : State) (w : WakeSource) : (s.wake w).perm.line = .setup ↔ s.perm.line = .setup := by
  unfold State.wake
  by_cases quiet : s.perm.line = .quiet
  · rw [if_pos quiet, State.setLine_line, quiet]
    exact ⟨nofun, nofun⟩
  · rw [if_neg quiet]

section

variable {s : State} {tag : BitVec 32}

theorem State.takeTag_setup (setup : s.perm.line = .setup) :
    s.takeTag tag = s.report (.tagOrphan .setup tag s.mgt.lineTime) := if_pos setup

theorem State.takeTag_awaited (line : s.perm.line ≠ .setup) {r : CabinRecord} (h : s.oldestAwaited = some r) :
    s.takeTag tag = s.matchTag r.entry tag := by
  unfold State.takeTag
  rw [if_neg line, h]

theorem State.takeTag_free (line : s.perm.line ≠ .setup) (h : s.oldestAwaited = none) (slot : s.trn.slot = none) :
    s.takeTag tag =
      s.modTrn fun t =>
        { t with slot := some { tag := tag, arrival := s.mgt.lineTime, timer := s.site.tagHoldLimit } } := by
  unfold State.takeTag
  rw [if_neg line, h, slot]

theorem State.takeTag_displaces (line : s.perm.line ≠ .setup) (h : s.oldestAwaited = none) {p : PendingTag}
    (slot : s.trn.slot = some p) :
    s.takeTag tag =
      (s.report (.tagOrphan .displaced p.tag p.arrival)).modTrn fun t =>
        { t with slot := some { tag := tag, arrival := s.mgt.lineTime, timer := s.site.tagHoldLimit } } := by
  unfold State.takeTag
  rw [if_neg line, h, slot]
  simp only [State.report_site, show (s.report (.tagOrphan .displaced p.tag p.arrival)).mgt.lineTime = s.mgt.lineTime from
    Mgt.addReport_time _ _]

end

/-- Settles O46: the woken state holds the train, the slot, the time and the limits that the frame found. -/
theorem tagReadsMatchOrWait : Obligations.TagReadsMatchOrWait := by
  intro s a f hi lo turn payload
  simp only
  have reads := exec_tagRead turn
  have setup := (s.taken a).wake_setup_iff .tag
  have awaits : ((s.taken a).wake .tag).oldestAwaited = s.trn.train.find? fun r => decide (r.tagState = .awaited) := by
    rw [State.oldestAwaited, State.wake_trn, State.taken_trn]
  have slot : ((s.taken a).wake .tag).trn.slot = s.trn.slot := by rw [State.wake_trn, State.taken_trn]
  have site : ((s.taken a).wake .tag).site = s.site := by rw [State.wake_site, State.taken_siteRecord]
  have time : ((s.taken a).wake .tag).mgt.lineTime = s.mgt.lineTime := by rw [State.wake_time, State.taken_time]
  rw [State.taken_line] at setup
  generalize (s.taken a).wake .tag = u at *
  rw [reads, payload, ← awaits, ← slot, ← site, ← time]
  refine ⟨fun zero => congrArg _ (if_pos zero), fun code => ?_⟩
  have taken : u.tagRead a [hi, lo] = u.takeTag (hi ++ lo) := if_neg code
  rw [taken]
  refine ⟨fun line => congrArg _ (State.takeTag_setup (setup.2 line)), fun line => ?_⟩
  have line' := mt setup.1 line
  exact ⟨fun r held => congrArg _ (State.takeTag_awaited line' held),
    fun none free => congrArg _ (State.takeTag_free line' none free),
    fun p none held => congrArg _ (State.takeTag_displaces line' none held)⟩

/-! ### The directory entry that holds a tag (R50) -/

theorem nth1_succ {α : Type} {n : Nat} (v : Vector α n) (i : Nat) : nth1 v (i + 1) = v[i]? := if_neg (Nat.succ_ne_zero i)

theorem Trn.cabinOf_none {t : Trn} {tag : BitVec 32}
    (none : ∀ n d, nth1 t.directory n = some d → d.tag ≠ some tag) : t.cabinOf tag = .none := by
  unfold Trn.cabinOf
  rw [List.findIdx?_eq_none_iff.2 fun d hd => ?_]
  · rfl
  · obtain ⟨i, hi, rfl⟩ := List.mem_iff_getElem.1 hd
    have := none (i + 1) _ ((nth1_succ _ i).trans (Vector.getElem?_eq_getElem (by simpa using hi)))
    simpa using this

theorem Trn.cabinOf_some {t : Trn} {tag : BitVec 32} {n : Nat} {d : DirEntry} (held : nth1 t.directory n = some d)
    (code : d.tag = some tag) (only : ∀ m d', nth1 t.directory m = some d' → d'.tag = some tag → m = n) :
    t.cabinOf tag = some n := by
  obtain ⟨i, rfl⟩ : ∃ i, n = i + 1 := ⟨n - 1, by have := nth1_some_pos held; omega⟩
  rw [nth1_succ] at held
  obtain ⟨within, there⟩ := Vector.getElem?_eq_some_iff.1 held
  have first : (t.directory.toList.findIdx? fun d => decide (d.tag = some tag)) = some i := by
    refine List.findIdx?_eq_some_iff_getElem.2 ⟨by simpa using within, by simpa [there] using code, fun j hj => ?_⟩
    have other := mt (only (j + 1) _ ((nth1_succ _ j).trans (Vector.getElem?_eq_getElem (by omega)))) (by omega)
    simpa using other
  unfold Trn.cabinOf
  rw [first]
  rfl

/-! ### Matching (R50) -/

theorem State.record_of_trn {s t : State} (h : t.trn = s.trn) (entry : BitVec 16) : t.record entry = s.record entry := by
  unfold State.record
  rw [h]

/-- The record's tag, its stopped timer, and what the match makes of it, in one claim. -/
def State.become (s : State) (entry : BitVec 16) (tagState : TagState) (cabin : BitVec 8) (divert : Option DivertReason)
    (tag : Option (BitVec 32)) : State :=
  s.claimRecord entry fun r =>
    { r with tag := tag, tagTimer := none, tagState := tagState, cabin := cabin, divert := divert }

/-- The state once the record's tag is set and its timer cancelled. -/
def State.withTag (s : State) (entry : BitVec 16) (tag : BitVec 32) : State :=
  s.claimRecord entry fun r => { r with tag := some tag, tagTimer := none }

theorem State.claimRecord_tag (s : State) (entry : BitVec 16) (tag : BitVec 32) :
    (s.claimRecord entry fun r => { r with tag := some tag, tagTimer := none }) = s.withTag entry tag := rfl

theorem State.carriedByOther_iff (s : State) (entry : BitVec 16) (tag : BitVec 32) (n : Nat) :
    (s.withTag entry tag).carriedByOther entry n = true ↔ ∃ y ∈ s.trn.train, y.entry ≠ entry ∧ y.cabin.toNat = n := by
  unfold State.carriedByOther State.withTag
  rw [State.claimRecord_train, List.any_map, List.any_eq_true]
  refine exists_congr fun y => and_congr_right fun _ => ?_
  by_cases named : y.entry = entry
  · simp [named]
  · simp [named]

theorem State.isRetired_of {s : State} {n : Nat} {d : DirEntry} (h : nth1 s.trn.directory n = some d) :
    s.isRetired n = d.retired.isSome := by
  unfold State.isRetired
  rw [h]

section

variable {s : State} {entry : BitVec 16} {r : CabinRecord} (distinct : (s.trn.train.map CabinRecord.entry).Nodup)
  (held : s.record entry = some r)

include held

/-- The CABIN_ENTERED report of a record as the match left it. -/
theorem State.reportEntered_become {t : State} {tagState : TagState} {cabin : BitVec 8} {divert : Option DivertReason}
    {tag : Option (BitVec 32)} (same : t.trn = (s.become entry tagState cabin divert tag).trn) :
    t.reportEntered entry = t.report (.cabinEntered entry tagState divert cabin tag) := by
  have made := State.record_claimRecord held
    (fun r => { r with tag := tag, tagTimer := none, tagState := tagState, cabin := cabin, divert := divert }) fun _ => rfl
  unfold State.reportEntered
  rw [State.record_of_trn same, State.become, made]

include distinct

/-- A claim that follows the tag's comes to one claim with it. -/
theorem State.withTag_claim {tag : BitVec 32} {f : CabinRecord → CabinRecord} {tagState : TagState} {cabin : BitVec 8}
    {divert : Option DivertReason}
    (made : f { r with tag := some tag, tagTimer := none } =
      { r with tag := some tag, tagTimer := none, tagState := tagState, cabin := cabin, divert := divert }) :
    (s.withTag entry tag).claimRecord entry f = s.become entry tagState cabin divert (some tag) :=
  (State.claimRecord_claimRecord _ _ (fun r => { r with tag := some tag, tagTimer := none }) _ fun _ => rfl).trans
    (State.claimRecord_congr distinct held made)

theorem State.matchTag_unknown {tag : BitVec 32} (none : s.trn.cabinOf tag = none) :
    s.matchTag entry tag =
      ((s.become entry .unknown r.cabin (r.flagged .unidentified).divert (some tag)).raise .unknownCabin
        (.cabin entry)).report (.cabinEntered entry .unknown (r.flagged .unidentified).divert r.cabin (some tag)) := by
  have unnamed : (s.withTag entry tag).trn.cabinOf tag = .none := none
  have claims := State.withTag_claim distinct held (tag := tag)
    (f := fun r => { r.flagged .unidentified with tagState := .unknown }) (cabin := r.cabin) rfl
  unfold State.matchTag
  simp only [State.claimRecord_tag, unnamed, claims]
  exact State.reportEntered_become held (State.raise_trn _ _ _)

section

variable {tag : BitVec 32} {n : Nat} (cabin : s.trn.cabinOf tag = some n)

include cabin

theorem State.matchTag_duplicate (carried : ∃ y ∈ s.trn.train, y.entry ≠ entry ∧ y.cabin.toNat = n) :
    s.matchTag entry tag =
      ((s.become entry .matched r.cabin (r.flagged .duplicate).divert (some tag)).raise .cabinDuplicate
        (.cabin entry)).report (.cabinEntered entry .matched (r.flagged .duplicate).divert r.cabin (some tag)) := by
  have named : (s.withTag entry tag).trn.cabinOf tag = some n := cabin
  have other := (s.carriedByOther_iff entry tag n).2 carried
  have claims := State.withTag_claim distinct held (tag := tag)
    (f := fun r => { r.flagged .duplicate with tagState := .matched }) (cabin := r.cabin) rfl
  unfold State.matchTag
  simp only [State.claimRecord_tag, named, if_pos other, claims]
  exact State.reportEntered_become held (State.raise_trn _ _ _)

theorem State.matchTag_matched {d : DirEntry} (entered : nth1 s.trn.directory n = some d)
    (alone : ¬∃ y ∈ s.trn.train, y.entry ≠ entry ∧ y.cabin.toNat = n) :
    s.matchTag entry tag =
      let divert := if d.retired.isSome then (r.flagged .retired).divert else r.divert
      (s.become entry .matched (BitVec.ofNat 8 n) divert (some tag)).report
        (.cabinEntered entry .matched divert (BitVec.ofNat 8 n) (some tag)) := by
  have named : (s.withTag entry tag).trn.cabinOf tag = some n := cabin
  have other := mt (s.carriedByOther_iff entry tag n).1 alone
  have retired : (s.withTag entry tag).isRetired n = d.retired.isSome := State.isRetired_of entered
  have claims := State.withTag_claim distinct held (tag := tag)
    (f := fun r =>
      { (if d.retired.isSome then r.flagged .retired else r) with tagState := .matched, cabin := BitVec.ofNat 8 n })
    (divert := if d.retired.isSome then (r.flagged .retired).divert else r.divert)
    (by cases d.retired.isSome <;> rfl)
  unfold State.matchTag
  simp only [State.claimRecord_tag, named, if_neg other, retired, claims]
  exact State.reportEntered_become held rfl

end

/-! ### The tag timer (R47) -/

theorem State.tagExpired_awaited (awaited : r.tagState = .awaited) (runs : r.tagTimer ≠ none) :
    s.tagExpired entry =
      ((s.become entry .absent r.cabin (r.flagged .unidentified).divert r.tag).raise .unknownCabin (.cabin entry)).report
        (.cabinEntered entry .absent (r.flagged .unidentified).divert r.cabin r.tag) := by
  have claim : (s.claimRecord entry fun r => { r.flagged .unidentified with tagState := .absent, tagTimer := none }) =
      s.become entry .absent r.cabin (r.flagged .unidentified).divert r.tag := State.claimRecord_congr distinct held rfl
  unfold State.tagExpired
  simp only [held, if_pos (And.intro awaited (Option.isSome_iff_ne_none.2 runs)), claim]
  exact State.reportEntered_become held (State.raise_trn _ _ _)

omit distinct in
theorem State.tagExpired_other (other : r.tagState ≠ .awaited ∨ r.tagTimer = none) : s.tagExpired entry = s := by
  unfold State.tagExpired
  rw [held]
  exact if_neg fun ⟨awaited, runs⟩ => other.elim (· awaited) (Option.isSome_iff_ne_none.1 runs)

end

theorem State.tagExpired_gone {s : State} {entry : BitVec 16} (gone : s.record entry = none) : s.tagExpired entry = s := by
  unfold State.tagExpired
  rw [gone]

theorem exec_tagTimerExpiry {s : State} (h : s.phase = .live) (entry : BitVec 16) :
    exec (.tagTimerExpiry entry) s = .next (s.tagExpired entry) := live_of (f := fun s => s.tagExpired entry) h

theorem exec_pendingSlotExpiry {s : State} (h : s.phase = .live) : exec .pendingSlotExpiry s = .next s.slotExpired :=
  live_of (f := fun s => s.slotExpired) h

/-- Settles O47: the two timers, and the match by the directory entry that holds the tag and the records that carry its
number. -/
theorem matchingFindsTheCabin : Obligations.MatchingFindsTheCabin := by
  refine ⟨fun s live => ⟨fun free => ?_, fun p slot => ?_, fun entry gone => ?_⟩, fun s r live train held =>
    ⟨fun tag none => State.matchTag_unknown train.distinct held (Trn.cabinOf_none none),
      fun tag n d entered code only => ?_, fun awaited runs => ?_, fun other => ?_⟩⟩
  · rw [exec_pendingSlotExpiry live, State.slotExpired, free]
  · rw [exec_pendingSlotExpiry live, State.slotExpired, slot]
  · rw [exec_tagTimerExpiry live, State.tagExpired_gone gone]
  · have cabin := Trn.cabinOf_some entered code only
    exact ⟨State.matchTag_duplicate train.distinct held cabin, State.matchTag_matched train.distinct held cabin entered⟩
  · rw [exec_tagTimerExpiry live, State.tagExpired_awaited train.distinct held awaited runs]
    rfl
  · rw [exec_tagTimerExpiry live, State.tagExpired_other held other]

end Sys2Proof.Machine
end

section
/-! Leads and points reach their owners: GSW's expectations and switch claims, DTX's claims (chapters 4 and 5). -/

namespace Sys2Proof.Machine

/-! ### The owners of the actions (R33, R86) -/

section

variable (s : State) (entry : BitVec 16) (k : Nat) {p : PathPoint}

theorem State.hand_unowned (h : p.action = .entry ∨ p.action = .mark) :
    s.handLead entry k p = s ∧ s.handPoint entry k p = s := by
  unfold State.handLead State.handPoint
  rcases h with h | h <;> rw [h] <;> exact ⟨rfl, rfl⟩

theorem State.hand_openAt (h : p.action = .openAt) {a : Nat} (node : p.node = some a) :
    s.handLead entry k p = s.closureLead entry .toOpen k a ∧ s.handPoint entry k p = s.closurePoint entry k a := by
  unfold State.handLead State.handPoint
  rw [h, node]
  exact ⟨rfl, rfl⟩

theorem State.hand_shutAt (h : p.action = .shutAt) {a : Nat} (node : p.node = some a) :
    s.handLead entry k p = s.closureLead entry .toShut k a ∧ s.handPoint entry k p = s.closurePoint entry k a := by
  unfold State.handLead State.handPoint
  rw [h, node]
  exact ⟨rfl, rfl⟩

theorem State.hand_gripTest (h : p.action = .gripTest) :
    s.handLead entry k p = s.gripLead entry ∧ s.handPoint entry k p = s := by
  unfold State.handLead State.handPoint
  rw [h]
  exact ⟨rfl, rfl⟩

theorem State.hand_divert (h : p.action = .divert) :
    s.handLead entry k p = s.divertLead entry ∧ s.handPoint entry k p = s.divertPoint entry := by
  unfold State.handLead State.handPoint
  rw [h]
  exact ⟨rfl, rfl⟩

theorem State.hand_depart (h : p.action = .depart) :
    s.handLead entry k p = s.departLead entry ∧ s.handPoint entry k p = s.departPoint entry := by
  unfold State.handLead State.handPoint
  rw [h]
  exact ⟨rfl, rfl⟩

end

/-! ### Placing behind the cabins ahead (R85, R92) -/

theorem placeBehind_eq_self_filter (p : BitVec 16 → Bool) (e : BitVec 16) :
    ∀ l : List (BitVec 16), (∀ x ∈ l, x ≠ e) → (placeBehind p e l).filter (fun x => decide (x ≠ e)) = l
  | [], _ => by simp [placeBehind]
  | y :: ys, h => by
    have first : y ≠ e := h y List.mem_cons_self
    have rest : ∀ x ∈ ys, x ≠ e := fun x hx => h x (List.mem_cons_of_mem _ hx)
    unfold placeBehind
    split
    · rw [List.filter_cons_of_pos (by simpa using first), placeBehind_eq_self_filter p e ys rest]
    · rw [List.filter_cons_of_neg (by simp)]
      exact List.filter_eq_self.2 fun x hx => by simpa using h x hx

theorem mem_placeBehind (p : BitVec 16 → Bool) (e : BitVec 16) (l : List (BitVec 16)) : e ∈ placeBehind p e l :=
  (placeBehind_perm p e l).mem_iff.2 List.mem_cons_self

/-- The order of the train does not change with a claim on a record. -/
theorem State.ahead_claimRecord (s : State) (entry : BitVec 16) (f : CabinRecord → CabinRecord)
    (he : ∀ r, (f r).entry = r.entry) (a b : BitVec 16) : (s.claimRecord entry f).ahead a b = s.ahead a b := by
  have place : ∀ e : BitVec 16, (s.claimRecord entry f).trn.train.findIdx? (fun r => decide (r.entry = e)) =
      s.trn.train.findIdx? fun r => decide (r.entry = e) := by
    intro e
    rw [State.claimRecord_train, List.findIdx?_map]
    refine congrArg (fun p => List.findIdx? p s.trn.train) (funext fun r => ?_)
    simp only [Function.comp]
    split <;> simp [he]
  unfold State.ahead
  rw [place, place]

theorem State.ahead_of_trn {s t : State} (h : t.trn = s.trn) (a b : BitVec 16) : t.ahead a b = s.ahead a b := by
  unfold State.ahead
  rw [h]

/-! ### The GRIP_TEST lead (R86) -/

/-- The list of expectations and the verdict claimed with it. -/
def State.expecting (s : State) (entry : BitVec 16) (list : List (BitVec 16)) (g : GripResult) : State :=
  (s.modGsw fun x => { x with expectations := list }).claimRecord entry fun r => { r with grip := g, gripForce := none }

/-- The expectations with this one placed behind those of the cabins ahead. -/
def State.expected (s : State) (entry : BitVec 16) : List (BitVec 16) :=
  placeBehind (fun y => s.ahead y entry) entry (s.gsw.expectations.filter fun e => decide (e ≠ entry))

theorem State.expecting_expected (s : State) (entry : BitVec 16) :
    ((s.modGsw fun g =>
      { g with expectations :=
          placeBehind (fun y => s.ahead y entry) entry (g.expectations.filter fun e => decide (e ≠ entry)) }).claimRecord
        entry fun r => { r with grip := .awaited, gripForce := none }) =
      s.expecting entry (s.expected entry) .awaited := rfl

section

variable {s : State} {entry : BitVec 16} {r : CabinRecord} (held : s.record entry = some r)

include held

theorem State.record_expecting (list : List (BitVec 16)) (g : GripResult) :
    (s.expecting entry list g).record entry = some { r with grip := g, gripForce := none } :=
  State.record_claimRecord (s := s.modGsw fun x => { x with expectations := list }) held
    (fun r => { r with grip := g, gripForce := none }) fun _ => rfl

/-- GSW takes the lead with its expectation in the list and AWAITED claimed; the rest is the command. -/
theorem State.gripLead_asks {a : Nat} (unit : s.gripAddress = some a) :
    s.gripLead entry =
      let t := s.expecting entry (s.expected entry) .awaited
      if 64 ≤ s.slc.urgent.length then (t.endExpectation entry).silentExchange a
      else t.pushCommand { address := a, command := .gripExpect entry r.cabin, txn := none } := by
  have unit' : (s.expecting entry (s.expected entry) .awaited).gripAddress = some a := unit
  have record := State.record_expecting held (s.expected entry) .awaited
  have full : (s.expecting entry (s.expected entry) .awaited).urgentFull = decide (64 ≤ s.slc.urgent.length) := rfl
  unfold State.gripLead
  simp only [State.expecting_expected, unit', record, full, decide_eq_true_eq]

theorem State.gripLead_queues {a : Nat} (unit : s.gripAddress = some a) (room : s.slc.urgent.length < 64) :
    s.gripLead entry =
      (s.expecting entry (s.expected entry) .awaited).pushCommand
        { address := a, command := .gripExpect entry r.cabin, txn := none } :=
  (State.gripLead_asks held unit).trans (if_neg (Nat.not_le.2 room))

omit held in
theorem State.gripLead_unasked (unit : s.gripAddress = none) :
    s.gripLead entry = s.expecting entry (s.expected entry) .awaited := by
  have unit' : (s.expecting entry (s.expected entry) .awaited).gripAddress = none := unit
  unfold State.gripLead
  simp only [State.expecting_expected, unit']

omit held in
/-- An expectation just added ends without a result. -/
theorem State.endExpectation_expected :
    (s.expecting entry (s.expected entry) .awaited).endExpectation entry =
      s.expecting entry (s.gsw.expectations.filter fun e => decide (e ≠ entry)) .noResult := by
  have there : entry ∈ (s.expecting entry (s.expected entry) .awaited).gsw.expectations := mem_placeBehind _ _ _
  have others : (s.expected entry).filter (fun e => decide (e ≠ entry)) =
      s.gsw.expectations.filter fun e => decide (e ≠ entry) :=
    placeBehind_eq_self_filter _ _ _ fun x hx => by simpa using (List.mem_filter.1 hx).2
  rw [State.endExpectation, if_pos there, ← others]
  exact (State.claimRecord_claimRecord
    (s.modGsw fun x => { x with expectations := (s.expected entry).filter fun e => decide (e ≠ entry) }) entry
    (fun r => { r with grip := .awaited, gripForce := none }) _ fun _ => rfl).trans rfl

end

/-! ### The DIVERT lead (R91, R92) -/

/-- The verdict a DIVERT lead leaves the record with. -/
def State.leadGrip (s : State) (entry : BitVec 16) (r : CabinRecord) : GripResult :=
  if entry ∈ s.gsw.expectations then .noResult else r.grip

/-- The divert flag a DIVERT lead leaves the record with. -/
def State.leadDivert (s : State) (entry : BitVec 16) (r : CabinRecord) : Option DivertReason :=
  if s.leadGrip entry r = .pass then r.divert else (r.flagged .grip).divert

/-- The switch claims with the record's placed behind those of the cabins ahead. -/
def State.leadClaims (s : State) (entry : BitVec 16) (r : CabinRecord) : List SwitchClaim :=
  placeBehind (fun y => s.ahead y.entry entry)
    { entry := entry, wanted := if (s.leadDivert entry r).isSome then .garage else .main }
    (s.gsw.claims.filter fun c => decide (c.entry ≠ entry))

/-- GSW's state and the record as the lead leaves them before the switch claim joins. -/
def State.leadClaimed (s : State) (entry : BitVec 16) (r : CabinRecord) : State :=
  (s.dropExpectation entry).claimRecord entry fun x =>
    { x with grip := s.leadGrip entry r, divert := s.leadDivert entry r }

section

variable {s : State} {entry : BitVec 16} {r : CabinRecord} (distinct : (s.trn.train.map CabinRecord.entry).Nodup)
  (held : s.record entry = some r)

include distinct held

theorem State.endExpectation_flag :
    ((s.endExpectation entry).claimRecord entry fun r => if r.grip = .pass then r else r.flagged .grip) =
      s.leadClaimed entry r := by
  unfold State.leadClaimed State.leadDivert State.leadGrip State.endExpectation
  by_cases there : entry ∈ s.gsw.expectations
  · simp only [if_pos there]
    refine (State.claimRecord_claimRecord (s.dropExpectation entry) entry (fun r => { r with grip := .noResult }) _
      fun _ => rfl).trans (State.claimRecord_congr (s := s.dropExpectation entry) distinct held ?_)
    rfl
  · have others : s.dropExpectation entry = s := by
      have kept : s.gsw.expectations.filter (fun e => decide (e ≠ entry)) = s.gsw.expectations :=
        List.filter_eq_self.2 fun x hx => by simpa using fun e : x = entry => there (e ▸ hx)
      unfold State.dropExpectation State.modGsw
      simp only [kept]
    simp only [if_neg there, others]
    refine State.claimRecord_congr distinct held ?_
    split <;> rfl

/-- A DIVERT lead ends the expectation, flags a record that is not PASS, and places the switch claim. -/
theorem State.divertLead_eq :
    s.divertLead entry =
      (s.leadClaimed entry r).modGsw fun g =>
        { g with
          claims := s.leadClaims entry r
          commanded := ((s.leadClaims entry r).head?.map SwitchClaim.wanted).getD g.commanded } := by
  have record : (s.leadClaimed entry r).record entry =
      some { r with grip := s.leadGrip entry r, divert := s.leadDivert entry r } :=
    State.record_claimRecord (s := s.dropExpectation entry) held
      (fun x => { x with grip := s.leadGrip entry r, divert := s.leadDivert entry r }) fun _ => rfl
  have order : ∀ a b, (s.leadClaimed entry r).ahead a b = s.ahead a b := fun a b =>
    ((s.dropExpectation entry).ahead_claimRecord entry
      (fun x => { x with grip := s.leadGrip entry r, divert := s.leadDivert entry r }) (fun _ => rfl) a b).trans rfl
  unfold State.divertLead
  simp only [State.endExpectation_flag distinct held, record, order, Gsw.driveHead_eq]
  rfl

end

/-! ### A claim overtaken (R69) -/

theorem State.overtake_unclaimed {s : State} {entry : BitVec 16}
    (none : ∀ a n, s.node a = some n → entry ∉ n.claims) : s.overtake entry = s := by
  have noTxn : s.openClaim entry = .none := by
    cases found : s.openClaim entry with
    | none => rfl
    | some x =>
      obtain ⟨open', named, counts⟩ := State.openClaim_some found
      cases held : s.node x.1 with
      | none => rw [State.txnAt, held] at open'; cases open'
      | some n =>
        rw [State.txnAt_eq held] at open'
        exact absurd (NodeRec.mem_claims.2 (.inl ⟨x.2, open', counts, named⟩)) (none _ _ held)
  have noWait : s.waitClaim entry = .none := by
    cases found : s.waitClaim entry with
    | none => rfl
    | some x =>
      obtain ⟨n, held, listed, named⟩ := State.waitClaim_some found
      exact absurd (NodeRec.mem_claims.2 (.inr ⟨x.2, listed, named⟩)) (none _ _ held)
  unfold State.overtake
  rw [noTxn]
  simp only [noWait]

/-- The node that holds an open transaction. -/
theorem State.node_of_txnAt {s : State} {a : Nat} {t : OpenTxn} (h : s.txnAt a = some t) :
    ∃ n, s.node a = some n ∧ n.txn = some t := by
  cases held : s.node a with
  | none => rw [State.txnAt, held] at h; cases h
  | some n => exact ⟨n, rfl, (State.txnAt_eq held).symm.trans h⟩

section

variable {s : State} {entry : BitVec 16} (dtx : DtxOk s)

include dtx

theorem State.openClaim_of {a : Nat} {t : OpenTxn} (held : s.txnAt a = some t) (named : t.entry = entry)
    (counts : t.overtaken = false) : s.openClaim entry = some (a, t) := by
  cases found : s.openClaim entry with
  | none => rw [State.openClaim_none found held named] at counts; cases counts
  | some x =>
    obtain ⟨open', named', counts'⟩ := State.openClaim_some found
    obtain ⟨n, hn, txn⟩ := State.node_of_txnAt held
    obtain ⟨m, hm, txn'⟩ := State.node_of_txnAt open'
    have same : x.1 = a := dtx.apart _ _ _ _ entry hm hn (NodeRec.mem_claims.2 (.inl ⟨_, txn', counts', named'⟩))
      (NodeRec.mem_claims.2 (.inl ⟨_, txn, counts, named⟩))
    rw [same, held] at open'
    cases open'
    rw [← same]

theorem State.openClaim_of_waiting {a : Nat} {n : NodeRec} {w : WaitEntry} (held : s.node a = some n)
    (listed : w ∈ n.waiting) (named : w.entry = entry) : s.openClaim entry = none := by
  cases found : s.openClaim entry with
  | none => rfl
  | some x =>
    obtain ⟨open', named', counts'⟩ := State.openClaim_some found
    obtain ⟨m, hm, txn⟩ := State.node_of_txnAt open'
    have same : x.1 = a := dtx.apart _ _ _ _ entry hm held (NodeRec.mem_claims.2 (.inl ⟨_, txn, counts', named'⟩))
      (NodeRec.mem_claims.2 (.inr ⟨w, listed, named⟩))
    rw [same, held] at hm
    cases hm
    have once := dtx.once a n held
    unfold NodeRec.claims at once
    rw [txn] at once
    simp only [counts', Bool.false_eq_true, if_false, List.cons_append, List.nil_append, List.nodup_cons] at once
    exact absurd (List.mem_map.2 ⟨w, listed, named.trans named'.symm⟩) once.1

theorem State.waitClaim_of {a : Nat} {n : NodeRec} {w : WaitEntry} (held : s.node a = some n)
    (listed : w ∈ n.waiting) (named : w.entry = entry) : s.waitClaim entry = some (a, w) := by
  cases found : s.waitClaim entry with
  | none => exact absurd named (State.waitClaim_none found held w listed)
  | some x =>
    obtain ⟨m, hm, listed', named'⟩ := State.waitClaim_some found
    have same : x.1 = a := dtx.apart _ _ _ _ entry hm held (NodeRec.mem_claims.2 (.inr ⟨_, listed', named'⟩))
      (NodeRec.mem_claims.2 (.inr ⟨w, listed, named⟩))
    rw [same, held] at hm
    cases hm
    have once := (dtx.once a n held).sublist n.waits_claims
    rw [← same, ← List.inj_on_of_nodup_map once listed' listed (named'.trans named.symm)]

theorem State.overtake_open {a : Nat} {t : OpenTxn} (held : s.txnAt a = some t) (named : t.entry = entry)
    (counts : t.overtaken = false) :
    s.overtake entry =
      (if t.state = .detailing then s.modTxn a fun t => { t with overtaken := true }
      else s.cancelTxn a t).reportOvertaken a t.claim := by
  unfold State.overtake
  rw [State.openClaim_of dtx held named counts]

theorem State.overtake_waiting {a : Nat} {n : NodeRec} {w : WaitEntry} (held : s.node a = some n)
    (listed : w ∈ n.waiting) (named : w.entry = entry) :
    s.overtake entry = (s.unlist a entry).reportOvertaken a w := by
  unfold State.overtake
  rw [State.openClaim_of_waiting dtx held listed named]
  simp only [State.waitClaim_of dtx held listed named]

end

/-! ### A new closure claim (R67, R68) -/

section

variable {s : State} {entry : BitVec 16} {n : NodeRec} {a : Nat} (action : ClosureAction) (k : Nat)
  (held : (s.overtake entry).node a = some n)

include held

theorem State.closureLead_faulted (faulted : n.faulted = true) :
    s.closureLead entry action k a =
      (s.overtake entry).failAtFaulted a { entry := entry, action := action, point := k, late := false } := by
  unfold State.closureLead
  simp only [held, if_pos faulted]

theorem State.closureLead_waits (ready : n.faulted = false) (busy : n.txn.isSome = true) :
    s.closureLead entry action k a =
      (s.overtake entry).modNode a fun n =>
        { n with
          waiting := placeBehind (fun y => (s.overtake entry).ahead y.entry entry)
            { entry := entry, action := action, point := k, late := false } n.waiting } := by
  obtain ⟨t, txn⟩ := Option.isSome_iff_exists.1 busy
  unfold State.closureLead
  simp only [held, ready, txn]
  rfl

theorem State.closureLead_serves (ready : n.faulted = false) (free : n.txn = none) (idle : n.waiting = []) :
    s.closureLead entry action k a =
      (s.overtake entry).serve a [{ entry := entry, action := action, point := k, late := false }] := by
  unfold State.closureLead
  simp only [held, ready, free, idle]
  rfl

end

/-- The transaction that a wait entry opens. -/
def WaitEntry.opened (w : WaitEntry) (id : Nat) : OpenTxn :=
  { id := id, entry := w.entry, action := w.action, point := w.point, state := .setting, late := w.late, retry := false,
    deadline := none, actTimer := none, faultWords := none, detailCause := none, overtaken := false }

/-- The head of a wait list opens its transaction where the urgent queue has room. -/
theorem State.serve_room {s : State} (room : s.slc.urgent.length < 64) (a : Nat) (w : WaitEntry) (rest : List WaitEntry) :
    s.serve a (w :: rest) =
      ((s.modDtx fun d => { d with nextTxn := d.nextTxn + 1 }).modNode a fun n =>
        { n with txn := some (w.opened s.dtx.nextTxn), waiting := rest }).modSlc fun c =>
          { c with urgent := c.urgent ++
              [{ address := a, command := .set w.entry w.action, txn := some (w.opened s.dtx.nextTxn).id }] } := by
  have room' : ¬(s.modNode a fun n => { n with waiting := rest }).urgentFull = true := by
    unfold State.urgentFull
    rw [decide_eq_true_eq]
    exact Nat.not_le.2 room
  unfold State.serve
  simp only [if_neg room']
  unfold State.openTxn State.modNode State.modDtx State.pushCommand
  simp only [mod1_mod1]
  rfl

/-- With the urgent queue full the head fails as silent, the rest is served, and the exchange is silent. -/
theorem State.serve_full {s : State} (full : 64 ≤ s.slc.urgent.length) (a : Nat) (w : WaitEntry)
    (rest : List WaitEntry) :
    s.serve a (w :: rest) =
      (((s.modNode a fun n => { n with waiting := rest }).failClaim a w .silent).serve a rest).silentExchange a := by
  have full' : (s.modNode a fun n => { n with waiting := rest }).urgentFull = true := decide_eq_true full
  rw [State.serve]
  exact if_pos full'

/-- A node whose wait list is empty already is left as it is. -/
theorem State.modNode_idle {s : State} {a : Nat} (idle : ∀ n, s.node a = some n → n.waiting = []) :
    (s.modNode a fun n => { n with waiting := [] }) = s := by
  have kept : mod1 s.dtx.nodes a (fun n => { n with waiting := [] }) = s.dtx.nodes :=
    mod1_fix fun n hn => by rw [← idle n hn]
  unfold State.modNode State.modDtx
  simp only [kept]

/-! ### The leads (R33, R68, R86, R91) -/

/-- Settles O48: the owners, the grip unit's address, the GRIP_TEST and the DIVERT lead, the claim overtaken, and the new
claim by its node. -/
theorem leadsReachTheirOwners : Obligations.LeadsReachTheirOwners := by
  refine ⟨fun s entry k p => ⟨s.hand_unowned entry k, fun _ h => s.hand_openAt entry k h, fun _ h => s.hand_shutAt entry k h,
      s.hand_gripTest entry k, s.hand_divert entry k, s.hand_depart entry k⟩,
    fun s => ⟨fun a => State.gripAddress_some, State.gripAddress_none⟩, fun s entry r train held => ⟨fun a unit =>
      ⟨State.gripLead_queues held unit, fun full => ?_⟩, State.gripLead_unasked, ?_⟩,
    fun s entry dtx => ⟨State.overtake_unclaimed, fun a t open' named counts => ?_, fun a n w node listed named => ?_⟩,
    fun s entry action k a n node => ⟨State.closureLead_faulted action k node, State.closureLead_waits action k node,
      fun ready free idle => ⟨fun room => ?_, fun full => ?_⟩⟩⟩
  · rw [State.gripLead_asks held unit]
    exact (if_pos full).trans (congrArg (State.silentExchange · a) State.endExpectation_expected)
  · exact State.divertLead_eq train.distinct held
  · rw [State.overtake_open dtx open' named counts, ← named]
    rfl
  · rw [State.overtake_waiting dtx node listed named, ← named]
    rfl
  · rw [State.closureLead_serves action k node ready free idle, State.serve_room room]
    rfl
  · have listed : ∀ m, (s.overtake entry).node a = some m → m.waiting = [] := fun m hm => by
      rw [node] at hm
      cases hm
      exact idle
    rw [State.closureLead_serves action k node ready free idle, State.serve_full full, State.modNode_idle listed]
    exact congrArg (State.silentExchange · a) (State.modNode_idle (s := (s.overtake entry).failClaim a _ .silent) listed)

end Sys2Proof.Machine
end

section
/-! Answers: what a command allows, the transaction it belongs to, and what each completion does (chapter 4). -/

namespace Sys2Proof.Machine

open Host

/-! ### The answers a command allows (R66, R87) -/

/-- The frames a command allows as its answer. -/
def Command.Allows (c : Command) (kind : Byte) (ws : List Word) : Prop :=
  match c with
  | .set e _ => (kind = Kind.setAccept ∧ ws = [e]) ∨ (kind = Kind.setRefuse ∧ (ws = [e, 0] ∨ ws = [e, 1]))
  | .go e => (kind = Kind.goAccept ∧ ws = [e]) ∨ (kind = Kind.goRefuse ∧ ∃ reason, ws = [e, reason])
  | .detail e => kind = Kind.detailAnswer ∧ ∃ w1 w2, ws = [e, w1, w2]
  | .cancel e => kind = Kind.cancelAccept ∧ ws = [e]
  | .clear => kind = Kind.clearAccept ∧ ws = []
  | .gripExpect e _ => kind = Kind.expectAccept ∧ ws = [e]

/-- The block that owns a command. -/
def Command.owner (c : Command) : RefusingBlock :=
  match c with
  | .gripExpect _ _ => .gsw
  | _ => .dtx

/-- A frame the command does not allow is judged so. -/
theorem Command.judge_disallowed {kind : Byte} :
    ∀ {c : Command} {ws : List Word}, ¬c.Allows kind ws → c.judge (.frame kind ws) = .disallowed
  | .set _ _, [_], h => if_neg fun ⟨same, named⟩ => h (.inl ⟨same, by rw [named]⟩)
  | .set e _, [e', reason], h => by
    show (if kind = Kind.setRefuse ∧ e' = e then
      if reason = 0 then Judgement.busy else if reason = 1 then .refused else .disallowed else .disallowed) = _
    by_cases named : kind = Kind.setRefuse ∧ e' = e
    · have other : ¬(reason = 0 ∨ reason = 1) := fun code =>
        h (.inr ⟨named.1, code.imp (fun r => by rw [named.2, r]) fun r => by rw [named.2, r]⟩)
      rw [if_pos named, if_neg fun r => other (.inl r), if_neg fun r => other (.inr r)]
    · exact if_neg named
  | .go _, [_], h => if_neg fun ⟨same, named⟩ => h (.inl ⟨same, by rw [named]⟩)
  | .go _, [_, reason], h => if_neg fun ⟨same, named⟩ => h (.inr ⟨same, reason, by rw [named]⟩)
  | .detail _, [_, w1, w2], h => if_neg fun ⟨same, named⟩ => h ⟨same, w1, w2, by rw [named]⟩
  | .cancel _, [_], h => if_neg fun ⟨same, named⟩ => h ⟨same, by rw [named]⟩
  | .clear, [], h => if_neg fun same => h ⟨same, rfl⟩
  | .gripExpect _ _, [_], h => if_neg fun ⟨same, named⟩ => h ⟨same, by rw [named]⟩
  | .set _ _, [], _ => rfl
  | .set _ _, _ :: _ :: _ :: _, _ => rfl
  | .go _, [], _ => rfl
  | .go _, _ :: _ :: _ :: _, _ => rfl
  | .detail _, [], _ => rfl
  | .detail _, [_], _ => rfl
  | .detail _, [_, _], _ => rfl
  | .detail _, _ :: _ :: _ :: _ :: _, _ => rfl
  | .cancel _, [], _ => rfl
  | .cancel _, _ :: _ :: _, _ => rfl
  | .clear, _ :: _, _ => rfl
  | .gripExpect _ _, [], _ => rfl
  | .gripExpect _ _, _ :: _ :: _, _ => rfl

/-! ### The transaction a command belongs to (R66) -/

/-- The transaction of a command's node is the command's, and in the state the command leaves it. -/
def State.Tied (s : State) (q : QueuedCommand) (st : TxnState) (t : OpenTxn) : Prop :=
  s.txnAt q.address = some t ∧ q.txn = some t.id ∧ t.state = st

theorem State.txnFor_tied {s : State} {q : QueuedCommand} {st : TxnState} {t : OpenTxn} (h : s.Tied q st t) :
    s.txnFor q st = some t := by
  obtain ⟨held, number, state⟩ := h
  unfold State.txnFor
  rw [held]
  exact if_pos ⟨number, state⟩

theorem State.txnFor_untied {s : State} {q : QueuedCommand} {st : TxnState} (h : ∀ t, ¬s.Tied q st t) :
    s.txnFor q st = none := by
  unfold State.txnFor
  split
  · next t held => exact if_neg fun ⟨number, state⟩ => h t ⟨held, number, state⟩
  · rfl

theorem State.tied_taken (s : State) (a : Nat) (q : QueuedCommand) (st : TxnState) (t : OpenTxn) :
    (s.taken a).Tied q st t ↔ s.Tied q st t := by
  unfold State.Tied
  rw [State.txnAt_congr (s.taken_dtx a)]

/-! ### Completions by their command -/

section

variable {s : State} {q : QueuedCommand} (ans : Answer)

theorem State.complete_set {e : BitVec 16} {action : ClosureAction} {t : OpenTxn} (cmd : q.command = .set e action)
    (tied : s.Tied q .setting t) :
    s.complete q ans = (s.refuseIfDisallowed q ans .dtx).setCompletion q.address t (q.command.judge ans) := by
  unfold State.complete State.dtxCompletion
  rw [cmd, State.txnFor_tied tied]

theorem State.complete_go {e : BitVec 16} {t : OpenTxn} (cmd : q.command = .go e) (tied : s.Tied q .going t) :
    s.complete q ans = (s.refuseIfDisallowed q ans .dtx).goCompletion q.address t (q.command.judge ans) := by
  unfold State.complete State.dtxCompletion
  rw [cmd, State.txnFor_tied tied]

theorem State.complete_detail {e : BitVec 16} {t : OpenTxn} (cmd : q.command = .detail e)
    (tied : s.Tied q .detailing t) :
    s.complete q ans = (s.refuseIfDisallowed q ans .dtx).detailCompletion q.address t (q.command.judge ans) := by
  unfold State.complete State.dtxCompletion
  rw [cmd, State.txnFor_tied tied]

/-- A completion of a transaction since closed, or in another state, is discarded (log 12). -/
theorem State.complete_untied {e : BitVec 16}
    (h : (∃ action, q.command = .set e action) ∧ (∀ t, ¬s.Tied q .setting t) ∨
      q.command = .go e ∧ (∀ t, ¬s.Tied q .going t) ∨ q.command = .detail e ∧ ∀ t, ¬s.Tied q .detailing t) :
    s.complete q ans = s := by
  unfold State.complete State.dtxCompletion
  rcases h with ⟨⟨action, cmd⟩, untied⟩ | ⟨cmd, untied⟩ | ⟨cmd, untied⟩ <;> rw [cmd, State.txnFor_untied untied]

theorem State.complete_cancel {e : BitVec 16} (cmd : q.command = .cancel e) :
    s.complete q ans = s.refuseIfDisallowed q ans .dtx := by
  unfold State.complete State.dtxCompletion
  rw [cmd]

theorem State.complete_clear (cmd : q.command = .clear) :
    s.complete q ans = (s.refuseIfDisallowed q ans .dtx).clearCompletion q.address (q.command.judge ans) := by
  unfold State.complete State.dtxCompletion
  rw [cmd]

theorem State.complete_gripExpect {e : BitVec 16} {cabin : BitVec 8} (cmd : q.command = .gripExpect e cabin) :
    s.complete q ans =
      if q.command.judge ans = .accepted then s else (s.refuseIfDisallowed q ans .gsw).endExpectation e := by
  unfold State.complete State.gripCompletion
  rw [cmd]

variable {ans}

theorem State.refuseIfDisallowed_not {j : Judgement} (judged : q.command.judge ans = j) (fine : j ≠ .disallowed)
    (block : RefusingBlock) : s.refuseIfDisallowed q ans block = s := if_neg (judged ▸ fine)

end

/-- An answer its command does not allow is judged so, and v is what its refusal leaves: a bad length SLC has reported
already (log 13). -/
def State.Disallowed (s : State) (q : QueuedCommand) (ans : Answer) (v : State) : Prop :=
  ans = .badLength ∧ v = s ∨
    ∃ kind ws, ans = .frame kind ws ∧ ¬q.command.Allows kind ws ∧
      v = s.report (.frameRefused q.address kind q.command.owner)

section

variable {s v : State} {q : QueuedCommand} {ans : Answer} (h : s.Disallowed q ans v)

include h

theorem State.Disallowed.judge : q.command.judge ans = .disallowed := by
  rcases h with ⟨rfl, _⟩ | ⟨kind, ws, rfl, no, _⟩
  · rfl
  · exact Command.judge_disallowed no

theorem State.Disallowed.refuse : s.refuseIfDisallowed q ans q.command.owner = v := by
  rw [State.refuseIfDisallowed, if_pos h.judge]
  rcases h with ⟨rfl, rfl⟩ | ⟨kind, ws, rfl, _, rfl⟩ <;> rfl

theorem State.Disallowed.refuse_by {block : RefusingBlock} (owner : q.command.owner = block) :
    s.refuseIfDisallowed q ans block = v := owner ▸ h.refuse

theorem State.Disallowed.gsw : v.gsw = s.gsw := by
  rcases h with ⟨_, rfl⟩ | ⟨_, _, _, _, rfl⟩ <;> rfl

end

/-- A silent completion is none of the command's answers, and is not reported as refused. -/
theorem State.refuseIfDisallowed_silence (s : State) (q : QueuedCommand) (block : RefusingBlock) :
    s.refuseIfDisallowed q .silence block = s := State.refuseIfDisallowed_not (j := .silent) rfl nofun block

/-! ### Endings -/

theorem State.clearCompletion_accepted (s : State) (a : Nat) :
    s.clearCompletion a .accepted =
      ((s.modNode a fun n => { n with clearMark := false, faulted := false }).clear .closureFault (.node a)).report
        (.nodeCleared a .cleared) := by
  unfold State.clearCompletion
  simp only [State.modNode_modNode]

theorem State.sendGo_eq (s : State) (a : Nat) (t : OpenTxn) :
    s.sendGo a t =
      let going := s.modTxn a fun t => { t with state := .going }
      if s.slc.urgent.length < 64 then going.pushCommand { address := a, command := .go t.entry, txn := some t.id }
      else (going.failTxn a t .silent).silentExchange a := by
  have full : (s.modTxn a fun t => { t with state := .going }).urgentFull = decide (64 ≤ s.slc.urgent.length) := rfl
  unfold State.sendGo
  simp only [full, decide_eq_true_eq]
  by_cases room : s.slc.urgent.length < 64
  · rw [if_pos room, if_neg (Nat.not_le.2 room)]
  · rw [if_neg room, if_pos (Nat.not_lt.1 room)]

theorem State.applyWaitingChange_eq {s : State} {a : Nat} {n : NodeRec} (h : s.node a = some n) :
    s.applyWaitingChange a = if n.changeMark then s.applyKindChange a else s := by
  unfold State.applyWaitingChange
  rw [h]

/-- A frame that answers a command completes it, and a judgement it allows is not refused. -/
theorem live_completes {s : State} {q : QueuedCommand} {kind : Byte} {f : RxFrame} {t : State} (h : Answers s q kind f)
    (completes : (s.taken q.address).complete q (.frame kind f.payload) = t) :
    live (fun s => s.receive kind f) s = .next t := by rw [live_answer h, completes]

section

variable {s : State} {q : QueuedCommand} {kind : Byte} {f : RxFrame} {e : BitVec 16} {t : OpenTxn} {j : Judgement}
  (answers : Answers s q kind f) (fine : j ≠ .disallowed)

include answers fine

theorem live_set {action : ClosureAction} (cmd : q.command = .set e action) (tied : (s.taken q.address).Tied q .setting t)
    (judged : (Command.set e action).judge (.frame kind f.payload) = j) :
    live (fun s => s.receive kind f) s = .next ((s.taken q.address).setCompletion q.address t j) := by
  rw [← cmd] at judged
  refine live_completes answers ?_
  rw [State.complete_set _ cmd tied, State.refuseIfDisallowed_not judged fine, judged]

theorem live_go (cmd : q.command = .go e) (tied : (s.taken q.address).Tied q .going t)
    (judged : (Command.go e).judge (.frame kind f.payload) = j) :
    live (fun s => s.receive kind f) s = .next ((s.taken q.address).goCompletion q.address t j) := by
  rw [← cmd] at judged
  refine live_completes answers ?_
  rw [State.complete_go _ cmd tied, State.refuseIfDisallowed_not judged fine, judged]

theorem live_detail (cmd : q.command = .detail e) (tied : (s.taken q.address).Tied q .detailing t)
    (judged : (Command.detail e).judge (.frame kind f.payload) = j) :
    live (fun s => s.receive kind f) s = .next ((s.taken q.address).detailCompletion q.address t j) := by
  rw [← cmd] at judged
  refine live_completes answers ?_
  rw [State.complete_detail _ cmd tied, State.refuseIfDisallowed_not judged fine, judged]

end

/-- Settles O49: each answer completes its command; the transaction is the one the frame found; the judgement follows the
payload. -/
theorem answersMoveTheirTransactions : Obligations.AnswersMoveTheirTransactions := by
  intro s q f e a u
  have tiedTaken : ∀ {st t}, s.txnAt a = some t → q.txn = some t.id → t.state = st → u.Tied q st t :=
    fun held number state => (s.tied_taken a q _ _).2 ⟨held, number, state⟩
  have untiedTaken : ∀ {st}, (∀ t, s.txnAt a = some t → q.txn ≠ some t.id ∨ t.state ≠ st) → ∀ t, ¬u.Tied q st t := by
    intro st none t tied
    obtain ⟨held, number, state⟩ := (s.tied_taken a q st t).1 tied
    exact (none t held).elim (· number) (· state)
  refine ⟨fun action cmd => ⟨fun t held number state => ⟨fun answers payload => ?setAccept, fun answers =>
      ⟨fun payload => ?setBusy, fun payload => ?setRefuse⟩⟩, fun none => ⟨fun answers => live_completes answers
        (State.complete_untied _ (.inl ⟨⟨action, cmd⟩, untiedTaken none⟩)), fun answers => live_completes answers
          (State.complete_untied _ (.inl ⟨⟨action, cmd⟩, untiedTaken none⟩))⟩⟩,
    fun cmd => ⟨fun t held number state => ⟨fun answers payload => ?goAccept, fun w answers payload => ?goRefuse⟩,
      fun none => ⟨fun answers => live_completes answers
        (State.complete_untied _ (.inr (.inl ⟨cmd, untiedTaken none⟩))), fun answers => live_completes answers
          (State.complete_untied _ (.inr (.inl ⟨cmd, untiedTaken none⟩)))⟩⟩,
    fun cmd answers => ⟨fun t w1 w2 held number state payload => ?detail, fun none => live_completes answers
      (State.complete_untied _ (.inr (.inr ⟨cmd, untiedTaken none⟩)))⟩,
    fun cmd answers payload => ?cancel, fun cmd answers payload => ?clear, fun cabin cmd answers payload => ?expect,
    fun t r => rfl, fun n held => State.applyWaitingChange_eq held, fun t ending => rfl, s.sendGo_eq a,
    fun kind answers => live_answer answers, fun ans v disallowed => ?disallowed, fun e action t cmd tied => ?setSilent,
    fun e t cmd tied => ?goSilent, fun e t cmd tied => ?detailSilent, fun e cmd => ?cancelSilent, fun cmd => ?clearSilent,
    fun e cabin cmd => ?expectSilent, fun ans e untied => State.complete_untied ans untied⟩
  case setAccept =>
    exact live_set answers nofun cmd (tiedTaken held number state) (j := .accepted)
      (by rw [payload]; exact if_pos ⟨rfl, rfl⟩)
  case setBusy =>
    exact live_set answers nofun cmd (tiedTaken held number state) (j := .busy)
      (by rw [payload]; exact (if_pos ⟨rfl, rfl⟩).trans (if_pos rfl))
  case setRefuse =>
    exact live_set answers nofun cmd (tiedTaken held number state) (j := .refused)
      (by rw [payload]; exact (if_pos ⟨rfl, rfl⟩).trans rfl)
  case goAccept =>
    rw [← s.taken_time a, ← s.taken_siteRecord a]
    exact live_go answers nofun cmd (tiedTaken held number state) (j := .accepted)
      (by rw [payload]; exact if_pos ⟨rfl, rfl⟩)
  case goRefuse =>
    exact live_go answers nofun cmd (tiedTaken held number state) (j := .refused)
      (by rw [payload]; exact if_pos ⟨rfl, rfl⟩)
  case detail =>
    exact live_detail answers nofun cmd (tiedTaken held number state) (j := .detail w1 w2)
      (by rw [payload]; exact if_pos ⟨rfl, rfl⟩)
  case cancel =>
    have judged : q.command.judge (.frame Kind.cancelAccept f.payload) = .accepted := by
      rw [cmd, payload]
      exact if_pos ⟨rfl, rfl⟩
    refine live_completes answers ?_
    rw [State.complete_cancel _ cmd, State.refuseIfDisallowed_not judged nofun]
  case clear =>
    have judged : q.command.judge (.frame Kind.clearAccept f.payload) = .accepted := by
      rw [cmd, payload]
      exact (if_pos rfl : (if Kind.clearAccept = Kind.clearAccept then Judgement.accepted else .disallowed) = .accepted)
    refine live_completes answers ?_
    rw [State.complete_clear _ cmd, State.refuseIfDisallowed_not judged nofun, judged, State.clearCompletion_accepted]
  case expect =>
    have judged : q.command.judge (.frame Kind.expectAccept f.payload) = .accepted := by
      rw [cmd, payload]
      exact if_pos ⟨rfl, rfl⟩
    refine live_completes answers ?_
    rw [State.complete_gripExpect _ cmd, if_pos judged]
  case disallowed =>
    have dis : s.Disallowed q ans v := disallowed
    have refused : ∀ {c} block, q.command = c → c.owner = block → s.refuseIfDisallowed q ans block = v :=
      fun _ cmd own => dis.refuse_by ((congrArg Command.owner cmd).trans own)
    refine ⟨fun e action t cmd tied => ?_, fun e t cmd tied => ?_, fun e t cmd tied => ?_, fun e cmd => ?_, fun cmd => ?_,
      fun e cabin cmd => ?_⟩
    · rw [State.complete_set _ cmd tied, refused .dtx cmd rfl, dis.judge]
      rfl
    · rw [State.complete_go _ cmd tied, refused .dtx cmd rfl, dis.judge]
      rfl
    · rw [State.complete_detail _ cmd tied, refused .dtx cmd rfl, dis.judge]
      rfl
    · rw [State.complete_cancel _ cmd, refused .dtx cmd rfl]
    · rw [State.complete_clear _ cmd, refused .dtx cmd rfl, dis.judge]
      rfl
    · have unaccepted : q.command.judge ans ≠ .accepted := by rw [dis.judge]; nofun
      rw [State.complete_gripExpect _ cmd, if_neg unaccepted, refused .gsw cmd rfl, State.endExpectation, dis.gsw]
      rfl
  case setSilent =>
    rw [State.complete_set _ cmd tied, State.refuseIfDisallowed_silence]
    rfl
  case goSilent =>
    rw [State.complete_go _ cmd tied, State.refuseIfDisallowed_silence]
    rfl
  case detailSilent =>
    rw [State.complete_detail _ cmd tied, State.refuseIfDisallowed_silence]
    rfl
  case cancelSilent => rw [State.complete_cancel _ cmd, State.refuseIfDisallowed_silence]
  case clearSilent =>
    rw [State.complete_clear _ cmd, State.refuseIfDisallowed_silence]
    rfl
  case expectSilent =>
    rw [State.complete_gripExpect _ cmd, State.refuseIfDisallowed_silence]
    exact if_neg nofun

end Sys2Proof.Machine
end

section
/-! Closure movements end: CLOSURE_DONE, the act timer, the point, and the wait list as a transaction closes (chapter 4). -/

namespace Sys2Proof.Machine

open Host

/-! ### The detail fetch (R74, R75) -/

/-- The transaction as its detail fetch begins. -/
def OpenTxn.fetching (t : OpenTxn) (cause : DetailCause) (words : Word × Word) : OpenTxn :=
  { t with
    state := .detailing, deadline := none, actTimer := none, faultWords := some words, detailCause := some cause }

theorem State.startDetail_room {s : State} (room : s.slc.urgent.length < 64) (a : Nat) (t : OpenTxn)
    (cause : DetailCause) (words : Word × Word) :
    s.startDetail a t cause words =
      (s.modNode a fun n => { n with txn := some (t.fetching cause words) }).pushCommand
        { address := a, command := .detail t.entry, txn := some t.id } := by
  have room' : ¬(s.modNode a fun n => { n with txn := some (t.fetching cause words) }).urgentFull = true := by
    rw [State.urgentFull, decide_eq_true_eq]
    exact Nat.not_le.2 room
  exact if_neg room'

theorem State.startDetail_full {s : State} (full : 64 ≤ s.slc.urgent.length) (a : Nat) (t : OpenTxn)
    (cause : DetailCause) (words : Word × Word) :
    s.startDetail a t cause words =
      ((s.modNode a fun n => { n with txn := some (t.fetching cause words) }).nodeFault a (t.fetching cause words)
        (.closureDetail t.entry a t.action t.point cause true words (0, 0))).silentExchange a := by
  have full' : (s.modNode a fun n => { n with txn := some (t.fetching cause words) }).urgentFull = true :=
    decide_eq_true full
  exact if_pos full'

/-! ### CLOSURE_DONE (R74) -/

theorem State.turnFrame_closureDone {s : State} {a : Nat} (node : nth1 s.slc.nodeTable a = some .closureDrive)
    (tag : Byte) (payload : List Word) :
    s.turnFrame a Kind.closureDone tag payload = some (s.closureDone a payload) := by
  unfold State.turnFrame
  rw [node]
  rfl

theorem exec_closureDone {s : State} {a : Nat} {f : RxFrame} (h : InTurn s a .closureDrive Kind.closureDone f) :
    exec (.closureDone f) s = .next ((s.taken a).closureDone a f.payload) := by
  have node : nth1 (s.taken a).slc.nodeTable a = some .closureDrive := by rw [State.taken_nodeTable, h.node]
  refine (live_inTurn h).trans ?_
  rw [State.turnFrame_closureDone node, Option.getD_some]

theorem State.taken_txnAt (s : State) (a b : Nat) : (s.taken a).txnAt b = s.txnAt b :=
  State.txnAt_congr (s.taken_dtx a) b

section

variable {s : State} {a : Nat} {t : OpenTxn} (held : s.txnAt a = some t)

include held

theorem State.closureDone_complete (acting : t.state = .acting) :
    s.closureDone a [t.entry, 0] =
      (s.claimClosure t.entry (match t.action with | .toOpen => .opened | .toShut => .shut)).closeTxn a := by
  unfold State.closureDone
  rw [held]
  exact if_pos ⟨acting, rfl, rfl⟩

theorem State.closureDone_fault (acting : t.state = .acting) (w1 w2 : Word) :
    s.closureDone a [t.entry, 1, w1, w2] = s.startDetail a t .faultReported (w1, w2) := by
  unfold State.closureDone
  rw [held]
  exact if_pos ⟨acting, rfl, rfl⟩

/-- A CLOSURE_DONE that is none of the transaction's is refused. -/
theorem State.closureDone_other {payload : List Word}
    (other : t.state ≠ .acting ∨ payload.head? ≠ some t.entry ∨ 1 < (payload.getD 1 0).toNat) :
    s.closureDone a payload = s.refuseFrame a Kind.closureDone .dtx := by
  have mismatch : ∀ {e outcome : Word} {rest : List Word} (code : Word), payload = e :: outcome :: rest → code.toNat ≤ 1 →
      ¬(t.state = .acting ∧ t.entry = e ∧ outcome = code) := by
    rintro e outcome rest code rfl low ⟨acting, named, same⟩
    rcases other with other | other | other
    · exact other acting
    · exact other (by rw [named]; rfl)
    · rw [show (e :: outcome :: rest).getD 1 0 = outcome from rfl, same] at other
      omega
  unfold State.closureDone
  rw [held]
  split
  · next same =>
    cases same
    exact if_neg (mismatch 0 rfl (by decide))
  · next same =>
    cases same
    exact if_neg (mismatch 1 rfl (by decide))
  · rfl

end

theorem State.closureDone_untied {s : State} {a : Nat} (none : s.txnAt a = none) (payload : List Word) :
    s.closureDone a payload = s.refuseFrame a Kind.closureDone .dtx := by
  unfold State.closureDone
  rw [none]

/-! ### The act timer (R75) -/

theorem exec_actTimerExpiry {s : State} (h : s.phase = .live) (a : Nat) :
    exec (.actTimerExpiry a) s = .next (s.actExpiry a) := live_of (f := fun s => s.actExpiry a) h

theorem State.actExpiry_running {s : State} {a : Nat} {t : OpenTxn} (held : s.txnAt a = some t)
    (acting : t.state = .acting) (runs : t.actTimer ≠ none) :
    s.actExpiry a = s.startDetail a t .actLimit (0, 0) := by
  unfold State.actExpiry
  rw [held]
  exact if_pos ⟨acting, Option.isSome_iff_ne_none.2 runs⟩

theorem State.actExpiry_other {s : State} {a : Nat}
    (none : ∀ t, s.txnAt a = some t → t.state ≠ .acting ∨ t.actTimer = none) : s.actExpiry a = s := by
  unfold State.actExpiry
  split
  · next t held =>
    exact if_neg fun ⟨acting, runs⟩ => (none t held).elim (· acting) (Option.isSome_iff_ne_none.1 runs)
  · rfl

/-! ### The point (R72) -/

section

variable {s : State} {entry : BitVec 16} {k a : Nat} {n : NodeRec} (held : s.node a = some n)

include held

/-- The point of the open transaction that is the cabin's claim, by its state. -/
theorem State.closurePoint_txn {x : OpenTxn} (txn : n.txn = some x) (named : x.entry = entry) (point : x.point = k)
    (counts : x.overtaken = false) :
    (x.state = .primed → s.closurePoint entry k a = s.sendGo a x) ∧
      (x.state = .setting →
        s.closurePoint entry k a = (s.modTxn a fun x => { x with late := true }).raise .closureLate (.cabin entry)) ∧
      (x.state ≠ .primed → x.state ≠ .setting → s.closurePoint entry k a = s) := by
  have mine : n.txn.filter (fun t => decide (t.entry = entry ∧ t.point = k ∧ t.overtaken = false)) = some x := by
    rw [txn]
    exact if_pos (decide_eq_true ⟨named, point, counts⟩)
  unfold State.closurePoint
  rw [held]
  simp only [mine]
  refine ⟨fun state => by rw [state], fun state => by rw [state]; rfl, fun primed setting => ?_⟩
  cases state : x.state with
  | setting => exact absurd state setting
  | primed => exact absurd state primed
  | going => rfl
  | acting => rfl
  | detailing => rfl

theorem State.closurePoint_waits
    (none : ∀ x, n.txn = some x → x.entry ≠ entry ∨ x.point ≠ k ∨ x.overtaken = true) :
    s.closurePoint entry k a =
      if n.waiting.any fun w => decide (w.entry = entry ∧ w.point = k) then
        (s.modNode a fun n =>
          { n with waiting := n.waiting.map fun w =>
              if w.entry = entry ∧ w.point = k then { w with late := true } else w }).raiseLate entry
      else s := by
  have other : n.txn.filter (fun t => decide (t.entry = entry ∧ t.point = k ∧ t.overtaken = false)) = .none := by
    rw [Option.filter_eq_none_iff]
    intro x txn
    rw [decide_eq_true_eq]
    rintro ⟨named, point, counts⟩
    rcases none x txn with h | h | h
    · exact h named
    · exact h point
    · rw [counts] at h
      cases h
  unfold State.closurePoint
  rw [held]
  simp only [other]

theorem State.closeTxn_held :
    s.closeTxn a =
      if n.faulted then (s.modNode a fun n => { n with txn := none }).drain a n.waiting
      else (s.modNode a fun n => { n with txn := none }).serve a n.waiting := by
  have closed : (s.modNode a fun n => { n with txn := none }).node a = some { n with txn := none } := by
    rw [State.node_modNode, if_pos rfl, held]
    rfl
  unfold State.closeTxn
  simp only [closed]

end

/-- Settles O50: CLOSURE_DONE by the transaction it names, the act timer, the point, and the wait list. -/
theorem closureEndsByDoneOrActTimer : Obligations.ClosureEndsByDoneOrActTimer := by
  intro s a f t u
  have txn : ∀ {t}, s.txnAt a = some t → u.txnAt a = some t := fun held => (s.taken_txnAt a a).trans held
  refine ⟨fun turn held => ⟨fun acting payload => ?done, fun w1 w2 acting payload room => ?fault, fun other => ?other⟩,
    fun turn none => ?untied, fun live held acting runs room => ?expires, fun live none => ?stands,
    fun held acting full => ⟨fun w1 w2 turn payload => ?faultFull, fun live runs => ?expiresFull⟩,
    fun n entry k held => ⟨fun x => State.closurePoint_txn held, fun none => ⟨fun waits => ?late, fun others => ?still⟩⟩,
    fun n held => State.closeTxn_held held, rfl, rfl, fun w rest => ⟨rfl, fun room => State.serve_room room a w rest,
      fun full => State.serve_full full a w rest⟩⟩
  case done => rw [exec_closureDone turn, payload, State.closureDone_complete (txn held) acting]; rfl
  case fault =>
    rw [exec_closureDone turn, payload, State.closureDone_fault (txn held) acting,
      State.startDetail_room (by rwa [State.taken_urgent])]
    rfl
  case other => rw [exec_closureDone turn, State.closureDone_other (txn held) other]; rfl
  case untied => rw [exec_closureDone turn, State.closureDone_untied ((s.taken_txnAt a a).trans none)]; rfl
  case expires =>
    rw [exec_actTimerExpiry live, State.actExpiry_running held acting runs, State.startDetail_room room]
    rfl
  case stands => rw [exec_actTimerExpiry live, State.actExpiry_other none]
  case faultFull =>
    rw [exec_closureDone turn, payload, State.closureDone_fault (txn held) acting,
      State.startDetail_full (by rwa [State.taken_urgent])]
    rfl
  case expiresFull =>
    rw [exec_actTimerExpiry live, State.actExpiry_running held acting runs, State.startDetail_full full]
    rfl
  case late =>
    rw [State.closurePoint_waits held none]
    exact if_pos (List.any_eq_true.2 (waits.imp fun w => And.imp_right decide_eq_true))
  case still =>
    rw [State.closurePoint_waits held none]
    refine if_neg fun any => ?_
    obtain ⟨w, listed, mine⟩ := List.any_eq_true.1 any
    obtain ⟨named, point⟩ := of_decide_eq_true mine
    exact (others w listed).elim (· named) (· point)

end Sys2Proof.Machine
end

section
/-! The station line: frames nobody takes, the arbiter, the windows of the exchanges and the poll slots (chapter 9). -/

namespace Sys2Proof.Machine

open Host

/-! ### Frames that reach a node's address (R141) -/

/-- The frame arrives whole, for the 640, from a node address. -/
structure Reaches (a : Nat) (kind : Byte) (f : RxFrame) : Prop where
  whole : f.whole kind = true
  destination : f.destination = 0
  sender : f.sender = a
  low : 1 ≤ a
  high : a ≤ 30

/-- Silence and the console's notice, as a frame of address a leaves them (R12, R141, R151). -/
def State.noticed (s : State) (a : Nat) : State :=
  if a = 30 then (s.heardFrom a).consoleNotice else s.heardFrom a

theorem State.noticed_awaiting (s : State) (a : Nat) : (s.noticed a).awaiting = s.awaiting := by
  have same : (s.noticed a).slc.exchange = s.slc.exchange := by
    unfold State.noticed
    split <;> simp
  unfold State.awaiting
  rw [same]

/-- The exchange awaits a frame: a command or a turn in AWAITING (log 15). -/
theorem State.awaiting_some {s : State} {x : Exchange} (h : s.awaiting = some x) :
    s.slc.exchange = some x ∧ x.phase = .awaiting ∧ ∀ n, x.kind ≠ .poll n := by
  unfold State.awaiting at h
  obtain ⟨held, awaits⟩ := Option.filter_eq_some_iff.1 h
  rw [Bool.and_eq_true, decide_eq_true_eq] at awaits
  refine ⟨held, awaits.1, fun n poll => ?_⟩
  rw [poll] at awaits
  exact Bool.false_ne_true awaits.2

theorem State.awaiting_of {s : State} {x : Exchange} (held : s.slc.exchange = some x) (phase : x.phase = .awaiting)
    (kind : x.kind = .turn ∨ ∃ q b, x.kind = .command q b) : s.awaiting = some x := by
  unfold State.awaiting
  rw [held, Option.filter_some]
  refine if_pos ?_
  rcases kind with kind | ⟨q, b, kind⟩ <;> rw [kind, phase] <;> rfl

section

variable {s : State} {a : Nat} {kind : Byte} {f : RxFrame} (h : Reaches a kind f)

include h

/-- A frame that no exchange with its address awaits is refused, once its node is noticed. -/
theorem State.receive_unawaited (none : ∀ x, s.awaiting = some x → x.address ≠ a) :
    s.receive kind f = (s.noticed a).refuseFrame a kind .slc := by
  have outside : ¬(a < 1 ∨ 30 < a) := by have := h.low; have := h.high; omega
  have judged : s.receive kind f = (s.noticed a).refuseFrame a kind .slc ∨
      ∃ x, s.awaiting = some x ∧ x.address = a := by
    unfold State.receive State.judgeFrame
    simp only [h.whole, h.destination, h.sender, Bool.true_eq_false, if_false, ne_eq, not_true_eq_false, if_neg outside]
    rw [show (if a = 30 then (s.heardFrom a).consoleNotice else s.heardFrom a) = s.noticed a from rfl,
      State.noticed_awaiting]
    cases awaits : s.awaiting with
    | none => exact .inl rfl
    | some x =>
      by_cases mine : x.address = a
      · exact .inr ⟨x, rfl, mine⟩
      · exact .inl (if_neg mine)
  rcases judged with refused | ⟨x, awaits, mine⟩
  · exact refused
  · exact absurd mine (none x awaits)

/-- The exchange that awaits a frame of its address takes it. -/
theorem State.receive_awaited {x : Exchange} (awaits : s.awaiting = some x) (mine : x.address = a) :
    s.receive kind f = (s.noticed a).takeFrame x kind f.tag f.payload := by
  have outside : ¬(a < 1 ∨ 30 < a) := by have := h.low; have := h.high; omega
  unfold State.receive State.judgeFrame
  simp only [h.whole, h.destination, h.sender, Bool.true_eq_false, if_false, ne_eq, not_true_eq_false, if_neg outside]
  rw [show (if a = 30 then (s.heardFrom a).consoleNotice else s.heardFrom a) = s.noticed a from rfl,
    State.noticed_awaiting, awaits]
  exact if_pos mine

end

theorem exec_unsolicited {s : State} (h : s.phase = .live) (kind : Byte) (f : RxFrame) :
    exec (.unsolicitedFrame kind f) s = .next (s.receive kind f) := live_of (f := fun s => s.receive kind f) h

/-- A frame cut short, with a bad check or for another address is nothing to the 640 (R140). -/
theorem State.receive_unwhole {s : State} {kind : Byte} {f : RxFrame} (h : f.whole kind = false ∨ f.destination ≠ 0) :
    s.receive kind f = s := by
  unfold State.receive
  by_cases whole : f.whole kind = false
  · exact if_pos whole
  · rw [if_neg whole, if_pos (h.resolve_left whole)]

/-- A frame of no node address is refused at once. -/
theorem State.receive_outside {s : State} {kind : Byte} {f : RxFrame} (whole : f.whole kind = true)
    (destination : f.destination = 0) (outside : f.sender = 0 ∨ f.sender = 31) :
    s.receive kind f = s.report (.frameRefused f.sender kind .slc) := by
  unfold State.receive
  rw [if_neg (by rw [whole]; nofun), if_neg (not_not.2 destination), if_pos (by omega)]
  rfl

/-! ### Frames a turn does not allow (R150) -/

theorem State.turnFrame_decline {s : State} {a : Nat} {node : NodeKind} (held : nth1 s.slc.nodeTable a = some node)
    (kinded : node ≠ .noKind) (tag : Byte) (payload : List Word) :
    s.turnFrame a Kind.decline tag payload = some s := by
  unfold State.turnFrame
  rw [held]
  cases node with
  | noKind => exact absurd rfl kinded
  | closureDrive => rfl
  | gripUnit => rfl
  | tagReader => rfl
  | console => rfl

theorem RequestKind.ofFrameKind_other {kind : Byte} (h : ¬(80 ≤ kind.toNat ∧ kind.toNat ≤ 97)) :
    RequestKind.ofFrameKind kind = none := by
  unfold RequestKind.ofFrameKind
  split
  case h_19 => rfl
  all_goals omega

theorem State.turnFrame_noKind {s : State} {a : Nat} (held : nth1 s.slc.nodeTable a = some .noKind) (kind tag : Byte)
    (payload : List Word) : s.turnFrame a kind tag payload = none := by
  unfold State.turnFrame
  rw [held]
  rfl

/-- A kind its node kind does not allow in a turn is taken by no block. -/
theorem State.turnFrame_other {s : State} {a : Nat} {node : NodeKind} {kind : Byte}
    (held : nth1 s.slc.nodeTable a = some node) (decline : kind ≠ Kind.decline)
    (done : ¬(node = .closureDrive ∧ kind = Kind.closureDone)) (grip : ¬(node = .gripUnit ∧ kind = Kind.gripResult))
    (tagged : ¬(node = .tagReader ∧ kind = Kind.tagRead))
    (request : ¬(node = .console ∧ 80 ≤ kind.toNat ∧ kind.toNat ≤ 97)) (tag : Byte) (payload : List Word) :
    s.turnFrame a kind tag payload = none := by
  unfold State.turnFrame
  rw [held]
  cases node with
  | noKind => rfl
  | closureDrive => exact (if_neg decline).trans (if_neg fun same => done ⟨rfl, same⟩)
  | gripUnit => exact (if_neg decline).trans (if_neg fun same => grip ⟨rfl, same⟩)
  | tagReader => exact (if_neg decline).trans (if_neg fun same => tagged ⟨rfl, same⟩)
  | console =>
    refine (if_neg decline).trans ?_
    rw [RequestKind.ofFrameKind_other fun range => request ⟨rfl, range⟩]
    rfl

/-! ### Wrong lengths (R141, R172) -/

theorem lengthAllowed_request {kind : Byte} {ws : List Word} (low : 80 ≤ kind.toNat) (high : kind.toNat ≤ 97)
    (long : 13 < ws.length) : lengthAllowed kind ws = false := by
  unfold lengthAllowed
  simp only
  split
  case h_23 => simp [low, high, long]
  all_goals omega

theorem beq_length_false {ws : List Word} {n : Nat} (h : ws.length ≠ n) : (ws.length == n) = false :=
  beq_false_of_ne h

/-- A CLOSURE_DONE of neither length is refused. -/
theorem lengthAllowed_closureDone :
    ∀ {ws : List Word}, ws.length ≠ 2 → ws.length ≠ 4 → lengthAllowed Kind.closureDone ws = false
  | [], _, _ => rfl
  | [_], _, _ => rfl
  | [_, _], two, _ => absurd rfl two
  | [_, _, _], _, _ => rfl
  | [_, _, _, _], _, four => absurd rfl four
  | _ :: _ :: _ :: _ :: _ :: _, _, _ => rfl

/-- The lengths that the kinds of the nodes and the console do not allow. -/
theorem lengthAllowed_wrong {kind : Byte} {ws : List Word}
    (h : ((kind = Kind.decline ∨ kind = Kind.clearAccept) ∧ ws.length ≠ 0) ∨
      ((kind = Kind.setAccept ∨ kind = Kind.goAccept ∨ kind = Kind.cancelAccept ∨ kind = Kind.expectAccept) ∧
        ws.length ≠ 1) ∨
      ((kind = Kind.setRefuse ∨ kind = Kind.goRefuse ∨ kind = Kind.gripResult ∨ kind = Kind.tagRead) ∧ ws.length ≠ 2) ∨
      (kind = Kind.detailAnswer ∧ ws.length ≠ 3) ∨ (kind = Kind.closureDone ∧ ws.length ≠ 2 ∧ ws.length ≠ 4) ∨
      (∃ e, kind = Kind.closureDone ∧ ws = [e, 1]) ∨ (∃ e w1 w2, kind = Kind.closureDone ∧ ws = [e, 0, w1, w2]) ∨
      (80 ≤ kind.toNat ∧ kind.toNat ≤ 97 ∧ 13 < ws.length)) :
    lengthAllowed kind ws = false := by
  rcases h with ⟨rfl | rfl, n⟩ | ⟨rfl | rfl | rfl | rfl, n⟩ | ⟨rfl | rfl | rfl | rfl, n⟩ | ⟨rfl, n⟩ | ⟨rfl, two, four⟩ |
    ⟨e, rfl, rfl⟩ | ⟨e, w1, w2, rfl, rfl⟩ | ⟨low, high, long⟩
  case inr.inr.inr.inr.inl => exact lengthAllowed_closureDone two four
  case inr.inr.inr.inr.inr.inl => rfl
  case inr.inr.inr.inr.inr.inr.inl => rfl
  case inr.inr.inr.inr.inr.inr.inr => exact lengthAllowed_request low high long
  all_goals exact beq_length_false n

/-- A frame of a wrong length ends the exchange that took it; SLC refuses it, and a command's owner is told (R141, R145). -/
theorem State.takeFrame_wrong {s : State} {a : Nat} {kind : Byte} {x : Exchange} {payload : List Word}
    (wrong : lengthAllowed kind payload = false) (mine : x.address = a) (tag : Byte) :
    (x.kind = .turn →
      (s.noticed a).takeFrame x kind tag payload = (s.taken a).report (.frameRefused a kind .slc)) ∧
    ∀ q b, x.kind = .command q b →
      (s.noticed a).takeFrame x kind tag payload =
        ((s.taken a).report (.frameRefused a kind .slc)).complete q .badLength := by
  unfold State.takeFrame
  simp only [wrong, Bool.false_eq_true, if_false, mine]
  exact ⟨fun turn => by rw [turn]; rfl, fun q b command => by rw [command]; rfl⟩

/-- Settles O52: where a frame stops on its way from the line to an owner, and the lengths the kinds forbid. -/
theorem framesNobodyTakesAreRefused : Obligations.FramesNobodyTakesAreRefused := by
  refine ⟨fun s a kind f live => ⟨fun unwhole => ?_, fun whole destination outside => ?_,
    fun whole destination sender low high other => ?_, fun node turn kinded => ?_, fun node turn other => ?_⟩,
    fun kind ws => lengthAllowed_wrong,
    fun s a kind f x live whole destination sender low high wrong held phase mine => ⟨fun turn => ?_,
      fun q b command => ?_⟩⟩
  · rw [exec_unsolicited live, State.receive_unwhole unwhole]
  · rw [exec_unsolicited live, State.receive_outside whole destination outside]
  · rw [exec_unsolicited live, State.receive_unawaited ⟨whole, destination, sender, low, high⟩ fun x awaits mine => ?_]
    · rfl
    · obtain ⟨held, phase, unpolled⟩ := State.awaiting_some awaits
      rcases other with idle | ⟨y, held', other⟩
      · rw [idle] at held
        cases held
      · rw [held] at held'
        cases held'
        rcases other with sending | elsewhere | ⟨n, poll⟩
        · rw [phase] at sending
          cases sending
        · exact elsewhere mine
        · exact unpolled n poll
  · refine (live_inTurn turn).trans ?_
    have node' : nth1 (s.taken a).slc.nodeTable a = some node := by rw [State.taken_nodeTable, turn.node]
    rw [State.turnFrame_decline node' kinded]
    rfl
  · refine (live_inTurn turn).trans ?_
    have node' : nth1 (s.taken a).slc.nodeTable a = some node := by rw [State.taken_nodeTable, turn.node]
    have untaken : (s.taken a).turnFrame a kind f.tag f.payload = none := by
      rcases other with rfl | ⟨decline, done, grip, tagged, request⟩
      · exact State.turnFrame_noKind node' kind f.tag f.payload
      · exact State.turnFrame_other node' decline done grip tagged request f.tag f.payload
    rw [untaken]
    rfl
  · have awaits := State.awaiting_of held phase (.inl turn)
    rw [exec_unsolicited live, State.receive_awaited ⟨whole, destination, sender, low, high⟩ awaits mine]
    exact congrArg _ ((State.takeFrame_wrong wrong mine f.tag).1 turn)
  · have awaits := State.awaiting_of held phase (.inr ⟨q, b, command⟩)
    rw [exec_unsolicited live, State.receive_awaited ⟨whole, destination, sender, low, high⟩ awaits mine]
    exact congrArg _ ((State.takeFrame_wrong wrong mine f.tag).2 q b command)

end Sys2Proof.Machine
end

section
/-! The station line's uses: the arbiter's choice, the windows, the poll timer and the poll slots (chapter 9). -/

namespace Sys2Proof.Machine

open Host

/-! ### The address a turn goes to (R154) -/

/-- The first member of an ascending list with a property is the least. -/
theorem find?_of_least {p : Nat → Bool} {a : Nat} :
    ∀ {l : List Nat}, l.Pairwise (· < ·) → a ∈ l → p a = true → (∀ j ∈ l, p j = true → a ≤ j) → l.find? p = some a
  | [], _, mem, _, _ => by cases mem
  | x :: xs, sorted, mem, has, least => by
    obtain ⟨below, sorted⟩ := List.pairwise_cons.1 sorted
    by_cases first : p x = true
    · have low : a ≤ x := least x List.mem_cons_self first
      rcases List.mem_cons.1 mem with rfl | mem
      · exact List.find?_cons_of_pos first
      · exact absurd low (Nat.not_le.2 (below a mem))
    · rcases List.mem_cons.1 mem with rfl | mem
      · exact absurd has first
      · rw [List.find?_cons_of_neg first]
        exact find?_of_least sorted mem has fun j hj => least j (List.mem_cons_of_mem x hj)

theorem head?_of_least {a : Nat} {l : List Nat} (sorted : l.Pairwise (· < ·)) (mem : a ∈ l) (least : ∀ j ∈ l, a ≤ j) :
    l.head? = some a := by
  rw [show l.head? = l.find? fun _ => true by cases l <;> rfl]
  exact find?_of_least sorted mem rfl fun j hj _ => least j hj

/-- A member of the service set that may be granted a turn. -/
def State.MayTurn (s : State) (k : Nat) : Prop :=
  1 ≤ k ∧ k ≤ 30 ∧ nth1 s.slc.service k = some true ∧ (k = 30 → s.mgt.response = none)

/-- One above the turn pointer. -/
def State.MayTurnAbove (s : State) (k : Nat) : Prop := s.MayTurn k ∧ ∃ n, s.slc.turnPointer = some n ∧ n < k

theorem State.mem_grantable {s : State} {k : Nat} : k ∈ s.grantable ↔ s.MayTurn k := by
  unfold State.grantable State.MayTurn
  have member : (nth1 s.slc.service k).getD false = true ↔ nth1 s.slc.service k = some true := by
    cases nth1 s.slc.service k <;> simp
  have waits : (!(decide (k = 30) && s.mgt.response.isSome)) = true ↔ (k = 30 → s.mgt.response = none) := by
    cases s.mgt.response <;> simp
  rw [List.mem_filter, List.mem_range'_1, Bool.and_eq_true, member, waits]
  refine ⟨fun ⟨⟨low, high⟩, in_set, free⟩ => ⟨low, by omega, in_set, free⟩,
    fun ⟨low, high, in_set, free⟩ => ⟨⟨low, by omega⟩, in_set, free⟩⟩

theorem State.grantable_sorted (s : State) : s.grantable.Pairwise (· < ·) :=
  List.Pairwise.filter _ (List.pairwise_lt_range' (step := 1))

/-- The turn goes to the least member above the pointer. -/
theorem State.turnAddress_above {s : State} {a : Nat} (above : s.MayTurnAbove a)
    (least : ∀ j, s.MayTurnAbove j → a ≤ j) : s.turnAddress = some a := by
  obtain ⟨may, p, pointer, after⟩ := above
  have found : (s.grantable.find? fun k => decide (p < k)) = some a :=
    find?_of_least s.grantable_sorted (State.mem_grantable.2 may) (decide_eq_true after) fun j hj later =>
      least j ⟨State.mem_grantable.1 hj, p, pointer, of_decide_eq_true later⟩
  unfold State.turnAddress
  rw [pointer]
  simp only [found]

/-- With none above the pointer the turn goes to the least member, and with no member to none. -/
theorem State.turnAddress_round {s : State} (none : ∀ k, ¬s.MayTurnAbove k) : s.turnAddress = s.grantable.head? := by
  unfold State.turnAddress
  cases pointer : s.slc.turnPointer with
  | none => rfl
  | some p =>
    have passed : (s.grantable.find? fun k => decide (p < k)) = .none :=
      List.find?_eq_none.2 fun k hk after =>
        none k ⟨State.mem_grantable.1 hk, p, pointer, of_decide_eq_true after⟩
    simp only [passed]

theorem State.turnAddress_least {s : State} {a : Nat} (none : ∀ k, ¬s.MayTurnAbove k) (may : s.MayTurn a)
    (least : ∀ j, s.MayTurn j → a ≤ j) : s.turnAddress = some a :=
  (State.turnAddress_round none).trans
    (head?_of_least s.grantable_sorted (State.mem_grantable.2 may) fun j hj => least j (State.mem_grantable.1 hj))

theorem State.turnAddress_none {s : State} (none : ∀ k, ¬s.MayTurn k) : s.turnAddress = .none := by
  rw [State.turnAddress_round fun k above => none k above.1, List.head?_eq_none_iff]
  exact List.eq_nil_iff_forall_not_mem.2 fun k hk => none k (State.mem_grantable.1 hk)

/-! ### The arbiter's choice (R153) -/

theorem exec_arbiterChoice {s : State} (h : s.phase = .live) : exec .arbiterChoice s = .next s.arbiter :=
  live_of (f := fun s => s.arbiter) h

theorem State.chooseReady_clear {s : State} (clear : s.slc.clearPending = true) :
    s.chooseReady = s.begin .broadcastClear 31 (buildFrame 31 0 Kind.clear []) := if_pos clear

section

variable {s : State} (clear : s.slc.clearPending = false)

include clear

theorem State.chooseReady_command {q : QueuedCommand} {rest : List QueuedCommand} (urgent : s.slc.urgent = q :: rest) :
    s.chooseReady = (s.modSlc fun c => { c with urgent := rest }).begin (.command q false) q.address q.frame := by
  unfold State.chooseReady State.beginCommand
  simp only [clear, urgent, Bool.false_eq_true, if_false]
  exact congrArg (fun u => State.begin u (.command q false) q.address q.frame) (by simp [State.modSlc, urgent])

variable (urgent : s.slc.urgent = [])

include urgent

theorem State.chooseReady_poll (due : s.slc.pollDue = true) : s.chooseReady = s.beginPoll := by
  unfold State.chooseReady
  simp only [clear, urgent, due, Bool.false_eq_true, if_false, if_true]

variable (undue : s.slc.pollDue = false)

include undue

theorem State.chooseReady_turn {a : Nat} (turn : s.turnAddress = some a) : s.chooseReady = s.beginTurn a := by
  unfold State.chooseReady
  simp only [clear, urgent, undue, turn, Bool.false_eq_true, if_false]

variable (none : s.turnAddress = none)

include none

theorem State.chooseReady_response {r : PendingResponse} (response : s.mgt.response = some r) :
    s.chooseReady = s.begin .response 30 r.frame := by
  unfold State.chooseReady
  simp only [clear, urgent, undue, none, response, Bool.false_eq_true, if_false]

theorem State.chooseReady_report (response : s.mgt.response = .none) :
    s.chooseReady = if s.mgt.reports = [] then s else s.beginReport := by
  unfold State.chooseReady
  simp only [clear, urgent, undue, none, response, Bool.false_eq_true, if_false]

end

/-- Settles O53: the uses in the arbiter's order. -/
theorem arbiterTakesTheFirstReadyUse : Obligations.ArbiterTakesTheFirstReadyUse := by
  intro s live
  refine ⟨fun busy => ?_, fun free => ?_⟩
  · rw [exec_arbiterChoice live, State.arbiter, if_neg busy]
  · have chooses : exec .arbiterChoice s = .next s.chooseReady := by
      rw [exec_arbiterChoice live, State.arbiter, if_pos free]
    rw [chooses]
    refine ⟨fun clear => congrArg _ (State.chooseReady_clear clear), fun clear =>
      ⟨fun q rest urgent => congrArg _ (State.chooseReady_command clear urgent), fun urgent =>
        ⟨fun due => congrArg _ (State.chooseReady_poll clear urgent due), fun undue =>
          ⟨fun a turn => ?_, fun none => ?_⟩⟩⟩⟩
    · have address : s.turnAddress = some a := by
        rcases turn with ⟨above, least⟩ | ⟨none, may, least⟩
        · exact State.turnAddress_above above least
        · exact State.turnAddress_least none may least
      exact congrArg _ (State.chooseReady_turn clear urgent undue address)
    · have address := State.turnAddress_none none
      refine ⟨fun r response => congrArg _ (State.chooseReady_response clear urgent undue address response),
        fun response some => ?_, fun response empty => ?_⟩
      · exact congrArg _ ((State.chooseReady_report clear urgent undue address response).trans (if_neg some))
      · exact congrArg _ ((State.chooseReady_report clear urgent undue address response).trans (if_pos empty))

/-! ### The windows of the exchanges (R144, R145, R149, R155) -/

section

variable {s : State} (h : s.phase = .live)

include h

theorem exec_answerWindowOpens : exec .answerWindowOpens s = .next s.windowOpens :=
  live_of (f := fun s => s.windowOpens) h

theorem exec_answerWindowClose : exec .answerWindowClose s = .next s.answerWindowCloses :=
  live_of (f := fun s => s.answerWindowCloses) h

theorem exec_turnWindowClose : exec .turnWindowClose s = .next s.turnWindowCloses :=
  live_of (f := fun s => s.turnWindowCloses) h

theorem exec_reportFrameSent : exec .reportFrameSent s = .next s.reportIsSent :=
  live_of (f := fun s => s.reportIsSent) h

theorem exec_broadcastClearSent : exec .broadcastClearSent s = .next s.clearIsSent :=
  live_of (f := fun s => s.clearIsSent) h

theorem exec_responseSent : exec .responseSent s = .next s.responseIsSent :=
  live_of (f := fun s => s.responseIsSent) h

theorem exec_pollSlotClose (heard : SlotHeard) : exec (.pollSlotClose heard) s = .next (s.pollSlotCloses heard) :=
  live_of (f := fun s => s.pollSlotCloses heard) h

theorem exec_pollTimerExpiry : exec .pollTimerExpiry s = .next s.pollExpired :=
  live_of (f := fun s => s.pollExpired) h

end

theorem State.sending_none {s : State} (free : s.slc.exchange = none) (k : ExchangeKind) : s.sending k = false := by
  unfold State.sending
  rw [free]

theorem State.windowOpens_of {s : State} {x : Exchange} (held : s.slc.exchange = some x) (phase : x.phase = .sending)
    (kind : (∃ q b, x.kind = .command q b) ∨ (∃ n, x.kind = .poll n) ∨ x.kind = .turn) :
    s.windowOpens = s.setExchange (some { x with phase := .awaiting }) := by
  unfold State.windowOpens
  simp only [held, if_pos phase]
  rcases kind with ⟨q, b, kind⟩ | ⟨n, kind⟩ | kind <;> rw [kind]

/-- With no exchange none of its events does anything (log 3). -/
theorem windows_of_free {s : State} (live : s.phase = .live) (free : s.slc.exchange = none) :
    ∀ c ∈ [Instr.answerWindowOpens, .reportFrameSent, .broadcastClearSent, .answerWindowClose, .turnWindowClose,
      .responseSent, .pollSlotClose .quiet], exec c s = .next s := by
  intro c mem
  simp only [List.mem_cons, List.not_mem_nil, or_false] at mem
  rcases mem with rfl | rfl | rfl | rfl | rfl | rfl | rfl
  · rw [exec_answerWindowOpens live, State.windowOpens, free]
  · rw [exec_reportFrameSent live, State.reportIsSent, State.sending_none free]; rfl
  · rw [exec_broadcastClearSent live, State.clearIsSent, State.sending_none free]; rfl
  · rw [exec_answerWindowClose live, State.answerWindowCloses, free]
  · rw [exec_turnWindowClose live, State.turnWindowCloses, free]
  · rw [exec_responseSent live, State.responseIsSent, State.sending_none free]; rfl
  · rw [exec_pollSlotClose live, State.pollSlotCloses, free]

/-- Settles O54: each event by the exchange's kind and phase. -/
theorem exchangesEndByTheirOwnEvents : Obligations.ExchangesEndByTheirOwnEvents := by
  intro s x live
  refine ⟨fun held => ⟨fun phase => ⟨fun kind => ?_, fun kind => ?_, fun kind => ?_⟩,
    fun phase => ⟨fun q kind => ?_, fun q kind => ?_, fun kind => ?_⟩⟩, windows_of_free live, fun runs => ?_,
    fun stands => ?_⟩
  · rw [exec_answerWindowOpens live, State.windowOpens_of held phase kind]
    rfl
  · rw [exec_reportFrameSent live, State.reportIsSent, ← kind, State.sending_of held phase]
    rfl
  · rw [exec_broadcastClearSent live, State.clearIsSent, ← kind, State.sending_of held phase]
    rfl
  · rw [exec_answerWindowClose live, State.answerWindowCloses, held]
    simp only [kind, phase]
    rfl
  · rw [exec_answerWindowClose live, State.answerWindowCloses, held]
    simp only [kind, phase]
    rfl
  · rw [exec_turnWindowClose live, State.turnWindowCloses, held]
    simp only [kind, phase]
    rfl
  · rw [exec_pollTimerExpiry live, State.pollExpired, if_neg runs]
    rfl
  · rw [exec_pollTimerExpiry live, State.pollExpired, if_pos stands]

/-! ### The poll slots (R71, R148) -/

section

variable {s : State} {a : Nat}

/-- SET is queued again, its mark cleared; a full urgent queue is silence at once (log 11). -/
theorem State.retrySet_marked {t : OpenTxn} (held : s.txnAt a = some t) (marked : t.retry = true) :
    let cleared := s.modTxn a fun t => { t with retry := false }
    s.retrySet a =
      if 64 ≤ s.slc.urgent.length then (cleared.failTxn a t .silent).silentExchange a
      else cleared.pushCommand { address := a, command := .set t.entry t.action, txn := some t.id } := by
  have full : (s.modTxn a fun t => { t with retry := false }).urgentFull = decide (64 ≤ s.slc.urgent.length) := rfl
  unfold State.retrySet
  simp only [held, if_pos marked, full, decide_eq_true_eq]

theorem State.retrySet_unmarked (none : ∀ t, s.txnAt a = some t → t.retry = false) : s.retrySet a = s := by
  unfold State.retrySet
  split
  · next t held => exact if_neg (Bool.eq_false_iff.1 (none t held))
  · rfl

end

/-- A marked whole word of its own address is an answer (R148). -/
theorem slotAnswers_iff (h : SlotHeard) (k : Nat) :
    slotAnswers h k = true ↔ ∃ w : Word, h = .heard true false w ∧ w.toNat % 32 = k := by
  cases h with
  | quiet => exact ⟨nofun, nofun⟩
  | heard marked damaged w =>
    have address : addressOf w = w.toNat % 32 := field_low w 5
    simp only [slotAnswers, address, Bool.and_eq_true, Bool.not_eq_true', decide_eq_true_eq, SlotHeard.heard.injEq]
    constructor
    · rintro ⟨⟨rfl, rfl⟩, named⟩
      exact ⟨w, ⟨rfl, rfl, rfl⟩, named⟩
    · rintro ⟨_, ⟨rfl, rfl, rfl⟩, named⟩
      exact ⟨⟨rfl, rfl⟩, named⟩

/-- The poll goes on to the next slot, or ends and DTX is told (R71, R148). -/
def State.slotEnded (s : State) (x : Exchange) (k : Nat) : State :=
  if k < 30 then s.setExchange (some { x with kind := .poll (k + 1) })
  else (List.range' 1 29).foldl State.retrySet (s.setExchange none)

theorem State.pollSlotCloses_of {s : State} {x : Exchange} {k : Nat} (held : s.slc.exchange = some x)
    (kind : x.kind = .poll k) (phase : x.phase = .awaiting) (h : SlotHeard) :
    s.pollSlotCloses h = (s.judgePollSlot k (slotAnswers h k)).slotEnded x k := by
  unfold State.pollSlotCloses
  simp only [held, kind, phase, State.slotEnded]
  rfl

section

variable {s : State} {k : Nat}

theorem State.judgePollSlot_node {node : NodeKind} (table : nth1 s.slc.nodeTable k = some node) (kinded : node ≠ .noKind)
    (answered : Bool) :
    s.judgePollSlot k answered =
      if answered then s.modSlc fun c => { c with service := mod1 c.service k fun _ => true } else s := by
  unfold State.judgePollSlot
  rw [table]
  cases node with
  | noKind => exact absurd rfl kinded
  | closureDrive => rfl
  | gripUnit => rfl
  | tagReader => rfl
  | console => rfl

theorem State.judgePollSlot_noKind (table : nth1 s.slc.nodeTable k = some .noKind) {r : AnswerRec}
    (record : nth1 s.slc.answers k = some r) (answered : Bool) :
    s.judgePollSlot k answered =
      if answered then
        if r.stray then s
        else
          (s.report (.strayNode k)).modSlc fun c =>
            { c with answers := mod1 c.answers k fun a => { a with stray := true } }
      else s.modSlc fun c => { c with answers := mod1 c.answers k fun a => { a with stray := false } } := by
  unfold State.judgePollSlot
  rw [table, record]
  rfl

end

/-- Settles O55: the retry of a BUSY transaction, and the slot by its node's kind, the answer and the stray mark. -/
theorem pollSlotsFillTheServiceSet : Obligations.PollSlotsFillTheServiceSet := by
  refine ⟨fun s a => ⟨fun t held marked => ⟨fun room => ?_, fun full => ?_⟩, State.retrySet_unmarked⟩,
    fun s x k h node r live held kind phase table record => ?_⟩
  · exact (State.retrySet_marked held marked).trans (if_neg (Nat.not_le.2 room))
  · exact (State.retrySet_marked held marked).trans (if_pos full)
  have closes : exec (.pollSlotClose h) s = .next ((s.judgePollSlot k (slotAnswers h k)).slotEnded x k) := by
    rw [exec_pollSlotClose live, State.pollSlotCloses_of held kind phase]
  have silent : (¬∃ w : Word, h = .heard true false w ∧ w.toNat % 32 = k) → slotAnswers h k = false := fun no =>
    Bool.eq_false_iff.2 (mt (slotAnswers_iff h k).1 no)
  have slot : ∀ {t : State}, s.judgePollSlot k (slotAnswers h k) = t →
      exec (.pollSlotClose h) s = .next (t.slotEnded x k) := fun judged => by rw [closes, judged]
  have stray : node = .noKind → nth1 s.slc.nodeTable k = some .noKind := fun none => table.trans (by rw [none])
  refine ⟨fun kinded answers => slot ?_, fun kinded no => slot ?_, fun none answers new => slot ?_,
    fun none answers known => slot ?_, fun none no => slot ?_⟩
  · rw [State.judgePollSlot_node table kinded, (slotAnswers_iff h k).2 answers]
    rfl
  · rw [State.judgePollSlot_node table kinded, silent no]
    rfl
  · rw [State.judgePollSlot_noKind (stray none) record, (slotAnswers_iff h k).2 answers, new]
    rfl
  · rw [State.judgePollSlot_noKind (stray none) record, (slotAnswers_iff h k).2 answers, known]
    rfl
  · rw [State.judgePollSlot_noKind (stray none) record, silent no]
    rfl

end Sys2Proof.Machine
end

section
/-! The tower line: the sweep sent at the interval, its return and its deadline (chapter 6). -/

namespace Sys2Proof.Machine

open Host

/-! ### A sweep is sent (R99, R101, R130, R135, R136) -/

theorem exec_intervalExpiry {s : State} (h : s.phase = .live) : exec .intervalExpiry s = .next s.intervalExpired :=
  live_of (f := fun s => s.intervalExpired) h

/-- The samples handed over and the sweep counted, in one change of SMT. -/
def State.sweepCounted (s : State) : State :=
  s.modSmt fun m =>
    { m with
      uplink := if s.smt.call = .connected then m.uplink.drop 80 else m.uplink
      clearingCount := if m.call = .clearing then m.clearingCount + 1 else m.clearingCount }

/-- The twentieth sweep in CLEARING ends the call. -/
def State.sweepTold (s : State) : State :=
  if s.smt.call = .clearing ∧ s.smt.clearingCount = 19 then s.sweepCounted.endCall .endedValley .clearingLimit
  else s.sweepCounted

theorem State.sweepCounted_clearing {s : State} (clearing : s.smt.call = .clearing) :
    s.sweepCounted = s.modSmt fun m => { m with clearingCount := m.clearingCount + 1 } := by
  have off : ¬s.smt.call = .connected := by rw [clearing]; nofun
  exact State.modSmt_congr (by simp only [if_neg off, if_pos clearing])

theorem State.takeUplink_eq {s : State} (h : s.smt.call ≠ .clearing) : s.takeUplink = s.sweepCounted := by
  unfold State.takeUplink State.sweepCounted
  by_cases connected : s.smt.call = .connected
  · rw [if_pos connected]
    exact State.modSmt_congr (by simp only [if_pos connected, if_neg h])
  · rw [if_neg connected]
    show s.modSmt (fun m => m) = s.modSmt _
    refine State.modSmt_congr ?_
    simp only [if_neg connected, if_neg h]

theorem State.countSweep_clearing {s : State} (clearing : s.smt.call = .clearing) :
    s.countSweep =
      if s.smt.clearingCount = 19 then s.sweepCounted.endCall .endedValley .clearingLimit else s.sweepCounted := by
  have twentieth : s.smt.clearingCount + 1 = 20 ↔ s.smt.clearingCount = 19 := Nat.succ_inj
  rw [State.countSweep, if_pos clearing, State.sweepCounted_clearing clearing]
  simp only [State.modSmt_smt, twentieth]

theorem State.takeUplink_countSweep (s : State) : s.takeUplink.countSweep = s.sweepTold := by
  unfold State.sweepTold
  by_cases clearing : s.smt.call = .clearing
  · have off : ¬s.smt.call = .connected := by rw [clearing]; nofun
    rw [State.takeUplink, if_neg off, State.countSweep_clearing clearing]
    simp only [clearing, true_and]
  · rw [State.takeUplink_eq clearing, if_neg fun h => clearing h.1]
    exact if_neg clearing

/-- A call that ends from another state than IDLE wakes no line: PERM stands. -/
theorem State.endCall_perm {s : State} (h : s.smt.call ≠ .idle) (outcome : CallOutcome) (event : CallEvent) :
    (s.endCall outcome event).perm = s.perm := by
  rw [State.endCall_eq, State.setCall_eq, State.callWoken, if_neg h]
  rfl

theorem State.endCall_rest (s : State) (outcome : CallOutcome) (event : CallEvent) :
    (s.endCall outcome event).swp = s.swp ∧ (s.endCall outcome event).mgt.lineTime = s.mgt.lineTime := by
  obtain ⟨_, time, _⟩ := s.setCall_rest .idle event
  rw [State.endCall_eq]
  refine ⟨?_, (Mgt.addReport_time _ _).trans time⟩
  rw [State.setCall_eq]
  show s.callWoken.swp = s.swp
  unfold State.callWoken
  split
  · exact State.wake_swp _ _
  · rfl

/-- What a sweep reads of the state and writes to it is left by the call's end. -/
theorem State.sweepTold_rest (s : State) :
    s.sweepTold.swp = s.swp ∧ s.sweepTold.perm = s.perm ∧ s.sweepTold.mgt.lineTime = s.mgt.lineTime := by
  unfold State.sweepTold
  split
  · next h =>
    have busy : s.sweepCounted.smt.call ≠ .idle := by
      rw [show s.sweepCounted.smt.call = s.smt.call from rfl, h.1]
      nofun
    obtain ⟨swp, time⟩ := s.sweepCounted.endCall_rest .endedValley .clearingLimit
    exact ⟨swp, State.endCall_perm busy _ _, time⟩
  · exact ⟨rfl, rfl, rfl⟩

/-- The words of a sweep before its check. -/
def State.sweepWords (s : State) : List Word :=
  sweepRun s.swp.number s.site.towerCount s.valleyWord s.uplinkVoice

theorem State.intervalExpired_running {s : State} (runs : s.swp.intervalTimer ≠ none) :
    s.intervalExpired =
      s.sweepTold.modSwp fun w =>
        { w with
          tlOut := s.sweepWords ++ [checkWord s.sweepWords]
          outstanding := some { number := w.number, sendTime := s.mgt.lineTime }
          deadlineTimer := some 8
          intervalTimer := some (if s.perm.line = .quiet ∧ s.sweepTold.smt.call = .idle then 500 else 10)
          number := w.number + 1
          sent := w.sent + 1 } := by
  obtain ⟨_, perm, time⟩ := s.sweepTold_rest
  rw [State.intervalExpired, if_neg runs, State.sendAndRestart, State.sendSweep]
  simp only [State.takeUplink_countSweep, State.sweepInterval, State.modSwp_perm, State.modSwp_smt, perm, time]
  rfl

theorem State.uplinkVoice_of {s : State} (connected : s.smt.call = .connected) :
    s.uplinkVoice = some ((s.smt.uplink ++ List.replicate 80 (128 : Byte)).take 80) := if_pos connected

theorem State.uplinkVoice_none {s : State} (off : s.smt.call ≠ .connected) : s.uplinkVoice = none := if_neg off

/-- The valley safety code, most severe response first (R130). -/
theorem Perm.valleySafety_code (p : Perm) :
    p.valleySafety.code =
      if p.causes.any (fun e => decide (e.response = .emergency)) then 3
      else if p.line ≠ .running then 2
      else if p.causes.any (fun e => decide (e.response = .slow)) then 1
      else 0 := by
  unfold Perm.valleySafety Perm.holdsResponse
  split
  · rfl
  · split
    · rfl
    · split <;> rfl

/-- Settles O57: the timer, then the words of the sweep by the call state. -/
theorem intervalExpirySendsASweep : Obligations.IntervalExpirySendsASweep := by
  intro s live
  refine ⟨fun stands => ?_, fun runs => ?_⟩
  · rw [exec_intervalExpiry live, State.intervalExpired, if_pos stands]
  · have words : s.sweepWords =
        [s.swp.number, word (s.site.towerCount % 32 + if s.smt.call = .connected then 32768 else 0), s.valleyWord] ++
          (if s.smt.call = .connected then packVoice ((s.smt.uplink ++ List.replicate 80 (128 : Byte)).take 80) else []) ++
          List.replicate (19 * s.site.towerCount) 0 ++ List.replicate 42 0 := by
      unfold State.sweepWords sweepRun
      by_cases connected : s.smt.call = .connected
      · rw [State.uplinkVoice_of connected, if_pos connected, if_pos connected]
        rfl
      · rw [State.uplinkVoice_none connected, if_neg connected, if_neg connected]
        rfl
    rw [exec_intervalExpiry live, State.intervalExpired_running runs, words, State.valleyWord, Perm.valleySafety_code]
    have call : s.smt.call.valleyCode.code =
        match s.smt.call with
        | .outgoing => 1
        | .connected => 2
        | .clearing => 3
        | _ => 0 := by cases s.smt.call <;> rfl
    rw [call]
    rfl

/-! ### The return and the deadline (R102 to R104) -/

theorem exec_sweepReturn {s : State} (h : s.phase = .live) (ws : List Word) :
    exec (.sweepReturn ws) s = .next (s.returned ws) := live_of (f := fun s => s.returned ws) h

theorem exec_returnDeadlineExpiry {s : State} (h : s.phase = .live) :
    exec .returnDeadlineExpiry s = .next s.deadlineExpired := live_of (f := fun s => s.deadlineExpired) h

theorem State.towerCountOk_iff (s : State) (towers : Nat) :
    s.towerCountOk towers = true ↔ ∀ r, s.mgt.site = some r → towers = r.towerCount := by
  unfold State.towerCountOk
  cases s.mgt.site with
  | none => exact ⟨fun _ => nofun, fun _ => rfl⟩
  | some site =>
    rw [decide_eq_true_eq]
    exact ⟨fun same r held => by cases held; exact same, fun all => all site rfl⟩

/-- A returned frame is intact by its check, the site's tower count and its layout's length (R102). -/
theorem State.returnIntact_iff (s : State) (n h : Word) (rest : List Word) :
    s.returnIntact (n :: h :: rest) = true ↔
      sumWords (n :: h :: rest) = 65535 ∧ (∀ r, s.mgt.site = some r → h.toNat % 32 = r.towerCount) ∧
        (n :: h :: rest).length = 3 + (if h.getLsbD 15 then 40 else 0) + 19 * (h.toNat % 32) + 42 + 1 := by
  unfold State.returnIntact
  rw [Bool.and_eq_true, Bool.and_eq_true, decide_eq_true_eq, decide_eq_true_eq, State.towerCountOk_iff,
    show field h 0 5 = h.toNat % 32 from field_low h 5, and_assoc]
  rfl

theorem State.returned_corrupt {s : State} {ws : List Word} (h : s.returnIntact ws = false) :
    s.returned ws = s.modSwp fun w => { w with corrupt := w.corrupt + 1 } := if_pos h

theorem State.returned_intact {s : State} {n h : Word} {rest : List Word}
    (intact : s.returnIntact (n :: h :: rest) = true) :
    s.returned (n :: h :: rest) =
      if s.swp.outstanding.map Outstanding.number = some n then s.validReturn (n :: h :: rest) n h
      else s.modSwp fun w => { w with stale := w.stale + 1 } :=
  if_neg (by rw [intact]; nofun)

theorem State.returnIntact_short {s : State} {ws : List Word} (short : ws.length < 2) : s.returnIntact ws = false := by
  match ws, short with
  | [], _ => rfl
  | [_], _ => rfl

/-- Settles O58: the return by its layout and the outstanding number, and the deadline. -/
theorem sweepsEndByReturnOrDeadline : Obligations.SweepsEndByReturnOrDeadline := by
  intro s n h rest live
  refine ⟨fun short few => ?_, fun broken => ?_, fun intact other => ?_, fun intact mine => ?_, fun runs sent => ?_,
    fun stands => ?_⟩
  · rw [exec_sweepReturn live, State.returned_corrupt (State.returnIntact_short few)]
  · rw [exec_sweepReturn live,
      State.returned_corrupt (Bool.eq_false_iff.2 (mt (s.returnIntact_iff n h rest).1 broken))]
  · rw [exec_sweepReturn live, State.returned_intact ((s.returnIntact_iff n h rest).2 intact), if_neg other]
  · rw [exec_sweepReturn live, State.returned_intact ((s.returnIntact_iff n h rest).2 intact), if_pos mine,
      State.validReturn, show field h 0 5 = h.toNat % 32 from field_low h 5]
    rfl
  · rw [exec_returnDeadlineExpiry live, State.deadlineExpired, if_neg fun stands => stands.elim runs sent]
    rfl
  · rw [exec_returnDeadlineExpiry live, State.deadlineExpired, if_pos stands]

end Sys2Proof.Machine
end

section
/-! The summit slot: its judgement, the held codes, the call codes and the summit misses (chapters 6 and 8). -/

namespace Sys2Proof.Machine

open Host

/-! ### What a raise claim leaves of the call -/

theorem State.raiseHere_call (s : State) (k : CauseKind) (x : Subject) : (s.raiseHere k x).smt.call = s.smt.call := by
  unfold State.raiseHere
  split
  · simp only
    split <;> rfl
  · unfold State.addCause State.claimCall State.stopFor State.enterStopping
    simp only
    repeat' split
    all_goals rfl

theorem State.raise_call (s : State) (k : CauseKind) (x : Subject) : (s.raise k x).smt.call = s.smt.call := by
  unfold State.raise
  split <;> exact s.raiseHere_call _ _

/-! ### The slot (R107, R125, R137) -/

theorem slotCheckGood_iff (slot : List Word) : slotCheckGood slot = true ↔ sumWords slot = 65535 := decide_eq_true_iff

theorem State.takeSummitSlot_good {s : State} {n : BitVec 16} {slot : List Word}
    (good : (slot.headD 0).getLsbD 15 = true ∧ sumWords slot = 65535) : s.takeSummitSlot n slot = s.summitSlot n slot :=
  if_pos ⟨good.1, (slotCheckGood_iff slot).2 good.2⟩

/-- A slot not filled, with a bad check or with contents out of range is a miss. -/
theorem State.takeSummitSlot_missed {s : State} {n : BitVec 16} {slot : List Word}
    (bad : ¬((slot.headD 0).getLsbD 15 = true ∧ sumWords slot = 65535) ∨ parseSummit slot = none) :
    s.takeSummitSlot n slot = s.summitMiss := by
  by_cases good : (slot.headD 0).getLsbD 15 = true ∧ sumWords slot = 65535
  · rw [State.takeSummitSlot_good good, State.summitSlot, bad.resolve_left (not_not.2 good)]
  · exact if_neg fun filled => good ⟨filled.1, (slotCheckGood_iff slot).1 filled.2⟩

theorem SummitContents.downlink_voice {c : SummitContents} {samples : List Byte} (voice : c.voice = some samples)
    (connected : Bool) : c.downlink connected = samples.map fun b => { sample := b, concealed := false } := by
  unfold SummitContents.downlink
  rw [voice]

theorem SummitContents.downlink_concealed {c : SummitContents} (none : c.voice = none) (connected : Bool) :
    c.downlink connected = if connected then concealedField else [] := by
  unfold SummitContents.downlink
  rw [none]

/-! ### The call code taken (R129, R132 to R135) -/

section

variable {s : State}

theorem State.callCodeTaken_idle (call : s.smt.call = .idle) (code : CallCode) :
    s.callCodeTaken code =
      if code = .call then
        (s.begun .incoming false false .summitCall).modSmt fun m => { m with ring := true }
      else s := by
  unfold State.callCodeTaken
  rw [call]
  cases code with
  | call => rw [State.beginCall_eq]; rfl
  | nothing => rfl
  | answer => rfl
  | hangup => rfl

/-- A code that calls or answers is kept as held alone once the call is past OUTGOING, or is coming in. -/
theorem State.callCodeTaken_kept {code : CallCode} (rings : code = .call ∨ code = .answer) (idle : s.smt.call ≠ .idle)
    (out : s.smt.call ≠ .outgoing) : s.callCodeTaken code = s := by
  unfold State.callCodeTaken
  cases call : s.smt.call with
  | idle => exact absurd call idle
  | outgoing => exact absurd call out
  | incoming => rcases rings with rfl | rfl <;> rfl
  | connected => rcases rings with rfl | rfl <;> rfl
  | clearing => rcases rings with rfl | rfl <;> rfl

/-- NONE and HANGUP end the call, with the outcome of its state. -/
theorem State.callCodeTaken_ends {code : CallCode} (ends : code = .nothing ∨ code = .hangup) {c : CallState}
    {outcome : CallOutcome} (call : s.smt.call = c)
    (known : c = .incoming ∧ outcome = .withdrawn ∨ c = .connected ∧ outcome = .endedSummit ∨
      c = .clearing ∧ outcome = .endedValley) :
    s.callCodeTaken code = s.endCall outcome (if code = .nothing then .summitNone else .summitHangup) := by
  unfold State.callCodeTaken
  rw [call]
  rcases known with ⟨rfl, rfl⟩ | ⟨rfl, rfl⟩ | ⟨rfl, rfl⟩ <;> rcases ends with rfl | rfl <;> rfl

end

/-! ### The held codes (R127 to R129) -/

section

variable {s : State} {n : BitVec 16}

theorem State.judgeSafety_severer {code : SafetyCode} (severer : s.smt.held.code < code.code) :
    s.judgeSafety code n = s.holdSafety code := if_pos severer

theorem State.judgeSafety_same {code : SafetyCode} (same : code = s.smt.held) :
    s.judgeSafety code n = (s.modSmt fun m => { m with releaseRun := none }).raiseCode code :=
  (if_neg (by rw [same]; exact Nat.lt_irrefl _)).trans (if_pos same)

/-- A milder code is taken from two consecutive sweeps. -/
theorem State.judgeSafety_milder {code : SafetyCode} (milder : code.code < s.smt.held.code) :
    s.judgeSafety code n =
      if s.smt.releaseRun = some (code, n - 1) then s.holdSafety code
      else (s.modSmt fun m => { m with releaseRun := some (code, n) }).raiseCode s.smt.held := by
  have other : code ≠ s.smt.held := fun same => Nat.lt_irrefl _ (same ▸ milder)
  unfold State.judgeSafety completesRun
  rw [if_neg (Nat.lt_asymm milder), if_neg other]
  simp only [decide_eq_true_eq]

theorem State.judgeCall_same {code : CallCode} (same : code = s.smt.heldCall) :
    s.judgeCall code n = s.modSmt fun m => { m with callRun := none } := if_pos same

/-- Another call code is taken from two consecutive sweeps. -/
theorem State.judgeCall_other {code : CallCode} (other : code ≠ s.smt.heldCall) :
    s.judgeCall code n =
      if s.smt.callRun = some (code, n - 1) then
        (s.modSmt fun m => { m with heldCall := code, callRun := none }).callCodeTaken code
      else s.modSmt fun m => { m with callRun := some (code, n) } := by
  unfold State.judgeCall completesRun
  rw [if_neg other]
  simp only [decide_eq_true_eq]

end

/-! ### Summit misses (R126) -/

/-- A miss breaks both runs. -/
def State.runsBroken (s : State) : State := s.modSmt fun m => { m with releaseRun := none, callRun := none }

/-- The summit is lost: the call, if there is one, is dropped. -/
def State.callDropped (s : State) : State := if s.smt.call = .idle then s else s.endCall .dropped .summitLost

section

variable {s : State}

theorem State.summitMiss_counts (below : s.smt.missCount + 1 < s.site.summitMissLimit) :
    s.summitMiss = (s.runsBroken.modSmt fun m => { m with missCount := m.missCount + 1 }).appendDown concealedField := by
  have unreached : ¬s.site.summitMissLimit ≤ s.smt.missCount + 1 := Nat.not_le.2 below
  have counted : s.smt.missCount < s.site.summitMissLimit := by omega
  have site : s.runsBroken.site = s.site := rfl
  have count : s.runsBroken.smt.missCount = s.smt.missCount := rfl
  unfold State.summitMiss
  rw [show (s.modSmt fun m => { m with releaseRun := none, callRun := none }) = s.runsBroken from rfl]
  simp only [site, count, unreached, counted, decide_false, decide_true, Bool.false_eq_true, if_false, if_true]

theorem State.summitMiss_reaches (at_limit : s.smt.missCount + 1 = s.site.summitMissLimit) :
    s.summitMiss =
      (((s.runsBroken.modSmt fun m => { m with missCount := m.missCount + 1 }).raise .summitLost .summit).modSmt fun m =>
        { m with lostFlag := true }).callDropped := by
  have reached : s.site.summitMissLimit ≤ s.smt.missCount + 1 := Nat.le_of_eq at_limit.symm
  have counted : s.smt.missCount < s.site.summitMissLimit := by omega
  have site : s.runsBroken.site = s.site := rfl
  have count : s.runsBroken.smt.missCount = s.smt.missCount := rfl
  unfold State.summitMiss
  rw [show (s.modSmt fun m => { m with releaseRun := none, callRun := none }) = s.runsBroken from rfl]
  simp only [site, count, reached, counted, decide_true, if_true]
  rfl

theorem State.summitMiss_lost (past : s.site.summitMissLimit ≤ s.smt.missCount) :
    s.summitMiss = (s.runsBroken.raise .summitLost .summit).callDropped := by
  have reached : s.site.summitMissLimit ≤ s.smt.missCount + 1 := Nat.le_succ_of_le past
  have uncounted : ¬s.smt.missCount < s.site.summitMissLimit := Nat.not_lt.2 past
  have site : s.runsBroken.site = s.site := rfl
  have count : s.runsBroken.smt.missCount = s.smt.missCount := rfl
  unfold State.summitMiss
  rw [show (s.modSmt fun m => { m with releaseRun := none, callRun := none }) = s.runsBroken from rfl]
  simp only [site, count, reached, uncounted, decide_false, decide_true, Bool.false_eq_true, if_false, if_true]
  rfl

end

/-- Settles O60: the slot, the call code, the queue, the held codes and the miss, each by the model's own branches. -/
theorem summitSlotsHoldTheirCodes : Obligations.SummitSlotsHoldTheirCodes := by
  intro s n slot
  refine ⟨State.takeSummitSlot_missed, fun c good parsed => ?slot, fun code => ⟨fun call => ?idle, fun call => ?outgoing,
      State.callCodeTaken_kept, fun ends => ⟨fun call => State.callCodeTaken_ends ends call (.inl ⟨rfl, rfl⟩),
        fun call => State.callCodeTaken_ends ends call (.inr (.inl ⟨rfl, rfl⟩)),
        fun call => State.callCodeTaken_ends ends call (.inr (.inr ⟨rfl, rfl⟩))⟩⟩,
    fun queue e => ?queue,
    fun code => ⟨State.judgeSafety_severer, State.judgeSafety_same, fun milder =>
      ⟨fun run => (State.judgeSafety_milder milder).trans (if_pos run),
        fun run => (State.judgeSafety_milder milder).trans (if_neg run)⟩⟩,
    fun code => ⟨State.judgeCall_same, fun other run => (State.judgeCall_other other).trans (if_pos run),
      fun other run => (State.judgeCall_other other).trans (if_neg run)⟩,
    fun code => ?claims, State.summitMiss_counts, fun reached => ?reached, fun past => ?past⟩
  case slot =>
    rw [State.takeSummitSlot_good good, State.summitSlot, parsed]
    cases voice : c.voice with
    | some samples =>
      simp only [SummitContents.downlink_voice voice]
      rfl
    | none =>
      simp only [SummitContents.downlink_concealed voice, decide_eq_true_eq]
      rfl
  case idle => exact State.callCodeTaken_idle call code
  case outgoing =>
    unfold State.callCodeTaken
    rw [call]
    cases code with
    | call => exact s.connectOut_eq .summitCall
    | answer => exact s.connectOut_eq .summitAnswer
    | nothing => rfl
    | hangup => rfl
  case queue =>
    unfold joinCapped
    split <;> rfl
  case claims => cases code <;> exact ⟨rfl, rfl⟩
  case reached =>
    rw [State.summitMiss_reaches reached, State.callDropped, State.modSmt_smt, State.raise_call]
    rfl
  case past =>
    rw [State.summitMiss_lost past, State.callDropped, State.raise_call]
    rfl

end Sys2Proof.Machine
end
